-- ==== Sys2Proof/Word.lean ====
section
/-!
DEFINITION. The word types, the register numbers and the closed sets of names that the instruction set uses
(spec/02_formats.md, spec/03_encoding.md). Nothing here depends on a state.
-/
namespace Sys2Proof

/-- A 64-bit register value, address or immediate. -/
abbrev Word := BitVec 64

/-- One byte of memory. -/
abbrev Byte := BitVec 8

/-- Number of an x-register, R76. -/
abbrev XReg := BitVec 6
/-- Number of a vector register, R76. -/
abbrev VReg := BitVec 5
/-- Number of a mask register, R76. -/
abbrev MReg := BitVec 3
/-- Number of a ciphertext register, R76. -/
abbrev CReg := BitVec 3
/-- Number of a table register, R76. -/
abbrev TbReg := BitVec 3
/-- Number of an accumulator tile, R76. -/
abbrev AccReg := BitVec 2
/-- Ring handle, R76. -/
abbrev QReg := BitVec 4
/-- Keyset slot, R76. -/
abbrev KsReg := BitVec 4

/-- The element formats of R80. -/
inductive Ty where
  | s2 | s4 | s8 | s16 | s32 | s64
  | n8 | n16 | n32 | n64
  | t32 | h16 | f32 | f64 | g8 | g6 | tr
  deriving DecidableEq, Repr

/-- Width of an element in a register, in bits; g6 counts as its 8-bit container (R56, R121). -/
def Ty.width : Ty → Nat
  | .s2 => 2
  | .s4 => 4
  | .s8 | .n8 | .g8 | .g6 | .tr => 8
  | .s16 | .n16 | .h16 => 16
  | .s32 | .n32 | .t32 | .f32 => 32
  | .s64 | .n64 | .f64 => 64

/-- Width of an element in memory, in bits: g6 is packed (R57). -/
def Ty.memWidth : Ty → Nat
  | .g6 => 6
  | t => t.width

/-- The s formats of R43. -/
def Ty.isS : Ty → Bool
  | .s2 | .s4 | .s8 | .s16 | .s32 | .s64 => true
  | _ => false

/-- The n formats of R43. -/
def Ty.isN : Ty → Bool
  | .n8 | .n16 | .n32 | .n64 => true
  | _ => false

/-- The IEEE formats of R45. -/
def Ty.isF : Ty → Bool
  | .h16 | .f32 | .f64 => true
  | _ => false

/-- The tapered formats of R52. -/
def Ty.isG : Ty → Bool
  | .g8 | .g6 => true
  | _ => false

/-- Float or tapered, the left sides of R50 and R51. -/
def Ty.isFG (t : Ty) : Bool := t.isF || t.isG

/-- Integer condition codes of R85. -/
inductive ICond where
  | eq | ne | lt | ge | ltn | gen
  deriving DecidableEq, Repr

/-- Float condition codes of R85. -/
inductive FCond where
  | eq | ne | lt | le | un
  deriving DecidableEq, Repr

/-- The order codes of R81 that a scalar access or a `FENCE` takes. -/
inductive Order where
  | plain | acq | rel | sc
  deriving DecidableEq, Repr

/-- The order codes of R81 that a vector memory instruction takes. -/
inductive VOrder where
  | plain | o | u
  deriving DecidableEq, Repr

/-- The scope codes of R82; `dflt` is the entry's default. -/
inductive Scope where
  | dflt | thr | core | clu | die | pkg | sys
  deriving DecidableEq, Repr

/-- The operations of `AMO` and `VAMO`, R119. -/
inductive AmoOp where
  | add | and | or | xor | min | max | swap
  deriving DecidableEq, Repr

/-- The rounding modes of R48. -/
inductive Rm where
  | rne | rtz | rdn | rup
  deriving DecidableEq, Repr

/-- The path classes of R88. -/
inductive Path where
  | ct | vls | arr | cpy | cop | bnk | ext
  deriving DecidableEq, Repr

/-- Bit of a path class in a class mask, R88. -/
def Path.bit : Path → Nat
  | .ct => 0
  | .vls => 1
  | .arr => 2
  | .cpy => 3
  | .cop => 4
  | .bnk => 5
  | .ext => 6

/-- The modes of an accumulator tile, R178. -/
inductive TileMode where
  | int | torus | float
  deriving DecidableEq, Repr

end Sys2Proof
end

