-- ==== Sys2Proof/Machine/Bits.lean ====
section
/-!
DEFINITION. Bit patterns as natural numbers and the integers they stand for (R43, R44): sign and zero extension,
wrapping, saturation, byte lists.
-/
namespace Sys2Proof.Machine

/-- The low w bits read as two's complement. -/
def sx (w x : Nat) : Int :=
  let y := x % 2 ^ w
  if w ≠ 0 ∧ 2 ^ (w - 1) ≤ y then (y : Int) - 2 ^ w else y

/-- The w-bit pattern of an integer, modulo 2^w. -/
def wrapI (w : Nat) (i : Int) : Nat := (i % (2 ^ w : Int)).toNat

/-- Bits [h:l] of a natural number (R98). -/
def bitsN (x h l : Nat) : Nat := x / 2 ^ l % 2 ^ (h + 1 - l)

/-- The signed value of a 64-bit register. -/
def sval (x : Word) : Int := x.toInt

/-- A word from a natural number. -/
def wordN (n : Nat) : Word := BitVec.ofNat 64 n

/-- A word from an integer, modulo 2^64. -/
def wordI (i : Int) : Word := BitVec.ofInt 64 i

/-- Value of an integer or t32 pattern: signed for s, natural otherwise (R43, R44). -/
def Ty.intVal (t : Ty) (x : Nat) : Int := if t.isS then sx t.width x else (x % 2 ^ t.width : Nat)

/-- Smallest value of an integer format, R43. -/
def Ty.minVal (t : Ty) : Int := if t.isS then -(2 ^ (t.width - 1) : Int) else 0

/-- Largest value of an integer format, R43. -/
def Ty.maxVal (t : Ty) : Int := if t.isS then 2 ^ (t.width - 1) - 1 else 2 ^ t.width - 1

/-- Clamps to the limits of R43; the flag says whether the value changed. -/
def Ty.clamp (t : Ty) (i : Int) : Int × Bool :=
  if i < minVal t then (minVal t, true) else if maxVal t < i then (maxVal t, true) else (i, false)

/-- ext of R100: the low bits of the type's width, sign-extended for s types and zero-extended otherwise. -/
def extTy (t : Ty) (x : Nat) : Word := wordI (Ty.intVal t x)

/-- Leading zero bits in w bits. -/
def clzN : Nat → Nat → Nat
  | 0, _ => 0
  | w + 1, x => if x.testBit w then 0 else 1 + clzN w x

/-- Trailing zero bits, at most w. -/
def ctzN : Nat → Nat → Nat
  | 0, _ => 0
  | w + 1, x => if x % 2 = 1 then 0 else 1 + ctzN w (x / 2)

/-- One bits among the low w bits. -/
def popN : Nat → Nat → Nat
  | 0, _ => 0
  | w + 1, x => x % 2 + popN w (x / 2)

/-- The signature of R99: the exclusive-or of the 13-bit fields of a >> g over 56 bits. -/
def sig (a : Word) (g : Nat) : Nat :=
  let s := a.toNat % 2 ^ 56 / 2 ^ g
  (List.range 5).foldl (fun acc j => acc ^^^ bitsN s (13 * j + 12) (13 * j)) 0

/-- ceil(a ÷ b). -/
def cdiv (a b : Nat) : Nat := (a + b - 1) / b

/-- noise_add of R99. -/
def noiseAdd (p q : Nat) : Nat := min (p + q) (2 ^ 32 - 1)

/-- noise_mul of R99. -/
def noiseMul (p : Nat) (k : Int) : Nat := min (p * k.natAbs * k.natAbs) (2 ^ 32 - 1)

end Sys2Proof.Machine
end

