-- ==== Sys2Proof/Machine/Flags.lean ====
section
/-!
DEFINITION. The flags of fcsr (R46), the flags of saturating integer operations, and the integer conditions of R85.
The flags of the float formats are computed with the roundings, in Sys2Proof/Machine/Float.lean.
-/
namespace Sys2Proof.Machine

/-- Flags of R46. -/
abbrev Flags := BitVec 7
/-- Inexact. -/
def fNX : Flags := 1
/-- Underflow. -/
def fUF : Flags := 2
/-- Overflow. -/
def fOF : Flags := 4
/-- Division by zero. -/
def fDZ : Flags := 8
/-- Invalid operation. -/
def fNV : Flags := 16

/-- The clamp of a saturating integer operation sets OF (R46, R138). -/
def satFlag (clamped : Bool) : Flags := if clamped then fOF else 0

/-- A saturated conversion into an integer format sets NV (R50). -/
def cvtFlag (clamped : Bool) : Flags := if clamped then fNV else 0

/-- An integer condition of R85 on two w-bit patterns. -/
def iCond (cc : ICond) (w a b : Nat) : Bool :=
  match cc with
  | .eq => a % 2 ^ w == b % 2 ^ w
  | .ne => a % 2 ^ w != b % 2 ^ w
  | .lt => decide (sx w a < sx w b)
  | .ge => decide (sx w b ≤ sx w a)
  | .ltn => decide (a % 2 ^ w < b % 2 ^ w)
  | .gen => decide (b % 2 ^ w ≤ a % 2 ^ w)

/-- A condition on two registers, R85. -/
def condX (cc : ICond) (a b : Word) : Bool := iCond cc 64 a.toNat b.toNat

end Sys2Proof.Machine
end

