-- ==== Sys2Proof/Machine/Float.lean ====
section
/-!
DEFINITION. Exact values of float, tapered, torus and integer patterns, and the one rounding of an exact value into
each format (R45 to R59). An operation computes the exact value and rounds it once. Flags are the low five bits of
fcsr (R46).
-/
namespace Sys2Proof.Machine

/-- The exact value a pattern stands for: NaN (signalling or quiet), an infinity, or (−1)^neg × num × 2^exp. -/
inductive FVal where
  | nan (signalling : Bool)
  | inf (neg : Bool)
  | fin (neg : Bool) (num : Nat) (exp : Int)
  deriving DecidableEq, Repr

/-- Fraction bits of an IEEE format. -/
def Ty.fracBits : Ty → Nat
  | .h16 => 10
  | .f32 => 23
  | _ => 52

/-- Exponent bits of an IEEE format. -/
def Ty.expBits : Ty → Nat
  | .h16 => 5
  | .f32 => 8
  | _ => 11

/-- Exponent of the unit in the last place of the smallest binade of an IEEE format. -/
def Ty.qmin (t : Ty) : Int := 2 - 2 ^ (expBits t - 1) - fracBits t

/-- The NaN of R45. -/
def Ty.nanPat : Ty → Nat
  | .h16 => 0x7E00
  | .f32 => 0x7FC00000
  | .f64 => 0x7FF8000000000000
  | .g8 => 0x80
  | .g6 => 0x20
  | _ => 0

/-- The infinity of an IEEE format. -/
def infPat (t : Ty) (neg : Bool) : Nat :=
  (2 ^ Ty.expBits t - 1) * 2 ^ Ty.fracBits t + (if neg then 2 ^ (t.width - 1) else 0)

/-- Value of an IEEE pattern, R45. -/
def decodeIEEE (t : Ty) (x : Nat) : FVal :=
  let m := Ty.fracBits t
  let neg := x.testBit (t.width - 1)
  let e := x / 2 ^ m % 2 ^ Ty.expBits t
  let f := x % 2 ^ m
  if e = 2 ^ Ty.expBits t - 1 then (if f = 0 then .inf neg else .nan (!f.testBit (m - 1)))
  else if e = 0 then .fin neg f (Ty.qmin t)
  else .fin neg (2 ^ m + f) (Ty.qmin t + (e - 1))

/-- Length of the run of bits equal to b from bit n − 1 of x downward. -/
def runLen (x : Nat) (b : Bool) : Nat → Nat
  | 0 => 0
  | n + 1 => if x.testBit n = b then 1 + runLen x b n else 0

/-- Magnitude of a tapered field of l bits with es exponent bits, R52: significand and exponent. -/
def taperMag (l es mag : Nat) : Nat × Int :=
  let b := mag.testBit (l - 1)
  let r := runLen mag b l
  let k : Int := if b then (r : Int) - 1 else -(r : Int)
  let rest := l - r - 1
  let rem := mag % 2 ^ rest
  let x := if es ≤ rest then rem / 2 ^ (rest - es) else rem * 2 ^ (es - rest)
  let fb := rest - es
  (2 ^ fb + rem % 2 ^ fb, k * 2 ^ es + x - fb)

/-- Bits of the magnitude field of a tapered format. -/
def Ty.taperBits (t : Ty) : Nat := if t = .g6 then 5 else 7

/-- Exponent bits of a tapered format, R52. -/
def Ty.taperEs (t : Ty) : Nat := if t = .g6 then 1 else 2

/-- Value of a tapered pattern, R52; bits above the encoding are ignored (R56). -/
def decodeTaper (t : Ty) (x : Nat) : FVal :=
  let l := Ty.taperBits t
  let neg := x.testBit l
  let mag := x % 2 ^ l
  if mag = 0 then (if neg then .nan false else .fin false 0 0)
  else
    let p := taperMag l (Ty.taperEs t) mag
    .fin neg p.1 p.2

/-- The exact value of a pattern in any format: integers as they are, t32 as w ÷ 2^32 (R44). -/
def decodeVal (t : Ty) (x : Nat) : FVal :=
  if t.isF then decodeIEEE t x
  else if t.isG then decodeTaper t x
  else if t = .t32 then .fin false (x % 2 ^ 32) (-32)
  else
    let i := Ty.intVal t x
    .fin (i < 0) i.natAbs 0

/-- Whether the magnitude between two neighbours rounds away from zero: r ÷ d is the fraction above the lower one,
`odd` says that the lower neighbour's encoding has bit 0 set (R48). -/
def roundUp (rm : Rm) (neg odd : Bool) (r d : Nat) : Bool :=
  match rm with
  | .rne => d < 2 * r || (2 * r == d && odd)
  | .rtz => false
  | .rdn => neg && r != 0
  | .rup => !neg && r != 0

/-- num ÷ den × 2^exp as a fraction over 2^q: numerator and denominator. -/
def scaleQ (num den : Nat) (exp q : Int) : Nat × Nat :=
  if q ≤ exp then (num * 2 ^ (exp - q).toNat, den) else (num, den * 2 ^ (q - exp).toNat)

/-- floor(log2) of num ÷ den × 2^exp, for num and den above 0. -/
def log2Q (num den : Nat) (exp : Int) : Int :=
  let l : Int := (num.log2 : Int) - den.log2
  let p := scaleQ num den 0 l
  if p.2 ≤ p.1 then exp + l else exp + l - 1

/-- Rounds (−1)^neg × num ÷ den × 2^exp, num above 0, into an IEEE format: pattern and flags (R45, R46, R48).
Tininess is detected after rounding. -/
def roundIEEE (t : Ty) (rm : Rm) (neg : Bool) (num den : Nat) (exp : Int) : Nat × Flags :=
  let m := Ty.fracBits t
  let e := log2Q num den exp
  let q := max (e - m) (Ty.qmin t)
  let p := scaleQ num den exp q
  let k := p.1 / p.2
  let r := p.1 % p.2
  let k' := if roundUp rm neg (k % 2 == 1) r p.2 then k + 1 else k
  let pat := (q - Ty.qmin t).toNat * 2 ^ m + k'
  let sgn := if neg then 2 ^ (t.width - 1) else 0
  let top := (2 ^ Ty.expBits t - 1) * 2 ^ m
  if top ≤ pat then
    let toInf := match rm with | .rne => true | .rtz => false | .rdn => neg | .rup => !neg
    ((if toInf then top else top - 1) + sgn, fOF ||| fNX)
  else if r = 0 then (pat + sgn, 0)
  else
    let p2 := scaleQ num den exp (e - m)
    let k2 := p2.1 / p2.2
    let k2' := if roundUp rm neg (k2 % 2 == 1) (p2.1 % p2.2) p2.2 then k2 + 1 else k2
    let emin := Ty.qmin t + m
    let tiny := e < emin && !(e + 1 == emin && k2' == 2 ^ (m + 1))
    (pat + sgn, if tiny then fNX ||| fUF else fNX)

/-- Largest magnitude code c with value at most num ÷ den × 2^exp, among codes up to `fuel`. -/
def taperFloor (t : Ty) (num den : Nat) (exp : Int) : Nat → Nat
  | 0 => 0
  | c + 1 =>
    let p := taperMag (Ty.taperBits t) (Ty.taperEs t) (c + 1)
    let q := scaleQ num den exp p.2
    if p.1 * q.2 ≤ q.1 then c + 1 else taperFloor t num den exp c

/-- Rounds (−1)^neg × num ÷ den × 2^exp, num above 0, into g8 or g6 (R55). -/
def roundTaper (t : Ty) (rm : Rm) (neg : Bool) (num den : Nat) (exp : Int) : Nat × Flags :=
  let l := Ty.taperBits t
  let es := Ty.taperEs t
  let sgn := if neg then 2 ^ l else 0
  let maxc := 2 ^ l - 1
  let mx := taperMag l es maxc
  let mn := taperMag l es 1
  let a := scaleQ num den exp mx.2
  if mx.1 * a.2 < a.1 then (maxc + sgn, fOF ||| fNX)
  else
    let b := scaleQ num den exp mn.2
    if b.1 < mn.1 * b.2 then
      if 2 * b.1 < mn.1 * b.2 then (0, fUF ||| fNX) else (1 + sgn, fNX)
    else
      let c := taperFloor t num den exp maxc
      let lo := taperMag l es c
      let hi := taperMag l es (c + 1)
      -- everything over 2^lo.exp: value n/d, lower lo.1, upper hi.1 × 2^(hi.exp − lo.exp)
      let v := scaleQ num den exp lo.2
      let h := scaleQ hi.1 1 hi.2 lo.2
      let r := v.1 - lo.1 * v.2
      if r = 0 then (c + sgn, 0)
      else
        -- fraction above the lower neighbour: r/v.2 over (h.1/h.2 − lo.1)
        let num' := r * h.2
        let den' := (h.1 - lo.1 * h.2) * v.2
        (if roundUp rm neg (c % 2 == 1) num' den' then c + 1 + sgn else c + sgn, fNX)

/-- Rounds (−1)^neg × num ÷ den × 2^exp into an IEEE or tapered format; zero keeps its sign where the format has
one (R48). -/
def roundFG (t : Ty) (rm : Rm) (neg : Bool) (num den : Nat) (exp : Int) : Nat × Flags :=
  if num = 0 then (if t.isG then 0 else if neg then 2 ^ (t.width - 1) else 0, 0)
  else if t.isG then roundTaper t rm neg num den exp
  else roundIEEE t rm neg num den exp

/-- Rounds to an integer under R48: value and whether it was inexact. -/
def roundInt (rm : Rm) (neg : Bool) (num den : Nat) (exp : Int) : Int × Bool :=
  let p := scaleQ num den exp 0
  let k := p.1 / p.2
  let r := p.1 % p.2
  let k' := if roundUp rm neg (k % 2 == 1) r p.2 then k + 1 else k
  (if neg then -(k' : Int) else k', r ≠ 0)

/-- Flag of a signalling NaN source. -/
def nanFlag (sg : Bool) : Flags := if sg then fNV else 0

/-- Writes an exact value in a format (R49 to R51, R55). -/
def encodeVal (t : Ty) (rm : Rm) (v : FVal) : Nat × Flags :=
  match v with
  | .nan sg =>
    if t.isFG then (Ty.nanPat t, nanFlag sg) else (0, fNV)
  | .inf neg =>
    if t.isF then (infPat t neg, 0)
    else if t.isG then
      let l := Ty.taperBits t
      (2 ^ l - 1 + (if neg then 2 ^ l else 0), fOF ||| fNX)
    else if t = .t32 then (0, fNV)
    else (wrapI t.width (if neg then Ty.minVal t else Ty.maxVal t), fNV)
  | .fin neg num exp =>
    if t.isFG then roundFG t rm neg num 1 exp
    else if t = .t32 then
      -- frac(x) × 2^32 on the exact value, R51
      let p := scaleQ num 1 (exp + 32) 0
      let m := p.2 * 2 ^ 32
      let f := if neg then (m - p.1 % m) % m else p.1 % m
      let r := roundInt rm false f p.2 0
      (wrapI 32 r.1, if r.2 then fNX else 0)
    else
      let r := roundInt rm neg num 1 exp
      let c := Ty.clamp t r.1
      (wrapI t.width c.1, (if r.2 then fNX else 0) ||| (if c.2 then fNV else 0))

/-- Conversion between any two formats, R49 to R51, R44, R117, R158. -/
def convert (src dst : Ty) (rm : Rm) (x : Nat) : Nat × Flags :=
  let x := x % 2 ^ src.width
  if src.isFG || dst.isFG then
    if src = dst then
      match decodeVal src x with
      | .nan sg => (Ty.nanPat dst, nanFlag sg)
      | _ => (if src = .g6 then x % 64 else x, 0)
    else encodeVal dst rm (decodeVal src x)
  else if src = .t32 ∨ dst = .t32 then
    -- R44: bit patterns modulo the width, read as signed toward an s format
    (wrapI dst.width (if src = .t32 then (if dst.isS then sx 32 x else x) else Ty.intVal src x), 0)
  else
    let c := Ty.clamp dst (Ty.intVal src x)
    (wrapI dst.width c.1, if c.2 then fNV else 0)

/-- Signed significand of a finite value over 2^q, q at most its exponent. -/
def sigAt (neg : Bool) (num : Nat) (exp q : Int) : Int :=
  let n : Int := num * 2 ^ (exp - q).toNat
  if neg then -n else n

/-- Exact sum of two finite values; a zero sum takes the sign of R48. -/
def addFin (rm : Rm) (n1 : Bool) (a1 : Nat) (e1 : Int) (n2 : Bool) (a2 : Nat) (e2 : Int) : FVal :=
  let q := min e1 e2
  let s := sigAt n1 a1 e1 q + sigAt n2 a2 e2 q
  if s = 0 then .fin (if a1 = 0 ∧ a2 = 0 ∧ n1 = n2 then n1 else rm = .rdn) 0 q
  else .fin (s < 0) s.natAbs q

/-- Any NaN among the operands: the flag of a signalling one. -/
def sNaN : FVal → Bool
  | .nan sg => sg
  | _ => false

/-- NaN test. -/
def FVal.isNaN : FVal → Bool
  | .nan _ => true
  | _ => false

/-- Negation of a value. -/
def FVal.neg : FVal → FVal
  | .nan sg => .nan sg
  | .inf n => .inf (!n)
  | .fin n a e => .fin (!n) a e

/-- Exact sum with its flags before rounding. -/
def addVal (rm : Rm) (a b : FVal) : FVal × Flags :=
  match a, b with
  | .nan s, y => (.nan false, nanFlag (s || sNaN y))
  | x, .nan s => (.nan false, nanFlag (s || sNaN x))
  | .inf n, .inf n' => if n = n' then (.inf n, 0) else (.nan false, fNV)
  | .inf n, .fin .. => (.inf n, 0)
  | .fin .., .inf n => (.inf n, 0)
  | .fin n1 a1 e1, .fin n2 a2 e2 => (addFin rm n1 a1 e1 n2 a2 e2, 0)

/-- Exact product with its flags before rounding. -/
def mulVal (a b : FVal) : FVal × Flags :=
  match a, b with
  | .nan s, y => (.nan false, nanFlag (s || sNaN y))
  | x, .nan s => (.nan false, nanFlag (s || sNaN x))
  | .inf n, .inf n' => (.inf (n != n'), 0)
  | .inf n, .fin n' x _ => if x = 0 then (.nan false, fNV) else (.inf (n != n'), 0)
  | .fin n x _, .inf n' => if x = 0 then (.nan false, fNV) else (.inf (n != n'), 0)
  | .fin n1 a1 e1, .fin n2 a2 e2 => (.fin (n1 != n2) (a1 * a2) (e1 + e2), 0)

/-- Rounds an exact value with the flags gathered so far. -/
def finish (t : Ty) (rm : Rm) (r : FVal × Flags) : Nat × Flags :=
  let e := encodeVal t rm r.1
  (e.1, e.2 ||| r.2)

/-- a + b, R45. -/
def fAdd (t : Ty) (rm : Rm) (a b : Nat) : Nat × Flags :=
  finish t rm (addVal rm (decodeVal t a) (decodeVal t b))

/-- a − b. -/
def fSub (t : Ty) (rm : Rm) (a b : Nat) : Nat × Flags :=
  finish t rm (addVal rm (decodeVal t a) (decodeVal t b).neg)

/-- a × b. -/
def fMul (t : Ty) (rm : Rm) (a b : Nat) : Nat × Flags :=
  finish t rm (mulVal (decodeVal t a) (decodeVal t b))

/-- a × b + c on exact values, one rounding to follow. A product of zero and an infinity is invalid whatever c is. -/
def fmaVal (rm : Rm) (a b c : FVal) : FVal × Flags :=
  let p := mulVal a b
  let r := addVal rm p.1 c
  (r.1, r.2 ||| p.2)

/-- a × b + c with one rounding. -/
def fFma (t : Ty) (rm : Rm) (a b c : Nat) : Nat × Flags :=
  finish t rm (fmaVal rm (decodeVal t a) (decodeVal t b) (decodeVal t c))

/-- a × b − c with one rounding. -/
def fFms (t : Ty) (rm : Rm) (a b c : Nat) : Nat × Flags :=
  finish t rm (fmaVal rm (decodeVal t a) (decodeVal t b) (decodeVal t c).neg)

/-- a ÷ b. -/
def fDiv (t : Ty) (rm : Rm) (a b : Nat) : Nat × Flags :=
  match decodeVal t a, decodeVal t b with
  | .nan s, y => (Ty.nanPat t, nanFlag (s || sNaN y))
  | x, .nan s => (Ty.nanPat t, nanFlag (s || sNaN x))
  | .inf _, .inf _ => (Ty.nanPat t, fNV)
  | .inf n, .fin n' _ _ => (infPat t (n != n'), 0)
  | .fin n _ _, .inf n' => roundFG t rm (n != n') 0 1 0
  | .fin n1 a1 e1, .fin n2 a2 e2 =>
    if a2 = 0 then (if a1 = 0 then (Ty.nanPat t, fNV) else (infPat t (n1 != n2), fDZ))
    else roundFG t rm (n1 != n2) a1 a2 (e1 - e2)

/-- Integer square root from a bit downward. -/
def isqrtFrom (n : Nat) : Nat → Nat → Nat
  | 0, r => r
  | b + 1, r => let r' := r + 2 ^ b; if r' * r' ≤ n then isqrtFrom n b r' else isqrtFrom n b r

/-- floor(√n). -/
def isqrt (n : Nat) : Nat := isqrtFrom n (n.log2 / 2 + 1) 0

/-- A value within the open unit above the exact root of num × 2^exp, or the root itself: enough bits below any
format's last place that rounding it rounds the root. -/
def sqrtApprox (num : Nat) (exp : Int) : Nat × Int :=
  let odd := exp % 2 = 1
  let n := num * (if odd then 2 else 1) * 2 ^ 256
  let e := (if odd then exp - 1 else exp) / 2 - 128
  let s := isqrt n
  (2 * s + (if s * s = n then 0 else 1), e - 1)

/-- √a, R115, R159. -/
def fSqrt (t : Ty) (rm : Rm) (a : Nat) : Nat × Flags :=
  match decodeVal t a with
  | .nan s => (Ty.nanPat t, nanFlag s)
  | .inf neg => if neg then (Ty.nanPat t, fNV) else (infPat t false, 0)
  | .fin neg num exp =>
    if num = 0 then roundFG t rm neg 0 1 0
    else if neg then (Ty.nanPat t, fNV)
    else
      let s := sqrtApprox num exp
      roundFG t rm false s.1 1 s.2

/-- Order of two values that are no NaN, −0 equal to +0: negative, zero or positive as a is less, equal, greater. -/
def cmpVal (a b : FVal) : Int :=
  match a, b with
  | .inf n, .inf n' => (if n then -1 else 1) - (if n' then -1 else 1)
  | .inf n, _ => if n then -1 else 1
  | _, .inf n => if n then 1 else -1
  | .fin n1 a1 e1, .fin n2 a2 e2 =>
    let q := min e1 e2
    sigAt n1 a1 e1 q - sigAt n2 a2 e2 q
  | _, _ => 0

/-- Sign of a value. -/
def FVal.isNeg : FVal → Bool
  | .inf n => n
  | .fin n _ _ => n
  | .nan _ => false

/-- a is smaller than b with −0 smaller than +0, R116. -/
def minLess (a b : FVal) : Bool := cmpVal a b < 0 || (cmpVal a b == 0 && a.isNeg && !b.isNeg)

/-- Minimum or maximum of R116. -/
def fMinMax (t : Ty) (isMax : Bool) (a b : Nat) : Nat × Flags :=
  let x := decodeVal t a
  let y := decodeVal t b
  let fl := nanFlag (sNaN x || sNaN y)
  match x.isNaN, y.isNaN with
  | true, true => (Ty.nanPat t, fl)
  | true, false => (b, fl)
  | false, true => (a, fl)
  | false, false => (if (if isMax then minLess y x else minLess x y) then a else b, fl)

/-- The float conditions of R85 with their flags. -/
def fCond (cc : FCond) (t : Ty) (a b : Nat) : Bool × Flags :=
  let x := decodeVal t a
  let y := decodeVal t b
  let un := x.isNaN || y.isNaN
  let nv := sNaN x || sNaN y || (un && (cc = .lt || cc = .le))
  let r := match cc with
    | .eq => !un && cmpVal x y == 0
    | .ne => un || cmpVal x y != 0
    | .lt => !un && cmpVal x y < 0
    | .le => !un && cmpVal x y ≤ 0
    | .un => un
  (r, if nv then fNV else 0)

/-- |a| or −a on the sign bit; a NaN gives the NaN of R45 (R160). -/
def fSign (t : Ty) (isNeg : Bool) (a : Nat) : Nat × Flags :=
  let a := a % 2 ^ t.width
  match decodeVal t a with
  | .nan s => (Ty.nanPat t, nanFlag s)
  | _ =>
    let top := 2 ^ (t.width - 1)
    (if isNeg then (if top ≤ a then a - top else a + top) else a % top, 0)

/-- The exact value of a scaled element, element × 2^(b − 127); code 255 is the NaN scale (R58, R59). -/
def scaledVal (t : Ty) (x b : Nat) : FVal :=
  if b = 255 then .nan false
  else match decodeVal t x with
    | .fin n a e => .fin n a (e + b - 127)
    | v => v

/-- A scaled element in binary32, rounded once; beyond the binary32 range it is an infinity in every mode (R59). -/
def scaledF32 (rm : Rm) (v : FVal) : Nat × Flags :=
  let r := encodeVal .f32 rm v
  match v with
  | .fin neg _ _ => if r.2 &&& fOF = 0 then r else (infPat .f32 neg, r.2)
  | _ => r

end Sys2Proof.Machine
end

