-- ==== Sys2Proof/Config.lean ====
section
/-!
DEFINITION. What an implementation fixes, and the free values: constants without a body, which nothing in Lean can
evaluate. A claim that mentions one holds for every value of it. Each is named in the assumption log.
-/
namespace Sys2Proof.Config

/-- Free byte: bytes that the spec leaves undefined (log 6). The argument is State's counter `freeIx`. -/
opaque freeByte : Nat → Byte

/-- Free choice among finitely many values, by index modulo their number: which of the values that the spec allows
stands in a place (R12, R132, R289; log 6). -/
opaque pick : Nat → Nat

/-- DRAM bank of an HBM4 address within its channel, and its row in that bank: the spec gives no address map below the
channel (R293, R384; log 30). -/
opaque dramBank : Nat → Nat
/-- The row; see `dramBank`. -/
opaque dramRow : Nat → Nat

/-- Free 32-bit word: ciphertext words of a pass whose keys changed while it ran (R195; log 6). -/
opaque freeT32 : Nat → BitVec 32


/-- The certificate chain that ends in the device identity key, R366 (log 7). -/
opaque certChain : List Byte

/-- Signature with the device identity key, R366 (log 7). -/
opaque identitySign : List Byte → List Byte

/-- Body of the SPDM answers whose bytes the spec does not give: request code and parameters to payload, R366
(log 7). -/
opaque spdmBody : Nat → List Byte → List Byte

/-- The 64-byte life-cycle and fuse record that MEAS2 is extended with, from the life-cycle code and the identity
register, R365 (log 7). -/
opaque fuseRecord : Nat → Nat → List Byte

end Sys2Proof.Config
end

