-- ==== Sys2Proof/Syntax.lean ====
section
/-!
DEFINITION. The instructions and events of the device: one constructor for every row of spec/opcode_table.json.
Register numbers have the width of their range (R76), so a term never names a register that does not exist.
A constructor of the control map (R78) holds the fields its entry names. A constructor of the block map (R79) holds
one `EOp`. The last 71 constructors are the events of the table: their operands are what the outside world or an
engine brings (spec/95_what_each_step_holds.md).
-/
namespace Sys2Proof

/-- The operand fields of an E-word, R73 and R86. `f` is the function byte, whose bits the entry names. -/
structure EOp where
  vd : VReg := 0
  va : VReg := 0
  vb : VReg := 0
  vc : VReg := 0
  mask : Option MReg := none
  f : BitVec 8 := 0
  xb : Bool := false
  rnd : Option Rm := none
  ty : Option Ty := none
  imm : BitVec 16 := 0
  deriving DecidableEq, Repr

/-- The two compute dies, R3. -/
inductive DieId where
  | a | b
  deriving DecidableEq, Repr

/-- A firmware image as a boot target holds it: the 512-byte header of R363 and the body. -/
structure Image where
  header : List Byte
  body : List Byte
  deriving DecidableEq, Repr

/-- What Ciros finds when it boots (R362): the two slots of the boot target. -/
structure BootInput where
  slotA : Option Image
  slotB : Option Image
  deriving DecidableEq, Repr

/-- The register kinds of REGERR, R333. -/
inductive RegKind where
  | x | v | m | c | tb | acc | special
  deriving DecidableEq, Repr

/-- Where a register error arises: in one byte of a lane word of a vector register (lane 16 is the XOR lane, R36), or in
a word of another register, 64 bits of a scalar, mask or special register and 32 of the others, `uncorr` when it cannot
be corrected (R40). -/
inductive ErrAt where
  | lane (reg : VReg) (group lane byte : Nat)
  | word (kind : RegKind) (num word : Nat) (uncorr : Bool)
  deriving DecidableEq, Repr

/-- One constructor for each row of the opcode table, in the table's order. -/
inductive Instr where
  -- flow control, R101 to R111
  | nop
  | br (off : Word)
  | bcc (cc : ICond) (a b : XReg) (off : Word)
  | bz (a : XReg) (off : Word)
  | bnz (a : XReg) (off : Word)
  | call (off : Word)
  | callr (a : XReg)
  | ret
  | jmpr (a : XReg)
  | jtab (a b c : XReg) (off : Word)
  | setvl (d a : XReg)
  | endTask
  | yieldTurn
  | brk (imm : Word)
  | trap (imm : Word)
  -- scalar integer, R112 to R114
  | add (d a b : XReg)
  | sub (d a b : XReg)
  | addi (d a : XReg) (imm : Word)
  | mul (d a b : XReg)
  | mulh (d a b : XReg)
  | mulhn (d a b : XReg)
  | div (d a b : XReg)
  | divn (d a b : XReg)
  | rem (d a b : XReg)
  | remn (d a b : XReg)
  | and (d a b : XReg)
  | or (d a b : XReg)
  | xor (d a b : XReg)
  | andn (d a b : XReg)
  | shl (d a b : XReg) (imm : Word)
  | shr (d a b : XReg) (imm : Word)
  | sra (d a b : XReg) (imm : Word)
  | rot (d a b : XReg) (imm : Word)
  | min (d a b : XReg)
  | max (d a b : XReg)
  | minn (d a b : XReg)
  | maxn (d a b : XReg)
  | clz (d a : XReg)
  | ctz (d a : XReg)
  | popc (d a : XReg)
  | sel (d a b c : XReg)
  | setcc (cc : ICond) (d a b : XReg)
  | lea (d a b : XReg) (sh : BitVec 5) (imm : Word)
  | bfx (d a : XReg) (pos : BitVec 6) (len : BitVec 7)
  | bfi (d a : XReg) (pos : BitVec 6) (len : BitVec 7)
  | li (d : XReg) (imm : Word)
  | slhash (d a : XReg) (imm : Word)
  -- scalar float, R115 to R117
  | fadd (ty : Ty) (d a b : XReg)
  | fsub (ty : Ty) (d a b : XReg)
  | fmul (ty : Ty) (d a b : XReg)
  | fma (ty : Ty) (d a b c : XReg)
  | fdiv (ty : Ty) (d a b : XReg)
  | fsqrt (ty : Ty) (d a : XReg)
  | fmin (ty : Ty) (d a b : XReg)
  | fmax (ty : Ty) (d a b : XReg)
  | fcvt (src dst : Ty) (d a : XReg)
  | fcmp (cc : FCond) (ty : Ty) (d a b : XReg)
  -- scalar memory, R118 to R120
  | ld (ty : Ty) (ord : Order) (sc : Scope) (d a : XReg) (imm : Word)
  | st (ty : Ty) (ord : Order) (sc : Scope) (d a : XReg) (imm : Word)
  | amo (op : AmoOp) (ty : Ty) (ord : Order) (sc : Scope) (d a b : XReg) (imm : Word)
  | cas (ty : Ty) (ord : Order) (sc : Scope) (d a b c : XReg) (imm : Word)
  | pref (a : XReg) (imm : Word) (lvl : BitVec 2)
  -- vector memory, R121 to R132
  | vld (ty : Option Ty) (ord : VOrder) (vd : VReg) (a : XReg) (imm : Word) (mk : Option MReg)
  | vlds (ty : Option Ty) (ord : VOrder) (vd : VReg) (a b : XReg) (imm : Word) (mk : Option MReg)
  | vldx (ty : Option Ty) (ord : VOrder) (vd : VReg) (a : XReg) (vb : VReg) (sh : BitVec 3) (iw : BitVec 2)
      (imm : Word) (mk : Option MReg)
  | vldff (ty : Option Ty) (ord : VOrder) (vd : VReg) (a : XReg) (imm : Word) (mk : Option MReg)
  | vst (ty : Option Ty) (ord : VOrder) (vd : VReg) (a : XReg) (imm : Word) (mk : Option MReg)
  | vsts (ty : Option Ty) (ord : VOrder) (vd : VReg) (a b : XReg) (imm : Word) (mk : Option MReg)
  | vstx (ty : Option Ty) (ord : VOrder) (vd : VReg) (a : XReg) (vb : VReg) (sh : BitVec 3) (iw : BitVec 2)
      (imm : Word) (mk : Option MReg)
  | vamo (op : AmoOp) (ty : Option Ty) (ord : VOrder) (sc : Scope) (vd : VReg) (a : XReg) (vb : VReg)
      (iw : BitVec 2) (imm : Word) (mk : Option MReg)
  | vldm (ord : VOrder) (md : MReg) (a : XReg) (imm : Word)
  | vstm (ord : VOrder) (md : MReg) (a : XReg) (imm : Word)
  | vspill (ord : VOrder) (vd : VReg) (a : XReg) (imm : Word)
  | vfill (ty : Option Ty) (ord : VOrder) (vd : VReg) (a : XReg) (imm : Word)
  -- vector control, R133 to R137
  | vf (off : Word)
  | vsett (d a : XReg) (imm : BitVec 16)
  | vmvl (d : XReg)
  | vmpop (d : XReg) (m : MReg) (mk : Option MReg)
  | vmfirst (d : XReg) (m : MReg) (mk : Option MReg)
  | vgetx (d : XReg) (va : VReg) (b : XReg) (imm : Word)
  | vputx (vd : VReg) (a b : XReg) (imm : Word)
  | vssave (a : XReg) (imm : Word)
  | vsload (a : XReg) (imm : Word)
  -- the ternary array, R178 to R192
  | tlw (wb : Bool) (a : XReg) (imm : Word)
  | tzero (acc : AccReg) (mode : TileMode)
  | tscale (acc : AccReg) (a : XReg) (imm : Word) (grp : BitVec 2)
  | tmma (assoc ff : Bool) (acc : AccReg) (a b c : XReg) (wb : Bool) (rb : BitVec 2) (n : XReg) (imm : Word)
  | tstat (d : XReg) (acc : AccReg) (sel : BitVec 4) (col : BitVec 8)
  | tdrain (acc : AccReg) (a b : XReg) (imm : Word) (mk : Option MReg) (row0 : BitVec 6) (rows : BitVec 7)
      (fn : BitVec 2) (tb : TbReg) (h : XReg)
  | tdrainx (acc : AccReg) (a : XReg) (vb : VReg) (imm : Word) (mk : Option MReg) (row0 : BitVec 6)
      (rows : BitVec 7) (fn : BitVec 2) (tb : TbReg) (h : XReg)
  -- bank units, R193 and R194
  | bgemv (d a b c : XReg) (k n : BitVec 16) (bv : BitVec 4) (astr ostr : BitVec 32)
  | bwait (a : XReg)
  -- keysets, ciphertexts and tables, R195 to R207
  | kset (ks : KsReg) (a : XReg) (imm : Word)
  | cld (cd : CReg) (a : XReg) (imm : Word)
  | cst (cs : CReg) (a : XReg) (imm : Word)
  | czero (cd : CReg) (ks : KsReg)
  | cmov (cd cs : CReg)
  | cadd (cd ca cb : CReg)
  | csub (cd ca cb : CReg)
  | cneg (cd cs : CReg)
  | cmulk (cd cs : CReg) (b : XReg) (imm : Word)
  | caddk (cd cs : CReg) (b : XReg) (imm : Word)
  | cnoise (d : XReg) (cs : CReg)
  | cnraise (cd : CReg) (b : XReg)
  | cref (cd cs : CReg) (tb : TbReg) (ks : KsReg)
  | drove (ks : KsReg) (count : BitVec 6)
  | tbld (tb : TbReg) (a : XReg) (imm : Word)
  | tbst (tb : TbReg) (a : XReg) (imm : Word)
  | tbset (tb : TbReg) (torus : Bool) (fn : BitVec 8) (p : BitVec 3)
  -- reserving loops, R208 to R212
  | rlopen (a : XReg) (g : BitVec 4)
  | claim (md : MReg) (va : VReg) (b : XReg) (mk : Option MReg)
  | claimdone
  | rlclose
  -- rings, R213 and R214
  | rpush (q : QReg) (a : XReg) (imm : Word)
  | rpop (q : QReg) (ci : BitVec 3)
  | rpeek (d : XReg) (q : QReg) (ci : BitVec 3) (seq : Bool)
  -- synchronisation and threads, R215 to R217
  | bar (sc : Scope) (a : XReg) (id : BitVec 4)
  | fence (ord : Order) (sc : Scope)
  | hedge (src dst : BitVec 7)
  | waitm (cc : ICond) (d a b : XReg) (imm : Word)
  | tfork (d a : XReg) (off : Word)
  | tjoin (a : XReg)
  -- copy engines and the graph, R218 to R222
  | cpy (h ring : Bool) (d a b c : XReg)
  | cpy2d (h ring : Bool) (d a b c : XReg) (len dstr sstr : BitVec 32)
  | cpyg (h ring : Bool) (d a b c : XReg) (size : BitVec 16) (xi : XReg) (w64 : Bool)
  | gnode (h : Bool) (d a : XReg)
  | glink (a b : XReg)
  | gwait (a : XReg)
  | spawn (d a b : XReg)
  -- system, R223
  | eret
  | mfs (d : XReg) (num : BitVec 12)
  | mts (num : BitVec 12) (a : XReg)
  | tlbinv (sc : Scope) (a b : XReg) (one : Bool)
  | cflush (sc : Scope) (a : XReg) (imm : Word) (b : XReg)
  | cpin (a : XReg) (imm : Word)
  | cunpin (a : XReg) (imm : Word)
  | bankcfg (a : XReg)
  | halt
  -- strip-mining, R108
  | strip (d p0 p1 p2 p3 : XReg) (s0 s1 s2 s3 : BitVec 8) (off : Word)
  -- block instructions, R151 to R177
  | vnop (e : EOp)
  | vstop (e : EOp)
  | vpfetchDirect (e : EOp)
  | vpfetchIndirect (e : EOp)
  | vadd (e : EOp)
  | vsub (e : EOp)
  | vrsub (e : EOp)
  | vmul (e : EOp)
  | vmulh (e : EOp)
  | vmadd (e : EOp)
  | vmsub (e : EOp)
  | vsadd (e : EOp)
  | vssub (e : EOp)
  | vmin (e : EOp)
  | vmax (e : EOp)
  | vabs (e : EOp)
  | vneg (e : EOp)
  | vavg (e : EOp)
  | vand (e : EOp)
  | vor (e : EOp)
  | vxor (e : EOp)
  | vnot (e : EOp)
  | vshl (e : EOp)
  | vshr (e : EOp)
  | vsra (e : EOp)
  | vclz (e : EOp)
  | vpopc (e : EOp)
  | vwadd (e : EOp)
  | vwmul (e : EOp)
  | vnarrow (e : EOp)
  | vcvt (e : EOp)
  | vfadd (e : EOp)
  | vfsub (e : EOp)
  | vfmul (e : EOp)
  | vfma (e : EOp)
  | vfms (e : EOp)
  | vfdiv (e : EOp)
  | vfsqrt (e : EOp)
  | vfmin (e : EOp)
  | vfmax (e : EOp)
  | vfabs (e : EOp)
  | vfneg (e : EOp)
  | vcmp (e : EOp)
  | vfcmp (e : EOp)
  | mand (e : EOp)
  | mor (e : EOp)
  | mxor (e : EOp)
  | mnot (e : EOp)
  | vsel (e : EOp)
  | vid (e : EOp)
  | viota (e : EOp)
  | vbcast (e : EOp)
  | vcompress (e : EOp)
  | vexpand (e : EOp)
  | vslideup (e : EOp)
  | vslidedn (e : EOp)
  | vperm (e : EOp)
  | vredsum (e : EOp)
  | vredmax (e : EOp)
  | vredmin (e : EOp)
  | vredand (e : EOp)
  | vredor (e : EOp)
  | vmeanvar (e : EOp)
  | vfn (e : EOp)
  | vbscale (e : EOp)
  | vbquant (e : EOp)
  | vtpack (e : EOp)
  | vtunpk (e : EOp)
  -- events of threads and the scheduler
  | watchdog (tid el : Nat)
  | endTakesEffect (tid : Nat)
  | packetConsume (die : DieId) (idx : Nat)
  | taskPlacement (die : DieId)
  | loopNestIteration (clu : Nat)
  | deadlineMiss (die : DieId) (uid : Nat)
  | packetCompletion (die : DieId) (uid : Nat)
  | vectorSequencerTurn (core : Nat) (ready : List Nat)
  | turnIdleEnd (tid : Nat)
  | floorWindowEnd (core : Nat)
  | pendingGrantReform (tid : Nat)
  -- events of the engines
  | droveWindowExpiry (clu : Nat) (ks : KsReg)
  | coppicePassRun (clu : Nat)
  | coppicePassEnd (clu : Nat)
  | waveAnswer (clu : Nat)
  | copyNodeLaunch (core ord : Nat)
  | copyNodeFinish (core ord : Nat)
  | bgemvCompletion (tid ticket : Nat)
  | memorySideCacheReturn (die : DieId) (slice : Nat)
  | waitmReread (tid : Nat)
  | hotPageEpochEnd (die : DieId)
  -- events of the HBM4 controllers
  | perBankRefresh (die : DieId) (ch bank : Nat) (busy : Bool)
  | activation (die : DieId) (ch bank row : Nat)
  | trackerClear (die : DieId) (ch bank : Nat)
  | activationCountAlert (die : DieId) (ch bank : Nat)
  | alertRelease (die : DieId) (ch bank : Nat)
  | channelConfigWrite (m : BitVec 16) (die : DieId) (ch : Nat) (v : Word)
  -- events of remote readers, host and peers
  | remoteRead (stack reader addr len : Nat) (old : List Nat)
  | accessControlEntryWrite (m : BitVec 16) (die : DieId) (stack entry : Nat) (hi : Bool) (v : Word)
  | cxlMemRead (addr len : Nat)
  | cxlMemWrite (addr : Nat) (bytes : List Byte)
  | peerRead (node addr len : Nat)
  | peerWrite (node addr : Nat) (bytes : List Byte)
  | peerAtomic (node addr : Nat) (cas : Bool) (op : AmoOp) (ty : Ty) (x y : Word)
  | holtLinkDown (link : Nat)
  | reductionGroupEnable (m : BitVec 16) (g : Nat) (v : Word)
  | reductionCombine (g : Nat)
  -- events of the tables and of partitions
  | regionTableWrite (m : BitVec 16) (die : DieId) (i : Nat) (v : Word)
  | rangeTableWrite (m : BitVec 16) (die : DieId) (entry : Nat) (hi : Bool) (v : Word)
  | partitionTableWrite (m : BitVec 16) (die : DieId) (p word : Nat) (v : Word)
  | swapOut (m : BitVec 16) (die : DieId) (v : Word)
  | partitionSave (die : DieId)
  | swapIn (die : DieId)
  -- events of ownership, boot and life cycle
  | ownclaim (m : BitVec 16) (v : Word)
  | heartbeat (m : BitVec 16) (v : Word)
  | successor (m : BitVec 16) (v : Word)
  | ownershipExpiry
  | reset (boot : BootInput)
  | wipeComplete (failed : BitVec 8) (dur : Word) (unread : List Byte)
  | recoveryImage (m : BitVec 16) (img : Image)
  | provision (m : BitVec 16) (signed : Bool)
  | deploy (m : BitVec 16)
  | decommission (m : BitVec 16)
  -- SPDM requests
  | getVersion
  | getCapabilities
  | negotiateAlgorithms
  | getDigests
  | getCertificate (off len : Nat)
  | challenge (nonce : List Byte)
  | getMeasurements (index : Nat)
  | unsupportedRequest (code : Byte)
  -- firmware, retirement, power
  | slotVerify (m : BitVec 16) (v : Word)
  | slotVerifyDone (img : Option Image)
  | minimumVersionRaise (m : BitVec 16) (v : Word) (slotA : Option Image)
  | retireAdd (m : BitVec 16) (v : Word)
  | retireClear (m : BitVec 16) (v : Word)
  | powerCapComparison (power : Nat) (temps pwrs : List Nat)
  -- Ciros and the rest
  | cirosStartContext (tid : Nat) (addr : Word) (args : List Word) (rcb : Nat)
  | cirosReleaseContext (tid : Nat)
  | threadRestart (tid : Nat)
  | registerWrite (m : BitVec 16) (addr size : Nat) (v : Word)
  | holtLinkUp (link : Nat)
  | firmwareStageStart (img : Image)
  | firmwareMeasurementRequest (img : Image)
  | readyPoint
  | registerError (tid : Nat) (loc : ErrAt)
  | memoryError (addr : Nat) (uncorr : Bool)
  deriving DecidableEq, Repr

end Sys2Proof
end

