-- ==== Sys2Proof/WellFormed.lean ====
section
/-!
DEFINITION. Which terms of `Instr` stand for a word that the decoder accepts (R71 to R76, R80 to R87 and the entries'
own limits that hold for the word alone). What depends on vtype, on a register's value or on the mode is no part of
this check: the meanings make it.
-/
namespace Sys2Proof

/-- A direct transfer's offset has bits [3:0] zero, R72. -/
def offOk (off : Word) : Bool := off &&& 0xF == 0

/-- Types of the scalar float instructions, R115. -/
def Ty.scalarFloat (t : Ty) : Bool := t.isF

/-- Codes 3 to 15 of R80: the types of `FCVT`, R117. -/
def Ty.fcvtOk : Ty → Bool
  | .s2 | .s4 | .g6 | .tr => false
  | _ => true

/-- Codes 3 to 14 of R80: the types of `LD` and `ST`, R118. -/
def Ty.ldOk : Ty → Bool
  | .s2 | .s4 | .g8 | .g6 | .tr => false
  | _ => true

/-- The types of `AMO` and `CAS`, R119. -/
def Ty.amoOk : Ty → Bool
  | .s32 | .s64 | .n32 | .n64 | .t32 => true
  | _ => false

/-- `.min` and `.max` take s and n types only, R119. -/
def AmoOp.tyOk (op : AmoOp) (t : Ty) : Bool :=
  t.amoOk && match op with
    | .min | .max => t != .t32
    | _ => true

/-- Which fields of R73 an E-word's entry uses. `t` covers the type and the rounding override, `bc` the broadcast
flag (R143), `immF` the immediate form of R142, `fbits` the bits of f that the entry names. -/
structure EUse where
  vd : Bool := false
  va : Bool := false
  vb : Bool := false
  vc : Bool := false
  mask : Bool := true
  t : Bool := true
  bc : Bool := false
  immF : Bool := false
  imm : Bool := false
  fbits : BitVec 8 := 0
  deriving DecidableEq, Repr

/-- The immediate flag f[3] of R142. -/
def EOp.immForm (e : EOp) : Bool := e.f.getLsbD 3

/-- Every field the entry does not use is zero (R75), and under the immediate flag vb is zero (R142). -/
def EOp.fits (e : EOp) (u : EUse) : Bool :=
  (u.vd || e.vd == 0) && (u.va || e.va == 0) && (u.vb || e.vb == 0) && (u.vc || e.vc == 0)
    && (u.mask || e.mask.isNone) && (u.t || (e.ty.isNone && e.rnd.isNone)) && (u.bc || !e.xb)
    && (e.f &&& ~~~(u.fbits ||| (if u.immF then 8 else 0)) == 0)
    && (!(u.immF && e.immForm) || e.vb == 0)
    && (u.imm || (u.immF && e.immForm) || e.imm == 0)
    && (match e.ty with | some .g6 | some .tr => false | _ => true)

/-- Fields of `vadd` (R153) with the immediate form. -/
def eBinImm : EUse := { vd := true, va := true, vb := true, bc := true, immF := true }
/-- Fields of `vmulh` (R153) and of the binary float E-words (R159). -/
def eBin : EUse := { vd := true, va := true, vb := true, bc := true }
/-- Fields of `vmadd` (R153) and `vfma` (R159). -/
def eTern : EUse := { vd := true, va := true, vb := true, vc := true, bc := true }
/-- Fields of `vabs` (R153). -/
def eUn : EUse := { vd := true, va := true, bc := true }
/-- Fields of the reductions (R168). -/
def eRed : EUse := { vd := true, va := true, vb := true, fbits := 3 }
/-- Fields of the mask-logic E-words (R162). -/
def eMask : EUse := { vd := true, va := true, vb := true, t := false }

/-- A 5-bit field that names a mask or table register holds 0 to 7, R76. -/
def low8 (r : VReg) : Bool := r.toNat < 8

/-- The order of a reduction is 1 or 2, R87. -/
def EOp.orderOk (e : EOp) : Bool := e.f == 1 || e.f == 2

/-- The pointers of a `STRIP` are distinct where used, differ from the count, and an unused one has scale 0, R108. -/
def stripOk (d : XReg) (ps : List XReg) (ss : List (BitVec 8)) : Bool :=
  d != 0 && (ps.zip ss).all (fun (p, s) => p != 0 || s == 0) && (ps.filter (· != 0)).all (· != d)
    && decide (ps.filter (· != 0)).Nodup

/-- The word of the instruction is one the decoder accepts. An event has no word, and every event is well formed. -/
def Instr.wf : Instr → Bool
  | .br off | .bcc _ _ _ off | .bz _ off | .bnz _ off | .call off | .jtab _ _ _ off | .vf off | .tfork _ _ off =>
    offOk off
  | .bfx _ _ pos len | .bfi _ _ pos len => 1 ≤ len.toNat && pos.toNat + len.toNat ≤ 64
  | .fadd ty .. | .fsub ty .. | .fmul ty .. | .fma ty .. | .fdiv ty .. | .fsqrt ty .. | .fmin ty .. | .fmax ty ..
  | .fcmp _ ty .. => ty.scalarFloat
  | .fcvt src dst .. => src.fcvtOk && dst.fcvtOk
  | .ld ty ord .. => ty.ldOk && ord != .rel
  | .st ty ord .. => ty.ldOk && ord != .acq
  | .amo op ty .. => op.tyOk ty
  | .cas ty .. => ty.amoOk
  | .pref _ _ lvl => lvl != 3
  | .vsett _ a imm => a == 0 || imm == 0
  | .tstat _ _ which _ => which.toNat ≤ 5
  | .tdrain _ _ _ _ _ row0 rows fn .. | .tdrainx _ _ _ _ _ row0 rows fn .. =>
    1 ≤ rows.toNat && row0.toNat + rows.toNat ≤ 64 && fn != 3
  | .bgemv _ _ _ _ k n bv _ ostr =>
    k != 0 && n != 0 && 1 ≤ bv.toNat && bv.toNat ≤ 8 && ostr &&& 3 == 0
  | .drove _ count => count.toNat ≤ 32
  | .tbset _ torus fn p => fn.toNat ≤ 10 && (if torus then 1 ≤ p.toNat && p.toNat ≤ 6 else p == 0)
  | .bar sc .. => sc == .dflt || sc == .core || sc == .clu
  | .fence ord _ => ord != .plain
  | .hedge src dst => src != 0 && dst != 0
  | .tlbinv sc .. => sc != .thr && sc != .sys
  | .cpy _ ring _ a .. | .cpy2d _ ring _ a .. | .cpyg _ ring _ a .. => !ring || a.toNat < 16
  | .strip d p0 p1 p2 p3 s0 s1 s2 s3 off => stripOk d [p0, p1, p2, p3] [s0, s1, s2, s3] && offOk off
  | .vnop e | .vstop e => e.fits { mask := false, t := false }
  | .vpfetchDirect e => e.fits { t := false, imm := true, fbits := 1 } && e.f == 1
  | .vpfetchIndirect e => e.fits { va := true, t := false }
  | .vadd e | .vsub e | .vrsub e | .vmul e | .vsadd e | .vssub e | .vmin e | .vmax e | .vand e | .vor e | .vxor e
  | .vshl e | .vshr e | .vsra e => e.fits eBinImm
  | .vmulh e | .vavg e | .vwadd e | .vwmul e | .vfadd e | .vfsub e | .vfmul e | .vfdiv e | .vfmin e | .vfmax e =>
    e.fits eBin
  | .vmadd e | .vmsub e | .vfma e | .vfms e => e.fits eTern
  | .vabs e | .vneg e | .vnot e | .vclz e | .vpopc e | .vfsqrt e | .vfabs e | .vfneg e => e.fits eUn
  | .vnarrow e => e.fits { vd := true, va := true, imm := true, fbits := 3 }
  | .vcvt e => e.fits { vd := true, va := true, fbits := 0x1F } && 1 ≤ e.f.toNat && e.f.toNat ≤ 16
  | .vcmp e => e.fits { eBinImm with fbits := 7 } && low8 e.vd && (e.f &&& 7).toNat ≤ 5
  | .vfcmp e => e.fits { eBin with fbits := 7 } && low8 e.vd && e.f.toNat ≤ 4
  | .mand e | .mor e | .mxor e => e.fits eMask && low8 e.vd && low8 e.va && low8 e.vb
  | .mnot e => e.fits { eMask with vb := false } && low8 e.vd && low8 e.va
  | .vsel e => e.fits eTern && low8 e.vc
  | .vid e => e.fits { vd := true, imm := true }
  | .viota e => e.fits { vd := true, va := true } && low8 e.va
  | .vbcast e => e.fits { eUn with imm := true } && (!e.xb || e.imm == 0)
  | .vcompress e | .vexpand e => e.fits { vd := true, va := true, vc := true } && low8 e.vc
  | .vslideup e | .vslidedn e => e.fits { vd := true, va := true, vb := true, immF := true }
  | .vperm e => e.fits { vd := true, va := true, vb := true, fbits := 0x18 }
  | .vredsum e | .vredmax e | .vredmin e | .vredand e | .vredor e => e.fits eRed && e.orderOk
  | .vmeanvar e => e.fits { vd := true, va := true, vc := true, t := false } && e.vd != e.vc
  | .vfn e => e.fits { vd := true, va := true, vb := true, fbits := 1 } && low8 e.vb
  | .vbscale e => e.fits { vd := true, va := true, vb := true }
  | .vbquant e => e.fits { vd := true, va := true, vc := true }
  | .vtpack e | .vtunpk e => e.fits { vd := true, va := true }
  | _ => true

end Sys2Proof
end

