-- ==== Sys2Proof/Decode.lean ====
section
/-!
DEFINITION. The decoder, and after it the encoder's tables read backwards: a word is taken apart into the fields of
R69, R70 and R73, the opcode names a candidate instruction, and the word is accepted only when the candidate is well
formed and encodes to exactly these fields. A reserved code, an unused field that is not zero and a register beyond
its range therefore never fall through to a neighbour (R75, R76).
-/
namespace Sys2Proof

/-! ## Codes of R80 to R87 -/

/-- Type codes, R80. -/
def Ty.code : Ty → BitVec 5
  | .s2 => 1 | .s4 => 2 | .s8 => 3 | .s16 => 4 | .s32 => 5 | .s64 => 6
  | .n8 => 7 | .n16 => 8 | .n32 => 9 | .n64 => 10
  | .t32 => 11 | .h16 => 12 | .f32 => 13 | .f64 => 14 | .g8 => 15 | .g6 => 16 | .tr => 17

/-- The type of a code, none for 0 and for the reserved codes. -/
def Ty.ofCode (c : BitVec 5) : Option Ty :=
  match c.toNat with
  | 1 => some .s2 | 2 => some .s4 | 3 => some .s8 | 4 => some .s16 | 5 => some .s32 | 6 => some .s64
  | 7 => some .n8 | 8 => some .n16 | 9 => some .n32 | 10 => some .n64
  | 11 => some .t32 | 12 => some .h16 | 13 => some .f32 | 14 => some .f64 | 15 => some .g8 | 16 => some .g6
  | 17 => some .tr
  | _ => none

/-- The code of an optional type: 0 stands for none. -/
def optTyCode : Option Ty → BitVec 5
  | none => 0
  | some t => t.code

/-- Integer conditions, R85. -/
def ICond.code : ICond → BitVec 3
  | .eq => 0 | .ne => 1 | .lt => 2 | .ge => 3 | .ltn => 4 | .gen => 5

/-- The integer condition of a code. -/
def ICond.ofCode (c : BitVec 3) : Option ICond :=
  match c.toNat with
  | 0 => some .eq | 1 => some .ne | 2 => some .lt | 3 => some .ge | 4 => some .ltn | 5 => some .gen
  | _ => none

/-- Float conditions, R85. -/
def FCond.code : FCond → BitVec 3
  | .eq => 0 | .ne => 1 | .lt => 2 | .le => 3 | .un => 4

/-- The float condition of a code. -/
def FCond.ofCode (c : BitVec 3) : Option FCond :=
  match c.toNat with
  | 0 => some .eq | 1 => some .ne | 2 => some .lt | 3 => some .le | 4 => some .un
  | _ => none

/-- Order codes, R81. -/
def Order.code : Order → BitVec 3
  | .plain => 0 | .acq => 4 | .rel => 5 | .sc => 6

/-- The order of a code. -/
def Order.ofCode (c : BitVec 3) : Option Order :=
  match c.toNat with
  | 0 => some .plain | 4 => some .acq | 5 => some .rel | 6 => some .sc
  | _ => none

/-- Order codes of vector memory, R81. -/
def VOrder.code : VOrder → BitVec 3
  | .plain => 0 | .o => 1 | .u => 2

/-- The vector order of a code. -/
def VOrder.ofCode (c : BitVec 3) : Option VOrder :=
  match c.toNat with
  | 0 => some .plain | 1 => some .o | 2 => some .u
  | _ => none

/-- Scope codes, R82. -/
def Scope.code : Scope → BitVec 3
  | .dflt => 0 | .thr => 1 | .core => 2 | .clu => 3 | .die => 4 | .pkg => 5 | .sys => 6

/-- The scope of a code. -/
def Scope.ofCode (c : BitVec 3) : Option Scope :=
  match c.toNat with
  | 0 => some .dflt | 1 => some .thr | 2 => some .core | 3 => some .clu | 4 => some .die | 5 => some .pkg
  | 6 => some .sys
  | _ => none

/-- Operation codes, R119. -/
def AmoOp.code : AmoOp → BitVec 3
  | .add => 0 | .and => 1 | .or => 2 | .xor => 3 | .min => 4 | .max => 5 | .swap => 6

/-- The operation of a code. -/
def AmoOp.ofCode (c : BitVec 3) : Option AmoOp :=
  match c.toNat with
  | 0 => some .add | 1 => some .and | 2 => some .or | 3 => some .xor | 4 => some .min | 5 => some .max
  | 6 => some .swap
  | _ => none

/-- Tile mode codes, R181. -/
def TileMode.code : TileMode → BitVec 2
  | .int => 0 | .torus => 1 | .float => 2

/-- The tile mode of a code. -/
def TileMode.ofCode (c : BitVec 2) : Option TileMode :=
  match c.toNat with
  | 0 => some .int | 1 => some .torus | 2 => some .float
  | _ => none

/-- Rounding override codes, R86: 0 stands for none. -/
def optRmCode : Option Rm → BitVec 3
  | none => 0
  | some .rne => 1
  | some .rtz => 2
  | some .rdn => 3
  | some .rup => 4

/-- The rounding override of a code; the reserved codes read as none and fail the comparison of fields. -/
def optRmOf (c : BitVec 3) : Option Rm :=
  match c.toNat with
  | 1 => some .rne | 2 => some .rtz | 3 => some .rdn | 4 => some .rup
  | _ => none

/-- The mask operand in field c of a C-word, R84. -/
def mkCode : Option MReg → BitVec 6
  | none => 0
  | some m => 0b100#3 ++ m

/-- The mask operand that field c names. -/
def mkOf (c : BitVec 6) : Option MReg :=
  if c = 0 then none else some (c.setWidth 3)

/-- One bit. -/
def bit1 (b : Bool) : BitVec 1 := BitVec.ofBool b

/-! ## Fields of the words -/

/-- The fields of a C-word or D-word, R69 and R70; `x0` and `x1` are ext0 and ext1, zero in a C-word. -/
structure CF where
  op : BitVec 8
  d : BitVec 6 := 0
  a : BitVec 6 := 0
  b : BitVec 6 := 0
  c : BitVec 6 := 0
  f : BitVec 8 := 0
  t : BitVec 8 := 0
  z : BitVec 16 := 0
  imm : BitVec 64 := 0
  x0 : BitVec 64 := 0
  x1 : BitVec 64 := 0
  deriving DecidableEq, Repr

/-- The 256 bits of the fields, R69 and R70. -/
def CF.toWord (f : CF) : BitVec 256 :=
  f.x1 ++ f.x0 ++ f.imm ++ f.z ++ f.t ++ f.f ++ f.c ++ f.b ++ f.a ++ f.d ++ f.op

/-- The fields of 256 bits. -/
def CF.ofWord (w : BitVec 256) : CF where
  op := w.extractLsb' 0 8
  d := w.extractLsb' 8 6
  a := w.extractLsb' 14 6
  b := w.extractLsb' 20 6
  c := w.extractLsb' 26 6
  f := w.extractLsb' 32 8
  t := w.extractLsb' 40 8
  z := w.extractLsb' 48 16
  imm := w.extractLsb' 64 64
  x0 := w.extractLsb' 128 64
  x1 := w.extractLsb' 192 64

/-- The fields of an E-word, R73; `m` is m.en above m.reg. -/
structure EF where
  op : BitVec 8
  vd : BitVec 5
  va : BitVec 5
  vb : BitVec 5
  vc : BitVec 5
  m : BitVec 4
  f : BitVec 8
  t : BitVec 8
  imm : BitVec 16
  deriving DecidableEq, Repr

/-- The 64 bits of the fields, R73. -/
def EF.toWord (f : EF) : BitVec 64 :=
  f.imm ++ f.t ++ f.f ++ f.m ++ f.vc ++ f.vb ++ f.va ++ f.vd ++ f.op

/-- The fields of 64 bits. -/
def EF.ofWord (w : BitVec 64) : EF where
  op := w.extractLsb' 0 8
  vd := w.extractLsb' 8 5
  va := w.extractLsb' 13 5
  vb := w.extractLsb' 18 5
  vc := w.extractLsb' 23 5
  m := w.extractLsb' 28 4
  f := w.extractLsb' 32 8
  t := w.extractLsb' 40 8
  imm := w.extractLsb' 48 16

/-- The operand record of an E-word's fields. -/
def EF.operands (f : EF) : EOp where
  vd := f.vd
  va := f.va
  vb := f.vb
  vc := f.vc
  mask := if f.m = 0 then none else some (f.m.setWidth 3)
  f := f.f
  xb := f.t.getLsbD 7
  rnd := optRmOf (f.t.extractLsb' 4 3)
  ty := Ty.ofCode ((f.t.extractLsb' 0 4).setWidth 5)
  imm := f.imm

/-- The fields of an operand record under an opcode. -/
def EOp.fields (e : EOp) (op : BitVec 8) : EF where
  op := op
  vd := e.vd
  va := e.va
  vb := e.vb
  vc := e.vc
  m := match e.mask with | none => 0 | some m => 0b1#1 ++ m
  f := e.f
  t := bit1 e.xb ++ optRmCode e.rnd ++ (optTyCode e.ty).setWidth 4
  imm := e.imm

/-- The t byte from order or condition code and type, R81. -/
def tByte (q : BitVec 3) (ty : BitVec 5) : BitVec 8 := q ++ ty

/-- The f byte from function bits and scope, R82. -/
def fByte (fn : BitVec 5) (sc : BitVec 3) : BitVec 8 := fn ++ sc

/-- Function bits of the copies: `.h` in f[3] and the ring form in f[4], R218. -/
def cpyFn (h ring : Bool) : BitVec 8 := fByte (0#3 ++ bit1 ring ++ bit1 h) 0

/-- ext0 of a drain, R189. -/
def drainX0 (row0 : BitVec 6) (rows : BitVec 7) (fn : BitVec 2) (tb : TbReg) : BitVec 64 :=
  0#30 ++ fn ++ 0#5 ++ tb ++ 0#1 ++ rows ++ 0#10 ++ row0

/-! ## From instructions to fields -/

/-- The fields of a control instruction; none for an E-word and for an event. -/
def Instr.cf : Instr → Option CF
  | .nop => some { op := 0x01 }
  | .br off => some { op := 0x02, imm := off }
  | .bcc cc a b off => some { op := 0x03, a := a, b := b, t := tByte cc.code 0, imm := off }
  | .bz a off => some { op := 0x04, a := a, imm := off }
  | .bnz a off => some { op := 0x05, a := a, imm := off }
  | .call off => some { op := 0x06, imm := off }
  | .callr a => some { op := 0x07, a := a }
  | .ret => some { op := 0x08 }
  | .jmpr a => some { op := 0x09, a := a }
  | .jtab a b c off => some { op := 0x0A, a := a, b := b, c := c, imm := off }
  | .setvl d a => some { op := 0x0B, d := d, a := a }
  | .endTask => some { op := 0x0C }
  | .yieldTurn => some { op := 0x0D }
  | .brk imm => some { op := 0x0E, imm := imm }
  | .trap imm => some { op := 0x0F, imm := imm }
  | .add d a b => some { op := 0x10, d := d, a := a, b := b }
  | .sub d a b => some { op := 0x11, d := d, a := a, b := b }
  | .addi d a imm => some { op := 0x12, d := d, a := a, imm := imm }
  | .mul d a b => some { op := 0x13, d := d, a := a, b := b }
  | .mulh d a b => some { op := 0x14, d := d, a := a, b := b }
  | .mulhn d a b => some { op := 0x15, d := d, a := a, b := b }
  | .div d a b => some { op := 0x16, d := d, a := a, b := b }
  | .divn d a b => some { op := 0x17, d := d, a := a, b := b }
  | .rem d a b => some { op := 0x18, d := d, a := a, b := b }
  | .remn d a b => some { op := 0x19, d := d, a := a, b := b }
  | .and d a b => some { op := 0x1A, d := d, a := a, b := b }
  | .or d a b => some { op := 0x1B, d := d, a := a, b := b }
  | .xor d a b => some { op := 0x1C, d := d, a := a, b := b }
  | .andn d a b => some { op := 0x1D, d := d, a := a, b := b }
  | .shl d a b imm => some { op := 0x1E, d := d, a := a, b := b, imm := imm }
  | .shr d a b imm => some { op := 0x1F, d := d, a := a, b := b, imm := imm }
  | .sra d a b imm => some { op := 0x20, d := d, a := a, b := b, imm := imm }
  | .rot d a b imm => some { op := 0x21, d := d, a := a, b := b, imm := imm }
  | .min d a b => some { op := 0x22, d := d, a := a, b := b }
  | .max d a b => some { op := 0x23, d := d, a := a, b := b }
  | .minn d a b => some { op := 0x24, d := d, a := a, b := b }
  | .maxn d a b => some { op := 0x25, d := d, a := a, b := b }
  | .clz d a => some { op := 0x26, d := d, a := a }
  | .ctz d a => some { op := 0x27, d := d, a := a }
  | .popc d a => some { op := 0x28, d := d, a := a }
  | .sel d a b c => some { op := 0x29, d := d, a := a, b := b, c := c }
  | .setcc cc d a b => some { op := 0x2A, d := d, a := a, b := b, t := tByte cc.code 0 }
  | .lea d a b sh imm => some { op := 0x2B, d := d, a := a, b := b, f := fByte sh 0, imm := imm }
  | .bfx d a pos len => some { op := 0x2C, d := d, a := a, imm := 0#49 ++ len ++ 0#2 ++ pos }
  | .bfi d a pos len => some { op := 0x2D, d := d, a := a, imm := 0#49 ++ len ++ 0#2 ++ pos }
  | .li d imm => some { op := 0x2E, d := d, imm := imm }
  | .slhash d a imm => some { op := 0x2F, d := d, a := a, imm := imm }
  | .fadd ty d a b => some { op := 0x30, d := d, a := a, b := b, t := tByte 0 ty.code }
  | .fsub ty d a b => some { op := 0x31, d := d, a := a, b := b, t := tByte 0 ty.code }
  | .fmul ty d a b => some { op := 0x32, d := d, a := a, b := b, t := tByte 0 ty.code }
  | .fma ty d a b c => some { op := 0x33, d := d, a := a, b := b, c := c, t := tByte 0 ty.code }
  | .fdiv ty d a b => some { op := 0x34, d := d, a := a, b := b, t := tByte 0 ty.code }
  | .fsqrt ty d a => some { op := 0x35, d := d, a := a, t := tByte 0 ty.code }
  | .fmin ty d a b => some { op := 0x36, d := d, a := a, b := b, t := tByte 0 ty.code }
  | .fmax ty d a b => some { op := 0x37, d := d, a := a, b := b, t := tByte 0 ty.code }
  | .fcvt src dst d a => some { op := 0x38, d := d, a := a, f := fByte src.code 0, t := tByte 0 dst.code }
  | .fcmp cc ty d a b => some { op := 0x39, d := d, a := a, b := b, t := tByte cc.code ty.code }
  | .ld ty ord sc d a imm =>
    some { op := 0x40, d := d, a := a, f := fByte 0 sc.code, t := tByte ord.code ty.code, imm := imm }
  | .st ty ord sc d a imm =>
    some { op := 0x41, d := d, a := a, f := fByte 0 sc.code, t := tByte ord.code ty.code, imm := imm }
  | .amo op ty ord sc d a b imm =>
    some { op := 0x42, d := d, a := a, b := b, f := fByte (0#2 ++ op.code) sc.code,
           t := tByte ord.code ty.code, imm := imm }
  | .cas ty ord sc d a b c imm =>
    some { op := 0x43, d := d, a := a, b := b, c := c, f := fByte 0 sc.code, t := tByte ord.code ty.code,
           imm := imm }
  | .pref a imm lvl => some { op := 0x44, a := a, f := fByte (0#3 ++ lvl) 0, imm := imm }
  | .vld ty ord vd a imm mk =>
    some { op := 0x48, d := vd.setWidth 6, a := a, c := mkCode mk, t := tByte ord.code (optTyCode ty), imm := imm }
  | .vlds ty ord vd a b imm mk =>
    some { op := 0x49, d := vd.setWidth 6, a := a, b := b, c := mkCode mk, t := tByte ord.code (optTyCode ty),
           imm := imm }
  | .vldx ty ord vd a vb sh iw imm mk =>
    some { op := 0x4A, d := vd.setWidth 6, a := a, b := vb.setWidth 6, c := mkCode mk, f := fByte (sh ++ iw) 0,
           t := tByte ord.code (optTyCode ty), imm := imm }
  | .vldff ty ord vd a imm mk =>
    some { op := 0x4B, d := vd.setWidth 6, a := a, c := mkCode mk, t := tByte ord.code (optTyCode ty), imm := imm }
  | .vst ty ord vd a imm mk =>
    some { op := 0x4C, d := vd.setWidth 6, a := a, c := mkCode mk, t := tByte ord.code (optTyCode ty), imm := imm }
  | .vsts ty ord vd a b imm mk =>
    some { op := 0x4D, d := vd.setWidth 6, a := a, b := b, c := mkCode mk, t := tByte ord.code (optTyCode ty),
           imm := imm }
  | .vstx ty ord vd a vb sh iw imm mk =>
    some { op := 0x4E, d := vd.setWidth 6, a := a, b := vb.setWidth 6, c := mkCode mk, f := fByte (sh ++ iw) 0,
           t := tByte ord.code (optTyCode ty), imm := imm }
  | .vamo op ty ord sc vd a vb iw imm mk =>
    some { op := 0x4F, d := vd.setWidth 6, a := a, b := vb.setWidth 6, c := mkCode mk,
           f := fByte (op.code ++ iw) sc.code, t := tByte ord.code (optTyCode ty), imm := imm }
  | .vldm ord md a imm => some { op := 0x50, d := md.setWidth 6, a := a, t := tByte ord.code 0, imm := imm }
  | .vstm ord md a imm => some { op := 0x51, d := md.setWidth 6, a := a, t := tByte ord.code 0, imm := imm }
  | .vspill ord vd a imm => some { op := 0x52, d := vd.setWidth 6, a := a, t := tByte ord.code 0, imm := imm }
  | .vfill ty ord vd a imm =>
    some { op := 0x53, d := vd.setWidth 6, a := a, t := tByte ord.code (optTyCode ty), imm := imm }
  | .vf off => some { op := 0x58, imm := off }
  | .vsett d a imm => some { op := 0x59, d := d, a := a, imm := imm.setWidth 64 }
  | .vmvl d => some { op := 0x5A, d := d }
  | .vmpop d m mk => some { op := 0x5B, d := d, a := m.setWidth 6, c := mkCode mk }
  | .vmfirst d m mk => some { op := 0x5C, d := d, a := m.setWidth 6, c := mkCode mk }
  | .vgetx d va b imm => some { op := 0x5D, d := d, a := va.setWidth 6, b := b, imm := imm }
  | .vputx vd a b imm => some { op := 0x5E, d := vd.setWidth 6, a := a, b := b, imm := imm }
  | .vssave a imm => some { op := 0x5F, a := a, imm := imm }
  | .vsload a imm => some { op := 0x60, a := a, imm := imm }
  | .tlw wb a imm => some { op := 0x68, a := a, f := fByte (0#4 ++ bit1 wb) 0, imm := imm }
  | .tzero acc mode => some { op := 0x69, d := acc.setWidth 6, f := fByte (0#3 ++ mode.code) 0 }
  | .tscale acc a imm grp => some { op := 0x6A, d := acc.setWidth 6, a := a, f := fByte (0#3 ++ grp) 0, imm := imm }
  | .tmma assoc ff acc a b c wb rb n imm =>
    some { op := 0xC4, d := acc.setWidth 6, a := a, b := b, c := c, f := fByte (0#3 ++ bit1 wb ++ bit1 ff) 0,
           t := tByte (if assoc then 3 else 1) 0, imm := imm, x0 := 0#50 ++ n ++ 0#6 ++ rb }
  | .tstat d acc sl col => some { op := 0x6B, d := d, a := acc.setWidth 6, imm := 0#48 ++ col ++ 0#4 ++ sl }
  | .tdrain acc a b imm mk row0 rows fn tb h =>
    some { op := 0xC5, d := acc.setWidth 6, a := a, b := b, c := mkCode mk, imm := imm,
           x0 := drainX0 row0 rows fn tb, x1 := h.setWidth 64 }
  | .tdrainx acc a vb imm mk row0 rows fn tb h =>
    some { op := 0xC6, d := acc.setWidth 6, a := a, b := vb.setWidth 6, c := mkCode mk, imm := imm,
           x0 := drainX0 row0 rows fn tb, x1 := h.setWidth 64 }
  | .bgemv d a b c k n bv astr ostr =>
    some { op := 0xC8, d := d, a := a, b := b, c := c, x0 := 0#28 ++ bv ++ n ++ k, x1 := ostr ++ astr }
  | .bwait a => some { op := 0x6E, a := a }
  | .kset ks a imm => some { op := 0x70, d := ks.setWidth 6, a := a, imm := imm }
  | .cld cd a imm => some { op := 0x71, d := cd.setWidth 6, a := a, imm := imm }
  | .cst cs a imm => some { op := 0x72, d := cs.setWidth 6, a := a, imm := imm }
  | .czero cd ks => some { op := 0x73, d := cd.setWidth 6, c := ks.setWidth 6 }
  | .cmov cd cs => some { op := 0x74, d := cd.setWidth 6, a := cs.setWidth 6 }
  | .cadd cd ca cb => some { op := 0x75, d := cd.setWidth 6, a := ca.setWidth 6, b := cb.setWidth 6 }
  | .csub cd ca cb => some { op := 0x76, d := cd.setWidth 6, a := ca.setWidth 6, b := cb.setWidth 6 }
  | .cneg cd cs => some { op := 0x77, d := cd.setWidth 6, a := cs.setWidth 6 }
  | .cmulk cd cs b imm => some { op := 0x78, d := cd.setWidth 6, a := cs.setWidth 6, b := b, imm := imm }
  | .caddk cd cs b imm => some { op := 0x79, d := cd.setWidth 6, a := cs.setWidth 6, b := b, imm := imm }
  | .cref cd cs tb ks =>
    some { op := 0x7A, d := cd.setWidth 6, a := cs.setWidth 6, b := tb.setWidth 6, c := ks.setWidth 6 }
  | .drove ks count => some { op := 0x7B, c := ks.setWidth 6, imm := count.setWidth 64 }
  | .cnoise d cs => some { op := 0x7C, d := d, a := cs.setWidth 6 }
  | .cnraise cd b => some { op := 0x7D, d := cd.setWidth 6, b := b }
  | .tbld tb a imm => some { op := 0x7E, d := tb.setWidth 6, a := a, imm := imm }
  | .tbst tb a imm => some { op := 0x7F, d := tb.setWidth 6, a := a, imm := imm }
  | .tbset tb torus fn p =>
    some { op := 0x80, d := tb.setWidth 6, f := fByte (0#4 ++ bit1 torus) 0, imm := 0#53 ++ p ++ fn }
  | .rlopen a g => some { op := 0x84, a := a, imm := g.setWidth 64 }
  | .claim md va b mk => some { op := 0x85, d := md.setWidth 6, a := va.setWidth 6, b := b, c := mkCode mk }
  | .claimdone => some { op := 0x86 }
  | .rlclose => some { op := 0x87 }
  | .rpush q a imm => some { op := 0x88, a := a, b := q.setWidth 6, imm := imm }
  | .rpop q ci => some { op := 0x89, b := q.setWidth 6, imm := ci.setWidth 64 }
  | .rpeek d q ci seq =>
    some { op := 0x8A, d := d, b := q.setWidth 6, f := fByte (0#4 ++ bit1 seq) 0, imm := ci.setWidth 64 }
  | .bar sc a id => some { op := 0x8B, a := a, f := fByte 0 sc.code, imm := id.setWidth 64 }
  | .fence ord sc => some { op := 0x8C, f := fByte 0 sc.code, t := tByte ord.code 0 }
  | .hedge src dst => some { op := 0x8D, imm := 0#49 ++ dst ++ 0#1 ++ src }
  | .waitm cc d a b imm =>
    some { op := 0x8E, d := d, a := a, b := b, f := fByte (0#2 ++ cc.code) 0, imm := imm }
  | .tfork d a off => some { op := 0x8F, d := d, a := a, imm := off }
  | .tjoin a => some { op := 0x90, a := a }
  | .cpy h ring d a b c => some { op := 0x94, d := d, a := a, b := b, c := c, f := cpyFn h ring }
  | .cpy2d h ring d a b c len dstr sstr =>
    some { op := 0xCC, d := d, a := a, b := b, c := c, f := cpyFn h ring, x0 := len.setWidth 64,
           x1 := sstr ++ dstr }
  | .cpyg h ring d a b c size xi w64 =>
    some { op := 0xCD, d := d, a := a, b := b, c := c, f := cpyFn h ring,
           x0 := 0#41 ++ bit1 w64 ++ xi ++ size }
  | .gnode h d a => some { op := 0x95, d := d, a := a, f := fByte (0#4 ++ bit1 h) 0 }
  | .glink a b => some { op := 0x96, a := a, b := b }
  | .gwait a => some { op := 0x97, a := a }
  | .spawn d a b => some { op := 0x98, d := d, a := a, b := b }
  | .eret => some { op := 0xA0 }
  | .mfs d num => some { op := 0xA1, d := d, imm := num.setWidth 64 }
  | .mts num a => some { op := 0xA2, a := a, imm := num.setWidth 64 }
  | .tlbinv sc a b one => some { op := 0xA3, a := a, b := b, f := fByte 0 sc.code, imm := (bit1 one).setWidth 64 }
  | .cflush sc a imm b => some { op := 0xA4, a := a, b := b, f := fByte 0 sc.code, imm := imm }
  | .cpin a imm => some { op := 0xA5, a := a, imm := imm }
  | .cunpin a imm => some { op := 0xA6, a := a, imm := imm }
  | .bankcfg a => some { op := 0xA7, a := a }
  | .halt => some { op := 0xA8 }
  | .strip d p0 p1 p2 p3 s0 s1 s2 s3 off =>
    some { op := 0xC0, d := d, imm := off,
           x0 := s3 ++ s2 ++ s1 ++ s0 ++ 0#2 ++ p3 ++ 0#2 ++ p2 ++ 0#2 ++ p1 ++ 0#2 ++ p0 }
  | _ => none

/-- Opcode and operands of a block instruction, R79; none for a control instruction and for an event. -/
def Instr.ef : Instr → Option EF
  | .vnop e => some (e.fields 0x01)
  | .vadd e => some (e.fields 0x10)
  | .vsub e => some (e.fields 0x11)
  | .vrsub e => some (e.fields 0x12)
  | .vmul e => some (e.fields 0x13)
  | .vmulh e => some (e.fields 0x14)
  | .vmadd e => some (e.fields 0x15)
  | .vmsub e => some (e.fields 0x16)
  | .vsadd e => some (e.fields 0x17)
  | .vssub e => some (e.fields 0x18)
  | .vmin e => some (e.fields 0x19)
  | .vmax e => some (e.fields 0x1A)
  | .vabs e => some (e.fields 0x1B)
  | .vneg e => some (e.fields 0x1C)
  | .vavg e => some (e.fields 0x1D)
  | .vand e => some (e.fields 0x20)
  | .vor e => some (e.fields 0x21)
  | .vxor e => some (e.fields 0x22)
  | .vnot e => some (e.fields 0x23)
  | .vshl e => some (e.fields 0x24)
  | .vshr e => some (e.fields 0x25)
  | .vsra e => some (e.fields 0x26)
  | .vclz e => some (e.fields 0x27)
  | .vpopc e => some (e.fields 0x28)
  | .vwadd e => some (e.fields 0x2C)
  | .vwmul e => some (e.fields 0x2D)
  | .vnarrow e => some (e.fields 0x2E)
  | .vcvt e => some (e.fields 0x2F)
  | .vfadd e => some (e.fields 0x30)
  | .vfsub e => some (e.fields 0x31)
  | .vfmul e => some (e.fields 0x32)
  | .vfma e => some (e.fields 0x33)
  | .vfms e => some (e.fields 0x34)
  | .vfdiv e => some (e.fields 0x35)
  | .vfsqrt e => some (e.fields 0x36)
  | .vfmin e => some (e.fields 0x37)
  | .vfmax e => some (e.fields 0x38)
  | .vfabs e => some (e.fields 0x39)
  | .vfneg e => some (e.fields 0x3A)
  | .vcmp e => some (e.fields 0x40)
  | .vfcmp e => some (e.fields 0x41)
  | .mand e => some (e.fields 0x42)
  | .mor e => some (e.fields 0x43)
  | .mxor e => some (e.fields 0x44)
  | .mnot e => some (e.fields 0x45)
  | .vsel e => some (e.fields 0x46)
  | .vid e => some (e.fields 0x48)
  | .viota e => some (e.fields 0x49)
  | .vcompress e => some (e.fields 0x4A)
  | .vexpand e => some (e.fields 0x4B)
  | .vslideup e => some (e.fields 0x4C)
  | .vslidedn e => some (e.fields 0x4D)
  | .vperm e => some (e.fields 0x4E)
  | .vbcast e => some (e.fields 0x4F)
  | .vredsum e => some (e.fields 0x50)
  | .vredmax e => some (e.fields 0x51)
  | .vredmin e => some (e.fields 0x52)
  | .vredand e => some (e.fields 0x53)
  | .vredor e => some (e.fields 0x54)
  | .vmeanvar e => some (e.fields 0x55)
  | .vfn e => some (e.fields 0x58)
  | .vbscale e => some (e.fields 0x59)
  | .vbquant e => some (e.fields 0x5A)
  | .vtpack e => some (e.fields 0x5C)
  | .vtunpk e => some (e.fields 0x5D)
  | .vpfetchDirect e => some (e.fields 0xFD)
  | .vpfetchIndirect e => some (e.fields 0xFD)
  | .vstop e => some (e.fields 0xFE)
  | _ => none

/-! ## From fields to a candidate instruction -/

/-- The instruction an E-word's opcode names (R79), before the check of its fields. -/
def EF.cand (f : EF) : Option Instr :=
  match f.op.toNat with
  | 0x01 => some (.vnop f.operands)
  | 0x10 => some (.vadd f.operands)
  | 0x11 => some (.vsub f.operands)
  | 0x12 => some (.vrsub f.operands)
  | 0x13 => some (.vmul f.operands)
  | 0x14 => some (.vmulh f.operands)
  | 0x15 => some (.vmadd f.operands)
  | 0x16 => some (.vmsub f.operands)
  | 0x17 => some (.vsadd f.operands)
  | 0x18 => some (.vssub f.operands)
  | 0x19 => some (.vmin f.operands)
  | 0x1A => some (.vmax f.operands)
  | 0x1B => some (.vabs f.operands)
  | 0x1C => some (.vneg f.operands)
  | 0x1D => some (.vavg f.operands)
  | 0x20 => some (.vand f.operands)
  | 0x21 => some (.vor f.operands)
  | 0x22 => some (.vxor f.operands)
  | 0x23 => some (.vnot f.operands)
  | 0x24 => some (.vshl f.operands)
  | 0x25 => some (.vshr f.operands)
  | 0x26 => some (.vsra f.operands)
  | 0x27 => some (.vclz f.operands)
  | 0x28 => some (.vpopc f.operands)
  | 0x2C => some (.vwadd f.operands)
  | 0x2D => some (.vwmul f.operands)
  | 0x2E => some (.vnarrow f.operands)
  | 0x2F => some (.vcvt f.operands)
  | 0x30 => some (.vfadd f.operands)
  | 0x31 => some (.vfsub f.operands)
  | 0x32 => some (.vfmul f.operands)
  | 0x33 => some (.vfma f.operands)
  | 0x34 => some (.vfms f.operands)
  | 0x35 => some (.vfdiv f.operands)
  | 0x36 => some (.vfsqrt f.operands)
  | 0x37 => some (.vfmin f.operands)
  | 0x38 => some (.vfmax f.operands)
  | 0x39 => some (.vfabs f.operands)
  | 0x3A => some (.vfneg f.operands)
  | 0x40 => some (.vcmp f.operands)
  | 0x41 => some (.vfcmp f.operands)
  | 0x42 => some (.mand f.operands)
  | 0x43 => some (.mor f.operands)
  | 0x44 => some (.mxor f.operands)
  | 0x45 => some (.mnot f.operands)
  | 0x46 => some (.vsel f.operands)
  | 0x48 => some (.vid f.operands)
  | 0x49 => some (.viota f.operands)
  | 0x4A => some (.vcompress f.operands)
  | 0x4B => some (.vexpand f.operands)
  | 0x4C => some (.vslideup f.operands)
  | 0x4D => some (.vslidedn f.operands)
  | 0x4E => some (.vperm f.operands)
  | 0x4F => some (.vbcast f.operands)
  | 0x50 => some (.vredsum f.operands)
  | 0x51 => some (.vredmax f.operands)
  | 0x52 => some (.vredmin f.operands)
  | 0x53 => some (.vredand f.operands)
  | 0x54 => some (.vredor f.operands)
  | 0x55 => some (.vmeanvar f.operands)
  | 0x58 => some (.vfn f.operands)
  | 0x59 => some (.vbscale f.operands)
  | 0x5A => some (.vbquant f.operands)
  | 0x5C => some (.vtpack f.operands)
  | 0x5D => some (.vtunpk f.operands)
  | 0xFE => some (.vstop f.operands)
  | 0xFD => some (if f.f = 0 then .vpfetchIndirect f.operands else .vpfetchDirect f.operands)
  | _ => none

/-- The instruction a control word's opcode names (R78), before the check of its fields. -/
def CF.cand (f : CF) : Option Instr :=
  let ty := Ty.ofCode (f.t.extractLsb' 0 5)
  let q := f.t.extractLsb' 5 3
  let sc := Scope.ofCode (f.f.extractLsb' 0 3)
  let v : BitVec 6 → VReg := fun r => r.setWidth 5
  let r3 : BitVec 6 → BitVec 3 := fun r => r.setWidth 3
  let r4 : BitVec 6 → BitVec 4 := fun r => r.setWidth 4
  let acc : AccReg := f.d.setWidth 2
  let f3 := f.f.getLsbD 3
  let f4 := f.f.getLsbD 4
  match f.op.toNat with
  | 0x01 => some .nop
  | 0x02 => some (.br f.imm)
  | 0x03 => (ICond.ofCode q).map fun cc => .bcc cc f.a f.b f.imm
  | 0x04 => some (.bz f.a f.imm)
  | 0x05 => some (.bnz f.a f.imm)
  | 0x06 => some (.call f.imm)
  | 0x07 => some (.callr f.a)
  | 0x08 => some .ret
  | 0x09 => some (.jmpr f.a)
  | 0x0A => some (.jtab f.a f.b f.c f.imm)
  | 0x0B => some (.setvl f.d f.a)
  | 0x0C => some .endTask
  | 0x0D => some .yieldTurn
  | 0x0E => some (.brk f.imm)
  | 0x0F => some (.trap f.imm)
  | 0x10 => some (.add f.d f.a f.b)
  | 0x11 => some (.sub f.d f.a f.b)
  | 0x12 => some (.addi f.d f.a f.imm)
  | 0x13 => some (.mul f.d f.a f.b)
  | 0x14 => some (.mulh f.d f.a f.b)
  | 0x15 => some (.mulhn f.d f.a f.b)
  | 0x16 => some (.div f.d f.a f.b)
  | 0x17 => some (.divn f.d f.a f.b)
  | 0x18 => some (.rem f.d f.a f.b)
  | 0x19 => some (.remn f.d f.a f.b)
  | 0x1A => some (.and f.d f.a f.b)
  | 0x1B => some (.or f.d f.a f.b)
  | 0x1C => some (.xor f.d f.a f.b)
  | 0x1D => some (.andn f.d f.a f.b)
  | 0x1E => some (.shl f.d f.a f.b f.imm)
  | 0x1F => some (.shr f.d f.a f.b f.imm)
  | 0x20 => some (.sra f.d f.a f.b f.imm)
  | 0x21 => some (.rot f.d f.a f.b f.imm)
  | 0x22 => some (.min f.d f.a f.b)
  | 0x23 => some (.max f.d f.a f.b)
  | 0x24 => some (.minn f.d f.a f.b)
  | 0x25 => some (.maxn f.d f.a f.b)
  | 0x26 => some (.clz f.d f.a)
  | 0x27 => some (.ctz f.d f.a)
  | 0x28 => some (.popc f.d f.a)
  | 0x29 => some (.sel f.d f.a f.b f.c)
  | 0x2A => (ICond.ofCode q).map fun cc => .setcc cc f.d f.a f.b
  | 0x2B => some (.lea f.d f.a f.b (f.f.extractLsb' 3 5) f.imm)
  | 0x2C => some (.bfx f.d f.a (f.imm.extractLsb' 0 6) (f.imm.extractLsb' 8 7))
  | 0x2D => some (.bfi f.d f.a (f.imm.extractLsb' 0 6) (f.imm.extractLsb' 8 7))
  | 0x2E => some (.li f.d f.imm)
  | 0x2F => some (.slhash f.d f.a f.imm)
  | 0x30 => ty.map fun ty => .fadd ty f.d f.a f.b
  | 0x31 => ty.map fun ty => .fsub ty f.d f.a f.b
  | 0x32 => ty.map fun ty => .fmul ty f.d f.a f.b
  | 0x34 => ty.map fun ty => .fdiv ty f.d f.a f.b
  | 0x36 => ty.map fun ty => .fmin ty f.d f.a f.b
  | 0x37 => ty.map fun ty => .fmax ty f.d f.a f.b
  | 0x33 => ty.map fun ty => .fma ty f.d f.a f.b f.c
  | 0x35 => ty.map fun ty => .fsqrt ty f.d f.a
  | 0x38 => do
    let src ← Ty.ofCode (f.f.extractLsb' 3 5)
    let dst ← ty
    some (.fcvt src dst f.d f.a)
  | 0x39 => do
    let cc ← FCond.ofCode q
    let ty ← ty
    some (.fcmp cc ty f.d f.a f.b)
  | 0x40 => do
    let ty ← ty
    let ord ← Order.ofCode q
    let sc ← sc
    some (.ld ty ord sc f.d f.a f.imm)
  | 0x41 => do
    let ty ← ty
    let ord ← Order.ofCode q
    let sc ← sc
    some (.st ty ord sc f.d f.a f.imm)
  | 0x42 => do
    let op ← AmoOp.ofCode (f.f.extractLsb' 3 3)
    let ty ← ty
    let ord ← Order.ofCode q
    let sc ← sc
    some (.amo op ty ord sc f.d f.a f.b f.imm)
  | 0x43 => do
    let ty ← ty
    let ord ← Order.ofCode q
    let sc ← sc
    some (.cas ty ord sc f.d f.a f.b f.c f.imm)
  | 0x44 => some (.pref f.a f.imm (f.f.extractLsb' 3 2))
  | 0x48 => (VOrder.ofCode q).map fun ord => .vld ty ord (v f.d) f.a f.imm (mkOf f.c)
  | 0x49 => (VOrder.ofCode q).map fun ord => .vlds ty ord (v f.d) f.a f.b f.imm (mkOf f.c)
  | 0x4A => (VOrder.ofCode q).map fun ord =>
      .vldx ty ord (v f.d) f.a (v f.b) (f.f.extractLsb' 5 3) (f.f.extractLsb' 3 2) f.imm (mkOf f.c)
  | 0x4B => (VOrder.ofCode q).map fun ord => .vldff ty ord (v f.d) f.a f.imm (mkOf f.c)
  | 0x4C => (VOrder.ofCode q).map fun ord => .vst ty ord (v f.d) f.a f.imm (mkOf f.c)
  | 0x4D => (VOrder.ofCode q).map fun ord => .vsts ty ord (v f.d) f.a f.b f.imm (mkOf f.c)
  | 0x4E => (VOrder.ofCode q).map fun ord =>
      .vstx ty ord (v f.d) f.a (v f.b) (f.f.extractLsb' 5 3) (f.f.extractLsb' 3 2) f.imm (mkOf f.c)
  | 0x4F => do
    let op ← AmoOp.ofCode (f.f.extractLsb' 5 3)
    let ord ← VOrder.ofCode q
    let sc ← sc
    some (.vamo op ty ord sc (v f.d) f.a (v f.b) (f.f.extractLsb' 3 2) f.imm (mkOf f.c))
  | 0x50 => (VOrder.ofCode q).map fun ord => .vldm ord (r3 f.d) f.a f.imm
  | 0x51 => (VOrder.ofCode q).map fun ord => .vstm ord (r3 f.d) f.a f.imm
  | 0x52 => (VOrder.ofCode q).map fun ord => .vspill ord (v f.d) f.a f.imm
  | 0x53 => (VOrder.ofCode q).map fun ord => .vfill ty ord (v f.d) f.a f.imm
  | 0x58 => some (.vf f.imm)
  | 0x59 => some (.vsett f.d f.a (f.imm.setWidth 16))
  | 0x5A => some (.vmvl f.d)
  | 0x5B => some (.vmpop f.d (r3 f.a) (mkOf f.c))
  | 0x5C => some (.vmfirst f.d (r3 f.a) (mkOf f.c))
  | 0x5D => some (.vgetx f.d (v f.a) f.b f.imm)
  | 0x5E => some (.vputx (v f.d) f.a f.b f.imm)
  | 0x5F => some (.vssave f.a f.imm)
  | 0x60 => some (.vsload f.a f.imm)
  | 0x68 => some (.tlw f3 f.a f.imm)
  | 0x69 => (TileMode.ofCode (f.f.extractLsb' 3 2)).map fun mode => .tzero acc mode
  | 0x6A => some (.tscale acc f.a f.imm (f.f.extractLsb' 3 2))
  | 0x6B => some (.tstat f.d (f.a.setWidth 2) (f.imm.extractLsb' 0 4) (f.imm.extractLsb' 8 8))
  | 0x6E => some (.bwait f.a)
  | 0x70 => some (.kset (r4 f.d) f.a f.imm)
  | 0x71 => some (.cld (r3 f.d) f.a f.imm)
  | 0x72 => some (.cst (r3 f.d) f.a f.imm)
  | 0x73 => some (.czero (r3 f.d) (r4 f.c))
  | 0x74 => some (.cmov (r3 f.d) (r3 f.a))
  | 0x75 => some (.cadd (r3 f.d) (r3 f.a) (r3 f.b))
  | 0x76 => some (.csub (r3 f.d) (r3 f.a) (r3 f.b))
  | 0x77 => some (.cneg (r3 f.d) (r3 f.a))
  | 0x78 => some (.cmulk (r3 f.d) (r3 f.a) f.b f.imm)
  | 0x79 => some (.caddk (r3 f.d) (r3 f.a) f.b f.imm)
  | 0x7A => some (.cref (r3 f.d) (r3 f.a) (r3 f.b) (r4 f.c))
  | 0x7B => some (.drove (r4 f.c) (f.imm.setWidth 6))
  | 0x7C => some (.cnoise f.d (r3 f.a))
  | 0x7D => some (.cnraise (r3 f.d) f.b)
  | 0x7E => some (.tbld (r3 f.d) f.a f.imm)
  | 0x7F => some (.tbst (r3 f.d) f.a f.imm)
  | 0x80 => some (.tbset (r3 f.d) f3 (f.imm.extractLsb' 0 8) (f.imm.extractLsb' 8 3))
  | 0x84 => some (.rlopen f.a (f.imm.setWidth 4))
  | 0x85 => some (.claim (r3 f.d) (v f.a) f.b (mkOf f.c))
  | 0x86 => some .claimdone
  | 0x87 => some .rlclose
  | 0x88 => some (.rpush (r4 f.b) f.a f.imm)
  | 0x89 => some (.rpop (r4 f.b) (f.imm.setWidth 3))
  | 0x8A => some (.rpeek f.d (r4 f.b) (f.imm.setWidth 3) f3)
  | 0x8B => sc.map fun sc => .bar sc f.a (f.imm.setWidth 4)
  | 0x8C => do
    let ord ← Order.ofCode q
    let sc ← sc
    some (.fence ord sc)
  | 0x8D => some (.hedge (f.imm.extractLsb' 0 7) (f.imm.extractLsb' 8 7))
  | 0x8E => (ICond.ofCode (f.f.extractLsb' 3 3)).map fun cc => .waitm cc f.d f.a f.b f.imm
  | 0x8F => some (.tfork f.d f.a f.imm)
  | 0x90 => some (.tjoin f.a)
  | 0x94 => some (.cpy f3 f4 f.d f.a f.b f.c)
  | 0x95 => some (.gnode f3 f.d f.a)
  | 0x96 => some (.glink f.a f.b)
  | 0x97 => some (.gwait f.a)
  | 0x98 => some (.spawn f.d f.a f.b)
  | 0xA0 => some .eret
  | 0xA1 => some (.mfs f.d (f.imm.setWidth 12))
  | 0xA2 => some (.mts (f.imm.setWidth 12) f.a)
  | 0xA3 => sc.map fun sc => .tlbinv sc f.a f.b (f.imm.getLsbD 0)
  | 0xA4 => sc.map fun sc => .cflush sc f.a f.imm f.b
  | 0xA5 => some (.cpin f.a f.imm)
  | 0xA6 => some (.cunpin f.a f.imm)
  | 0xA7 => some (.bankcfg f.a)
  | 0xA8 => some .halt
  | 0xC0 =>
    let p := fun k => f.x0.extractLsb' (8 * k) 6
    let s := fun k => f.x0.extractLsb' (32 + 8 * k) 8
    some (.strip f.d (p 0) (p 1) (p 2) (p 3) (s 0) (s 1) (s 2) (s 3) f.imm)
  | 0xC4 => some (.tmma (q == 3) f3 acc f.a f.b f.c f4 (f.x0.extractLsb' 0 2) (f.x0.extractLsb' 8 6) f.imm)
  | 0xC5 => some (.tdrain acc f.a f.b f.imm (mkOf f.c) (f.x0.extractLsb' 0 6) (f.x0.extractLsb' 16 7)
      (f.x0.extractLsb' 32 2) (f.x0.extractLsb' 24 3) (f.x1.setWidth 6))
  | 0xC6 => some (.tdrainx acc f.a (v f.b) f.imm (mkOf f.c) (f.x0.extractLsb' 0 6) (f.x0.extractLsb' 16 7)
      (f.x0.extractLsb' 32 2) (f.x0.extractLsb' 24 3) (f.x1.setWidth 6))
  | 0xC8 => some (.bgemv f.d f.a f.b f.c (f.x0.extractLsb' 0 16) (f.x0.extractLsb' 16 16) (f.x0.extractLsb' 32 4)
      (f.x1.extractLsb' 0 32) (f.x1.extractLsb' 32 32))
  | 0xCC => some (.cpy2d f3 f4 f.d f.a f.b f.c (f.x0.setWidth 32) (f.x1.extractLsb' 0 32) (f.x1.extractLsb' 32 32))
  | 0xCD => some (.cpyg f3 f4 f.d f.a f.b f.c (f.x0.extractLsb' 0 16) (f.x0.extractLsb' 16 6) (f.x0.getLsbD 22))
  | _ => none

/-! ## The decoder -/

/-- Why a byte sequence is not an instruction. -/
inductive Reject where
  /-- Fewer bytes than the word needs. -/
  | tooShort
  /-- An opcode shown as unassigned in R78 or R79, or a reserved code of R80 to R87. -/
  | unassigned
  /-- A field the entry does not use is not zero, a register is out of range, or a limit of the entry is broken. -/
  | badFields
  deriving DecidableEq, Repr

/-- Decodes the fields of a control word. -/
def decodeCF (f : CF) : Except Reject Instr :=
  match f.cand with
  | none => .error .unassigned
  | some i => if i.cf = some f ∧ i.wf = true then .ok i else .error .badFields

/-- Decodes a block word. -/
def decodeE (w : BitVec 64) : Except Reject Instr :=
  let f := EF.ofWord w
  match f.cand with
  | none => .error .unassigned
  | some i => if i.ef = some f ∧ i.wf = true then .ok i else .error .badFields

/-- Decodes a C-word, R69. -/
def decodeC (w : BitVec 128) : Except Reject Instr := decodeCF (CF.ofWord (w.setWidth 256))

/-- Decodes a D-word, R70. -/
def decodeD (w : BitVec 256) : Except Reject Instr := decodeCF (CF.ofWord w)

/-- Opcodes 0xC0 and above are the first half of a D-word, R68. -/
def isDOp (op : BitVec 8) : Bool := 0xC0 ≤ op.toNat

/-- The words of an instruction. -/
inductive Code where
  | c (w : BitVec 128)
  | d (w : BitVec 256)
  | e (w : BitVec 64)
  deriving DecidableEq, Repr

/-- Bytes of a word, lowest address first (R4). -/
def leBytes (n w : Nat) : List Byte :=
  match n with
  | 0 => []
  | n + 1 => BitVec.ofNat 8 w :: leBytes n (w / 256)

/-- The natural number that bytes stand for, lowest address first (R4). -/
def leNat : List Byte → Nat
  | [] => 0
  | b :: bs => b.toNat + 256 * leNat bs

/-- Decodes the bytes that the control stream reached, and says how many it took. -/
def decodeStream (bs : List Byte) : Except Reject (Instr × Nat) :=
  if bs.length < 16 then .error .tooShort
  else
    let w := leNat (bs.take 16)
    if isDOp (BitVec.ofNat 8 w) then
      if bs.length < 32 then .error .tooShort
      else (decodeD (BitVec.ofNat 256 (leNat (bs.take 32)))).map fun i => (i, 32)
    else (decodeC (BitVec.ofNat 128 w)).map fun i => (i, 16)

/-- Decodes the bytes reached inside a vector-fetch block. -/
def decodeBlock (bs : List Byte) : Except Reject (Instr × Nat) :=
  if bs.length < 8 then .error .tooShort
  else (decodeE (BitVec.ofNat 64 (leNat (bs.take 8)))).map fun i => (i, 8)

/-- An instruction word laid out as the opcode table numbers its bits. Words of up to 64 bits are E-words; longer
ones belong to the control stream, and bits above `nbits` are zero. -/
def decodeTableWord (nbits w : Nat) : Option Instr :=
  if nbits ≤ 64 then (decodeBlock (leBytes 8 w)).toOption.map (·.1)
  else (decodeStream (leBytes 32 w)).toOption.map (·.1)

/-! ## The encoder -/

/-- The words of a well-formed instruction; none for an event, which has no word. -/
def encode (i : Instr) : Option Code :=
  match i.cf with
  | some f => some (if isDOp f.op then .d f.toWord else .c (f.toWord.setWidth 128))
  | none => i.ef.map fun f => .e f.toWord

/-- Decodes the words of an instruction. -/
def decode : Code → Except Reject Instr
  | .c w => if isDOp (w.setWidth 8) then .error .tooShort else decodeC w
  | .d w => if isDOp (w.setWidth 8) then decodeD w else .error .badFields
  | .e w => decodeE w

/-- Bits [63:0] of the word, which traps of decoding and of the mode report in tval (R75, R333). -/
def Instr.low64 (i : Instr) : Word :=
  match i.cf with
  | some f => f.toWord.setWidth 64
  | none =>
    match i.ef with
    | some f => f.toWord
    | none => 0

/-- Bytes that the word takes in the control stream (R69, R70). -/
def Instr.size (i : Instr) : Nat :=
  match i.cf with
  | some f => if isDOp f.op then 32 else 16
  | none => 8

end Sys2Proof
end

