-- ==== Sys2Proof/Machine/Map.lean ====
section
/-!
DEFINITION. Sparse data: lists of key and value pairs with rising keys. One set of functions serves memory, the
register files and the tables. `mapPut` keeps the canonical form in which no entry equals what an unlisted key reads.
-/
namespace Sys2Proof.Machine

/-- The value at a key, or `dflt` when the key is not listed. -/
def mapGet {β : Type} (dflt : β) : List (Nat × β) → Nat → β
  | [], _ => dflt
  | (j, v) :: m, k => if k = j then v else mapGet dflt m k

/-- The entry of a key, if it is listed. -/
def mapFind {β : Type} : List (Nat × β) → Nat → Option β
  | [], _ => none
  | (j, v) :: m, k => if k = j then some v else mapFind m k

/-- Sets the value at a key and keeps the keys rising. -/
def mapSet {β : Type} (m : List (Nat × β)) (k : Nat) (v : β) : List (Nat × β) :=
  match m with
  | [] => [(k, v)]
  | (j, w) :: r => if k < j then (k, v) :: (j, w) :: r else if k = j then (k, v) :: r else (j, w) :: mapSet r k v

/-- Removes a key. -/
def mapErase {β : Type} : List (Nat × β) → Nat → List (Nat × β)
  | [], _ => []
  | (j, w) :: r, k => if k = j then mapErase r k else (j, w) :: mapErase r k

/-- Sets the value at a key; a value equal to the default removes the entry. -/
def mapPut {β : Type} [DecidableEq β] (dflt : β) (m : List (Nat × β)) (k : Nat) (v : β) : List (Nat × β) :=
  if v = dflt then mapErase m k else mapSet m k v

/-- Keys strictly rise, from above a bound. -/
def keysRise {β : Type} : Option Nat → List (Nat × β) → Bool
  | _, [] => true
  | none, (j, _) :: r => keysRise (some j) r
  | some b, (j, _) :: r => b < j && keysRise (some j) r

/-- The canonical form: rising keys, and no entry equal to the default. -/
def mapWf {β : Type} [DecidableEq β] (dflt : β) (m : List (Nat × β)) : Bool :=
  keysRise none m && m.all (fun p => p.2 ≠ dflt)

/-- Changes every value. -/
def mapVals {β γ : Type} (f : β → γ) (m : List (Nat × β)) : List (Nat × γ) := m.map fun p => (p.1, f p.2)

/-- Keeps the entries whose key lies in the range from lo (inclusive) to hi (exclusive). -/
def mapRange {β : Type} (m : List (Nat × β)) (lo hi : Nat) : List (Nat × β) := m.filter fun p => lo ≤ p.1 && p.1 < hi

/-- Removes the entries whose key lies in the range from lo (inclusive) to hi (exclusive). -/
def mapDropRange {β : Type} (m : List (Nat × β)) (lo hi : Nat) : List (Nat × β) :=
  m.filter fun p => !(lo ≤ p.1 && p.1 < hi)

/-- Sets every entry of a list of pairs in turn. -/
def mapSetAll {β : Type} (m : List (Nat × β)) (ps : List (Nat × β)) : List (Nat × β) :=
  ps.foldl (fun m p => mapSet m p.1 p.2) m

end Sys2Proof.Machine
end

