-- ==== Sys2Proof/Machine/State.lean ====
section
/-!
DEFINITION. Everything the spec gives the machine, as plain data, and the state right after reset. Sparse lists of
key and value pairs stand for register files, memories and tables; the default of each is named where it is read.
INVENTORY.md lists every field with its rule and its reset value.
-/
namespace Sys2Proof.Machine

/-! ## Turns and answers: the model's own state -/

/-- The clocks of the package: the 1 GHz time register, the clock of a cluster, the uncore clock of a die (R23,
R396), and the clock of the copy engines, the slices and the memory-side caches, one for both dies (R299, R300; log 53). -/
inductive Clock where
  | time
  | clu (c : Nat)
  | die (d : DieId)
  | fab
  deriving DecidableEq, Repr

/-- Who moves next (log 1). `thread` issues one word of a thread: entry j of `old` asks for an old value of the j-th
aligned 8-byte part of the fetch where R90 allows one (1 for the value before the last store, 2 for the one before
that), and bit e of `early` lets an unordered vector instruction perform element e before it traps at a lower one
(R123). `late` lets the parts of a late load that `els` names, bit j for part j, take their values now (R229). `event` runs
an event row of the opcode table. `perform` performs a pending write (R230), and `copyWrite` one line write of a copy
(R226). `tick` advances a clock. `target` is someone who writes the boot slots (R362, R397). `evict` drops a cached translation (R354). `outside` is an outside party that writes its own memory, and
`peerGrant` a peer that sets its inbound windows, as (first 64 KiB unit, units, reads, writes) (R360, R377). `ownership` holds
the ownership writes that reach the hub in one cycle, as (master, offset, value) (R373). `hostRead` is a master that
reads a register (R361, R372), and `hotThreshold` sets the threshold of a hot-page tracker (R296). -/
inductive Turn where
  | thread (tid : Nat) (old : List Nat) (early : Nat)
  | late (tid n els : Nat)
  | event (i : Instr)
  | perform (tid n : Nat)
  | copyWrite (core ord n : Nat)
  | tick (c : Clock) (n : Nat)
  | evict (clu : Nat) (asid page : Nat)
  | outside (addr : Nat) (bytes : List Byte)
  | peerGrant (node : Nat) (windows : List (Nat × Nat × Bool × Bool))
  | ownership (writes : List (BitVec 16 × Nat × Word))
  | hostRead (m : BitVec 16) (addr size : Nat)
  | hotThreshold (die : DieId) (n : Nat)
  | target (b : BootInput)
  deriving DecidableEq, Repr

/-- What an outside party was answered. -/
inductive Response where
  /-- CXL.mem read data; none stands for poison and no data (R369). -/
  | cxlData (addr : Nat) (data : Option (List Byte))
  /-- Read or atomic data to a Holt peer (R376). -/
  | peerData (node addr : Nat) (data : List Byte)
  /-- Acknowledgement of a peer write (R376). -/
  | peerAck (node addr : Nat)
  /-- A refused peer access: PROT at the issuer (R377). -/
  | peerRefused (node addr : Nat)
  /-- Data of a granted remote read (R295). -/
  | remoteData (stack reader addr : Nat) (data : List Byte)
  /-- ACCESSCTL to the remote reader (R295). -/
  | remoteRefused (stack reader addr : Nat)
  /-- An SPDM answer: response code and payload (R366). -/
  | spdm (code : Nat) (payload : List Byte)
  /-- Unsupported Request for a dropped non-posted PCIe request (R372). -/
  | unsupported (m : BitVec 16)
  /-- Pages that the hot-page tracker proposes to Ciros (R296): die, page size in bits, page numbers. -/
  | hotPages (die : DieId) (pages : List (Nat × Nat))
  /-- The value of a register that a master has read (R361, R372). -/
  | regData (m : BitVec 16) (addr : Nat) (v : Word)
  /-- A context that Ciros has started is halted (R358). -/
  | halted (tid : Nat)
  deriving DecidableEq, Repr

/-! ## Threads -/

/-- The trap causes of R333 that a thread can take. -/
inductive Cause where
  | illegal | fetchfault | datafault | prot | vabsent | noise | keytag | ternbyte | accgrant | claimseq | ringseq
  | regerr | memue | watchdog | brk | trap
  deriving DecidableEq, Repr

/-- One trap bank, R334. -/
structure TrapBank where
  tpc : Word := 0
  tcause : Word := 0
  tval : Word := 0
  telem : Word := 0
  deriving DecidableEq, Repr

/-- One ciphertext register, R22: the mask words and then the body, noise, tag and dimension. -/
structure Cipher where
  words : List (BitVec 32) := [0]
  noise : BitVec 32 := 0
  tag : BitVec 4 := 0
  dim : BitVec 10 := 0
  deriving DecidableEq, Repr

/-- The fields of rlstate, R208. -/
structure RlState where
  isOpen : Bool := false
  posted : Bool := false
  g : Nat := 0
  cnt : Nat := 0
  wave : Nat := 0
  deriving DecidableEq, Repr

/-- A region control block with every field resolved under R315, and where its table entry stands. -/
structure Region where
  rcb : Nat := 0
  id : BitVec 32 := 0
  prio : Nat := 0
  floor : Nat := 0
  weight : Nat := 256
  cap : Nat := 0
  excl : Bool := false
  cycleLimit : Word := 0
  stackBase : Word := 0
  stackSize : Nat := 0
  gp : Word := 0
  roles : Word := 0
  grants : BitVec 32 := 0x40404040
  listBase : Nat := 0
  listLog : Nat := 0
  ring : Option (Nat × Nat) := none
  asid : Nat := 0
  root : Nat := 0
  die : DieId := .a
  idx : Nat := 0
  part : Nat := 0
  chain : List Nat := []
  deriving DecidableEq, Repr

/-- The address space, mode and place under which an access is made. -/
structure Ctx where
  root : Nat := 0
  asid : Nat := 0
  user : Bool := true
  tid : Nat := 0
  deriving DecidableEq, Repr

/-- Whether a context runs: free for the scheduler (R325), issuing, with its `END` issued (R109), stopped by `HALT`
(R223), or ended as a child that no `TJOIN` has joined (R217). -/
inductive Run where
  | free | ready | ending | halted | joinable
  deriving DecidableEq, Repr

/-- A running vector-fetch block (R18, R19): address of the `VF`, address of the next E-word, start of the block the
running group executes, the running group, the pending groups by address, and whether a `vpfetch` has executed. -/
structure Block where
  vf : Word
  epc : Word
  start : Word
  group : List Nat
  pending : List (Nat × List Nat) := []
  diverged : Bool := false
  deriving DecidableEq, Repr

/-- A write that its thread has issued and that is not yet performed (R228 to R230): its path, its bytes with their
bit masks, and what must be performed before it. Entries with the same `ordered` group keep the element order of R234;
`rel` stands for a release (R232); `hedged` holds the to-classes of the `HEDGE`s that name its path (R233). `op` stamps
the contiguous store it belongs to, whose bytes in one line form one write (R226), 0 for any other; `pages` are the
translations that it used, as address space, page and log2 of the size (R354); `joined` says that a `FENCE` has ordered
it with the thread's CT and VLS accesses (R229). -/
structure PendW where
  path : Path
  bytes : List (Nat × Byte × Byte)
  ordered : Option Nat := none
  rel : Bool := false
  hedged : BitVec 7 := 0
  op : Nat := 0
  pages : List (Nat × Nat × Nat) := []
  joined : Bool := false
  deriving DecidableEq, Repr

/-- A `HEDGE` from CPY, COP or EXT that still holds later accesses back: its to-classes, the copy nodes it waits for,
the ciphertext registers of the passes it waits for, and the tickets of the `BGEMV`s (R233). -/
structure Hedge where
  dst : BitVec 7
  nodes : List Nat := []
  passes : List Nat := []
  tickets : List Nat := []
  deriving DecidableEq, Repr

/-- A `WAITM` between two reads (R215, R400). -/
structure WaitM where
  cc : ICond
  d : XReg
  addr : Word
  cmp : Word
  deriving DecidableEq, Repr

/-- What an instruction that waits holds on to: a ring, which a `BANKCFG` may have torn down meanwhile (R213), or a
node (R329). -/
inductive Hold where
  | nothing
  | ring (q : Nat) (torn : Bool)
  | node (ord : Nat)
  deriving DecidableEq, Repr

/-- A `BGEMV` in flight, or one that failed and has not been reported (R193, R194). -/
structure BgOp where
  ticket : Nat
  w : Word
  x : Word
  y : Word
  k : Nat
  n : Nat
  b : Nat
  astr : Nat
  ostr : Nat
  ctx : Ctx
  failed : Option (Cause × Word) := none
  deriving DecidableEq, Repr

/-- An accumulator tile with its state, R178. Accumulators are keyed row × 256 + column; `lastRegion` is the control
block of the region whose task last held it (R7). -/
structure Tile where
  mode : TileMode := .int
  group : Nat := 64
  scales : List (BitVec 32) := [0x3F800000, 0x3F800000, 0x3F800000, 0x3F800000]
  acc : List (Nat × BitVec 32) := []
  tagValid : Bool := false
  tag : BitVec 4 := 0
  nu : Nat := 0
  cnt : List (Nat × Nat) := []
  lastRegion : Option Nat := none
  deriving DecidableEq, Repr

/-- Bytes that a load takes at one moment: the path class, the translations it used, as for a pending write, and the bytes
with their addresses. `direct` says that they passed no slice (R353), `fixed` that no other
value can be taken any more, `joined` that a `FENCE` or an acquire has put them before the thread's later CT and VLS
accesses (R229, R232), and `hedged` holds the to-classes of the `HEDGE`s that name their class (R233). -/
structure Taken where
  path : Path
  pages : List (Nat × Nat × Nat) := []
  bytes : List (Nat × Byte)
  direct : Bool := false
  fixed : Bool := false
  joined : Bool := false
  hedged : BitVec 7 := 0
  deriving DecidableEq, Repr

/-- A record of the accesses of one instruction: values to be taken in place of memory's, in order, what was read, and the
path class and the bytes of each write. -/
structure Trace where
  given : List (List Byte) := []
  got : List Taken := []
  puts : List (Path × List Nat) := []
  deriving DecidableEq, Repr

/-- A load whose values may still be taken later than the accesses that follow it (R224, R229, R231): the instruction, the
parts it read, what it read its operands from, the registers it writes, as kind, first and count, the flags it raises,
and, for an array entry, its tile before and what the thread knew of a stopped `TMMA`. -/
structure Late where
  instr : Instr
  parts : List Taken
  pc : Word
  vstart : Word
  vl : Nat
  vtype : BitVec 16
  dme : Bool
  dmi : MReg
  x : List (Nat × Word)
  v : List (Nat × BitVec 128)
  m : List (Nat × Bool)
  dst : List (RegKind × Nat × Nat)
  flags : BitVec 7 := 0
  tile : Option (Nat × Tile) := none
  tmmaPart : List (Nat × Nat × Nat × Nat) := []
  deriving DecidableEq, Repr

/-- The halt of a partition at a thread (R345): none, asked for, or taken as a forced save (R341). -/
inductive Halting where
  | none | asked | saved
  deriving DecidableEq, Repr

/-- A parity error in a byte of a lane word: group position (register × 8 + position), lane, byte, and the bits of the
byte not written since (R36, R37). -/
structure LaneErr where
  pos : Nat
  lane : Nat
  byte : Nat
  left : BitVec 8 := 0xFF
  deriving DecidableEq, Repr

/-- One hardware context. `regErr` lists the register words with an uncorrectable error (R40). `shrunk` lists the contexts whose exclusive tasks overlap this one's grant, and `reform` says
that a `TFORK` or `TJOIN` has changed the grant since (R331). `ahead` holds x45 to x52 of the next iteration of the same
loop nest, handed to the context while its `END` waits (R325). `resume` is the E-word at which a block halted for a swap
goes on (R148); `stop` a WATCHDOG that is due, with the element at which a vector instruction stops, and `dogged` one
that has been delivered (R327). `haltEl` is the element at which a vector instruction stops for a halt (R341), and
`dogAt` keeps, for a block that a WATCHDOG has interrupted, its `VF`, the tval of that trap and the next E-word (R147,
R327). `tmmaPart` keeps, for a `TMMA` stopped partway, its address, the next M-block, and the
cycles and skipped slabs so far (R187). `entryAt` is the cycle of the last vector entry (R330), and
`entering` says that a delivery has set the pc to svec and no word has been fetched there yet (R335). -/
structure Thread where
  run : Run := .free
  ciros : Bool := false
  sup : Bool := false
  pc : Word := 0
  x : List (Nat × Word) := []
  v : List (Nat × BitVec 128) := []
  vPoison : List (Nat × BitVec 128) := []
  vErr : List LaneErr := []
  regErr : List (RegKind × Nat × Nat) := []
  m : List (Nat × Bool) := []
  c : List (Nat × Cipher) := []
  cPend : List Nat := []
  cFail : List (Nat × Cause × Word) := []
  tb : List (Nat × BitVec 32) := []
  vl : Nat := 0
  vtype : BitVec 16 := 0x0024
  vstart : Word := 0
  vrstate : Word := 0
  vdirty : BitVec 32 := 0
  dme : Bool := false
  dmi : MReg := 0
  grant : BitVec 7 := 0x40
  pendGrant : Option (BitVec 7) := none
  shrunk : List Nat := []
  reform : Bool := false
  ahead : Option (List Word) := none
  fcsr : BitVec 7 := 0
  tstatus : BitVec 5 := 0
  user : TrapBank := {}
  super : TrapBank := {}
  tvec : Word := 0
  svec : Word := 0
  rl : RlState := {}
  region : Option Region := none
  task : Option Nat := none
  tiles : List Nat := []
  blk : Option Block := none
  resume : Option Word := none
  stop : Option Nat := none
  stopCycle : Nat := 0
  dogged : Bool := false
  halt : Halting := .none
  haltEl : Nat := 0
  dogAt : Option (Word × Word × Word) := none
  entering : Bool := false
  entryAt : Nat := 0
  used : Nat := 0
  waitm : Option WaitM := none
  holds : Hold := .nothing
  pend : List PendW := []
  late : List Late := []
  hedges : List Hedge := []
  fences : List (Nat × Nat) := []
  tickets : Nat := 0
  bg : List BgOp := []
  parent : Option Nat := none
  children : List Nat := []
  vt : Nat := 0
  lastTmma : Nat × Nat × Nat := (0, 0, 0)
  tmmaPart : List (Nat × Nat × Nat × Nat) := []
  deriving DecidableEq, Repr

/-! ## Cores -/

/-- What a graph node does when it launches, R218. -/
inductive NodeOp where
  | cpy (dst src : Word) (len : Nat)
  | cpy2d (dst src : Word) (rows len : Nat) (dstr sstr : BitVec 32)
  | cpyg (dst src : Word) (items size : Nat) (list : Word) (w64 : Bool)
  | gnode (pkt : Word)
  deriving DecidableEq, Repr

/-- State of a live or failed node. A finished node is no longer listed (R218, R219). -/
inductive NodeSt where
  | waiting
  | launched
  | failed (cause : Cause) (tval : Word)
  deriving DecidableEq, Repr

/-- Where an access lands: physical address, cached attribute, TERNBANK and PEERDST of its page (R351), log2 of the
page size. -/
structure Phys where
  pa : Nat
  cached : Bool := false
  tern : Bool := false
  pd : Bool := false
  log : Nat := 0
  deriving DecidableEq, Repr

/-- A translated piece of a range: virtual address, physical place, length. -/
structure Piece where
  va : Word
  place : Phys
  len : Nat
  deriving DecidableEq, Repr

/-- A read of a copy within one line: its number, which is that of its row × 2^64 plus its number in the row, and its place
(R299). -/
structure CopyPart where
  ix : Nat
  piece : Piece
  deriving DecidableEq, Repr

/-- A node of the dependence graph. `seq` numbers the nodes of the core in the order of creation, without wrapping (R221).
A launched copy holds its rows as (destination, length), the parts not yet read (`todo`), those under way (`out`, with the
cycle in which a read of the window returns), the bytes of those that have returned (`data`, by part), the first fault
that its reads have met with the number of its part (`bad`), the cycle in which each row was whole (`whole`), the push
numbers of the ring slots published, and the line writes performed (R218, R220, R226, R299 to R301). -/
structure Node where
  op : NodeOp
  seq : Nat := 0
  ring : Option Nat := none
  preds : Nat := 0
  held : Bool := false
  succs : List Nat := []
  st : NodeSt := .waiting
  ctx : Ctx := {}
  region : Option Region := none
  rows : List (Word × Nat) := []
  todo : List CopyPart := []
  out : List (CopyPart × Option Nat) := []
  data : List (Nat × List Byte) := []
  bad : Option (Nat × Cause × Word) := none
  whole : List (Nat × Nat) := []
  slots : List Nat := []
  wrote : List Nat := []
  deriving DecidableEq, Repr

/-- A cached translation: address space, virtual page base, log2 of the page size, table entry (R354). -/
structure TlbEntry where
  asid : Nat
  page : Nat
  log : Nat
  entry : Word
  deriving DecidableEq, Repr

/-- The state of one core. Weight buffers are keyed buffer × 13,312 + offset. `accErr` lists
the accumulator words with a parity error, as tile and row × 256 + column (R40). `turn` lists the threads whose turn it is
at the vector sequencer, `want` those that wait for one (R330); `beats` counts element-beats by region in window
`beatsWin` (R328). -/
structure CoreState where
  wb : List (Nat × Byte) := []
  wbAddr : List (Nat × Word × Ctx) := []
  wbBad : List (Nat × Nat) := []
  tiles : List (Nat × Tile) := []
  accErr : List (Nat × Nat) := []
  nodes : List (Nat × Node) := []
  nextOrd : Nat := 1
  tlb : List TlbEntry := []
  turn : List Nat := []
  want : List Nat := []
  beats : List (Nat × Nat) := []
  beatsWin : Nat := 0
  deriving DecidableEq, Repr

/-! ## Clusters -/

/-- Modes of an SRAM bank, R278. -/
inductive BankMode where
  | cache | scratch | fifo
  deriving DecidableEq, Repr

/-- A ring, R213: first bank, banks, slot size in 128-byte units, push count, one cursor per consumer. -/
structure Ring where
  bank : Nat
  nb : Nat
  ss : Nat
  push : Nat := 0
  cursors : List Nat
  deriving DecidableEq, Repr

/-- A line of the cluster cache, R280. -/
structure CacheLine where
  line : Nat
  way : Nat
  pinned : Bool := false
  dirty : Bool := false
  deriving DecidableEq, Repr

/-- A posted claim, R209. -/
structure Post where
  item : Word
  tid : Nat
  elem : Nat
  sig : Nat
  deriving DecidableEq, Repr

/-- An answer that stands in the Fold for a context: elements posted and elements admitted (R309). -/
structure Answer where
  posted : List Nat
  admitted : List Nat
  deriving DecidableEq, Repr

/-- The Fold and the Shepherd of a cluster, R208 to R212. `due` holds, once the wave is closed, the cycle of its
answer. -/
structure Fold where
  isOpen : Bool := false
  c : Nat := 0
  g : Nat := 0
  joined : List Nat := []
  left : List Nat := []
  posts : List Post := []
  posted : List Nat := []
  wave : Nat := 0
  due : Option Nat := none
  answers : List (Nat × Answer) := []
  deriving DecidableEq, Repr

/-- A bound keyset slot, R195. -/
structure KeySlot where
  bk : Word
  ksk : Word
  fresh : BitVec 32
  ceil : BitVec 32
  n : Nat
  ctx : Ctx
  deriving DecidableEq, Repr

/-- A member of a drove: the destination and what the `CREF` read when it issued (R272). -/
structure Member where
  tid : Nat
  cd : Nat
  src : Cipher
  p : Nat
  entries : List (BitVec 32)
  deriving DecidableEq, Repr

/-- A drove, open or started, R202 and R203. -/
structure Drove where
  slot : Nat
  count : Nat
  members : List Member := []
  opener : Option Nat := none
  first : Option Nat := none
  deriving DecidableEq, Repr

/-- A barrier: count of the first arrival, threads that have arrived, threads released and not yet gone (R215). -/
structure Barrier where
  count : Nat
  arrived : List Nat := []
  released : List Nat := []
  deriving DecidableEq, Repr

/-- The state of one cluster. `counters` holds the six counters of R394; `joined` says for the bootstrapping key and for
the keyswitch key whether the running pass began while another of its die streamed the same one (R204, R275); `walked` says
when the walker handed out its last iteration (R326), and `served` until which cycle a bank serves line reads of copies
(R299). -/
structure Cluster where
  modes : List (Nat × BankMode) := []
  lines : List CacheLine := []
  counters : List (Nat × Nat) := []
  rings : List (Nat × Ring) := []
  fold : Fold := {}
  keys : List (Nat × KeySlot) := []
  droves : List Drove := []
  started : List (Drove × KeySlot) := []
  running : Option (Drove × KeySlot × Nat) := none
  joined : Bool × Bool := (false, false)
  bars : List (Nat × Barrier) := []
  tlb : List TlbEntry := []
  walked : Option Nat := none
  served : List (Nat × Nat) := []
  cycle : Nat := 0
  deriving DecidableEq, Repr

/-! ## Dies -/

/-- A loop-nest record, R320: start, count and step of each dimension, outermost first. -/
structure Nest where
  addr : Word
  dims : List (Word × Nat × BitVec 32)
  deriving DecidableEq, Repr

/-- A consumed launch packet whose tasks have not all ended (R319, R322). `placed` of `total` tasks have been
placed and `running` of them run; `bound` is the cluster whose walker holds it. -/
structure Packet where
  uid : Nat
  region : Region
  addr : Nat
  role : Nat
  clu : Option Nat
  evMiss : Bool
  deadline : Word
  entry : Word
  args : List Word
  nest : Option Nest
  compAddr : Word
  compVal : Word
  total : Nat
  placed : Nat := 0
  running : Nat := 0
  missed : Bool := false
  bound : Option Nat := none
  node : Option (Nat × Nat) := none
  deriving DecidableEq, Repr

/-- The saved context of a partition, R346. -/
structure Snapshot where
  threads : List (Nat × Thread) := []
  cores : List (Nat × CoreState) := []
  clusters : List (Nat × Cluster) := []
  sram : List (Nat × Byte) := []
  poison : List (Nat × Bool) := []
  deriving DecidableEq, Repr

/-- State of a partition, R348. -/
inductive PartSt where
  | out | resident | halting | restoring
  deriving DecidableEq, Repr

/-- One partition-table entry, R348; `w0` keeps the reserved bits of word 0. -/
structure Part where
  en : Bool := false
  err : Bool := false
  st : PartSt := .out
  w0 : Word := 0
  clu : BitVec 8 := 0
  svec : Word := 0
  w2 : Word := 0
  w3 : Word := 0
  saved : Snapshot := {}
  deriving DecidableEq, Repr

/-- The swap in progress and SWAPSTAT, R349. -/
structure Swap where
  busy : Bool := false
  done : Bool := false
  err : Bool := false
  outP : Option Nat := none
  inP : Option Nat := none
  saved : Bool := false
  since : Nat := 0
  dur : Nat := 0
  deriving DecidableEq, Repr

/-- One DRAM bank of a channel: owed refreshes, frequent-row tracker, activations held (R383 to R386). -/
structure Bank where
  owed : Nat := 0
  rows : List (Nat × Nat) := []
  held : Bool := false
  deriving DecidableEq, Repr

/-- One HBM4 channel controller, R385; `rsv` keeps the reserved bits of its register. `free` is the first cycle in
which its memory-side cache can accept a request (R300). -/
structure Channel where
  rsv : Word := 0
  free : Nat := 0
  thr : Nat := 2048
  br : Nat := 1
  rm : Nat := 0
  alerts : Nat := 0
  banks : List (Nat × Bank) := []
  deriving DecidableEq, Repr

/-- A line read of a copy node in a slice queue: core and ordinal of the node, the part, whether the slice holds the line,
the cycle in which the request entered the queue, the one in which it reached the head, and the one in which the
memory-side cache accepts it (R290, R300). -/
structure SliceReq where
  core : Nat
  ord : Nat
  part : CopyPart
  hit : Bool
  arr : Nat
  head : Nat
  acc : Nat
  deriving DecidableEq, Repr

/-- The state of one compute die. `freed` holds the cycle in which an entry of a slice queue was last freed (R300). Range and access words are keyed entry × 2 + word. -/
structure DieState where
  range : List (Nat × Word) := []
  regionW : List (Nat × Word) := []
  regions : List (Nat × Region) := []
  parts : List (Nat × Part) := []
  swap : Swap := {}
  packets : List Packet := []
  channels : List (Nat × Channel) := []
  access : List (Nat × Word) := []
  hot : List (Nat × Nat × Nat) := []
  hotThr : Nat := 4096
  hotSkip : List (Nat × Nat) := []
  hotEpoch : Nat := 0
  slices : List (Nat × List SliceReq) := []
  freed : List (Nat × Nat) := []
  cycle : Nat := 0
  deriving DecidableEq, Repr

/-! ## The hub -/

/-- A RAS record, R392. -/
structure Ras where
  time : Word
  code : Nat
  cls : Nat
  die : Nat
  unit : Nat
  detail : Word
  deriving DecidableEq, Repr

/-- One island, R395; `rsv` keeps the reserved bits of word 1. -/
structure Island where
  temp : Nat := 0
  pwr : Nat := 0
  clk : Nat := 1750
  prio : Nat := 0
  fmax : Nat := 1750
  rsv : Word := 0
  deriving DecidableEq, Repr

/-- A reduction group, R378 and R379: the register and the descriptor read at the enabling write. -/
structure RedGroup where
  reg : Word := 0
  ty : Ty := .s32
  ranks : Nat := 0
  core : Nat := 0
  count : Nat := 0
  landing : Nat := 0
  arrival : Nat := 0
  compAddr : Nat := 0
  compVal : Word := 0
  deriving DecidableEq, Repr

/-- The wipe record W, R399. -/
structure Wipe where
  count : Nat := 0
  cause : Nat := 0
  stackBits : BitVec 8 := 0
  failed : BitVec 8 := 0
  dur : Word := 0
  unread : List Byte := []
  deriving DecidableEq, Repr

/-- State of the hub and of Ciros. `target` is what the boot slots hold (R362, R397; log 31). -/
structure Hub where
  epoch : Nat := 0
  valid : Bool := false
  owner : BitVec 16 := 0
  timer : Nat := 0
  meas : List (Nat × List Byte) := []
  life : Nat := 0
  identity : Bool := false
  part : Nat := 1
  isModule : Bool := false
  step : Nat := 0
  fclu : BitVec 16 := 0xFFFF
  stk : BitVec 8 := 0xFF
  keyHash : List (Nat × List Byte) := []
  revoked : List Nat := []
  minVersion : Nat := 0
  retired : List (Nat × Word) := []
  clu : BitVec 16 := 0xFFFF
  cores : List (Nat × BitVec 8) := []
  halfLanes : List (Nat × BitVec 8) := []
  chans : List (Nat × BitVec 32) := []
  ras : List (Nat × Ras) := []
  rasCount : Nat := 0
  fatal : List Ras := []
  windows : List (Nat × Word) := []
  redg : List (Nat × RedGroup) := []
  node : BitVec 11 := 0
  linksUp : List Nat := []
  islands : List (Nat × Island) := []
  cap : Nat := 1500
  wiping : Bool := false
  wipeCause : Nat := 0
  wipe : Wipe := {}
  target : BootInput := { slotA := none, slotB := none }
  verifying : Bool := false
  recovery : Bool := false
  booted : Bool := false
  readyPoint : Bool := false
  ready : Bool := false
  verifySlot : Nat := 0
  verify : Nat := 0
  verifyVersion : BitVec 32 := 0
  shadowReg : Word := 0
  shadow : Nat × Nat := (0, 0)
  regs : List (Nat × Word) := []
  deriving DecidableEq, Repr

/-! ## The package -/

/-- A party that stores, as the scopes of R227 tell parties apart: a thread, the copy engines of a core, the units of a
cluster, the bank units of a die, the hub, or a party outside the package. -/
inductive Party where
  | thread (tid : Nat)
  | core (k : Nat)
  | clu (c : Nat)
  | die (d : DieId)
  | hub
  | outside
  deriving DecidableEq, Repr

/-- A store to an 8-byte part: the value before it, the party that stored, and when a `CFLUSH` first covered it
(R90). -/
structure OldPart where
  old : Word
  writer : Party
  flushed : Option Nat := none
  deriving DecidableEq, Repr

/-- The whole machine. `mem` is keyed by physical address, with the SRAM of cluster c at `sramBase` + c × 4 MiB
(log 5); `poison`, `old` and `stale` are keyed by physical address ÷ 8. `old` holds the
stores to a part, oldest first (R90); `stale` the values of a part before each of its writes that no `CFLUSH.sys` has
covered (R236); `tern` lists the pages that TERNBANK mappings have reached, as base and log2 of the size (R291); `veil`
the ranges of memory that a swap-out has filled with bytes the spec does not give, as first byte, end and first index of
their free values (R347); `held` the lines that a slice may hold, and `moved` the ranges of lines whose home has changed
while a slice held one of them (R289); `keyAt` the physical ranges of the keys of the running passes, as cluster, first
byte and end, and `keyHit` the clusters whose keys have changed while their pass ran (R195); `redOld` the values of parts of reduction slots before the writes that came after
their arrival bit (R380); `peers` the inbound windows of each peer; `fetchOld` and `early` are the choices of the running turn. `trace` records the
accesses of an instruction whose values may be taken late, where it is not none (R229); `fab` is the cycle of the copy
engines, slices and memory-side caches (R299). `gnodes` names, for each packet that a `GNODE` placed and
that is not yet consumed, its control block and number, and the core and ordinal of the node. -/
structure State where
  turns : List Turn := []
  cur : Nat := 0
  fetchOld : List Nat := []
  early : Nat := 0
  mem : List (Nat × Byte) := []
  poison : List (Nat × Bool) := []
  old : List (Nat × List OldPart) := []
  stale : List (Nat × List Word) := []
  threads : List (Nat × Thread) := []
  cores : List (Nat × CoreState) := []
  clusters : List (Nat × Cluster) := []
  dieA : DieState := {}
  dieB : DieState := {}
  hub : Hub := {}
  time : Word := 0
  peers : List (Nat × List (Nat × Nat × Bool × Bool)) := []
  tern : List (Nat × Nat) := []
  veil : List (Nat × Nat × Nat) := []
  held : List (Nat × Bool) := []
  moved : List (Nat × Nat) := []
  keyAt : List (Nat × Nat × Nat) := []
  keyHit : List Nat := []
  redOld : List (Nat × List Word) := []
  gnodes : List (Nat × Nat × Nat × Nat) := []
  out : List Response := []
  freeIx : Nat := 0
  stamp : Nat := 0
  uid : Nat := 0
  trace : Option Trace := none
  fab : Nat := 0
  deriving DecidableEq, Repr

/-- Reasons a step can stop the machine. -/
inductive Fault where
  /-- Raised by `step` when a turn names a machine instruction as an event: no agent of the device does so. Safe. -/
  | badTurn
  deriving DecidableEq, Repr

/-- Reasons a step has no meaning. -/
inductive Refusal where
  /-- Raised by an arm of `exec` whose instruction has no meaning yet. Safe. -/
  | notModelled (mnemonic : String)
  deriving DecidableEq, Repr

/-- The machine right after reset: registers, engines and tables at their reset values, HBM4 and cluster SRAM zero,
every context free (R279, R313, R368), and the wipe that every reset starts in progress. -/
def State.reset : State := { hub := { wiping := true } }

end Sys2Proof.Machine
end

