-- ==== Sys2Proof/Machine/Ops.lean ====
section
/-!
DEFINITION. Named operations over the state: contexts and registers, the RAS log, physical memory, pending writes and
their performance, translation, and taking and leaving an exception. Every meaning is written over these.
-/
namespace Sys2Proof.Machine

/-! ## Contexts, cores, clusters, dies -/

/-- Core of a thread, R23. -/
def coreOf (tid : Nat) : Nat := tid / 4
/-- Cluster of a thread, R23. -/
def cluOf (tid : Nat) : Nat := tid / 32
/-- Die of a cluster, R23. -/
def dieOf (clu : Nat) : DieId := if clu < 8 then .a else .b
/-- Number of a die: 0 for A, 1 for B. -/
def dieNo : DieId → Nat
  | .a => 0
  | .b => 1

/-- A thread context. -/
def State.thread (s : State) (t : Nat) : Thread := mapGet {} s.threads t
/-- Replaces a thread context. -/
def State.setThread (s : State) (t : Nat) (th : Thread) : State := { s with threads := mapSet s.threads t th }
/-- Changes a thread context. -/
def State.modThread (s : State) (t : Nat) (f : Thread → Thread) : State := s.setThread t (f (s.thread t))
/-- A core. -/
def State.core (s : State) (k : Nat) : CoreState := mapGet {} s.cores k
/-- Replaces a core. -/
def State.setCore (s : State) (k : Nat) (c : CoreState) : State := { s with cores := mapSet s.cores k c }
/-- Changes a core. -/
def State.modCore (s : State) (k : Nat) (f : CoreState → CoreState) : State := s.setCore k (f (s.core k))
/-- A cluster. -/
def State.cluster (s : State) (k : Nat) : Cluster := mapGet {} s.clusters k
/-- Replaces a cluster. -/
def State.setCluster (s : State) (k : Nat) (c : Cluster) : State := { s with clusters := mapSet s.clusters k c }
/-- Changes a cluster. -/
def State.modCluster (s : State) (k : Nat) (f : Cluster → Cluster) : State := s.setCluster k (f (s.cluster k))
/-- A die. -/
def State.die (s : State) : DieId → DieState
  | .a => s.dieA
  | .b => s.dieB
/-- Replaces a die. -/
def State.setDie (s : State) (d : DieId) (x : DieState) : State :=
  match d with
  | .a => { s with dieA := x }
  | .b => { s with dieB := x }
/-- Changes a die. -/
def State.modDie (s : State) (d : DieId) (f : DieState → DieState) : State := s.setDie d (f (s.die d))
/-- Changes the hub. -/
def State.modHub (s : State) (f : Hub → Hub) : State := { s with hub := f s.hub }
/-- The thread that issues. -/
def State.me (s : State) : Thread := s.thread s.cur
/-- Changes the thread that issues. -/
def State.modMe (s : State) (f : Thread → Thread) : State := s.modThread s.cur f
/-- Adds to a counter of R394. -/
def State.count (s : State) (clu ix n : Nat) : State :=
  s.modCluster clu fun c => { c with counters := mapSet c.counters ix ((mapGet 0 c.counters ix + n) % 2 ^ 64) }

/-! ## Registers -/

/-- Reads an x-register; x0 reads zero (R20). -/
def Thread.rx (th : Thread) (r : XReg) : Word := if r = 0 then 0 else mapGet 0 th.x r.toNat
/-- Writes an x-register; a write to x0 is discarded (R20). -/
def Thread.wx (th : Thread) (r : XReg) (v : Word) : Thread :=
  if r = 0 then th else { th with x := mapSet th.x r.toNat v }
/-- ORs flags into fcsr (R47). -/
def Thread.orFlags (th : Thread) (fl : BitVec 7) : Thread := { th with fcsr := th.fcsr ||| fl }
/-- Rounding mode of a two-bit field, R48. -/
def rmOf (x : BitVec 2) : Rm :=
  match x.toNat with
  | 0 => .rne
  | 1 => .rtz
  | 2 => .rdn
  | _ => .rup
/-- fcsr.frm, R46. -/
def Thread.frm (th : Thread) : Rm := rmOf (th.fcsr.extractLsb' 5 2)
/-- tstatus.VA, R34. -/
def Thread.va (th : Thread) : Bool := th.tstatus.getLsbD 0
/-- tstatus.VR, R147. -/
def Thread.vr (th : Thread) : Bool := th.tstatus.getLsbD 1
/-- tstatus.UH, R334. -/
def Thread.uh (th : Thread) : Bool := th.tstatus.getLsbD 3
/-- tstatus.UB, R334. -/
def Thread.ub (th : Thread) : Bool := th.tstatus.getLsbD 4
/-- Sets one bit of tstatus. -/
def Thread.setSt (th : Thread) (bit : Nat) (b : Bool) : Thread :=
  { th with tstatus := (th.tstatus &&& ~~~((1 : BitVec 5) <<< bit)) ||| (if b then (1 : BitVec 5) <<< bit else 0) }
/-- A ciphertext register. -/
def Thread.cipher (th : Thread) (c : CReg) : Cipher := mapGet {} th.c c.toNat
/-- Word i of a table register: 0 to 7 the header, 8 to 263 the entries (R206). -/
def Thread.tbWord (th : Thread) (t : TbReg) (i : Nat) : BitVec 32 := mapGet 0 th.tb (t.toNat * 264 + i)
/-- Bit e of a mask register. -/
def Thread.mbit (th : Thread) (m : MReg) (e : Nat) : Bool := mapGet false th.m (m.toNat * 8192 + e)
/-- Writes bit e of a mask register. -/
def Thread.setMbit (th : Thread) (m : MReg) (e : Nat) (b : Bool) : Thread :=
  { th with m := mapPut false th.m (m.toNat * 8192 + e) b }

/-! ## RAS log -/

/-- Writes a record into the RAS ring; a fatal record also goes to the persistent log of 64 (R392). -/
def State.logRas (s : State) (code cls die unit : Nat) (detail : Word) : State :=
  let r : Ras := { time := s.time, code := code, cls := cls, die := die, unit := unit, detail := detail }
  s.modHub fun h =>
    { h with ras := mapSet h.ras (h.rasCount % 4096) r, rasCount := h.rasCount + 1,
             fatal := if cls = 3 then (h.fatal ++ [r]).drop (h.fatal.length - 63) else h.fatal }

/-- An answer to an outside party. -/
def State.answer (s : State) (r : Response) : State := { s with out := s.out ++ [r] }

/-! ## Physical memory -/

/-- Key of the first byte of the SRAM of cluster 0; the physical map of R360 lies below 2^52. -/
def sramBase : Nat := 2 ^ 52
/-- Bytes of SRAM of a cluster, R278. -/
def sramSize : Nat := 2 ^ 22
/-- What a byte that nothing has written reads as (log 5). -/
def memDefault : Byte := 0

/-- The canonical form of a memory: addresses rise, and no entry equals what an unlisted address reads as. -/
def Memory.wf (m : List (Nat × Byte)) : Bool := mapWf memDefault m

/-- The index of the free value that the first range with an address gives it. -/
def veilFind (l : List (Nat × Nat × Nat)) (pa : Nat) : Option Nat :=
  (l.find? fun v => v.1 ≤ pa && pa < v.2.1).map fun v => v.2.2 + (pa - v.1)

/-- The free value that a swap-out has left at an address of HBM4 and nothing has written over, as its index (R347). -/
def veilAt (l : List (Nat × Nat × Nat)) (pa : Nat) : Option Nat := if pa < 2 ^ 39 then veilFind l pa else none

/-- Ranges without one address. -/
def unveil (l : List (Nat × Nat × Nat)) (pa : Nat) : List (Nat × Nat × Nat) :=
  l.flatMap fun v =>
    if v.1 ≤ pa ∧ pa < v.2.1 then [(v.1, pa, v.2.2), (pa + 1, v.2.1, v.2.2 + (pa + 1 - v.1))] else [v]

/-- A byte of memory as the coherence point holds it. -/
def State.byte (s : State) (pa : Nat) : Byte :=
  match veilAt s.veil pa with
  | some i => Config.freeByte i
  | none => mapGet memDefault s.mem pa
/-- n bytes at an address, as a little-endian number (R4). -/
def State.readPhys (s : State) (pa : Nat) : Nat → Nat
  | 0 => 0
  | n + 1 => (s.byte pa).toNat + 256 * s.readPhys (pa + 1) n
/-- n bytes at an address. -/
def State.bytesPhys (s : State) (pa n : Nat) : List Byte := (List.range n).map fun i => s.byte (pa + i)

/-- A byte under a bit mask (R42). -/
def mergeByte (old new mask : Byte) : Byte := (old &&& ~~~mask) ||| (new &&& mask)

/-- Writes one byte under a bit mask. The list stays canonical. -/
def State.putByte (s : State) (pa : Nat) (b mask : Byte) : State :=
  { s with mem := mapPut memDefault s.mem pa (mergeByte (s.byte pa) b mask), veil := unveil s.veil pa }

/-- Records the value of an 8-byte part before a write: what fetches (R90) and remote readers (R236) may still see. -/
def State.recordOld (s : State) (writer : Party) (part : Nat) : State :=
  let v := wordN (s.readPhys (8 * part) 8)
  { s with old := mapSet s.old part (mapGet [] s.old part ++ [{ old := v, writer := writer }]),
           stale := mapSet s.stale part (mapGet [] s.stale part ++ [v]) }

/-- The distinct 8-byte parts of a list of byte writes, in order. -/
def partsOf (bs : List (Nat × Byte × Byte)) : List Nat := (bs.map fun b => b.1 / 8).eraseDups

/-- The bits of a byte that a list of writes covers. -/
def bitsWritten (bs : List (Nat × Byte × Byte)) (pa : Nat) : Byte :=
  bs.foldl (fun m b => if b.1 = pa then m ||| b.2.2 else m) 0

/-- The writes cover every bit of a part. -/
def coversPart (bs : List (Nat × Byte × Byte)) (part : Nat) : Bool :=
  (List.range 8).all fun i => bitsWritten bs (8 * part + i) == 0xFF

/-- A write of all 8 bytes of a part clears its poison (R355). -/
def State.clearPoison (s : State) (bs : List (Nat × Byte × Byte)) : State :=
  if s.poison.isEmpty then s
  else { s with poison := s.poison.filter fun p => !coversPart bs p.1 }

/-- Notes the clusters whose running pass has a key byte that a write changes (R195). -/
def State.noteKeys (s : State) (bs : List (Nat × Byte × Byte)) : State :=
  if s.keyAt.isEmpty then s
  else
    let changed := bs.filter fun b => mergeByte (s.byte b.1) b.2.1 b.2.2 != s.byte b.1
    let hit := (s.keyAt.filter fun k => changed.any fun b => k.2.1 ≤ b.1 && b.1 < k.2.2).map (·.1)
    { s with keyHit := (s.keyHit ++ hit).eraseDups }

/-- Bytes of a slot, R379. -/
def RedGroup.slot (r : RedGroup) : Nat := 128 * ((r.count * (r.ty.width / 8) + 127) / 128)

/-- A part lies in a slot of an enabled reduction group whose rank has set its arrival bit (R379, R380). -/
def State.slotArrived (s : State) (part : Nat) : Bool :=
  s.hub.redg.any fun g =>
    let r := g.2
    r.reg.getLsbD 63 && r.landing ≤ 8 * part && 8 * part < r.landing + r.ranks * r.slot
      && (s.readPhys r.arrival 8).testBit ((8 * part - r.landing) / r.slot)

/-- Keeps the value of a part that a write changes after its arrival bit (R380). -/
def State.noteRed (s : State) (bs : List (Nat × Byte × Byte)) : State :=
  if s.hub.redg.isEmpty then s
  else
    (partsOf bs).foldl (fun s p =>
      if s.slotArrived p then
        { s with redOld := mapSet s.redOld p (mapGet [] s.redOld p ++ [wordN (s.readPhys (8 * p) 8)]) } else s) s

/-- Performs a write: at this moment it is visible to every party (R230). -/
def State.performBytes (s : State) (writer : Party) (bs : List (Nat × Byte × Byte)) : State :=
  let s := (partsOf bs).foldl (fun s p => s.recordOld writer p) ((s.noteKeys bs).noteRed bs)
  let s := bs.foldl (fun s b => s.putByte b.1 b.2.1 b.2.2) s
  s.clearPoison bs

/-- The n bytes of a number at an address, as a write of whole bytes. -/
def numWrite (pa n x : Nat) : List (Nat × Byte × Byte) :=
  (leBytes n x).zipIdx.map fun p => (pa + p.2, p.1, 0xFF)

/-- A list of bytes at an address, as a write of whole bytes. -/
def listWrite (pa : Nat) (bs : List Byte) : List (Nat × Byte × Byte) := bs.zipIdx.map fun p => (pa + p.2, p.1, 0xFF)

/-- The 8-byte part of an address is poisoned (R355). -/
def State.poisoned (s : State) (pa : Nat) : Bool := !s.poison.isEmpty && mapGet false s.poison (pa / 8)

/-! ## Pending writes: R228 to R234 -/

/-- A byte as the writes of a list leave it. -/
def overlay (bs : List (Nat × Byte × Byte)) (pa : Nat) (b : Byte) : Byte :=
  bs.foldl (fun b w => if w.1 = pa then mergeByte b w.2.1 w.2.2 else b) b

/-- The line of an address has changed its home slice while a slice held it, and no `CFLUSH` has reached it since
(R289). -/
def State.hasMoved (s : State) (pa : Nat) : Bool := s.moved.any fun m => m.1 ≤ pa / 128 && pa / 128 ≤ m.2

/-- A byte as a path finds it: one of a line whose home has changed may be stale, with the value that its part had before
one of its writes, as the free choice falls (R289, log 9). The bank units pass no slice (R285). -/
def State.homeByte (s : State) (path : Path) (pa : Nat) : Byte :=
  if path = .bnk || !s.hasMoved pa then s.byte pa
  else
    let l := mapGet [] s.stale (pa / 8)
    match l[Config.pick (s.freeIx * 2 ^ 49 + pa / 8) % (l.length + 1)]? with
    | some w => (leBytes 8 w.toNat).getD (pa % 8) 0
    | none => s.byte pa

/-- A read has used its free choices of stale values (R289). -/
def State.tookBytes (s : State) : State := if s.moved.isEmpty then s else { s with freeIx := s.freeIx + 1 }

/-- CT or VLS, the paths that fences order (R229, R232). -/
def fencedPath : Path → Bool
  | .ct | .vls => true
  | _ => false

/-- A thread's read on a path comes after its own pending write: one of that path (R228), or one that a `FENCE` has ordered
with the thread's CT and VLS accesses (R229). -/
def PendW.seenOn (w : PendW) (path : Path) : Bool := w.path == path || (w.joined && fencedPath path)

/-- A byte as a thread reads it on a path: its own unperformed writes that come before the read lie over memory (R228,
R229, R230). A `direct` read passes no slice, so that none of what a slice may hold reaches it (R353). -/
def State.seeByte (s : State) (tid : Nat) (path : Path) (pa : Nat) (direct : Bool := false) : Byte :=
  (s.thread tid).pend.foldl (fun b w => if w.seenOn path then overlay w.bytes pa b else b)
    (if direct then s.byte pa else s.homeByte path pa)

/-- n bytes as a thread reads them on a path. -/
def State.seeBytes (s : State) (tid : Nat) (path : Path) (pa n : Nat) (direct : Bool := false) : List Byte :=
  (List.range n).map fun i => s.seeByte tid path (pa + i) direct

/-- Two pending writes touch a common byte. -/
def PendW.meets (p q : PendW) : Bool := p.bytes.any fun b => q.bytes.any fun c => b.1 == c.1

/-- A class mask of R88 names a path. -/
def maskHas (m : BitVec 7) (p : Path) : Bool := m.getLsbD p.bit

/-- An earlier entry p keeps a later entry q from being performed: a release (R232), the same byte on the same path
(R228), an ordered store (R234), a `HEDGE` or a wider `FENCE` that puts it before (R229, R233), or, for the same byte, a
`FENCE` of scope thr between CT and VLS accesses (R227, R229). -/
def PendW.blocks (p q : PendW) : Bool :=
  (q.rel && fencedPath p.path) || ((p.path == q.path || (p.joined && fencedPath q.path)) && p.meets q)
    || (q.ordered.isSome && p.ordered == q.ordered) || maskHas p.hedged q.path

/-- Performs the n-th pending write of a thread, when nothing before it must come first. -/
def State.performNth (s : State) (tid n : Nat) : State :=
  let th := s.thread tid
  match th.pend[n]? with
  | none => s
  | some w =>
    if (th.pend.take n).any (fun p => p.blocks w) then s
    else (s.setThread tid { th with pend := th.pend.eraseIdx n }).performBytes (.thread tid) w.bytes

/-- Splits pending writes into those that `which` names, with every earlier one that must come before one of them, and
the rest. -/
def closePend (which : PendW → Bool) : List PendW → List PendW × List PendW
  | [] => ([], [])
  | w :: ws =>
    let r := closePend which ws
    if which w || r.1.any w.blocks then (w :: r.1, r.2) else (r.1, w :: r.2)

/-- Performs, in order, the pending writes of a thread that `which` names and those that must come before them. -/
def State.drainW (s : State) (tid : Nat) (which : PendW → Bool) : State :=
  let th := s.thread tid
  let r := closePend which th.pend
  if r.1.isEmpty then s
  else r.1.foldl (fun s w => s.performBytes (.thread tid) w.bytes) (s.setThread tid { th with pend := r.2 })

/-- Performs every pending write of a thread on the paths that `which` names. -/
def State.drain (s : State) (tid : Nat) (which : Path → Bool) : State := s.drainW tid fun w => which w.path

/-- Before a write of a thread that is performed at once, as one to a register is (log 10): every pending write that must
come before it. -/
def State.beforeWrite (s : State) (tid : Nat) (w : PendW) : State := s.drainW tid fun p => p.blocks w

/-- Performs every pending write of a thread. -/
def State.drainAll (s : State) (tid : Nat) : State := s.drain tid fun _ => true

/-- Two lists of byte writes share a line. -/
def linesMeet (a b : List (Nat × Byte × Byte)) : Bool := a.any fun x => b.any fun y => x.1 / 128 == y.1 / 128

/-- Adds a pending write. A contiguous store forms one write of its bytes in a line, which an element in two lines joins
(R226, log 10). -/
def addPend (l : List PendW) (w : PendW) : List PendW :=
  match l.getLast? with
  | some p =>
    if w.op != 0 && p.op == w.op && p.path == w.path && linesMeet p.bytes w.bytes then
      l.dropLast ++ [{ p with bytes := p.bytes ++ w.bytes, pages := (p.pages ++ w.pages).eraseDups }]
    else l ++ [w]
  | none => [w]

/-- Notes a write in the record of the running instruction. -/
def State.notePut (s : State) (path : Path) (pas : List Nat) : State :=
  match s.trace with
  | none => s
  | some t => { s with trace := some { t with puts := t.puts ++ [(path, pas)] } }

/-- Issues a write: it stays pending until it is performed. -/
def State.issue (s : State) (tid : Nat) (w : PendW) : State :=
  if w.bytes.isEmpty then s
  else (s.modThread tid fun th => { th with pend := addPend th.pend w }).notePut w.path (w.bytes.map (·.1))

/-! ## Late loads: R224, R228, R229 and R231 -/

/-- The flags of the late loads, which reach fcsr when their values are bound (R47). -/
def lateFlags (l : List Late) : BitVec 7 := l.foldl (fun f x => f ||| x.flags) 0

/-- Every late load of the thread takes no other value any more. -/
def Thread.bindAll (th : Thread) : Thread :=
  if th.late.isEmpty then th else { th with late := [], fcsr := th.fcsr ||| lateFlags th.late }

/-- The part has a byte in common with some bytes on a path. -/
def Taken.meets (p : Taken) (path : Path) (pas : List Nat) : Bool :=
  p.path == path && p.bytes.any fun b => pas.contains b.1

/-- Fixes the parts of late loads that `which` names. -/
def fixParts (which : Taken → Bool) (l : List Late) : List Late :=
  l.map fun x => { x with parts := x.parts.map fun (p : Taken) => if which p then { p with fixed := true } else p }

/-- The late loads of a list that stay late when those that `which` names are bound: of the earlier ones the parts that one
of these reads too on its path are fixed, for no read returns a value older than one that the same path has taken
(R228). -/
def keepLate (which : Late → Bool) : List Late → List Late
  | [] => []
  | l :: ls =>
    let bound := ls.filter which
    let rest := keepLate which ls
    if which l then rest
    else
      { l with parts := l.parts.map fun p =>
          if bound.any fun b => b.parts.any fun q => p.meets q.path (q.bytes.map (·.1)) then { p with fixed := true }
          else p } :: rest

/-- Binds the late loads of a thread that `which` names: their flags reach fcsr (R47). -/
def Thread.bindWhere (th : Thread) (which : Late → Bool) : Thread :=
  if th.late.any which then
    { th with late := keepLate which th.late, fcsr := th.fcsr ||| lateFlags (th.late.filter which) }
  else th

/-- Fixes parts of the late loads of a thread. -/
def Thread.fixWhere (th : Thread) (which : Taken → Bool) : Thread :=
  if th.late.isEmpty then th else { th with late := fixParts which th.late }

/-- Fixes parts of the late loads of a context. -/
def State.fixLate (s : State) (tid : Nat) (which : Taken → Bool) : State :=
  if (s.thread tid).late.isEmpty then s else s.modThread tid fun th => th.fixWhere which

/-- Binds the late loads of a context that `which` names. -/
def State.bindIn (s : State) (which : Late → Bool) (t : Nat) : State :=
  if (s.thread t).late.isEmpty then s else s.modThread t fun th => th.bindWhere which

/-- Before an access of a thread, or of an engine command of it, on a path: the writes that a `HEDGE` puts before it are
performed, and the reads have taken their values (R233). -/
def State.before (s : State) (tid : Nat) (p : Path) : State :=
  (s.drainW tid fun w => maskHas w.hedged p).fixLate tid fun q => maskHas q.hedged p

/-! ## Path classes of instructions, R225 -/

/-- The path classes on which an instruction, or the engine command it creates, reads or writes memory (R225). -/
def Instr.classes : Instr → List Path
  | .ld .. | .st .. | .amo .. | .cas .. | .waitm .. | .vssave .. | .vsload .. | .call .. | .callr .. | .ret
  | .jtab .. | .spawn .. => [.ct]
  | .vld .. | .vlds .. | .vldx .. | .vldff .. | .vst .. | .vsts .. | .vstx .. | .vamo .. | .vldm .. | .vstm ..
  | .vspill .. | .vfill .. | .tdrain .. | .tdrainx .. | .tbld .. | .tbst .. => [.vls]
  | .tlw .. | .tscale .. | .tmma .. => [.arr]
  | .rpush .. | .cpy .. | .cpy2d .. | .cpyg .. | .gnode .. => [.cpy]
  | .kset .. | .cld .. | .cst .. | .cref .. => [.cop]
  | .bgemv .. => [.bnk]
  | _ => []

/-! ## Physical map and translation -/

/-- Channels of a stack in service, R388. -/
def State.channelsUp (s : State) (stack : Nat) : Nat := popN 32 (mapGet 0xFFFFFFFF s.hub.chans stack).toNat

/-- Capacity of a stack in bytes, R3 and R390. -/
def State.stackCap (s : State) (stack : Nat) : Nat :=
  48000000000 * s.channelsUp stack / 32 / 2 ^ 21 * 2 ^ 21

/-- The rows of the physical map of R360. -/
inductive PhysRow where
  | hbm | sram | reg | host | peer | hole
  deriving DecidableEq, Repr

/-- Base of the three register blocks, R360. -/
def regBase : Nat := 0x000FFFF000000000

/-- The row of a physical address; cluster SRAM has no physical address of its own and takes the model's key. -/
def State.physRow (s : State) (pa : Nat) : PhysRow :=
  if pa < 2 ^ 39 then
    (if s.hub.stk.getLsbD (pa / 2 ^ 36) && pa % 2 ^ 36 < s.stackCap (pa / 2 ^ 36) then .hbm else .hole)
  else if sramBase ≤ pa then .sram
  else if regBase ≤ pa then (if pa < regBase + 3 * 2 ^ 24 then .reg else .hole)
  else if 2 ^ 51 ≤ pa then (if (pa - 2 ^ 51) % 2 ^ 40 < 2 ^ 39 then .peer else .hole)
  else if 2 ^ 50 ≤ pa then .host
  else .hole

/-- What an access does with its bytes (R278, R353). -/
inductive Acc where
  | read | write | rmw | fetch
  deriving DecidableEq, Repr

/-- The access writes. -/
def Acc.writes : Acc → Bool
  | .write | .rmw => true
  | _ => false

/-- Some inbound window of the peer admits the access. Windows are whole 64 KiB units, so that none ends within the
64 KiB pieces into which an access is cut (R377). -/
def State.peerAllows (s : State) (acc : Acc) (pa : Nat) : Bool :=
  let unit := (pa - 2 ^ 51) % 2 ^ 40 / 65536
  (mapGet [] s.peers ((pa - 2 ^ 51) / 2 ^ 40)).any fun w =>
    w.1 ≤ unit && unit < w.1 + w.2.1 && (acc == .write || w.2.2.1) && (!acc.writes || w.2.2.2)

/-- An access of an engine by physical address reaches memory there: HBM4, host memory, or a peer's over a link that is up
and through a window of the peer (R360, R377). -/
def State.physMem (s : State) (acc : Acc) (pa : Nat) : Bool :=
  match s.physRow pa with
  | .hbm | .host => true
  | .peer => !s.hub.linksUp.isEmpty && s.peerAllows acc pa
  | _ => false

/-- Performs a write of an engine by physical address; what reaches no memory is not written (R360, R377). -/
def State.writePhys (s : State) (who : Party) (bs : List (Nat × Byte × Byte)) : State :=
  s.performBytes who (bs.filter fun b => s.physMem .write b.1)

/-- n bytes that an engine reads by physical address, as a number. What lies outside every row, in a register block or in
a peer that refuses reads nothing: the engine takes zero (R360, R361; log 29). -/
def State.readAt (s : State) (pa n : Nat) : Nat := if s.physMem .read pa then s.readPhys pa n else 0

/-- n bytes within a line that an engine reads by physical address. -/
def State.bytesAt (s : State) (pa n : Nat) : List Byte := leBytes n (s.readAt pa n)

/-- Base of the cluster-local window, R278. -/
def winBase : Nat := 0x00FFFF0000000000

/-- The address lies in the cluster-local window. -/
def inWindow (va : Nat) : Bool := winBase ≤ va && va < winBase + sramSize

/-- Fault cause of an address that has no translation: FETCHFAULT for a fetch (R352). -/
def Acc.noXlate : Acc → Cause
  | .fetch => .fetchfault
  | _ => .datafault

/-- How a walk ends, R352. -/
inductive Walk where
  | leaf (entry log : Nat)
  | fault
  | malformed (pa : Nat)
  deriving DecidableEq, Repr

/-- Index of a virtual address at a level, R352. -/
def vaIndex (va lvl : Nat) : Nat :=
  match lvl with
  | 3 => bitsN va 55 39
  | 2 => bitsN va 38 30
  | 1 => bitsN va 29 21
  | _ => bitsN va 20 16

/-- log2 of the page size of a leaf at a level, R352. -/
def pageLog : Nat → Nat
  | 2 => 30
  | 1 => 21
  | _ => 16

/-- Malformed entries with V = 1, R352. -/
def malformed (e lvl : Nat) : Bool :=
  let leaf := e.testBit 5
  let addr := bitsN e 51 8 * 256
  bitsN e 63 60 != 0 || bitsN e 57 52 != 0 || 2 ≤ bitsN e 7 6 || (leaf && lvl == 3) || (!leaf && lvl == 0)
    || (leaf && addr % 2 ^ pageLog lvl != 0) || (!leaf && addr % (if lvl == 1 then 256 else 4096) != 0)

/-- The walk of R352 from level lvl downward, reading entries at the coherence point. -/
def State.walk (s : State) (va : Nat) : Nat → Nat → Walk
  | lvl, t =>
    let pa := t + 8 * vaIndex va lvl
    let e := s.readAt pa 8
    if !e.testBit 0 then .fault
    else if malformed e lvl then .malformed pa
    else if e.testBit 5 then .leaf e (pageLog lvl)
    else
      match lvl with
      | 0 => .fault
      | l + 1 => s.walk va l (bitsN e 51 8 * 256)

/-- A cached translation of an address space and address. -/
def tlbFind (l : List TlbEntry) (asid va : Nat) : Option TlbEntry :=
  l.find? fun t => t.asid == asid && va / 2 ^ t.log == t.page

/-- The translation of an address: the core's and the cluster's cached entries first, then a walk (R354). -/
def State.lookup (s : State) (ctx : Ctx) (va : Nat) : Walk :=
  match tlbFind ((s.core (coreOf ctx.tid)).tlb ++ (s.cluster (cluOf ctx.tid)).tlb) ctx.asid va with
  | some t => .leaf t.entry.toNat t.log
  | none => s.walk va 3 ctx.root

/-- A translation by a leaf entry says whether its page places granules as a TERNBANK page does (R291). -/
def State.noteTern (s : State) (e log : Nat) : State :=
  let base := bitsN e 51 8 * 256
  let rest := s.tern.filter fun p => base + 2 ^ log ≤ p.1 || p.1 + 2 ^ p.2 ≤ base
  if e.testBit 58 then { s with tern := (base, log) :: rest }
  else if s.tern.isEmpty then s
  else { s with tern := rest }

/-- Logs a malformed entry that a walk has met (R352). -/
def State.logMalformed (s : State) (tid pa : Nat) : State :=
  s.logRas 0x05 2 (dieNo (dieOf (cluOf tid))) tid (wordN pa)

/-- Fills the translation caches after an access, or logs a malformed entry (R352, R354). -/
def State.noteXlate (s : State) (ctx : Ctx) (va : Word) : State :=
  if va.toNat ≥ 2 ^ 56 || inWindow va.toNat then s
  else if (tlbFind (s.core (coreOf ctx.tid)).tlb ctx.asid va.toNat).isSome then s
  else
    match s.lookup ctx va.toNat with
    | .leaf e log =>
      let s := s.noteTern e log
      let t : TlbEntry := { asid := ctx.asid, page := va.toNat / 2 ^ log, log := log, entry := wordN e }
      let s := s.modCore (coreOf ctx.tid) fun c => { c with tlb := (t :: c.tlb).take 64 }
      if (tlbFind (s.cluster (cluOf ctx.tid)).tlb ctx.asid va.toNat).isSome then s
      else s.modCluster (cluOf ctx.tid) fun c => { c with tlb := (t :: c.tlb).take 2048 }
    | .malformed pa => s.logMalformed ctx.tid pa
    | .fault => s

/-- Mode of an SRAM bank; cache ways at reset (R279). -/
def Cluster.mode (c : Cluster) (bank : Nat) : BankMode := mapGet .cache c.modes bank

/-- The cause of an access to the cluster-local window, or none when it is performed (R278). -/
def windowCause (m : BankMode) (acc : Acc) : Option Cause :=
  match m with
  | .cache => some acc.noXlate
  | .scratch => none
  | .fifo => if acc.writes then some .prot else none

/-- The page's permissions allow the access, R353. -/
def pageAllows (e : Nat) (acc : Acc) (user : Bool) (log : Nat) : Bool :=
  (match acc with
    | .fetch => e.testBit 3
    | .read => e.testBit 1
    | .write => e.testBit 2
    | .rmw => e.testBit 1 && e.testBit 2)
    && (!user || e.testBit 4) && !(log == 16 && e.testBit 58)

/-- Translates one address for an access: the physical place or the cause (R278, R350 to R353, R360, R361). -/
def State.xlate (s : State) (ctx : Ctx) (acc : Acc) (va : Word) : Except Cause Phys :=
  let a := va.toNat
  if a ≥ 2 ^ 56 then .error acc.noXlate
  else if inWindow a then
    match windowCause ((s.cluster (cluOf ctx.tid)).mode ((a - winBase) / 2 ^ 17)) acc with
    | some c => .error c
    | none => .ok { pa := sramBase + cluOf ctx.tid * sramSize + (a - winBase) }
  else
    match s.lookup ctx a with
    | .leaf e log =>
      if !pageAllows e acc ctx.user log then .error .prot
      else
        let pa := bitsN e 51 8 * 256 + a % 2 ^ log
        match s.physRow pa with
        | .hole | .sram => .error acc.noXlate
        | .reg => if ctx.user then .error .prot else .ok { pa := pa, log := log }
        | .peer =>
          if s.hub.linksUp.isEmpty then .error .datafault
          else if s.peerAllows acc pa then .ok { pa := pa, log := log }
          else .error .prot
        | _ => .ok { pa := pa, cached := !e.testBit 6, tern := e.testBit 58, pd := e.testBit 59, log := log }
    | _ => .error acc.noXlate

/-- A span of lines, first to last, without another. -/
def cutSpan (l m : Nat × Nat) : List (Nat × Nat) :=
  (if m.1 < l.1 then [(m.1, min m.2 (l.1 - 1))] else []) ++ (if l.2 < m.2 then [(max m.1 (l.2 + 1), m.2)] else [])

/-- Spans of lines without others. -/
def cutSpans (ms ls : List (Nat × Nat)) : List (Nat × Nat) := ls.foldl (fun ms l => ms.flatMap (cutSpan l)) ms

/-- Splits a range of virtual addresses at 64 KiB boundaries, across which alone the translation can change. -/
def chunks : Nat → Word → Nat → List (Word × Nat)
  | 0, _, _ => []
  | f + 1, va, n =>
    if n = 0 then []
    else
      let k := min n (65536 - va.toNat % 65536)
      (va, k) :: chunks f (va + wordN k) (n - k)

/-- The chunks of a range. -/
def spanChunks (va : Word) (n : Nat) : List (Word × Nat) := chunks (n / 65536 + 2) va n

/-- Translates chunks in order: the pieces before the first failing one, and its cause and first byte. -/
def State.piecesOf (s : State) (ctx : Ctx) (acc : Acc) : List (Word × Nat) → List Piece × Option (Cause × Word)
  | [] => ([], none)
  | c :: cs =>
    match s.xlate ctx acc c.1 with
    | .error e => ([], some (e, c.1))
    | .ok p =>
      let r := s.piecesOf ctx acc cs
      ({ va := c.1, place := p, len := c.2 } :: r.1, r.2)

/-- Translates a range. -/
def State.pieces (s : State) (ctx : Ctx) (acc : Acc) (va : Word) (n : Nat) : List Piece × Option (Cause × Word) :=
  s.piecesOf ctx acc (spanChunks va n)

/-- Fills the translation caches for a range, up to its first failing piece. -/
def State.noteSpan (s : State) (ctx : Ctx) (acc : Acc) (va : Word) (n : Nat) : State :=
  let cs := spanChunks va n
  (cs.take ((s.piecesOf ctx acc cs).1.length + 1)).foldl (fun s c => s.noteXlate ctx c.1) s

/-- The address space and mode of a thread (R315, R334). -/
def State.ctxOf (s : State) (tid : Nat) : Ctx :=
  let th := s.thread tid
  match th.region with
  | some r => { root := r.root, asid := r.asid, user := !th.sup, tid := tid }
  | none => { user := !th.sup, tid := tid }

/-! ## Taking and leaving an exception -/

/-- A trap: cause, tval, telem, and whether it is reported late (R332, R333). -/
structure Trap where
  cause : Cause
  tval : Word := 0
  telem : Word := 0
  late : Bool := false
  deriving DecidableEq, Repr

/-- Codes of R333. -/
def Cause.code : Cause → Nat
  | .illegal => 0x01
  | .fetchfault => 0x02
  | .datafault => 0x03
  | .prot => 0x04
  | .vabsent => 0x05
  | .noise => 0x06
  | .keytag => 0x07
  | .ternbyte => 0x08
  | .accgrant => 0x09
  | .claimseq => 0x0A
  | .ringseq => 0x0B
  | .regerr => 0x0C
  | .memue => 0x0D
  | .watchdog => 0x0E
  | .brk => 0x0F
  | .trap => 0x10

/-- The contents of a trap bank for a trap at an address. -/
def Trap.bank (t : Trap) (tpc : Word) : TrapBank :=
  { tpc := tpc, tcause := wordN (t.cause.code + if t.late then 256 else 0), tval := t.tval, telem := t.telem }

/-- The trap goes to the user-level handler, R335. -/
def Thread.toUser (th : Thread) (c : Cause) : Bool :=
  (c = .noise || c = .keytag) && th.tvec != 0 && !th.sup && !th.uh

/-- Low four bits are zero. -/
def aligned16 (a : Word) : Bool := a &&& 0xF == 0

/-- A write to some words of a register clears their errors. -/
def Thread.clearWords (th : Thread) (k : RegKind) (n : Nat) (w : Nat → Bool) : Thread :=
  if th.regErr.isEmpty then th else { th with regErr := th.regErr.filter fun e => !(e.1 = k && e.2.1 == n && w e.2.2) }

/-- The registers that a trap writes: tstatus, and the four of one bank. Words of 0x021 to 0x024 with an even number lie in
the user bank, the others in the supervisor bank (R40, R334). -/
def Thread.clearBank (th : Thread) (sup : Bool) : Thread :=
  [0x21, 0x22, 0x23, 0x24].foldl (fun th n => th.clearWords .special n fun w => w % 2 == (if sup then 1 else 0))
    (th.clearWords .special 0x20 fun _ => true)

/-- Delivery to the supervisor, R335; an unusable svec stops the thread as under `HALT`. -/
def State.trapToSuper (s : State) (tid : Nat) (tpc : Word) (t : Trap) : State :=
  let th := (s.thread tid).clearBank true
  let th := { th.setSt 2 th.sup with sup := true, super := t.bank tpc, pc := th.svec, entering := true }
  if aligned16 th.svec then s.setThread tid th
  else (s.setThread tid { th with run := .halted }).logRas 0x0A 3 (dieNo (dieOf (cluOf tid))) tid th.svec

/-- Takes a trap of a thread at tpc: R335 and R337. Every earlier write of the thread is performed first; a running
block, a waiting `WAITM` and a requested stop end here. `vr` is the block-resume flag to set (R147). -/
def State.takeTrap (s : State) (tid : Nat) (tpc : Word) (vr : Bool) (t : Trap) : State :=
  let s := s.drainAll tid
  let s := s.modThread tid fun th =>
    let dog := t.cause = Cause.watchdog
    let th := { th.bindAll with blk := none, waitm := none, holds := .nothing, resume := none, dogAt := none,
                                stop := if dog then none else th.stop, dogged := dog || th.dogged }
    th.setSt 1 vr
  let th := s.thread tid
  if th.toUser t.cause then
    if aligned16 th.tvec then
      s.setThread tid { (th.clearBank false).setSt 3 true with user := t.bank tpc, pc := th.tvec }
    else s.trapToSuper tid tpc { cause := .fetchfault, tval := th.tvec }
  else s.trapToSuper tid tpc t

/-- Returns from the current trap, R336; `none` where `ERET` raises PROT. The return to user mode after a WATCHDOG
restarts the task's cycle count (R327). -/
def Thread.leaveTrap (th : Thread) : Option Thread :=
  if th.sup then
    let dog := th.dogged && !th.tstatus.getLsbD 2
    some { th with sup := th.tstatus.getLsbD 2, pc := th.super.tpc, used := if dog then 0 else th.used,
                   dogged := th.dogged && !dog }
  else if th.uh then some { th.setSt 3 false with pc := th.user.tpc }
  else none

/-- The WATCHDOG trap of a thread, R327. -/
def State.dogTrap (s : State) (tid : Nat) : Trap :=
  { cause := .watchdog, tval := ((s.thread tid).region.map (·.cycleLimit)).getD 0 }

/-- Where a `VF` at the thread's pc begins when a block resume is due: at the E-word that the context holds after a halt
(R148); after a WATCHDOG at the one that the core has kept, as long as the supervisor leaves tval as that trap set it, for
R327 gives tval the limit; else at the one that tval holds (R147; log 45). -/
def Thread.resumesAt (th : Thread) : Option Word :=
  match th.resume with
  | some a => some a
  | none =>
    if th.vr ∧ th.super.tpc = th.pc then
      match th.dogAt with
      | some (vf, tval, epc) => some (if vf = th.pc ∧ tval = th.super.tval then epc else th.super.tval)
      | none => some th.super.tval
    else none

/-- The word at the thread's pc is a `VF`. -/
def State.atVf (s : State) (tid : Nat) : Bool :=
  match s.xlate (s.ctxOf tid) .fetch (s.thread tid).pc with
  | .ok p => match decodeC (BitVec.ofNat 128 (s.readPhys p.pa 16)) with
    | .ok (.vf _) => true
    | _ => false
  | .error _ => false

/-- A forced context save that delivers a WATCHDOG at the thread's oldest unfinished instruction, with tval the limit (R327,
R341). Inside a block it takes effect at the E-word boundary, resumable when no `vpfetch` has executed, and a `VF` that
waits to resume still resumes at its E-word (R147, R148; log 45). -/
def State.takeDog (s : State) (tid : Nat) : State :=
  let th := s.thread tid
  let t := s.dogTrap tid
  match th.blk with
  | some b =>
    (s.takeTrap tid b.vf (!b.diverged) t).modThread tid fun u =>
      { u with dogAt := if b.diverged then none else some (b.vf, t.tval, b.epc) }
  | none =>
    match if s.atVf tid then th.resumesAt else none with
    | some e => (s.takeTrap tid th.pc true t).modThread tid fun u => { u with dogAt := some (th.pc, t.tval, e) }
    | none => s.takeTrap tid th.pc false t

/-- A forced context save for the halt of a partition: nothing is delivered, and the state stays in the context (R341,
R345). A waiting `WAITM` executes again; a block goes on at its E-word when no `vpfetch` has executed (R148). -/
def State.saveHalt (s : State) (tid : Nat) : State :=
  (s.drainAll tid).modThread tid fun th =>
    let th := { th.bindAll with halt := .saved, waitm := none, holds := .nothing }
    match th.blk with
    | some b => { th.setSt 1 (!b.diverged) with blk := none, resume := if b.diverged then none else some b.epc }
    | none => th

/-! ## How a meaning ends -/

/-- The outcome of a meaning's body: it completes, it transfers control, it traps with what it has done so far, a forced
save stops it at a boundary that R341 names, or it waits and issues again. A forced save stops at once an instruction that
waits under `wait`, and not one that waits under `hold`, which R341 does not name. -/
inductive Out where
  | done (s : State)
  | goto (pc : Word) (s : State)
  | trap (t : Trap) (s : State)
  | stop (s : State)
  | wait (s : State)
  | hold (s : State)
  deriving DecidableEq, Repr

/-- A forced save that meets a diverged block waits for the block's end, at most 65,536 cycles (R148). -/
def State.dogWaits (s : State) (tid : Nat) : Bool :=
  match (s.thread tid).blk with
  | some b => b.diverged && (s.cluster (cluOf tid)).cycle < (s.thread tid).stopCycle + 65536
  | none => false

/-- The halt of a partition takes effect at a thread that asks for it, R345 and R148. -/
def State.settledHalt (s : State) (tid : Nat) : State :=
  let th := s.thread tid
  if th.halt = .asked && th.run = .ready && !s.dogWaits tid then s.saveHalt tid else s

/-- A requested forced save takes effect once the instruction has completed, and at once at an instruction that waits
(R340, R341). A WATCHDOG is not delivered in supervisor mode (R340). -/
def State.settled (s : State) (tid : Nat) : State :=
  let th := s.thread tid
  if th.halt = .asked then s.settledHalt tid
  else if th.stop.isSome && !th.sup && th.run = .ready && !s.dogWaits tid then s.takeDog tid
  else s

/-- A forced save that stops a thread within its instruction: the halt of a partition, or a WATCHDOG (R341). -/
def State.forcedSave (s : State) (tid : Nat) : State :=
  if (s.thread tid).halt = .asked then s.saveHalt tid else s.takeDog tid

/-- Ends a control instruction of the issuing thread. -/
def finishCtl (size : Nat) (o : Out) : Host.Outcome State Fault Refusal :=
  match o with
  | .done s => .next ((s.modMe fun th => { th with pc := th.pc + wordN size }).settled s.cur)
  | .goto pc s => .next ((s.modMe fun th => { th with pc := pc }).settled s.cur)
  | .trap t s => .next (s.takeTrap s.cur s.me.pc false t)
  | .stop s => .next (s.forcedSave s.cur)
  | .wait s => .next (s.settled s.cur)
  | .hold s => .next (s.settledHalt s.cur)

/-- A trap of a register word that cannot be corrected (R40). -/
def regTrap (k : RegKind) (n : Nat) : Trap :=
  let kind := match k with | .x => 0 | .v => 1 | .m => 2 | .c => 3 | .tb => 4 | .acc => 5 | .special => 6
  { cause := .regerr, tval := wordN (kind * 256 + n) }

/-- A source register of an instruction, and which of its words the instruction reads (R40). -/
structure Src where
  kind : RegKind
  num : Nat
  words : Nat → Bool := fun _ => true

/-- The first source register with an uncorrectable error in a word that is read, R40. -/
def Thread.badReg (th : Thread) (srcs : List Src) : Option Src :=
  if th.regErr.isEmpty then none
  else srcs.find? fun r => th.regErr.any fun e => e.1 = r.kind && e.2.1 == r.num && r.words e.2.2

/-- REGERR of a register of the issuing thread, logged (R40, R393). -/
def State.regErrTrap (s : State) (k : RegKind) (n : Nat) : Out :=
  .trap (regTrap k n) (s.logRas 0x02 2 (dieNo (dieOf (cluOf s.cur))) s.cur (regTrap k n).tval)

/-- Raises REGERR when a source register has an uncorrectable error (R40), and logs it. -/
def guardRegs (srcs : List Src) (s : State) (k : State → Out) : Out :=
  match s.me.badReg srcs with
  | none => k s
  | some r => s.regErrTrap r.kind r.num

/-- x-register sources of an instruction. -/
def xsrc (l : List XReg) : List Src := (l.filter (· ≠ 0)).map fun r => { kind := .x, num := r.toNat }

/-- Special-register sources of an instruction. -/
def spsrc (l : List Nat) : List Src := l.map fun n => { kind := .special, num := n }

/-- The special registers that every vector instruction reads: vl, vtype, the grant and vsw (R11, R13, R26, R28). -/
def vspec : List Src := spsrc [0, 1, 5, 7]

/-- Those that a restartable one reads: vstart as well (R30). -/
def vrest : List Src := spsrc [0, 1, 5, 7, 2]

/-- The sources of a trap bank's registers: the words of the bank that the instruction reads (R334). -/
def bankSrc (sup : Bool) (l : List Nat) : List Src :=
  l.map fun n => { kind := .special, num := n, words := fun w => w % 2 == (if sup then 1 else 0) }

/-- VABSENT of R34: user mode while tstatus.VA is 1. -/
def guardVA (s : State) (k : State → Out) : Out :=
  if s.me.va && !s.me.sup then .trap { cause := .vabsent } s else k s

/-- PROT of a supervisor instruction in user mode; tval is the word (R77, R333). -/
def guardSup (i : Instr) (s : State) (k : State → Out) : Out :=
  if s.me.sup then k s else .trap { cause := .prot, tval := i.low64 } s

/-- ILLEGAL with a value. -/
def illegal (v : Word) (s : State) : Out := .trap { cause := .illegal, tval := v } s

/-- A write to a register of any kind clears an uncorrectable error it held (R39, R40). -/
def Thread.clearErr (th : Thread) (k : RegKind) (n : Nat) : Thread :=
  if th.regErr.isEmpty then th else { th with regErr := th.regErr.filter fun e => !(e.1 = k && e.2.1 == n) }

/-- A write to special registers clears their errors. -/
def Thread.clearSpec (th : Thread) (l : List Nat) : Thread := l.foldl (fun th n => th.clearErr .special n) th

/-- Writes an x-register as a result: a new value, and no error left in it. -/
def Thread.setX (th : Thread) (r : XReg) (v : Word) : Thread := (th.wx r v).clearErr .x r.toNat

end Sys2Proof.Machine
end

