-- ==== Sys2Proof/Machine/Operands.lean ====
section
/-!
DEFINITION. Operand forms: scalar addresses, the fields of vtype and vsw, the placement of vector elements (R8 to R10),
masks (R31, R32, R84), register protection on reads and writes (R36 to R40), the relayout of a grant change (R12), and
the charge of vector work (R16, R328).
-/
namespace Sys2Proof.Machine

/-! ## vtype, vsw, grant -/

/-- Element width code, R26. -/
def vtEwCode (vt : BitVec 16) : Nat := bitsN vt.toNat 2 0
/-- Format code, R26. -/
def vtFmt (vt : BitVec 16) : Nat := bitsN vt.toNat 6 3
/-- Scale block code, R26. -/
def vtBlkCode (vt : BitVec 16) : Nat := bitsN vt.toNat 9 7
/-- Element width in bits, R26. -/
def vtEw (vt : BitVec 16) : Nat := 2 ^ (1 + vtEwCode vt)
/-- Register group, R26. -/
def vtGrp (vt : BitVec 16) : Nat := 2 ^ bitsN vt.toNat 11 10
/-- Block length, 0 for none, R26. -/
def vtBlk (vt : BitVec 16) : Nat := if vtBlkCode vt = 0 then 0 else 4 * 2 ^ vtBlkCode vt
/-- vtype.rm, R26. -/
def vtRm (vt : BitVec 16) : Rm := rmOf (vt.extractLsb' 12 2)

/-- A vtype is legal, R26 and R27. -/
def vtOk (vt : BitVec 16) : Bool :=
  let ew := vtEwCode vt
  let blk := vtBlkCode vt
  bitsN vt.toNat 15 14 == 0 && blk ≤ 5
    && match vtFmt vt with
      | 0 => ew ≤ 5 && (blk == 0 || ew ≤ 2)
      | 1 => 2 ≤ ew && ew ≤ 5 && blk == 0
      | 2 => ew == 4 && blk == 0
      | 3 => ew == 3 && blk == 0
      | 4 => ew == 4 && blk == 0
      | 5 => ew == 5 && blk == 0
      | 6 => ew == 2
      | 7 => ew == 2
      | 8 => ew == 2 && blk == 0
      | _ => false

/-- The element type of a legal vtype, R27. -/
def vtTy (vt : BitVec 16) : Ty :=
  match vtFmt vt, vtEwCode vt with
  | 0, 0 => .s2
  | 0, 1 => .s4
  | 0, 2 => .s8
  | 0, 3 => .s16
  | 0, 4 => .s32
  | 0, _ => .s64
  | 1, 2 => .n8
  | 1, 3 => .n16
  | 1, 4 => .n32
  | 1, _ => .n64
  | 2, _ => .t32
  | 3, _ => .h16
  | 4, _ => .f32
  | 5, _ => .f64
  | 6, _ => .g8
  | 7, _ => .g6
  | _, _ => .tr

/-- Lanes of a grant, R29. -/
def grantLanes (g : BitVec 7) : Nat := 2 ^ (g.extractLsb' 4 3).toNat
/-- Lowest lane of a grant, R29. -/
def grantBase (g : BitVec 7) : Nat := (g.extractLsb' 0 4).toNat

/-- Maximum vector length, R9. -/
def mvlOf (g : BitVec 7) (vt : BitVec 16) : Nat := min 8192 (grantLanes g * 1024 * vtGrp vt / vtEw vt)

/-- grant(n) of R60. -/
def grantVl (mvl blk n : Nat) : Nat :=
  if mvl ≤ n then mvl else if blk = 0 ∨ n < blk then n else blk * (n / blk)

/-- Element width. -/
def Thread.ew (th : Thread) : Nat := vtEw th.vtype
/-- Register group. -/
def Thread.grp (th : Thread) : Nat := vtGrp th.vtype
/-- Element type. -/
def Thread.vTy (th : Thread) : Ty := vtTy th.vtype
/-- mvl of the thread, R9. -/
def Thread.mvl (th : Thread) : Nat := mvlOf th.grant th.vtype
/-- Lanes of the thread's grant. -/
def Thread.lanes (th : Thread) : Nat := grantLanes th.grant
/-- Elements per lane, R10. -/
def Thread.perLane (th : Thread) : Nat := th.mvl / th.lanes

/-- vsw, R28. -/
def Thread.vsw (th : Thread) : Word :=
  wordN (th.vl % 2 ^ 17 + th.vtype.toNat * 2 ^ 24 + th.dmi.toNat * 2 ^ 40 + (if th.dme then 2 ^ 43 else 0))

/-- legal_vsw of R100: the checks of R25 on a value for vsw. -/
def legalVsw (v : Word) : Bool :=
  bitsN v.toNat 63 44 == 0 && bitsN v.toNat 23 17 == 0 && vtOk (v.extractLsb' 24 16)

/-- Writes vtype, recomputes mvl and clamps vl (R25, R134). -/
def Thread.setVtype (th : Thread) (vt : BitVec 16) : Thread := { th with vtype := vt, vl := min th.vl (mvlOf th.grant vt) }

/-- Writes vsw: vtype, then vl, then the default mask (R25). -/
def Thread.setVsw (th : Thread) (v : Word) : Thread :=
  let vt : BitVec 16 := v.extractLsb' 24 16
  { th with vtype := vt, vl := min (bitsN v.toNat 16 0) (mvlOf th.grant vt),
            dmi := v.extractLsb' 40 3, dme := v.getLsbD 43 }

/-! ## Elements -/

/-- Registers that an operand of width u occupies, R140. -/
def Thread.grpOf (th : Thread) (u : Nat) : Nat := max 1 (th.grp * u / th.ew)

/-- A register may start a group of operands of width u, R27 and R140. -/
def Thread.regOk (th : Thread) (r : VReg) (u : Nat) : Bool := th.grpOf u ≤ 8 && r.toNat % th.grpOf u == 0

/-- Two operand groups share a register, R141. -/
def Thread.meet (th : Thread) (r : VReg) (u : Nat) (q : VReg) (w : Nat) : Bool :=
  r.toNat < q.toNat + th.grpOf w && q.toNat < r.toNat + th.grpOf u

/-- Place of element e of width u in the group at r, R10: lane word (register × 128 + lane × 8 + group position) and
bit offset in it. -/
def Thread.place (th : Thread) (r u e : Nat) : Nat × Nat :=
  let p := max 1 th.perLane
  let q := 1024 / u
  let j := e % p
  let bit := j % q * u
  ((r + j / q) * 128 + (grantBase th.grant + e / p) * 8 + bit / 128, bit % 128)

/-- Bits of a lane word. -/
def laneBits (w : BitVec 128) (off u : Nat) : Nat := w.toNat / 2 ^ off % 2 ^ u

/-- The mask of u bits at an offset of a lane word. -/
def laneMask (off u : Nat) : BitVec 128 := BitVec.ofNat 128 ((2 ^ u - 1) * 2 ^ off)

/-- Element e of width u of the group at r, as its pattern (R99). -/
def Thread.elem (th : Thread) (r : VReg) (u e : Nat) : Nat :=
  let p := th.place r.toNat u e
  laneBits (mapGet 0 th.v p.1) p.2 u

/-- A parity error after bits of a lane word are written: it ends when every bit of its byte has been (R36). -/
def LaneErr.written (key : Nat) (m : BitVec 128) (e : LaneErr) : Option LaneErr :=
  if e.pos / 8 * 128 + e.lane * 8 + e.pos % 8 = key ∧ e.lane < 16 then
    let left := e.left &&& ~~~(m.extractLsb' (8 * e.byte) 8)
    if left = 0 then none else some { e with left := left }
  else some e

/-- Writes element e, and clears its poison (R39, R99). -/
def Thread.setElem (th : Thread) (r : VReg) (u e x : Nat) : Thread :=
  let p := th.place r.toNat u e
  let m := laneMask p.2 u
  let w := mapGet 0 th.v p.1
  { th with v := mapPut 0 th.v p.1 ((w &&& ~~~m) ||| (BitVec.ofNat 128 (x % 2 ^ u * 2 ^ p.2) &&& m)),
            vPoison := if th.vPoison.isEmpty then th.vPoison
              else mapPut 0 th.vPoison p.1 (mapGet 0 th.vPoison p.1 &&& ~~~m),
            vErr := if th.vErr.isEmpty then th.vErr else th.vErr.filterMap (LaneErr.written p.1 m) }

/-- Element e is poisoned, R38. -/
def Thread.poisonAt (th : Thread) (r : VReg) (u e : Nat) : Bool :=
  !th.vPoison.isEmpty &&
    let p := th.place r.toNat u e
    mapGet 0 th.vPoison p.1 &&& laneMask p.2 u != 0

/-- A list of element writes of one group. -/
def Thread.setElems (th : Thread) (r : VReg) (u : Nat) (ws : List (Nat × Nat)) : Thread :=
  ws.foldl (fun th w => th.setElem r u w.1 w.2) th

/-- Sets the vdirty bits of a destination group, R33. -/
def Thread.dirty (th : Thread) (r : VReg) (u : Nat) : Thread :=
  if th.vl = 0 then th
  else
    let d := (List.range (th.grpOf u)).foldl (fun d i => d ||| ((1 : BitVec 32) <<< (r.toNat + i))) th.vdirty
    { th with vdirty := d }

/-! ## Masks -/

/-- The mask that governs a vector instruction: the named one, else the default mask under dme (R32, R84). -/
def Thread.govern (th : Thread) (m : Option MReg) : Option MReg :=
  match m with
  | some k => some k
  | none => if th.dme then some th.dmi else none

/-- active(e) of R99 for an instruction outside a block. -/
def Thread.active (th : Thread) (m : Option MReg) (e : Nat) : Bool :=
  e < th.vl && match th.govern m with
    | some k => th.mbit k e
    | none => true

/-- A mask register read below vl, as a source of R40: 64 bits a word. -/
def Thread.mSrc (th : Thread) (k : MReg) : Src :=
  { kind := .m, num := k.toNat, words := fun w => 64 * w < th.vl }

/-- The governing mask as a source register of R40. -/
def Thread.maskSrc (th : Thread) (m : Option MReg) : List Src :=
  match th.govern m with
  | some k => [th.mSrc k]
  | none => []

/-- Writes mask bits. -/
def Thread.setMbits (th : Thread) (k : MReg) (ws : List (Nat × Bool)) : Thread :=
  (ws.foldl (fun th w => th.setMbit k w.1 w.2) th).clearWords .m k.toNat fun w => ws.any fun x => x.1 / 64 == w

/-! ## Register protection -/

/-- The lanes with a parity error at a group position (register × 8 + position), R37. -/
def Thread.errLanes (th : Thread) (pos : Nat) : List Nat :=
  ((th.vErr.filter fun m => m.pos == pos).map (·.lane)).eraseDups

/-- Group positions that elements 0 to n − 1 of width u of a group touch. -/
def Thread.positions (th : Thread) (r : VReg) (u n : Nat) : List Nat :=
  ((List.range n).map fun e => let k := (th.place r.toNat u e).1; k / 128 * 8 + k % 8).eraseDups

/-- A read of a group position: one error is rebuilt, two or more poison the affected lane words (R37, R38). A read
checks the words of every lane at the positions it touches, those outside the grant too; the bits of a poisoned word stay
those from before the error, for a reader that does not trap on it (log 47). -/
def State.scanPos (s : State) (tid pos : Nat) : State :=
  let th := s.thread tid
  let ls := th.errLanes pos
  match ls with
  | [] => s
  | [_] =>
    (s.setThread tid { th with vErr := th.vErr.filter fun m => m.pos != pos }).logRas 0x01 1
      (dieNo (dieOf (cluOf tid))) tid (regTrap .v (pos / 8)).tval
  | _ =>
    let p := (ls.filter (· < 16)).foldl
      (fun p l => mapSet p (pos / 8 * 128 + l * 8 + pos % 8) (BitVec.allOnes 128)) th.vPoison
    (s.setThread tid { th with vErr := th.vErr.filter fun m => m.pos != pos, vPoison := p }).logRas 0x02 2
      (dieNo (dieOf (cluOf tid))) tid (regTrap .v (pos / 8)).tval

/-- The reads of vector operands by an instruction: register, width, number of elements. -/
def State.scan (s : State) (ops : List (VReg × Nat × Nat)) : State :=
  if s.me.vErr.isEmpty then s
  else
    ((ops.flatMap fun o => s.me.positions o.1 o.2.1 o.2.2).eraseDups).foldl (fun s p => s.scanPos s.cur p) s

/-- The REGERR of poisoned sources: `reads` pairs each active destination element with the source elements it reads;
telem is the lowest such element (R38, R146). -/
def Thread.poisonHit (th : Thread) (reads : List (Nat × List (VReg × Nat × Nat))) : Option (Nat × VReg) :=
  if th.vPoison.isEmpty then none
  else
    reads.findSome? fun r => (r.2.find? fun o => th.poisonAt o.1 o.2.1 o.2.2).map fun o => (r.1, o.1)

/-- REGERR of a vector register, R38. -/
def vecRegTrap (e : Nat) (r : VReg) : Trap := { regTrap .v r.toNat with telem := wordN e }

/-- Reads vector operands: rebuilds, poisons or traps first (R37, R38). -/
def guardVec (ops : List (VReg × Nat × Nat)) (reads : Thread → List (Nat × List (VReg × Nat × Nat)))
    (s : State) (k : State → Out) : Out :=
  let s := s.scan ops
  match s.me.poisonHit (reads s.me) with
  | some (e, r) => .trap (vecRegTrap e r) s
  | none => k s

/-! ## Grant changes -/

/-- Words of 128 bits per lane that hold elements, R10. -/
def laneWords (g : BitVec 7) (vt : BitVec 16) : Nat := mvlOf g vt / grantLanes g * vtEw vt / 128

/-- Where a lane word goes when the grant changes from g to h under vtype, R12. -/
def relocate (g h : BitVec 7) (vt : BitVec 16) (key : Nat) : Option Nat :=
  let reg := key / 128
  let lane := key % 128 / 8
  let grp := vtGrp vt
  let wl := laneWords g vt
  let wl' := max 1 (laneWords h vt)
  let rest := reg % grp * 8 + key % 8
  let w := (lane - grantBase g) * wl + rest
  if grantBase g ≤ lane ∧ lane < grantBase g + grantLanes g ∧ rest < wl ∧ w < mvlOf h vt * vtEw vt / 128 then
    let rest' := w % wl'
    some ((reg - reg % grp + rest' / 8) * 128 + (grantBase h + w / wl') * 8 + rest' % 8)
  else none

/-- Moves a map of lane words, R12. -/
def relay (g h : BitVec 7) (vt : BitVec 16) (m : List (Nat × BitVec 128)) : List (Nat × BitVec 128) :=
  m.foldl (fun r p => match relocate g h vt p.1 with
    | some k => mapPut 0 r k p.2
    | none => r) []

/-- Lane words of a grant that hold no element under vtype: the upper registers of a capped group (R10). -/
def idleWords (g : BitVec 7) (vt : BitVec 16) : List Nat :=
  if vtGrp vt * 8 ≤ laneWords g vt then []
  else
    (List.range 4096).filter fun k =>
      let lane := k % 128 / 8
      grantBase g ≤ lane && lane < grantBase g + grantLanes g && laneWords g vt ≤ k / 128 % vtGrp vt * 8 + k % 8

/-- The lane words of a thread under its grant. -/
def ownWords (g : BitVec 7) : List Nat :=
  (List.range 4096).filter fun k => grantBase g ≤ k % 128 / 8 && k % 128 / 8 < grantBase g + grantLanes g

/-- A lane word that holds no element after a relayout: some word of the thread's own registers (R12, log 6). -/
def Thread.idleWord (th : Thread) (own : List Nat) (n : Nat) : BitVec 128 :=
  mapGet 0 th.v (own.getD (Config.pick n % own.length) 0)

/-- Changes a thread's grant with the relayout of R12. Every parity error is met by the relayout's reads (R37, R38);
storage that holds no element takes words of the thread's own registers. -/
def State.regrant (s : State) (tid : Nat) (h : BitVec 7) : State :=
  let s := ((s.thread tid).vErr.map (·.pos)).eraseDups.foldl (fun s p => s.scanPos tid p) s
  let th := s.thread tid
  if th.grant = h then s.setThread tid { th with pendGrant := none }
  else
    let idle := idleWords h th.vtype
    let v := relay th.grant h th.vtype th.v
    let own := if idle.isEmpty then [] else ownWords th.grant
    let v := idle.foldl (fun m k => mapPut 0 m k (th.idleWord own (s.freeIx + k))) v
    { s with freeIx := if idle.isEmpty then s.freeIx else s.freeIx + 4096 }.setThread tid
      ({ th with v := v, vPoison := relay th.grant h th.vtype th.vPoison, grant := h,
                 pendGrant := none }.clearErr .special 5)

/-! ## Charge of vector work -/

/-- Beats of a vector instruction whose widest operand has width u, R16 and R150. -/
def Thread.beats (th : Thread) (u : Nat) : Nat := cdiv (min th.vl th.perLane * u) 128

/-- Charges element-beats to the issuing thread's virtual time, its region's window and its cluster (R16, R328,
R394). A new window of 65,536 cycles starts from zero. -/
def State.charge (s : State) (n : Nat) : State :=
  if n = 0 then s
  else
    let th := s.me
    let w := (th.region.map (·.weight)).getD 256
    let s := s.modMe fun th => { th with vt := th.vt + n * 256 * 65536 / w }
    let s := match th.region with
      | some r =>
        let win := (s.cluster (cluOf s.cur)).cycle / 65536
        s.modCore (coreOf s.cur) fun c =>
          let beats := if c.beatsWin = win then c.beats else []
          { c with beats := mapSet beats r.rcb (mapGet 0 beats r.rcb + n), beatsWin := win }
      | none => s
    s.count (cluOf s.cur) 1 n

/-- Charges one vector instruction of width u. -/
def State.chargeVec (s : State) (u : Nat) : State := s.charge (s.me.lanes * s.me.beats u)

/-! ## Scalar operands -/

/-- xa + imm. -/
def State.ea (s : State) (a : XReg) (imm : Word) : Word := s.me.rx a + imm

/-- The address is a multiple of n. -/
def alignedTo (n : Nat) (a : Word) : Bool := a.toNat % n == 0

/-- Sets an x-register of the issuing thread. -/
def State.setX (s : State) (r : XReg) (v : Word) : State := s.modMe fun th => th.setX r v

/-- ORs flags into the issuing thread's fcsr (R47). -/
def State.orFlags (s : State) (f : Flags) : State := s.modMe fun th => th.orFlags f

end Sys2Proof.Machine
end

