-- ==== Sys2Proof/Machine/Image.lean ====
section
/-!
DEFINITION. Firmware images (R363, R364) and measurement (R365): SHA-384 and ECDSA P-384, which the spec names and does
not define, as FIPS 180-4 and FIPS 186-5 give them (PRESUMED, log 7).
-/
namespace Sys2Proof.Machine

/-! ## SHA-384 -/

/-- The eight working words of SHA-512 and SHA-384. -/
structure ShaState where
  a : Word
  b : Word
  c : Word
  d : Word
  e : Word
  f : Word
  g : Word
  h : Word
  deriving DecidableEq, Repr

/-- The round constants. -/
def shaK : List Word :=
  [0x428A2F98D728AE22, 0x7137449123EF65CD, 0xB5C0FBCFEC4D3B2F, 0xE9B5DBA58189DBBC,
        0x3956C25BF348B538, 0x59F111F1B605D019, 0x923F82A4AF194F9B, 0xAB1C5ED5DA6D8118,
        0xD807AA98A3030242, 0x12835B0145706FBE, 0x243185BE4EE4B28C, 0x550C7DC3D5FFB4E2,
        0x72BE5D74F27B896F, 0x80DEB1FE3B1696B1, 0x9BDC06A725C71235, 0xC19BF174CF692694,
        0xE49B69C19EF14AD2, 0xEFBE4786384F25E3, 0x0FC19DC68B8CD5B5, 0x240CA1CC77AC9C65]
    ++ [0x2DE92C6F592B0275, 0x4A7484AA6EA6E483, 0x5CB0A9DCBD41FBD4, 0x76F988DA831153B5,
        0x983E5152EE66DFAB, 0xA831C66D2DB43210, 0xB00327C898FB213F, 0xBF597FC7BEEF0EE4,
        0xC6E00BF33DA88FC2, 0xD5A79147930AA725, 0x06CA6351E003826F, 0x142929670A0E6E70,
        0x27B70A8546D22FFC, 0x2E1B21385C26C926, 0x4D2C6DFC5AC42AED, 0x53380D139D95B3DF,
        0x650A73548BAF63DE, 0x766A0ABB3C77B2A8, 0x81C2C92E47EDAEE6, 0x92722C851482353B]
    ++ [0xA2BFE8A14CF10364, 0xA81A664BBC423001, 0xC24B8B70D0F89791, 0xC76C51A30654BE30,
        0xD192E819D6EF5218, 0xD69906245565A910, 0xF40E35855771202A, 0x106AA07032BBD1B8,
        0x19A4C116B8D2D0C8, 0x1E376C085141AB53, 0x2748774CDF8EEB99, 0x34B0BCB5E19B48A8,
        0x391C0CB3C5C95A63, 0x4ED8AA4AE3418ACB, 0x5B9CCA4F7763E373, 0x682E6FF3D6B2B8A3,
        0x748F82EE5DEFB2FC, 0x78A5636F43172F60, 0x84C87814A1F0AB72, 0x8CC702081A6439EC]
    ++ [0x90BEFFFA23631E28, 0xA4506CEBDE82BDE9, 0xBEF9A3F7B2C67915, 0xC67178F2E372532B,
        0xCA273ECEEA26619C, 0xD186B8C721C0C207, 0xEADA7DD6CDE0EB1E, 0xF57D4F7FEE6ED178,
        0x06F067AA72176FBA, 0x0A637DC5A2C898A6, 0x113F9804BEF90DAE, 0x1B710B35131C471B,
        0x28DB77F523047D84, 0x32CAAB7B40C72493, 0x3C9EBE0A15C9BEBC, 0x431D67C49C100D4C,
        0x4CC5D4BECB3E42B6, 0x597F299CFC657E2A, 0x5FCB6FAB3AD6FAEC, 0x6C44198C4A475817]

/-- The initial words of SHA-384. -/
def shaInit : List Word :=
  [0xCBBB9D5DC1059ED8, 0x629A292A367CD507, 0x9159015A3070DD17, 0x152FECD8F70E5939,
   0x67332667FFC00B31, 0x8EB44A8768581511, 0xDB0C2E0D64F98FA7, 0x47B5481DBEFA4FA4]

/-- Rotation to the right. -/
def rotr (x : Word) (n : Nat) : Word := (x >>> n) ||| (x <<< (64 - n))

/-- The words of a state in order. -/
def ShaState.words (s : ShaState) : List Word := [s.a, s.b, s.c, s.d, s.e, s.f, s.g, s.h]

/-- A state from its words. -/
def ShaState.ofWords (l : List Word) : ShaState :=
  { a := l.getD 0 0, b := l.getD 1 0, c := l.getD 2 0, d := l.getD 3 0, e := l.getD 4 0, f := l.getD 5 0,
     g := l.getD 6 0, h := l.getD 7 0 }

/-- One round with its constant and schedule word. -/
def shaRound (k w : Word) (s : ShaState) : ShaState :=
  let s1 := rotr s.e 14 ^^^ rotr s.e 18 ^^^ rotr s.e 41
  let t1 := s.h + s1 + ((s.e &&& s.f) ^^^ (~~~s.e &&& s.g)) + k + w
  let s0 := rotr s.a 28 ^^^ rotr s.a 34 ^^^ rotr s.a 39
  let t2 := s0 + ((s.a &&& s.b) ^^^ (s.a &&& s.c) ^^^ (s.b &&& s.c))
  { a := t1 + t2, b := s.a, c := s.b, d := s.c, e := s.d + t1, f := s.e, g := s.f, h := s.g }

/-- The schedule word that follows the last sixteen, oldest first. -/
def shaNext (w : List Word) : Word :=
  let x := w.getD 14 0
  let y := w.getD 1 0
  (rotr x 19 ^^^ rotr x 61 ^^^ (x >>> 6)) + w.getD 9 0 + (rotr y 1 ^^^ rotr y 8 ^^^ (y >>> 7)) + w.getD 0 0

/-- The rounds of a block. -/
def shaRounds : List Word → List Word → ShaState → ShaState
  | [], _, s => s
  | k :: ks, w, s => shaRounds ks (w.drop 1 ++ [shaNext w]) (shaRound k (w.getD 0 0) s)

/-- A big-endian number. -/
def beNat (bs : List Byte) : Nat := bs.foldl (fun n b => n * 256 + b.toNat) 0
/-- n bytes of a big-endian number. -/
def beBytes (n x : Nat) : List Byte := (leBytes n x).reverse

/-- One block of 128 bytes. -/
def shaBlock (h : ShaState) (bs : List Byte) : ShaState :=
  let w := (List.range 16).map fun i => wordN (beNat ((bs.drop (8 * i)).take 8))
  .ofWords (List.zipWith (· + ·) h.words (shaRounds shaK w h).words)

/-- The first n blocks of a string. -/
def shaBlocks : Nat → ShaState → List Byte → ShaState
  | 0, h, _ => h
  | n + 1, h, bs => shaBlocks n (shaBlock h (bs.take 128)) (bs.drop 128)

/-- SHA-384 of a byte string: 48 bytes. -/
def sha384 (m : List Byte) : List Byte :=
  let z := (239 - m.length % 128) % 128
  let bs := m ++ (0x80 : Byte) :: List.replicate z 0 ++ beBytes 16 (8 * m.length)
  (((shaBlocks (bs.length / 128) (.ofWords shaInit) bs).words).flatMap fun w => beBytes 8 w.toNat).take 48

/-! ## ECDSA P-384 -/

/-- The prime of P-384. -/
def curveP : Nat := 2 ^ 384 - 2 ^ 128 - 2 ^ 96 + 2 ^ 32 - 1
/-- The order of the base point. -/
def curveN : Nat := 0xFFFFFFFFFFFFFFFFFFFFFFFFFFFFFFFFFFFFFFFFFFFFFFFFC7634D81F4372DDF581A0DB248B0A77AECEC196ACCC52973
/-- The coefficient b of the curve y² = x³ - 3x + b. -/
def curveB : Nat := 0xB3312FA7E23EE7E4988E056BE3F82D19181D9C6EFE8141120314088F5013875AC656398D8A2ED19D2A85C8EDD3EC2AEF
/-- The base point. -/
def curveG : Nat × Nat :=
  (0xAA87CA22BE8B05378EB1C71EF320AD746E1D3B628BA79B9859F741E082542A385502F25DBF55296C3A545E3872760AB7,
   0x3617DE4A96262C6F5D9E98BF9292DC29F8F41DBD289A147CE9DA3113B5F0B8C00A60B1CE1D7E819D7A431D7C90EA0E5F)

/-- a to the power of a 384-bit exponent, modulo p. -/
def powMod (p a e : Nat) : Nat :=
  (List.range 384).foldl (fun r i => if e.testBit (383 - i) then r * r % p * a % p else r * r % p) 1

/-- The inverse modulo a prime. -/
def invMod (p a : Nat) : Nat := powMod p a (p - 2)

/-- a - b modulo the prime of the curve. -/
def subP (a b : Nat) : Nat := (a + curveP - b % curveP) % curveP

/-- A point in Jacobian coordinates: it stands for (x / z², y / z³), and z = 0 for the point at infinity. -/
structure Point where
  x : Nat
  y : Nat
  z : Nat
  deriving DecidableEq, Repr

/-- The point at infinity. -/
def Point.infinity : Point := { x := 1, y := 1, z := 0 }

/-- A point of the curve from its affine coordinates. -/
def Point.ofAffine (q : Nat × Nat) : Point := { x := q.1, y := q.2, z := 1 }

/-- The affine x coordinate of a point other than infinity. -/
def Point.affineX (q : Point) : Nat :=
  let i := invMod curveP q.z
  q.x * (i * i % curveP) % curveP

/-- Twice a point, on a curve with the coefficient -3. -/
def Point.double (q : Point) : Point :=
  let zz := q.z * q.z % curveP
  let yy := q.y * q.y % curveP
  let s := 4 * q.x * yy % curveP
  let m := 3 * subP q.x zz * (q.x + zz) % curveP
  let x := subP (m * m) (2 * s)
  { x := x, y := subP (m * subP s x) (8 * yy * yy), z := 2 * q.y * q.z % curveP }

/-- The sum of two points. -/
def Point.add (a b : Point) : Point :=
  if a.z = 0 then b
  else if b.z = 0 then a
  else
    let za := a.z * a.z % curveP
    let zb := b.z * b.z % curveP
    let u := a.x * zb % curveP
    let t := a.y * (zb * b.z % curveP) % curveP
    let h := subP (b.x * za % curveP) u
    let r := subP (b.y * (za * a.z % curveP) % curveP) t
    if h = 0 then if r = 0 then a.double else .infinity
    else
      let hh := h * h % curveP
      let c := h * hh % curveP
      let x := subP (r * r) (c + 2 * (u * hh % curveP))
      { x := x, y := subP (r * subP (u * hh) x) (t * c), z := h * a.z * b.z % curveP }

/-- The sum of k times a and l times b. -/
def Point.combine (k l : Nat) (a b : Point) : Point :=
  (List.range 384).foldl (fun r i =>
    let d := r.double
    let d := if k.testBit (383 - i) then d.add a else d
    if l.testBit (383 - i) then d.add b else d) .infinity

/-- A public key of 97 bytes: an uncompressed point of the curve (R363). -/
def pubPoint (pub : List Byte) : Option (Nat × Nat) :=
  let x := beNat ((pub.drop 1).take 48)
  let y := beNat ((pub.drop 49).take 48)
  if pub.head? = some 0x04 ∧ pub.length = 97 ∧ x < curveP ∧ y < curveP
      ∧ y * y % curveP = (subP (x * x * x) (3 * x) + curveB) % curveP then some (x, y) else none

/-- ECDSA verification of a 48-byte digest under a signature (r, s) of 48 bytes each. -/
def ecdsaVerify (pub digest sig : List Byte) : Bool :=
  let r := beNat (sig.take 48)
  let t := beNat ((sig.drop 48).take 48)
  match pubPoint pub with
  | none => false
  | some q =>
    if r = 0 ∨ curveN ≤ r ∨ t = 0 ∨ curveN ≤ t ∨ sig.length ≠ 96 then false
    else
      let w := invMod curveN t
      let p := Point.combine (beNat digest * w % curveN) (r * w % curveN) (.ofAffine curveG) (.ofAffine q)
      p.z != 0 && p.affineX % curveN == r

/-! ## Images and measurement -/

/-- The number in n bytes at an offset of a record. -/
def fieldN (bs : List Byte) (off n : Nat) : Nat := leNat ((bs.drop off).take n)

/-- Bytes of a list at an offset. -/
def sliceB (bs : List Byte) (off n : Nat) : List Byte := (bs.drop off).take n

/-- Every byte of a slice is zero. -/
def zeroB (bs : List Byte) (off n : Nat) : Bool := (sliceB bs off n).all (· == 0)

/-- The magic of an image header, R363. -/
def imageMagic : List Byte := [0x4B, 0x5A, 0x49, 0x4D, 0x01, 0x00, 0x00, 0x00]

/-- Version of an image, R363. -/
def imageVersion (i : Image) : Nat := fieldN i.header 8 4
/-- The measurement register that an image names, R363. -/
def imageReg (i : Image) : Nat := fieldN i.header 17 1
/-- The body digest in an image's header, R363. -/
def imageDigest (i : Image) : List Byte := sliceB i.header 160 48

/-- The header keeps the layout of R363. -/
def headerOk (i : Image) : Bool :=
  let h := i.header
  h.length == 512 && sliceB h 0 8 == imageMagic && zeroB h 18 14 && zeroB h 129 31 && zeroB h 304 208
    && fieldN h 12 4 == i.body.length && i.body.length % 4096 == 0 && i.body.length ≤ 2 ^ 28

/-- An image passes, R364; `role` says which measurement registers its role allows. -/
def Hub.passes (h : Hub) (role : Nat → Bool) (i : Image) : Bool :=
  let key := fieldN i.header 16 1
  let pub := sliceB i.header 32 97
  headerOk i && key < 4 && !h.revoked.contains key && mapFind h.keyHash key == some (sha384 pub)
    && h.minVersion ≤ imageVersion i && role (imageReg i) && sha384 i.body == imageDigest i
    && ecdsaVerify pub (sha384 (sliceB i.header 0 208)) (sliceB i.header 208 96)

/-- A measurement register; 48 zero bytes after a reset (R365). -/
def Hub.measReg (h : Hub) (i : Nat) : List Byte := (mapFind h.meas i).getD (List.replicate 48 0)

/-- Extends a measurement register with a digest, R365. -/
def Hub.extend (h : Hub) (i : Nat) (d : List Byte) : Hub :=
  { h with meas := mapSet h.meas i (sha384 (h.measReg i ++ d)) }

end Sys2Proof.Machine
end

