-- ==== Sys2Proof/Machine/Event.lean ====
section
/-!
DEFINITION. What the engines of a die write by physical address: words of control blocks, fault-domain records (R329), and
the misses of deadlines (R323). These words are read and written at the coherence point.
-/
namespace Sys2Proof.Machine

/-- The 8-byte word at a physical address. -/
def State.physWord (s : State) (pa : Nat) : Nat := s.readAt pa 8

/-- Writes an n-byte number at a physical address as the scheduler or another engine. -/
def State.engineNum (s : State) (who : Party) (pa n x : Nat) : State := s.writePhys who (numWrite pa n x)

/-- A free 64-bit value (log 6). -/
def State.freeWord (s : State) : State × Word :=
  ({ s with freeIx := s.freeIx + 8 }, wordN (leNat ((List.range 8).map fun i => Config.freeByte (s.freeIx + i))))

/-! ## Fault domains, R329 -/

/-- Causes of a fault-domain record, R329. -/
inductive EventKind where
  | deadline | badPacket | nodeFailure | completionFault
  deriving DecidableEq, Repr

/-- Code of a record's cause, R329. -/
def EventKind.code : EventKind → Nat
  | .deadline => 1
  | .badPacket => 2
  | .nodeFailure => 3
  | .completionFault => 4

/-- Adds 1 to a 4-byte word of a control block. -/
def State.bumpWord (s : State) (who : Party) (pa : Nat) : State :=
  s.engineNum who pa 4 ((s.readAt pa 4 + 1) % 2 ^ 32)

/-- Writes an event to a region's fault domain, or counts it as dropped (R329). -/
def State.faultEvent (s : State) (r : Region) (k : EventKind) (subject : Nat) (tval : Word) : State :=
  match r.ring with
  | none => s.bumpWord (.die r.die) (r.rcb + 92)
  | some (base, log) =>
    let ix := s.physWord (r.rcb + 104)
    let rd := s.physWord (base + 32 * 2 ^ log)
    if 2 ^ log ≤ (ix + 2 ^ 64 - rd) % 2 ^ 64 then s.bumpWord (.die r.die) (r.rcb + 92)
    else
      let bs := leBytes 2 k.code ++ leBytes 2 0 ++ leBytes 4 r.id.toNat ++ leBytes 8 subject ++ leBytes 8 tval.toNat
        ++ leBytes 8 s.time.toNat
      let s := s.writePhys (.die r.die) (listWrite (base + 32 * (ix % 2 ^ log)) bs)
      s.engineNum (.die r.die) (r.rcb + 104) 8 ((ix + 1) % 2 ^ 64)

/-! ## Candidates and deadlines, R313 and R323 -/

/-- A partition-table entry. -/
def DieState.partOf (x : DieState) (p : Nat) : Part := mapGet {} x.parts p

/-- A region's partition is enabled and resident on its die, R313. -/
def State.resident (s : State) (r : Region) : Bool :=
  let p := (s.die r.die).partOf r.part
  p.en && p.st == .resident

/-- The region of a control block as the table of a die holds it, R313 and R314. -/
def State.liveRegion (s : State) (r : Region) : Option Region :=
  ((s.die r.die).regions.map (·.2)).find? fun q => q.rcb == r.rcb

/-- The region table still holds the packet's region, R313. -/
def State.listed (s : State) (p : Packet) : Bool := (s.liveRegion p.region).isSome

/-- A packet is a candidate, R313 and R322. -/
def State.candidate (s : State) (p : Packet) : Bool := p.placed < p.total && s.resident p.region && s.listed p

/-- Replaces a packet of a die. -/
def State.setPacket (s : State) (d : DieId) (p : Packet) : State :=
  s.modDie d fun x => { x with packets := x.packets.map fun (q : Packet) => if q.uid = p.uid then p else q }

/-- Counts a missed deadline, and writes its event, whose tval the spec does not state (R323, R329). -/
def State.miss (s : State) (p : Packet) : State :=
  let s := (s.bumpWord (.die p.region.die) (p.region.rcb + 88)).setPacket p.region.die { p with missed := true }
  if p.evMiss then
    let (s, v) := s.freeWord
    s.faultEvent p.region .deadline p.addr v
  else s

/-- The deadline of a candidate has come and has not been counted, R323. -/
def State.late (s : State) (p : Packet) : Bool := s.candidate p && !p.missed && p.deadline.toNat ≤ s.time.toNat

/-- Counts every deadline of a die that has come, before a write that ends the candidacy of packets (R323). -/
def State.countLate (s : State) (d : DieId) : State :=
  (s.die d).packets.foldl (fun s p => if s.late p then s.miss p else s) s

end Sys2Proof.Machine
end

