-- ==== Sys2Proof/Machine/Partition.lean ====
section
/-!
DEFINITION. Partitions: the partition table (R348), the swap register (R349), halting, saving and restoring (R345 to
R347, R310).
-/
namespace Sys2Proof.Machine

/-- The clusters that a clu field names on a die, R348. -/
def cluList (d : DieId) (clu : BitVec 8) : List Nat :=
  ((List.range 8).filter fun j => clu.getLsbD j).map fun j => 8 * dieNo d + j

/-- Clusters of the part in service on a die, R388. -/
def State.cluUp (s : State) (d : DieId) : BitVec 8 := s.hub.clu.extractLsb' (8 * dieNo d) 8

/-- Carve-out of shadow storage of a die in MiB, R347. -/
def State.shadowOf (s : State) : DieId → Nat
  | .a => s.hub.shadow.1
  | .b => s.hub.shadow.2

/-- Some enabled partition of the die in one of the states holds the cluster. -/
def State.heldIn (s : State) (clu : Nat) (sts : List PartSt) : Bool :=
  (s.die (dieOf clu)).parts.any fun p => p.2.en && p.2.clu.getLsbD (clu % 8) && sts.contains p.2.st

/-- Threads of the cluster issue: its partition is not being halted or restored (R345, R349), and the dies are not
held in reset (R364). -/
def State.cluRuns (s : State) (clu : Nat) : Bool :=
  !s.hub.recovery && (s.heldIn clu [.resident] || !s.heldIn clu [.halting, .restoring])

/-- Base and size of a shadow area, MiB (R348 word 2). -/
def shadowArea (w2 : Word) : Nat × Nat := (bitsN w2.toNat 15 8, bitsN w2.toNat 7 0)

/-- Two areas overlap. -/
def areasMeet (a b : Nat × Nat) : Bool := a.1 < b.1 + b.2 && b.1 < a.1 + a.2 && a.2 != 0 && b.2 != 0

/-- An address range lies wholly in a die's HBM4. -/
def State.inDieHbm (s : State) (d : DieId) (lo n : Nat) : Bool :=
  n == 0 || (s.physRow lo == .hbm && s.physRow (lo + n - 1) == .hbm && lo / 2 ^ 36 == (lo + n - 1) / 2 ^ 36
    && lo / 2 ^ 38 == dieNo d)

/-- The limits of R348 for en = 1. -/
def State.partOk (s : State) (d : DieId) (p : Nat) (clu : BitVec 8) (x : Part) : Bool :=
  let area := shadowArea x.w2
  let overflow := 9936 * 1024 * (cluList d clu).length - area.2 * 2 ^ 20
  clu != 0 && (clu &&& ~~~ s.cluUp d) == 0 && area.1 + area.2 ≤ s.shadowOf d
    && !((s.die d).parts.any fun q => q.1 != p && q.2.en && areasMeet area (shadowArea q.2.w2))
    && s.inDieHbm d (bitsN x.w3.toNat 51 12 * 4096) overflow

/-- The SRAM of a cluster holds zero, with no poison and no earlier value that anyone could still see. -/
def State.clearSram (s : State) (c : Nat) : State :=
  let lo := sramBase + c * sramSize
  let hi := lo + sramSize
  { s with mem := mapDropRange s.mem lo hi, poison := mapDropRange s.poison (lo / 8) (hi / 8),
           old := mapDropRange s.old (lo / 8) (hi / 8), stale := mapDropRange s.stale (lo / 8) (hi / 8) }

/-- Puts a cluster, its contexts, cores and banks into a state of their own, with its SRAM zero. -/
def State.replaceCluster (s : State) (c : Nat) (x : Cluster) : State :=
  { s.clearSram c with
    threads := mapDropRange s.threads (32 * c) (32 * c + 32), cores := mapDropRange s.cores (8 * c) (8 * c + 8),
    clusters := mapSet s.clusters c x, keyAt := s.keyAt.filter fun k => k.1 ≠ c,
    keyHit := s.keyHit.filter fun k => k ≠ c }

/-- Puts clusters into their reset state (R279, R181): contexts, cores, banks, engines; clocks and counters stay. -/
def State.resetClusters (s : State) (cs : List Nat) : State :=
  cs.foldl (fun s c => s.replaceCluster c { cycle := (s.cluster c).cycle, counters := (s.cluster c).counters }) s

/-- Times in a cluster relative to its clock, for a saved context (R310, R346). -/
def Cluster.relative (c : Cluster) : Cluster :=
  { c with fold := { c.fold with due := c.fold.due.map (· - c.cycle) },
           droves := c.droves.map fun d => { d with first := d.first.map fun f => c.cycle - f },
           lines := [], tlb := [], served := [] }

/-- The inverse of `relative` under the clock of the restore; counters and clock are the cluster's own. -/
def Cluster.absolute (c : Cluster) (now : Cluster) : Cluster :=
  { c with fold := { c.fold with due := c.fold.due.map (· + now.cycle) },
           droves := c.droves.map fun d => { d with first := d.first.map fun f => now.cycle - f },
           cycle := now.cycle, counters := now.counters }

/-- The context of clusters, R346. Weight buffers are saved as the address of their last `TLW`. -/
def State.snapshot (s : State) (cs : List Nat) : Snapshot where
  threads := cs.flatMap fun c => mapRange s.threads (32 * c) (32 * c + 32)
  cores := (cs.flatMap fun c => mapRange s.cores (8 * c) (8 * c + 8)).map fun p =>
    (p.1, { p.2 with wb := [], tlb := [], turn := [] })
  clusters := cs.map fun c => (c, (s.cluster c).relative)
  sram := cs.flatMap fun c => mapRange s.mem (sramBase + c * sramSize) (sramBase + (c + 1) * sramSize)
  poison := cs.flatMap fun c =>
    mapRange s.poison ((sramBase + c * sramSize) / 8) ((sramBase + (c + 1) * sramSize) / 8)

/-- Bytes of a range as a context reads them, or none where a byte has no translation. -/
def State.readVirt (s : State) (ctx : Ctx) (va : Word) (n : Nat) : Option (List Byte) :=
  match s.pieces ctx .read va n with
  | (ps, none) => some (ps.flatMap fun p => s.bytesPhys p.place.pa p.len)
  | (_, some _) => none

/-- Logs the malformed entry that the walk of a range has met, if it met one (R352). -/
def State.logWalk (s : State) (ctx : Ctx) (va : Word) (n : Nat) : State :=
  match s.pieces ctx .read va n with
  | (_, some x) => match s.lookup ctx x.2.toNat with
    | .malformed pa => s.logMalformed ctx.tid pa
    | _ => s
  | _ => s

/-- Loads a weight buffer again from the address of its last `TLW` (R346): an illegal byte leaves it zero and is
remembered, and a range without translation leaves it zero. -/
def State.reloadWb (s : State) (core : Nat) (buf : Nat) (va : Word) (ctx : Ctx) : State :=
  let bs := (s.readVirt ctx va 13312).getD []
  let s := s.logWalk ctx va 13312
  let s := s.modCore core fun c => { c with wbBad := mapErase c.wbBad buf }
  match bs.zipIdx.find? fun b => 243 ≤ b.1.toNat with
  | some b => s.modCore core fun c => { c with wbBad := mapSet c.wbBad buf b.2 }
  | none => s.modCore core fun c =>
    { c with wb := bs.zipIdx.foldl (fun m b => mapPut 0 m (buf * 13312 + b.2) b.1) c.wb }

/-- Restores a saved context into its clusters (R346); translation caches start empty. -/
def State.restore (s : State) (cs : List Nat) (x : Snapshot) : State :=
  let s := cs.foldl (fun s c => s.replaceCluster c ((mapGet {} x.clusters c).absolute (s.cluster c))) s
  let threads := mapVals (fun (th : Thread) => { th with halt := .none }) x.threads
  let s := { s with threads := mapSetAll s.threads threads, cores := mapSetAll s.cores x.cores,
                    mem := x.sram.foldl (fun m b => mapPut memDefault m b.1 b.2) s.mem,
                    poison := mapSetAll s.poison x.poison }
  x.cores.foldl (fun s c => c.2.wbAddr.foldl (fun s w => s.reloadWb c.1 w.1 w.2.1 w.2.2) s) s

/-- Writes word 0 of a partition-table entry, R348. -/
def State.writePart0 (s : State) (d : DieId) (p : Nat) (v : Word) : State :=
  let x := (s.die d).partOf p
  let put := fun (s : State) (y : Part) => s.modDie d fun ds => { ds with parts := mapSet ds.parts p y }
  let en := v.getLsbD 63
  let clu : BitVec 8 := v.setWidth 8
  let held := x.en
  let x := { x with w0 := v &&& 0x0FFFFFFFFFFFFF00 }
  if held then
    (if !en && x.st = .out then put s { x with en := false, clu := clu, saved := {} } else s)
  else if !en then put s { x with clu := clu }
  else
    if s.partOk d p clu x then
      let cs := cluList d clu
      if cs.any fun c => s.heldIn c [.resident, .halting, .restoring] then
        put s { x with en := true, err := false, clu := clu, st := .out, saved := {} }
      else
        put (s.resetClusters cs) { x with en := true, err := false, clu := clu, st := .resident, saved := {} }
    else put s { x with err := true, clu := clu }

/-- Writes a word of a partition-table entry, R348. -/
def State.writePart (s : State) (d : DieId) (p word : Nat) (v : Word) : State :=
  let x := (s.die d).partOf p
  let put := fun (y : Part) => s.modDie d fun ds => { ds with parts := mapSet ds.parts p y }
  match word with
  | 0 => s.writePart0 d p v
  | 1 => put { x with svec := v &&& ~~~0xF }
  | 2 => if x.en then s else put { x with w2 := v &&& 0xFFFF }
  | _ => if x.en then s else put { x with w3 := wordN (bitsN v.toNat 51 12 * 4096) }

/-- Reads a word of a partition-table entry, R348. -/
def DieState.readPart (x : DieState) (p word : Nat) : Word :=
  let y := x.partOf p
  match word with
  | 0 =>
    let st := match y.st with | .out => 0 | .resident => 1 | .halting => 2 | .restoring => 3
    y.w0 ||| wordN ((if y.en then 2 ^ 63 else 0) + (if y.err then 2 ^ 62 else 0) + st * 2 ^ 60 + y.clu.toNat)
  | 1 => y.svec
  | 2 => y.w2
  | _ => y.w3

/-- The conditions of R349 on a write of SWAP. -/
def State.swapOk (s : State) (d : DieId) (v : Word) : Bool :=
  let ds := s.die d
  let ien := v.getLsbD 12
  let oen := v.getLsbD 4
  let i := ds.partOf (bitsN v.toNat 11 8)
  let o := ds.partOf (bitsN v.toNat 3 0)
  !ds.swap.busy && (v &&& ~~~0x1F1F) == 0 && (ien || oen)
    && (!oen || (o.en && o.st == .resident)) && (!ien || (i.en && i.st == .out))
    && (!(ien && oen) || i.clu == o.clu)
    && (!(ien && !oen) || !(cluList d i.clu).any fun c => s.heldIn c [.resident])

/-- Sets the state of a partition. -/
def State.setPartSt (s : State) (d : DieId) (p : Nat) (st : PartSt) : State :=
  s.modDie d fun ds => { ds with parts := mapSet ds.parts p { ds.partOf p with st := st } }

/-- Asks the threads of clusters for a forced save (R345): each takes it at the point that R341 gives, and none is
delivered as a trap. The element at which a vector instruction stops is a free choice (log 45). The 65,536 cycles of R148
count from the first stop that was asked for. -/
def State.haltClusters (s : State) (cs : List Nat) : State :=
  { s with
    freeIx := s.freeIx + 512,
    threads := s.threads.map fun t =>
      if cs.contains (cluOf t.1) ∧ t.2.run = .ready then
        (t.1, { t.2 with halt := .asked, haltEl := Config.pick (s.freeIx + t.1) % 16385,
                         stopCycle := if t.2.stop.isSome then t.2.stopCycle else (s.cluster (cluOf t.1)).cycle })
      else t }

/-- A write of SWAP, R349. The deadlines that have come are counted before the packets of the outgoing partition cease to be
candidates (R323). -/
def State.writeSwap (s : State) (d : DieId) (v : Word) : State :=
  if s.swapOk d v then
    let o := bitsN v.toNat 3 0
    let i := bitsN v.toNat 11 8
    let oen := v.getLsbD 4
    let ien := v.getLsbD 12
    let s := (s.countLate d).modDie d fun ds =>
      { ds with swap := { busy := true, outP := if oen then some o else none, inP := if ien then some i else none,
                          saved := !oen, since := s.time.toNat, dur := ds.swap.dur } }
    if oen then (s.setPartSt d o .halting).haltClusters (cluList d ((s.die d).partOf o).clu)
    else s.setPartSt d i .restoring
  else s.modDie d fun ds => { ds with swap := { ds.swap with err := true } }

/-- SWAPSTAT, R349. -/
def Swap.stat (w : Swap) : Word :=
  wordN ((if w.busy then 1 else 0) + (if w.done then 2 else 0) + (if w.err then 4 else 0) + w.dur * 2 ^ 32)

/-- The node is a copy that runs. -/
def Node.copying (n : Node) : Bool :=
  n.st == .launched && match n.op with
    | .gnode _ => false
    | _ => true

/-- Every thread of the clusters has taken its forced save, and every pass, running copy and `BGEMV` has completed
(R345). -/
def State.quiet (s : State) (cs : List Nat) : Bool :=
  cs.all fun c =>
    (s.cluster c).running.isNone && (s.cluster c).started.isEmpty
      && ((List.range 8).all fun k => (s.core (8 * c + k)).nodes.all fun n => !n.2.copying)
      && (List.range 32).all fun t =>
        let th := s.thread (32 * c + t)
        (th.run != .ready || th.halt == .saved) && th.bg.all fun b => b.failed.isSome

/-- Ends a swap: SWAPSTAT.done and the duration (R349). -/
def State.endSwap (s : State) (d : DieId) : State :=
  s.modDie d fun ds =>
    { ds with swap := { ds.swap with busy := false, done := true, outP := none, inP := none,
                                     dur := min (s.time.toNat - ds.swap.since) (2 ^ 32 - 1) } }

end Sys2Proof.Machine
end

