-- ==== Sys2Proof/Machine/Regs.lean ====
section
/-!
DEFINITION. The three register blocks of R360 and R361: reads, and writes by device code or by a master of R370. The
range table (R286, R287), the region table with the control blocks it reads (R313 to R315), the channel registers
(R385), access-control entries (R381), reduction groups (R378, R379), ownership (R371, R372) and the fleet registers
(R387 to R399).
-/
namespace Sys2Proof.Machine

/-! ## Ownership -/

/-- Who writes a register: device code in supervisor mode, or a master by its id (R370). -/
abbrev Writer := Option (BitVec 16)

/-- Logs a malformed register access or a write that the hub drops, R361 and R372: the detail is the master's id, and
a free value for device code, which has none (log 6). -/
def State.logAccess (s : State) (who : Writer) : State :=
  match who with
  | some m => s.logRas 0x09 0 2 0 (m.setWidth 64)
  | none =>
    let (s, w) := s.freeWord
    s.logRas 0x09 0 2 0 w

/-- The next epoch, R371. -/
def nextEpoch (h : Hub) : Nat := (h.epoch + 1) % 2 ^ 32

/-- Ownership lapses 2 s after the last claim, heartbeat or successor write that succeeded (R371). It comes before any
write that arrives at that time (R373). -/
def State.expire (s : State) : State :=
  if s.hub.valid && s.hub.timer + 2000000000 ≤ s.time.toNat then
    (s.logRas 0x09 0 2 0 (s.hub.owner.setWidth 64)).modHub fun h => { h with valid := false, epoch := nextEpoch h }
  else s

/-- The master owns the device, R371. -/
def State.owns (s : State) (m : BitVec 16) : Bool := s.hub.valid && s.hub.owner == m

/-- The ids of R370: the host, the board controller, and the Holt peers of the 2,048 nodes of R376. No other id comes
from a transport. -/
def masterOk (m : BitVec 16) : Bool := m = 1 || m = 2 || (0x1000 ≤ m && m < 0x1800)

/-- The hub drops a write and logs it (R372). A request of the host that is not posted completes as Unsupported Request:
a firmware image or a life-cycle command, as against a write of BAR0 or of CXL.mem (log 10). -/
def State.dropWrite (s : State) (m : BitVec 16) (posted : Bool) : State :=
  let s := s.logRas 0x09 0 2 0 (m.setWidth 64)
  if m = 1 && !posted then s.answer (.unsupported m) else s

/-- Runs what only the owner may do, or drops it (R372). -/
def State.ownerMay (s : State) (m : BitVec 16) (posted : Bool) (k : State → State) : State :=
  if !masterOk m then s
  else
    let s := s.expire
    if s.owns m then k s else s.dropWrite m posted

/-- Runs a write of the owner to a register or to memory, or drops it (R372). -/
def State.ownerOnly (s : State) (m : BitVec 16) (k : State → State) : State := s.ownerMay m true k

/-- OWNCLAIM, R371. -/
def State.ownClaim (s : State) (m : BitVec 16) (v : Word) : State :=
  let s := s.expire
  if !masterOk m then s
  else if !s.hub.valid && bitsN v.toNat 63 32 == s.hub.epoch then
    s.modHub fun h => { h with owner := m, valid := true, epoch := nextEpoch h, timer := s.time.toNat }
  else s.logRas 0x09 0 2 0 (m.setWidth 64)

/-- HEARTBEAT, R371. -/
def State.heartBeat (s : State) (m : BitVec 16) (v : Word) : State :=
  let s := s.expire
  if !masterOk m then s
  else if s.owns m && bitsN v.toNat 63 32 == s.hub.epoch then s.modHub fun h => { h with timer := s.time.toNat }
  else s.logRas 0x09 0 2 0 (m.setWidth 64)

/-- SUCCESSOR, R371. -/
def State.succeed (s : State) (m : BitVec 16) (v : Word) : State :=
  let s := s.expire
  if !masterOk m then s
  else if s.owns m && bitsN v.toNat 63 32 == s.hub.epoch then
    s.modHub fun h => { h with owner := v.setWidth 16, epoch := nextEpoch h, timer := s.time.toNat }
  else s.logRas 0x09 0 2 0 (m.setWidth 64)

/-! ## Range table -/

/-- A word of the range table. -/
def DieState.rangeWord (x : DieState) (e w : Nat) : Word := mapGet 0 x.range (2 * e + w)

/-- The limits of R287, on word 0 and a value for word 1. -/
def rangeOk (d : DieId) (w0 w1 : Word) : Bool :=
  let b := w0.toNat
  let v := w1.toNat
  let first := bitsN v 39 32
  let count := bitsN v 47 40
  let st := bitsN v 51 48
  let mode := bitsN v 61 60
  let size := bitsN v 31 0
  let base := bitsN b 51 16 * 65536
  1 ≤ count && first + count ≤ 128 && 1 ≤ size && base / 2 ^ 38 == dieNo d
    && (base + size * 65536 - 1) / 2 ^ 38 == dieNo d && mode != 3
    && bitsN b 63 52 == 0 && bitsN b 15 0 == 0 && bitsN v 59 52 == 0
    && (mode != 1 || (count ≤ 16 && st == 0)) && (mode != 2 || (count % 2 == 0 && first % 2 == 0))

/-- The lines of an enabled entry, first to last (R286, R287). -/
def DieState.rangeLines (x : DieState) (e : Nat) : List (Nat × Nat) :=
  let v := x.rangeWord e 1
  let base := bitsN (x.rangeWord e 0).toNat 51 16 * 512
  if v.getLsbD 63 then [(base, base + bitsN v.toNat 31 0 * 512 - 1)] else []

/-- Some slice may hold a line of a span, or an access to it is in flight (R289). -/
def State.spanBusy (s : State) (m : Nat × Nat) : Bool :=
  let meets := fun (line : Nat) => m.1 ≤ line && line ≤ m.2
  (s.held.any fun l => meets l.1) || (s.threads.any fun t => t.2.pend.any fun w => w.bytes.any fun b => meets (b.1 / 128))
    || s.cores.any fun c => c.2.nodes.any fun n =>
      (n.2.todo.any fun l => meets (l.piece.place.pa / 128)) || n.2.out.any fun l => meets (l.1.piece.place.pa / 128)

/-- Writes one word of the range table as it stands. Where a slice holds a line of the old or the new range, reads of
both ranges may be stale from now on (R289). -/
def State.putRange (s : State) (d : DieId) (e w : Nat) (v : Word) : State :=
  let t := s.modDie d fun ds => { ds with range := mapSet ds.range (2 * e + w) v }
  let both := (s.die d).rangeLines e ++ (t.die d).rangeLines e
  if both.any s.spanBusy then { t with moved := both ++ t.moved } else t

/-- Writes a word of the range table. A word 1 that asks for en and breaks a limit is kept with err set and en clear
(R286, R287). -/
def State.writeRange (s : State) (d : DieId) (e w : Nat) (v : Word) : State :=
  let ds := s.die d
  let put := fun (v : Word) => s.putRange d e w v
  if w = 0 then put v
  else
    let v' := v &&& ~~~(wordN (2 ^ 62))
    if rangeOk d (ds.rangeWord e 0) v' then put v'
    else put ((v' &&& ~~~(wordN (2 ^ 63))) ||| wordN (2 ^ 62))

/-- Slice of an address under one enabled entry, R288. -/
def rangeSlice (w1 : Word) (a : Nat) : Nat :=
  let v := w1.toNat
  let first := bitsN v 39 32
  let count := bitsN v 47 40
  let sz := 128 * 2 ^ bitsN v 51 48
  match bitsN v 61 60 with
  | 0 => first + a / sz % count
  | 1 => first + ((List.range 8).foldl (fun f j => f ^^^ bitsN a (10 + 4 * j) (7 + 4 * j)) 0) % count
  | _ => first + 2 * (a / (2 * sz) % (count / 2)) + a / sz % 2

/-- The entry of the range table that matches an address, R287 and R288. -/
def DieState.rangeHit (x : DieState) (a : Nat) : Option Nat :=
  (List.range 64).find? fun e =>
    let base := bitsN (x.rangeWord e 0).toNat 51 16 * 65536
    (x.rangeWord e 1).getLsbD 63 && base ≤ a && a < base + bitsN (x.rangeWord e 1).toNat 31 0 * 65536

/-- The default fold over all 128 slices, R288. -/
def defaultFold (a : Nat) : Nat :=
  (List.range 7).foldl (fun f j => f ^^^ bitsN (a % 2 ^ 52) (13 + 7 * j) (7 + 7 * j)) 0

/-- Home die of an HBM4 address, R285. -/
def homeDie (a : Nat) : DieId := if a < 2 ^ 38 then .a else .b

/-- Home slice of an HBM4 address with the matching entry, R288. -/
def State.homeSlice (s : State) (a : Nat) : Nat × Option Nat :=
  let x := s.die (homeDie a)
  match x.rangeHit a with
  | some e => (rangeSlice (x.rangeWord e 1) a, some e)
  | none => (defaultFold a, none)

/-! ## Regions -/

/-- A field of an RCB. -/
def State.rcbField (s : State) (rcb off n : Nat) : Nat := s.readAt (rcb + off) n

/-- Bit j of an RCB's ovr, R315. -/
def State.rcbOvr (s : State) (rcb j : Nat) : Bool := (s.rcbField rcb 12 4).testBit j

/-- A legal grant, R8 and R29. -/
def grantOk (g : BitVec 7) : Bool :=
  let size := (g.extractLsb' 4 3).toNat
  1 ≤ size && size ≤ 4 && (g.extractLsb' 0 4).toNat % 2 ^ size == 0

/-- The limits of R315 on one RCB: zero bytes, and the fields it overrides. -/
def State.rcbOk (s : State) (rcb : Nat) : Bool :=
  let f := s.rcbField rcb
  let o := s.rcbOvr rcb
  f 12 4 < 4096 && f 22 2 == 0 && f 44 4 == 0 && f 118 2 == 0
    && (!o 0 || f 16 1 ≤ 127) && (!o 2 || 1 ≤ f 18 2) && (!o 10 || f 21 1 ≤ 1)
    && (!o 5 || (f 32 8 % 16 == 0 && f 40 4 % 16 == 0))
    && (!o 7 || ((List.range 4).all fun i => (f (56 + i) 1) % 4 == 0) && f 60 4 == 0)
    && (!o 8 || f 96 8 % 16 ≤ 12)
    && (!o 11 || (List.range 4).all fun i => f (112 + i) 1 < 128 && grantOk (BitVec.ofNat 7 (f (112 + i) 1)))

/-- The chain of RCBs from one to its root, at most n of them; none when it is longer. -/
def State.rcbChain (s : State) : Nat → Nat → Option (List Nat)
  | 0, _ => none
  | n + 1, rcb =>
    let parent := s.rcbField rcb 0 8
    if parent = 0 then some [rcb] else (s.rcbChain n parent).map fun l => rcb :: l

/-- A field as R315 resolves it: from the nearest RCB of the chain that overrides it, else the root default. -/
def State.resolve (s : State) (chain : List Nat) (j off n dflt : Nat) : Nat :=
  match chain.find? fun r => s.rcbOvr r j with
  | some r => s.rcbField r off n
  | none => dflt

/-- The region of a table entry with every field resolved, R315. -/
def State.readRegion (s : State) (d : DieId) (idx part rcb : Nat) (chain : List Nat) : Region :=
  let g := s.resolve chain
  let lb := s.rcbField rcb 80 8
  let ring := g 8 96 8 0
  { rcb := rcb, id := BitVec.ofNat 32 (s.rcbField rcb 8 4), prio := g 0 16 1 0, floor := g 1 17 1 0,
    weight := g 2 18 2 256, cap := g 3 20 1 0, excl := (g 10 21 1 0).testBit 0, cycleLimit := wordN (g 4 24 8 0),
    stackBase := wordN (g 5 32 8 0), stackSize := g 5 40 4 0, gp := wordN (g 6 48 8 0),
    roles := wordN (g 7 56 8 0x20100804), grants := BitVec.ofNat 32 (g 11 112 4 0x40404040),
    listBase := bitsN lb 51 7 * 128, listLog := bitsN lb 4 0,
    ring := if ring = 0 then none else some (bitsN ring 51 12 * 4096, bitsN ring 3 0),
    asid := g 9 116 2 0, root := bitsN (g 9 120 8 0) 51 20 * 2 ^ 20, die := d, idx := idx, part := part,
    chain := chain }

/-- RCB address of a region-table word, R313. -/
def regionRcb (v : Word) : Nat := bitsN v.toNat 51 7 * 128

/-- The limits of R314 on a write of en = 1 to entry i. -/
def State.regionOk (s : State) (d : DieId) (i : Nat) (v : Word) (chain : List Nat) : Bool :=
  let ds := s.die d
  let part := bitsN v.toNat 3 0
  let others := ds.regionW.filter fun e => e.1 != i && e.2.getLsbD 63
  chain.all (fun r => r == regionRcb v
      || others.any fun e => regionRcb e.2 == r && bitsN e.2.toNat 3 0 == part)
    && !(others.any fun e => regionRcb e.2 == regionRcb v) && s.rcbOk (regionRcb v)

/-- A value for a register whose bit 62 tells of the last write of en = 1: a write of en = 0 keeps it (R313, R348,
R378). -/
def keepErr (old v : Word) : Word := (v &&& ~~~(wordN (2 ^ 62))) ||| (old &&& wordN (2 ^ 62))

/-- A packet of a region whose control block has been read again, R314; what runs keeps its fields (R316). -/
def Packet.reread (r : Region) (p : Packet) : Packet :=
  if p.region.rcb = r.rcb then { p with region := r } else p

/-- Writes an entry of the region table, R313 and R314. The deadlines that have come are counted before the packets of the
entry cease to be candidates (R323). -/
def State.writeRegion (s : State) (d : DieId) (i : Nat) (v : Word) : State :=
  let s := s.countLate d
  let old := mapGet 0 (s.die d).regionW i
  let v := v &&& ~~~(wordN (2 ^ 62))
  let put := fun (w : Word) (r : Option Region) => s.modDie d fun ds =>
    { ds with regionW := mapSet ds.regionW i w,
              regions := match r with | some r => mapSet ds.regions i r | none => mapErase ds.regions i,
              packets := match r with | some r => ds.packets.map (Packet.reread r) | none => ds.packets }
  let bad := put ((v &&& ~~~(wordN (2 ^ 63))) ||| wordN (2 ^ 62)) none
  if !v.getLsbD 63 then put (keepErr old v) none
  else
    match s.rcbChain 8 (regionRcb v) with
    | none => bad
    | some chain =>
      if s.regionOk d i v chain then put v (some (s.readRegion d i (bitsN v.toNat 3 0) (regionRcb v) chain))
      else bad

/-! ## Channels, access control, reduction groups -/

/-- A channel controller. -/
def DieState.channel (x : DieState) (ch : Nat) : Channel := mapGet {} x.channels ch

/-- A bank of a channel. -/
def State.bank (s : State) (d : DieId) (ch b : Nat) : Bank := mapGet {} ((s.die d).channel ch).banks b

/-- Replaces a bank, with changes to its channel's counts. -/
def State.setBank (s : State) (d : DieId) (ch b : Nat) (x : Bank) (rm alerts : Nat) : State :=
  s.modDie d fun ds =>
    let c := ds.channel ch
    let c : Channel := { c with banks := mapSet c.banks b x, rm := (c.rm + rm) % 2 ^ 64,
                                alerts := (c.alerts + alerts) % 2 ^ 64 }
    { ds with channels := mapSet ds.channels ch c }

/-- The tracker after an activation of a row, R384, and the refresh-management commands that it issues. -/
def trackRow (thr : Nat) (rows : List (Nat × Nat)) (row : Nat) : List (Nat × Nat) × Nat :=
  let rows :=
    match mapFind rows row with
    | some n => mapSet rows row (n + 1)
    | none =>
      if rows.length < 16 then mapSet rows row 1
      else (mapVals (fun n => n - 1) rows).filter fun r => r.2 != 0
  match mapFind rows row with
  | some n => if thr ≤ n then (mapSet rows row 0, 1) else (rows, 0)
  | none => (rows, 0)

/-- A row activation, for a demand access or a hint; a bank that owes 8 refreshes receives one first, and a held bank
activates nothing (R294, R383, R384, R386). -/
def State.activate (s : State) (die : DieId) (ch bank row : Nat) : State :=
  let x := s.bank die ch bank
  if x.held then s
  else
    let r := trackRow ((s.die die).channel ch).thr x.rows row
    s.setBank die ch bank { x with rows := r.1, owed := if x.owed = 8 then 7 else x.owed } r.2 0

/-- A physical address lies in a page that a TERNBANK mapping has reached (R291). -/
def State.ternAt (s : State) (pa : Nat) : Bool := s.tern.any fun p => p.1 ≤ pa && pa < p.1 + 2 ^ p.2

/-- The global channel of an HBM4 address: the n-th granule of its stack lies on the (n mod c)-th channel in service,
counted upward; granules are 2,048 bytes in a TERNBANK page and 256 bytes in any other (R291, R390). -/
def State.channelOf (s : State) (pa : Nat) : Nat :=
  let stack := pa / 2 ^ 36
  let up := (List.range 32).filter fun c => (mapGet 0xFFFFFFFF s.hub.chans stack).getLsbD c
  stack * 32 + up.getD (pa % 2 ^ 36 / (if s.ternAt pa then 2048 else 256) % up.length) 0

/-- The DRAM row of an HBM4 address: global channel, bank and row (log 30). -/
def State.dramRow (s : State) (pa : Nat) : Nat × Nat × Nat := (s.channelOf pa, Config.dramBank pa, Config.dramRow pa)

/-- Writes a channel's threshold and neighbour count with the clamping of R385; the reserved bits keep what is
written. -/
def State.writeChannel (s : State) (d : DieId) (ch : Nat) (v : Word) : State :=
  let br := bitsN v.toNat 19 18
  let thr := bitsN v.toNat 15 0
  s.modDie d fun ds =>
    let c : Channel :=
      { ds.channel ch with br := if br = 0 ∨ br = 3 then 1 else br, thr := if thr < 64 then 64 else thr,
                           rsv := v &&& ~~~0xCFFFF }
    { ds with channels := mapSet ds.channels ch c }

/-- Writes a word of a remote-reader access-control entry, R381: stack of the die, entry, word. A die has four stacks and a
table 256 entries. -/
def State.writeAccess (s : State) (d : DieId) (stack entry w : Nat) (v : Word) : State :=
  if 4 ≤ stack ∨ 256 ≤ entry then s
  else s.modDie d fun ds => { ds with access := mapSet ds.access ((stack * 256 + entry) * 2 + w) v }

/-- Element types of a reduction, R379. -/
def redTyOk : Ty → Bool
  | .s32 | .s64 | .n32 | .n64 | .t32 | .h16 | .f32 | .f64 => true
  | _ => false

/-- A range lies wholly in the HBM4 of one stack. -/
def State.inStack (s : State) (pa n : Nat) : Bool :=
  s.physRow pa == .hbm && s.physRow (pa + n - 1) == .hbm && pa / 2 ^ 36 == (pa + n - 1) / 2 ^ 36

/-- The descriptor at an address, when it is legal: the slots and the result lie in this device's HBM4, and the two other
addresses are physical ones of 52 bits (R379, R360). -/
def State.readRed (s : State) (v : Word) : Option RedGroup :=
  let p := bitsN v.toNat 51 6 * 64
  let f := fun off n => s.readAt (p + off) n
  match Ty.ofCode (BitVec.ofNat 5 (f 0 1)) with
  | none => none
  | some ty =>
    let g : RedGroup :=
      { reg := v &&& ~~~(wordN (2 ^ 62)), ty := ty, ranks := f 1 1, core := f 2 1, count := f 4 4, landing := f 8 8,
        arrival := f 16 8, compAddr := f 24 8, compVal := wordN (f 32 8) }
    if f 0 1 < 32 && redTyOk ty && 2 ≤ g.ranks && g.ranks ≤ 16 && g.core < 128 && f 3 1 == 0 && 1 ≤ g.count
        && g.count * (ty.width / 8) ≤ 2 ^ 24 && g.landing % 128 == 0 && s.inStack g.landing ((g.ranks + 1) * g.slot)
        && g.arrival % 8 == 0 && g.arrival < 2 ^ 52 && g.compAddr % 8 == 0 && g.compAddr < 2 ^ 52 && (List.range 5).all (fun i => f (40 + 8 * i) 8 == 0 || i ≥ 3)
    then some g else none

/-- The cluster is in service, R387 and R388. -/
def State.cluInService (s : State) (clu : Nat) : Bool := clu < 16 && s.hub.clu.getLsbD clu

/-- The core is in service, R388. -/
def State.coreUp (s : State) (core : Nat) : Bool :=
  s.cluInService (core / 8) && (mapGet 0xFF s.hub.cores (core / 8)).getLsbD (core % 8)

/-- Writes REDG(g), R378: the hub holds 16 groups. -/
def State.writeRed (s : State) (g : Nat) (v : Word) : State :=
  if 16 ≤ g then s else
  let put := fun (r : RedGroup) => s.modHub fun h => { h with redg := mapSet h.redg g r }
  let old := (mapGet {} s.hub.redg g).reg
  let v := v &&& ~~~(wordN (2 ^ 62))
  if !v.getLsbD 63 then put { reg := keepErr old v }
  else
    match s.readRed v with
    | some r => put r
    | none => put { reg := (v &&& ~~~(wordN (2 ^ 63))) ||| wordN (2 ^ 62) }

/-! ## Fleet registers -/

/-- Word of a retire-list entry, R391. -/
def retireWord (v : Word) : Word := wordN (2 ^ 63 + bitsN v.toNat 9 8 * 256 + bitsN v.toNat 7 0)

/-- Units of a kind on a retire list. -/
def retiredUnits (l : List (Nat × Word)) (kind : Nat) : List Nat :=
  (l.filter fun e => bitsN e.2.toNat 9 8 == kind).map fun e => bitsN e.2.toNat 7 0

/-- Clusters in service under binning and a retire list, R387, R391. -/
def cluUnder (h : Hub) (l : List (Nat × Word)) : BitVec 16 :=
  (List.range 16).foldl (fun b c => if (retiredUnits l 0).contains c then b &&& ~~~((1 : BitVec 16) <<< c) else b)
    h.fclu

/-- Channels of a stack in service under a retire list, R388, R391. -/
def chansUnder (l : List (Nat × Word)) (stack : Nat) : BitVec 32 :=
  (List.range 32).foldl
    (fun b c => if (retiredUnits l 3).contains (stack * 32 + c) then b &&& ~~~((1 : BitVec 32) <<< c) else b)
    0xFFFFFFFF

/-- The limits of R391 on a changed list: a cluster in service, and 16 channels on every stack. -/
def retireOk (h : Hub) (l : List (Nat × Word)) : Bool :=
  cluUnder h l != 0 && (List.range 8).all fun k => 16 ≤ popN 32 (chansUnder l k).toNat

/-- Refuses a retire or minimum-version write, R391 and R397. -/
def State.refuse (s : State) (v : Word) : State := s.logRas 0x0E 0 2 0 v

/-- Adds a unit to the retire list, or refuses (R391). -/
def State.retireAdd (s : State) (v : Word) : State :=
  let h := s.hub
  match (List.range 64).find? fun i => (mapFind h.retired i).isNone with
  | none => s.refuse v
  | some i =>
    let l := mapSet h.retired i (retireWord v)
    if retireOk h l then s.modHub fun h => { h with retired := l } else s.refuse v

/-- Clears an entry of the retire list, or refuses (R391). -/
def State.retireClear (s : State) (v : Word) : State :=
  match s.hub.retired.find? fun e => e.2 == retireWord v with
  | none => s.refuse v
  | some e => s.modHub fun h => { h with retired := mapErase h.retired e.1 }

/-- The identity register, R387. -/
def Hub.identityWord (h : Hub) : Word :=
  wordN (h.stk.toNat * 2 ^ 48 + h.fclu.toNat * 2 ^ 32 + h.clu.toNat * 2 ^ 16 + h.step % 256 * 2 ^ 8
    + (if h.isModule then 8 else 0) + h.part % 8)

/-- Bytes of the wipe record W, R399. -/
def Wipe.bytes (w : Wipe) : List Byte :=
  leBytes 8 w.count ++ [BitVec.ofNat 8 w.cause, w.stackBits, w.failed] ++ leBytes 5 0 ++ leBytes 8 w.dur.toNat
    ++ (w.unread.take 32 ++ List.replicate (32 - w.unread.length) 0) ++ leBytes 8 0

/-- Bytes of a RAS record, R392. -/
def Ras.bytes (r : Ras) : List Byte :=
  leBytes 8 r.time.toNat ++ leBytes 2 r.code ++ leBytes 1 r.cls ++ leBytes 1 r.die ++ leBytes 4 r.unit
    ++ leBytes 8 r.detail.toNat ++ leBytes 8 0

/-- Bytes 8i to 8i + 7 of a record as a word. -/
def recordWord (bs : List Byte) (i : Nat) : Word := wordN (leNat ((bs.drop (8 * i)).take 8))

/-- An island, R395. -/
def Hub.island (h : Hub) (i : Nat) : Island := mapGet {} h.islands i

/-- OWNER, R371. -/
def Hub.ownerWord (h : Hub) : Word :=
  wordN (h.epoch * 2 ^ 32 + (if h.valid then 2 ^ 16 else 0) + h.owner.toNat)

/-- Reads a hub register (R371, R376 to R378, R387 to R399). -/
def Hub.readReg (h : Hub) (off : Nat) : Word :=
  if off = 0x0008 then wordN h.life
  else if off = 0x0010 then h.identityWord
  else if 0x0020 ≤ off ∧ off < 0x00A0 then
    let c := (off - 0x20) / 8
    let up := if h.clu.getLsbD c then (mapGet 0xFF h.cores c).toNat else 0
    wordN (up * 2 ^ 32 + (mapGet 0 h.halfLanes c).toNat * 2 ^ 40)
  else if 0x00C0 ≤ off ∧ off < 0x0100 then
    let k := (off - 0xC0) / 8
    if h.stk.getLsbD k then (mapGet 0xFFFFFFFF h.chans k).setWidth 64 else 0
  else if off = 0x0100 then h.ownerWord
  else if off = 0x0108 ∨ off = 0x0110 ∨ off = 0x0118 ∨ off = 0x0200 then 0
  else if 0x0300 ≤ off ∧ off < 0x0340 then recordWord h.wipe.bytes ((off - 0x300) / 8)
  else if off = 0x0400 then wordN h.verifySlot
  else if off = 0x0408 then wordN (h.verify + h.verifyVersion.toNat * 2 ^ 32)
  else if off = 0x0410 then wordN h.minVersion
  else if off = 0x0500 then h.shadowReg
  else if 0x0800 ≤ off ∧ off < 0x0A00 then mapGet 0 h.retired ((off - 0x800) / 8)
  else if 0x1000 ≤ off ∧ off < 0x1080 then (mapGet {} h.redg ((off - 0x1000) / 8)).reg
  else if off = 0x2000 then h.node.setWidth 64
  else if 0x2100 ≤ off ∧ off < 0x2200 then mapGet 0 h.windows ((off - 0x2100) / 8)
  else if off = 0x3000 then wordN h.rasCount
  else if off = 0x4000 then wordN h.cap
  else if 0x5000 ≤ off ∧ off < 0x5200 then
    let i := h.island ((off - 0x5000) / 16)
    if off % 16 = 0 then wordN (i.temp * 2 ^ 48 + i.pwr % 65536 * 2 ^ 32 + i.clk * 2 ^ 16)
    else i.rsv ||| wordN (i.prio * 2 ^ 16 + i.fmax)
  else if 0x100000 ≤ off ∧ off < 0x120000 then
    let j := (off - 0x100000) / 32
    match mapFind h.ras j with
    | some r => recordWord r.bytes (off % 32 / 8)
    | none => 0
  else if 0x120000 ≤ off ∧ off < 0x120800 then
    match h.fatal[(off - 0x120000) / 32]? with
    | some r => recordWord r.bytes (off % 32 / 8)
    | none => 0
  else mapGet 0 h.regs off

/-- Reads a register of a die's block (R286, R313, R348, R349, R381, R385, R394). -/
def State.readDieReg (s : State) (d : DieId) (off : Nat) : Word :=
  let x := s.die d
  if 0x10000 ≤ off ∧ off < 0x10400 then mapGet 0 x.range ((off - 0x10000) / 8)
  else if 0x20000 ≤ off ∧ off < 0x22000 then mapGet 0 x.regionW ((off - 0x20000) / 8)
  else if 0x30000 ≤ off ∧ off < 0x32000 then
    let ch := x.channel ((off - 0x30000) / 64)
    match off % 64 / 8 with
    | 0 => ch.rsv ||| wordN (ch.br * 2 ^ 18 + ch.thr)
    | 1 => wordN ch.rm
    | 2 => wordN ch.alerts
    | _ => 0
  else if 0x40000 ≤ off ∧ off < 0x44000 then
    mapGet 0 x.access (((off - 0x40000) / 0x1000 * 256 + off % 0x1000 / 16) * 2 + off % 16 / 8)
  else if 0x50000 ≤ off ∧ off < 0x50200 then
    wordN (mapGet 0 (s.cluster (8 * dieNo d + (off - 0x50000) / 64)).counters (off % 64 / 8))
  else if 0x60000 ≤ off ∧ off < 0x60200 then x.readPart ((off - 0x60000) / 32) (off % 32 / 8)
  else if off = 0x60200 then 0
  else if off = 0x60208 then x.swap.stat
  else mapGet 0 s.hub.regs ((1 + dieNo d) * 2 ^ 24 + off)

/-- Reads a register at a physical address of the three blocks. -/
def State.readReg (s : State) (pa : Nat) : Word :=
  let off := pa - regBase
  if off < 2 ^ 24 then s.hub.readReg off
  else if off < 2 * 2 ^ 24 then s.readDieReg .a (off - 2 ^ 24)
  else s.readDieReg .b (off - 2 * 2 ^ 24)

/-- Registers that only the owner writes, R372, R376, R381, R391, R395, R397: the whole hub block but for the
reduction groups and the inbound windows, and the access-control tables. -/
def ownerReg (off : Nat) : Bool :=
  if off < 2 ^ 24 then !(0x1000 ≤ off && off < 0x1080 || 0x2100 ≤ off && off < 0x2200)
  else 0x40000 ≤ off % 2 ^ 24 && off % 2 ^ 24 < 0x44000

/-- Clamps a clock limit, R395. -/
def clampMhz (v : Nat) : Nat := if 1750 < v then 1750 else if v < 875 then 875 else v

/-- Die of an island in a RAS record, R395. -/
def islandDie (i : Nat) : Nat :=
  if i < 8 then 0 else if i < 16 then 1 else if i < 20 then 0 else if i < 24 then 1 else if i < 26 then 0
  else if i < 28 then 1 else 2

/-- Sets an island's clock and logs the change, R395. -/
def State.setClock (s : State) (i clk : Nat) : State :=
  let x := s.hub.island i
  if x.clk = clk then s
  else
    (s.modHub fun h => { h with islands := mapSet h.islands i { x with clk := clk } }).logRas 0x0B 0 (islandDie i) i
      (wordN clk)

/-- Writes word 1 of an island; fmax is its highest clock from now on (R395). -/
def State.writeIsland (s : State) (i : Nat) (v : Word) : State :=
  let fmax := clampMhz (v.toNat % 65536)
  let x : Island := { s.hub.island i with prio := bitsN v.toNat 18 16, fmax := fmax, rsv := v &&& ~~~0x7FFFF }
  let s := s.modHub fun h => { h with islands := mapSet h.islands i x }
  s.setClock i (min fmax (s.hub.island i).clk)

/-- Raises the fused minimum version, R397: burnt when slot A passes with at least that version. -/
def State.raiseMin (s : State) (v : Word) (slotA : Option Image) : State :=
  let ok := match slotA with
    | some i => s.hub.passes (· == 0) i && v.toNat ≤ imageVersion i
    | none => false
  if s.hub.minVersion < v.toNat && ok then s.modHub fun h => { h with minVersion := v.toNat } else s.refuse v

/-- A write of a hub register that has a meaning of its own or none; writes of read-only registers change nothing. -/
def State.writeHub (s : State) (off : Nat) (v : Word) : State :=
  if off = 0x0200 then (if v.getLsbD 62 then s.retireClear v else s.retireAdd v)
  else if off = 0x0400 then
    s.modHub fun h => { h with verifySlot := v.toNat % 2, verify := 0, verifyVersion := 0, verifying := true }
  else if off = 0x0410 then s.raiseMin v s.hub.target.slotA
  else if off = 0x0500 then s.modHub fun h => { h with shadowReg := v &&& 0x7F7F }
  else if 0x1000 ≤ off ∧ off < 0x1080 then s.writeRed ((off - 0x1000) / 8) v
  else if off = 0x2000 then
    (if s.hub.linksUp.isEmpty then s.modHub fun h => { h with node := v.setWidth 11 } else s)
  else if 0x2100 ≤ off ∧ off < 0x2200 then
    s.modHub fun h => { h with windows := mapSet h.windows ((off - 0x2100) / 8) v }
  else if off = 0x4000 then
    s.modHub fun h => { h with cap := let w := v.toNat % 65536; if 1500 < w then 1500 else if w < 400 then 400 else w }
  else if 0x5000 ≤ off ∧ off < 0x5200 then
    (if off % 16 = 8 then s.writeIsland ((off - 0x5000) / 16) v else s)
  else if off < 0x0800 ∨ (0x0800 ≤ off ∧ off < 0x0A00) ∨ off = 0x3000 ∨ (0x100000 ≤ off ∧ off < 0x120800) then s
  else s.modHub fun h => { h with regs := mapPut 0 h.regs off v }

/-- A write of a register of a die's block. -/
def State.writeDieReg (s : State) (d : DieId) (off : Nat) (v : Word) : State :=
  if 0x10000 ≤ off ∧ off < 0x10400 then s.writeRange d ((off - 0x10000) / 16) (off % 16 / 8) v
  else if 0x20000 ≤ off ∧ off < 0x22000 then s.writeRegion d ((off - 0x20000) / 8) v
  else if 0x30000 ≤ off ∧ off < 0x32000 then
    (if off % 64 = 0 then s.writeChannel d ((off - 0x30000) / 64) v else s)
  else if 0x40000 ≤ off ∧ off < 0x44000 then
    s.writeAccess d ((off - 0x40000) / 0x1000) (off % 0x1000 / 16) (off % 16 / 8) v
  else if 0x50000 ≤ off ∧ off < 0x50200 then s
  else if 0x60000 ≤ off ∧ off < 0x60200 then s.writePart d ((off - 0x60000) / 32) (off % 32 / 8) v
  else if off = 0x60200 then s.writeSwap d v
  else if off = 0x60208 then s
  else s.modHub fun h => { h with regs := mapPut 0 h.regs ((1 + dieNo d) * 2 ^ 24 + off) v }

/-- A write of a register by the owner or by device code, without the checks of R372. -/
def State.writeRegRaw (s : State) (off : Nat) (v : Word) : State :=
  if off < 2 ^ 24 then s.writeHub off v
  else if off < 2 * 2 ^ 24 then s.writeDieReg .a (off - 2 ^ 24) v
  else s.writeDieReg .b (off - 2 * 2 ^ 24) v

/-- The ownership registers take every master's writes, R371, R372. -/
def State.writeOwnReg (s : State) (m : BitVec 16) (off : Nat) (v : Word) : Option State :=
  if off = 0x0108 then some (s.ownClaim m v)
  else if off = 0x0110 then some (s.heartBeat m v)
  else if off = 0x0118 then some (s.succeed m v)
  else none

/-- A write of a register at a physical address (R361, R370 to R372): a malformed access writes nothing and is
logged; a master that is not the owner is dropped; device code writes what no rule reserves for the owner. -/
def State.writeReg (s : State) (who : Writer) (pa size : Nat) (v : Word) : State :=
  let off := pa - regBase
  if size ≠ 8 ∨ pa % 8 ≠ 0 then (if (who.map masterOk).getD true then s.logAccess who else s)
  else
    match who with
    | some m =>
      if !masterOk m then s
      else match s.writeOwnReg m off v with
      | some s' => s'
      | none => s.ownerOnly m fun s => s.writeRegRaw off v
    | none => if ownerReg off then s.logAccess none else s.writeRegRaw off v

end Sys2Proof.Machine
end

