-- ==== Sys2Proof/Machine/Access.lean ====
section
/-!
DEFINITION. Accesses to memory: the cluster cache and the hot-page tracker that they pass (R280, R284, R296), reads and
writes of ranges under translation with register blocks and outside memory (R225, R226, R360, R361), and poison (R355).
-/
namespace Sys2Proof.Machine

/-! ## The cluster cache and the hot-page tracker -/

/-- Banks of a cluster in cache-way mode, R280. -/
def Cluster.ways (c : Cluster) : List Nat := (List.range 32).filter fun b => c.mode b == .cache

/-- Key of a page in the hot-page tracker: page number, log2 of its size, PEERDST. -/
def hotKey (p : Phys) : Nat := (p.pa / 2 ^ p.log * 64 + p.log) * 2 + (if p.pd then 1 else 0)

/-- Counts a line access that reaches a page of a die's stacks, R296. TERNBANK pages and 1 GiB pages are never
proposed (R297), so they are not counted. -/
def State.noteHot (s : State) (clu : Nat) (p : Phys) : State :=
  if p.tern || p.log == 30 || 2 ^ 39 ≤ p.pa then s
  else
    s.modDie (homeDie p.pa) fun d =>
      let k := hotKey p
      let c := mapGet (0, 0) d.hot k
      let c' := if dieOf clu = homeDie p.pa then (c.1 + 1, c.2) else (c.1, c.2 + 1)
      { d with hot := mapSet d.hot k c' }

/-- The least recently used unpinned line of a set; the list is in order of use. -/
def victim (ls : List CacheLine) (set : Nat) : Option CacheLine :=
  (ls.filter fun l => l.line % 1024 == set && !l.pinned).getLast?

/-- A way of a set that holds no line. -/
def freeWay (c : Cluster) (set : Nat) : Option Nat :=
  c.ways.find? fun w => !c.lines.any fun l => l.way == w && l.line % 1024 == set

/-- Puts a line into a way of its set: an empty one, or the one of the least recently used unpinned line (R280). -/
def Cluster.fill (c : Cluster) (line : Nat) (dirty pinned : Bool) : Option Cluster :=
  let set := line % 1024
  let entry (w : Nat) : CacheLine := { line := line, way := w, pinned := pinned, dirty := dirty }
  match freeWay c set with
  | some w => some { c with lines := entry w :: c.lines }
  | none => (victim c.lines set).map fun v => { c with lines := entry v.way :: c.lines.filter (· ≠ v) }

/-- A slice may hold a line from now on: every access of the paths that pass the slices (R285, R289). -/
def State.noteHeld (s : State) (line : Nat) : State := { s with held := mapSet s.held line true }

/-- The paths whose accesses allocate in the cluster cache, R280. -/
def allocates : Path → Bool
  | .ct | .vls => true
  | _ => false

/-- An access of CT or VLS to a page of memory type 1 passes neither the slices nor the cluster cache (R353). -/
def bypasses (path : Path) (p : Phys) : Bool := allocates path && !p.cached

/-- A line access of a cluster's core or unit: a hit renews the line; a miss of CT and VLS allocates (R280); a miss of
any path counts PINBYPASS when every way of the set is pinned (R284); what the cluster cache does not serve reaches the
die (R296). -/
def State.noteLine (s : State) (clu : Nat) (path : Path) (write : Bool) (p : Phys) : State :=
  let c := s.cluster clu
  let line := p.pa / 128
  if bypasses path p || c.ways.isEmpty then s.noteHot clu p
  else
    match c.lines.find? fun l => l.line == line with
    | some l =>
      s.setCluster clu { c with lines := { l with dirty := l.dirty || write } :: c.lines.filter (· ≠ l) }
    | none =>
      let s := s.noteHot clu p
      match c.fill line write false with
      | some c' => if allocates path then s.setCluster clu c' else s
      | none => s.count clu 0 1

/-- Brings a line into the cluster cache for `PREF` or `CPIN`, and pins it when asked; no effect where every way of the
set holds a pinned line (R120, R283). -/
def State.bringLine (s : State) (clu : Nat) (pin : Bool) (p : Phys) : State :=
  let c := s.cluster clu
  let line := p.pa / 128
  match c.lines.find? fun l => l.line == line with
  | some l => s.setCluster clu { c with lines := { l with pinned := l.pinned || pin } :: c.lines.filter (· ≠ l) }
  | none =>
    match if c.ways.isEmpty then none else c.fill line false pin with
    | some c' => ((s.noteHot clu p).noteHeld line).setCluster clu c'
    | none => s

/-- A bank unit's access to lines: a write invalidates every copy in the slices and the cluster caches, and a read leaves
them clean (R285). -/
def State.bankLines (s : State) (write : Bool) (lo hi : Nat) : State :=
  let meets := fun (l : CacheLine) => lo ≤ l.line && l.line ≤ hi
  { s with
    held := if write then s.held.filter fun l => !(lo ≤ l.1 && l.1 ≤ hi) else s.held,
    clusters := s.clusters.map fun c =>
      (c.1, { c.2 with lines :=
        if write then c.2.lines.filter fun l => !meets l
        else c.2.lines.map fun l => if meets l then { l with dirty := false } else l }) }

/-- The line accesses of a piece: one for each line it touches. Only HBM4 has lines here (R225, R285); the bank units
pass neither the cluster cache nor the slices (R285). -/
def State.notePiece (s : State) (clu : Nat) (path : Path) (write : Bool) (p : Piece) : State :=
  if 2 ^ 39 ≤ p.place.pa ∨ p.len = 0 then s
  else if path = .bnk then s.bankLines write (p.place.pa / 128) ((p.place.pa + p.len - 1) / 128)
  else
    let first := p.place.pa / 128
    (List.range ((p.place.pa + p.len - 1) / 128 - first + 1)).foldl
      (fun s i =>
        let s := s.noteLine clu path write { p.place with pa := (first + i) * 128 }
        if bypasses path p.place then s else s.noteHeld (first + i)) s

/-! ## Reads -/

/-- The path class of an access that an instruction makes on a path, R225. -/
def State.pathAt (s : State) (path : Path) (pa : Nat) : Path :=
  match s.physRow pa with
  | .hbm | .sram => path
  | _ => .ext

/-- A poisoned byte as a thread reads it: a write of its own that covers the part comes first (R228, R355). -/
def State.poisonSeen (s : State) (tid : Nat) (path : Path) (pa : Nat) : Bool :=
  s.poisoned pa && !((s.thread tid).pend.any fun w => w.seenOn (s.pathAt path pa) && coversPart w.bytes (pa / 8))

/-- The offset of the first poisoned byte of a piece. -/
def State.poisonIn (s : State) (tid : Nat) (path : Path) (p : Piece) : Option Nat :=
  if s.poison.isEmpty then none
  else (List.range p.len).find? fun i => s.poisonSeen tid path (p.place.pa + i)

/-- The bytes of a piece. A register is read by an aligned 8-byte access, and any other access reads zero (R361). -/
def State.pieceBytes (s : State) (tid : Nat) (path : Path) (p : Piece) : List Byte :=
  if s.physRow p.place.pa = .reg then
    (if p.len = 8 ∧ p.place.pa % 8 = 0 then leBytes 8 (s.readReg p.place.pa).toNat else List.replicate p.len 0)
  else s.seeBytes tid (s.pathAt path p.place.pa) p.place.pa p.len (bypasses path p.place)

/-- The hub's record of a register read that is no aligned 8-byte access, R361. -/
def State.logRegRead (s : State) (p : Piece) : State :=
  if s.physRow p.place.pa = .reg ∧ ¬ (p.len = 8 ∧ p.place.pa % 8 = 0) then s.logAccess none
  else s

/-- Before the accesses of some pieces: the writes that a `HEDGE` puts before their classes are performed (R225, R233). -/
def State.beforeRead (s : State) (tid : Nat) (path : Path) (ps : List Piece) : State :=
  ((ps.map fun p => s.pathAt path p.place.pa).eraseDups).foldl (fun s c => s.before tid c) s

/-- The translation that a piece used, as address space, page and log2 of the size; none for the window (R354). -/
def Piece.page (asid : Nat) (p : Piece) : List (Nat × Nat × Nat) :=
  if p.place.log = 0 then [] else [(asid, p.va.toNat / 2 ^ p.place.log, p.place.log)]

/-- Splits a list into runs of neighbours with one key. -/
def runsBy {α : Type} (key : α → Nat) : List α → List (List α)
  | [] => []
  | b :: bs =>
    match runsBy key bs with
    | (c :: cs) :: r => if key b = key c then (b :: c :: cs) :: r else [b] :: (c :: cs) :: r
    | r => [b] :: r

/-- The parts of a read, each taken at one moment: a read of up to 8 bytes whole (R226), a longer one by aligned 8-byte
parts (log 8). -/
def readParts (l : List (Nat × Byte)) : List (List (Nat × Byte)) :=
  if l.length ≤ 8 then [l] else runsBy (fun b => b.1 / 8) l

/-- Takes the bytes of some pieces. In the record of a running instruction they count by their parts, and values given there
are taken in place of memory's; a register is read at once. -/
def State.takeBytes (s : State) (ctx : Ctx) (path : Path) (ps : List Piece) : State × List Byte :=
  let bs := ps.flatMap (s.pieceBytes ctx.tid path)
  match s.trace with
  | none => (s, bs)
  | some t =>
    let all := (ps.flatMap fun p => (List.range p.len).map (p.place.pa + ·)).zip bs
    let reg := ps.any fun p => s.physRow p.place.pa == .reg
    let pages := (ps.flatMap (Piece.page ctx.asid)).eraseDups
    let took := (readParts all).zipIdx.map fun q =>
      let given := t.given.getD (t.got.length + q.2) (q.1.map (·.2))
      ({ path := s.pathAt path ((q.1.map (·.1)).headD 0), pages := pages, bytes := (q.1.map (·.1)).zip given,
         direct := ps.any fun p => bypasses path p.place, fixed := reg } : Taken)
    ({ s with trace := some { t with got := t.got ++ took } }, took.flatMap fun q => q.bytes.map (·.2))

/-- Reads n bytes at a virtual address on a path, or fails with the cause and its first byte (R226, R339, R353,
R355). -/
def State.readRange (s : State) (ctx : Ctx) (path : Path) (va : Word) (n : Nat) :
    State × Except (Cause × Word) (List Byte) :=
  let r := s.pieces ctx .read va n
  let s := (s.noteSpan ctx .read va n).beforeRead ctx.tid path r.1
  match r.1.findSome? (fun p => (s.poisonIn ctx.tid path p).map fun o => p.va + wordN o), r.2 with
  | some a, _ => (s, .error (.memue, a))
  | none, some e => (s, .error e)
  | none, none =>
    let (s, bs) := s.takeBytes ctx path r.1
    (r.1.foldl (fun s p => (s.notePiece (cluOf ctx.tid) path false p).logRegRead p) s.tookBytes, .ok bs)

/-- mem_read of R99 for the issuing thread. -/
def State.load (s : State) (path : Path) (va : Word) (n : Nat) : State × Except (Cause × Word) Nat :=
  match s.readRange (s.ctxOf s.cur) path va n with
  | (s, .ok bs) => (s, .ok (leNat bs))
  | (s, .error e) => (s, .error e)

/-! ## Writes -/

/-- Splits the byte writes of a range into those of each line it touches: every line write is performed at one moment
(R226). -/
def lineWrites (l : List (Nat × Byte × Byte)) : List (List (Nat × Byte × Byte)) := runsBy (fun b => b.1 / 128) l

/-- The byte writes of some bytes at an address. -/
def bytesAtPa (pa : Nat) (bs : List (Byte × Byte)) : List (Nat × Byte × Byte) :=
  bs.zipIdx.map fun b => (pa + b.2, b.1.1, b.1.2)

/-- Writes a register by an aligned 8-byte access (R361), at once and after what must come before it (log 10). -/
def State.putReg (s : State) (tid : Nat) (w : PendW) (pa : Nat) (bs : List (Byte × Byte)) : State :=
  let w := { w with path := .ext, bytes := bytesAtPa pa bs }
  ((s.beforeWrite tid w).writeReg none pa bs.length (wordN (leNat (bs.map (·.1))))).notePut .ext (w.bytes.map (·.1))

/-- Issues the writes of some pieces in the manner of w: memory takes one pending write of its class for each line, and one
for an access of up to 8 bytes, which is never split (R225, R226). -/
def State.putPieces (s : State) (tid : Nat) (w : PendW) (l : List (Piece × List (Byte × Byte))) : State :=
  let regs := l.filter fun p => s.physRow p.1.place.pa == .reg
  let ws := (l.filter fun p => s.physRow p.1.place.pa != .reg).flatMap fun p => bytesAtPa p.1.place.pa p.2
  let s := regs.foldl (fun s p => s.putReg tid w p.1.place.pa p.2) s
  (if ws.length ≤ 8 then [ws] else lineWrites ws).foldl (fun s l =>
    s.issue tid { w with path := s.pathAt w.path ((l.map (·.1)).headD 0), bytes := l }) s

/-- Splits bytes over pieces. -/
def splitOver : List Piece → List (Byte × Byte) → List (Piece × List (Byte × Byte))
  | [], _ => []
  | p :: ps, bs => (p, bs.take p.len) :: splitOver ps (bs.drop p.len)

/-- Writes bytes under bit masks at a virtual address on a path, or fails with nothing written; `op` stamps a contiguous
store (R226). -/
def State.writeRangeAt (s : State) (ctx : Ctx) (acc : Acc) (path : Path) (ordered : Option Nat) (rel : Bool)
    (va : Word) (bs : List (Byte × Byte)) (op : Nat := 0) : State × Option (Cause × Word) :=
  let r := s.pieces ctx acc va bs.length
  let s := s.noteSpan ctx acc va bs.length
  match r.2 with
  | some e => (s, some e)
  | none =>
    let w : PendW := { path := path, bytes := [], ordered := ordered, rel := rel, op := op,
                       pages := (r.1.flatMap (Piece.page ctx.asid)).eraseDups }
    (r.1.foldl (fun s p => s.notePiece (cluOf ctx.tid) path true p) (s.putPieces ctx.tid w (splitOver r.1 bs)), none)

/-- Whole bytes of a number. -/
def wholeBytes (n x : Nat) : List (Byte × Byte) := (leBytes n x).map fun b => (b, 0xFF)

/-- mem_write of R99 for the issuing thread. -/
def State.store (s : State) (path : Path) (rel : Bool) (va : Word) (n x : Nat) : State × Option (Cause × Word) :=
  s.writeRangeAt (s.ctxOf s.cur) .write path none rel va (wholeBytes n x)

/-- A trap from a failed access. -/
def accTrap (e : Cause × Word) : Trap := { cause := e.1, tval := e.2 }

/-- Writes bytes of an engine in the address space of a context; they are performed at once (log 10). -/
def State.engineWrite (s : State) (who : Party) (ctx : Ctx) (path : Path) (va : Word) (bs : List Byte) :
    State × Option (Cause × Word) :=
  let r := s.pieces ctx .write va bs.length
  let s := s.noteSpan ctx .write va bs.length
  match r.2 with
  | some e => (s, some e)
  | none =>
    ((splitOver r.1 (bs.map fun b => (b, 0xFF))).foldl (fun s p =>
      let pa := p.1.place.pa
      let s := s.notePiece (cluOf ctx.tid) path true p.1
      if s.physRow pa = .reg then s.writeReg none pa p.2.length (wordN (leNat (p.2.map (·.1))))
      else s.performBytes who (p.2.zipIdx.map fun b => (pa + b.2, b.1.1, b.1.2))) s, none)

/-- Makes the bytes of a range free wherever memory can be written there (log 6). -/
def State.freeRange (s : State) (who : Party) (ctx : Ctx) (va : Word) (n : Nat) : State :=
  let s' := (spanChunks va n).foldl (fun (s' : State) c =>
    match s.xlate ctx .write c.1 with
    | .ok p =>
      if s.physRow p.pa = .reg then s'
      else
        s'.performBytes who ((List.range c.2).map fun i =>
          (p.pa + i, Config.freeByte (s.freeIx + (c.1 - va).toNat + i), 0xFF))
    | .error _ => s') s
  { s' with freeIx := s.freeIx + n }

end Sys2Proof.Machine
end

