-- ==== Sys2Proof/Machine/Fetch.lean ====
section
/-!
DEFINITION. Fetching and decoding instruction words (R68 to R77): translation, the old values that R90 lets a fetch
return, and the traps of decoding.
-/
namespace Sys2Proof.Machine

/-- Scopes from the narrowest to the widest; the default is sys (R82, R83). -/
def scopeLvl : Scope → Nat
  | .thr => 0
  | .core => 1
  | .clu => 2
  | .die => 3
  | .pkg => 4
  | .sys | .dflt => 5

/-- The narrowest scope of a thread that contains a unit of a cluster and, in it, of a core (R227). -/
def nearLvl (tid clu : Nat) (core : Option Nat) : Nat :=
  if core = some (coreOf tid) then 1 else if clu = cluOf tid then 2 else if dieOf clu = dieOf (cluOf tid) then 3 else 4

/-- The narrowest scope of a thread that contains a party (R227). -/
def coverLvl (tid : Nat) : Party → Nat
  | .thread w => if w = tid then 0 else nearLvl tid (cluOf w) (some (coreOf w))
  | .core k => nearLvl tid (k / 8) (some k)
  | .clu c => nearLvl tid c none
  | .die d => if d = dieOf (cluOf tid) then 3 else 4
  | .hub => 4
  | .outside => 5

/-- A store may still be missing from a thread's fetch: no `CFLUSH` after it, or no later `FENCE.sc` of the thread at a
scope that covers the storing party (R90). -/
def State.fetchesOld (s : State) (tid : Nat) (p : OldPart) : Bool :=
  match p.flushed with
  | none => true
  | some f => !((s.thread tid).fences.any fun x => coverLvl tid p.writer ≤ x.1 && f ≤ x.2)

/-- The older values of a part that a fetch may return, from the latest back: each before a store after which every
store is still open (R90). -/
def State.oldValues (s : State) (tid part : Nat) : List Word :=
  ((mapGet [] s.old part).reverse.takeWhile (s.fetchesOld tid)).map (·.old)

/-- An aligned 8-byte part as a fetch returns it: the current value, or the k-th older one. -/
def State.fetchPart (s : State) (tid part k : Nat) : List Byte :=
  match k with
  | 0 => s.bytesPhys (8 * part) 8
  | k + 1 =>
    match (s.oldValues tid part)[k]? with
    | some w => leBytes 8 w.toNat
    | none => s.bytesPhys (8 * part) 8

/-- Bytes of a fetch, a multiple of 8 at an 8-byte-aligned address inside one page; entry `skip` + j of the turn's
choices stands for part j. A register block is read as any access there: an aligned 8-byte one reads the register, another
reads zero and is logged (R361). -/
def State.fetchBytes (s : State) (va : Word) (n skip : Nat) : State × Except (Cause × Word) (List Byte) :=
  let ctx := s.ctxOf s.cur
  let r := s.pieces ctx .fetch va n
  let s := s.noteSpan ctx .fetch va n
  match r.1, r.2 with
  | _, some e => (s, .error e)
  | [p], none =>
    if s.physRow p.place.pa = .reg then
      if n = 8 then (s, .ok (leBytes 8 (s.readReg p.place.pa).toNat))
      else (s.logAccess none, .ok (List.replicate n 0))
    else
    match (List.range n).find? fun i => s.poisoned (p.place.pa + i) with
    | some i => (s, .error (.memue, va + wordN i))
    | none =>
      (s, .ok ((List.range (n / 8)).flatMap fun j =>
        s.fetchPart s.cur (p.place.pa / 8 + j) (s.fetchOld.getD (skip + j) 0)))
  | _, none => (s, .error (.fetchfault, va))

/-- How a fetch and its decoding end. -/
inductive Fetched where
  | instr (i : Instr)
  | trap (t : Trap)
  deriving DecidableEq, Repr

/-- Bits [63:0] of a word. -/
def low64Of (bs : List Byte) : Word := wordN (leNat (bs.take 8))

/-- Fetches the next word of the control stream, R68 to R77. A D-word lies within a fetch line (R71). -/
def State.fetchCtl (s : State) : State × Fetched :=
  let pc := s.me.pc
  if !aligned16 pc then (s, .trap { cause := .fetchfault, tval := pc })
  else
    match s.fetchBytes pc 16 0 with
    | (s, .error e) => (s, .trap (accTrap e))
    | (s, .ok bs) =>
      let bad := Fetched.trap { cause := .illegal, tval := low64Of bs }
      if isDOp (BitVec.ofNat 8 (leNat bs)) then
        if pc.toNat % 128 = 112 then (s, bad)
        else
          match s.fetchBytes (pc + 16) 16 2 with
          | (s, .error e) => (s, .trap (accTrap e))
          | (s, .ok bs') =>
            match decodeStream (bs ++ bs') with
            | .ok (i, _) => (s, .instr i)
            | .error _ => (s, bad)
      else
        match decodeStream bs with
        | .ok (i, _) => (s, .instr i)
        | .error _ => (s, bad)

/-- The lowest VP of the running group. -/
def Block.low (b : Block) : Word := wordN (b.group.headD 0)

/-- Fetches the next E-word of a block, R73 to R75 and R152: telem is the lowest VP. A fetch that fails for permission
or for an uncorrectable error raises PROT or MEMUE (R353, R355), at the first word of a pending group too (log 46). The
257th E-word is fetched, and then raises ILLEGAL with its address (R74, R77). -/
def State.fetchBlk (s : State) (b : Block) : State × Fetched :=
    match s.fetchBytes b.epc 8 0 with
    | (s, .error e) => (s, .trap { cause := e.1, tval := e.2, telem := b.low })
    | (s, .ok bs) =>
      if 256 * 8 ≤ (b.epc - b.start).toNat then (s, .trap { cause := .illegal, tval := b.epc, telem := b.low })
      else
      match decodeBlock bs with
      | .ok (i, _) => (s, .instr i)
      | .error _ => (s, .trap { cause := .illegal, tval := low64Of bs, telem := b.low })

end Sys2Proof.Machine
end

