-- ==== Sys2Proof/Machine/ScalarMem.lean ====
section
/-!
DEFINITION. Scalar memory instructions (R118 to R120) and the orders of R232 on them.
-/
namespace Sys2Proof.Machine

/-- The bytes of a piece. -/
def Piece.bytes (p : Piece) : List Nat := (List.range p.len).map fun i => p.place.pa + i

/-- Performs the pending writes that an atomic access to some places on a path follows: those of its class to the same
bytes (R228), all of CT and VLS when it releases (R232), and what a `HEDGE` or a `FENCE` puts before it (R229, R233). The
access is noted as a write of its class. -/
def State.drainFor (s : State) (path : Path) (rel : Bool) (ps : List Piece) : State :=
  ((ps.map fun p => s.pathAt path p.place.pa).eraseDups).foldl (fun s c =>
    let bs := (ps.filter fun p => s.pathAt path p.place.pa == c).flatMap Piece.bytes
    let here : PendW := { path := c, bytes := bs.map fun a => (a, 0, 0), rel := rel }
    (s.drainW s.cur fun w => w.blocks here).notePut c bs) s

/-- The order releases toward some party other than the thread (R227, R232). -/
def releases (ord : Order) (sc : Scope) : Bool := (ord = .rel || ord = .sc) && sc ≠ .thr

/-- `LD`, R118; `.sc` waits until the thread's earlier writes are performed (R232). -/
def ldBody (ty : Ty) (ord : Order) (sc : Scope) (d a : XReg) (imm : Word) (s : State) : Out :=
  let n := ty.width / 8
  let va := s.ea a imm
  if !alignedTo n va then .trap { cause := .datafault, tval := va } s
  else
    let s := if ord = .sc ∧ sc ≠ .thr then s.drain s.cur fencedPath else s
    match s.load .ct va n with
    | (s, .ok x) => .done (s.setX d (extTy ty x))
    | (s, .error e) => .trap (accTrap e) s

/-- `LD`, R118. -/
def execLd (ty : Ty) (ord : Order) (sc : Scope) (d a : XReg) (imm : Word) (s : State) :
    Host.Outcome State Fault Refusal :=
  finishCtl 16 (guardRegs (xsrc [a]) s (ldBody ty ord sc d a imm))

/-- `ST`, R118. -/
def stBody (ty : Ty) (ord : Order) (sc : Scope) (d a : XReg) (imm : Word) (s : State) : Out :=
  let n := ty.width / 8
  let va := s.ea a imm
  if !alignedTo n va then .trap { cause := .datafault, tval := va } s
  else
    match s.store .ct (releases ord sc) va n (s.me.rx d).toNat with
    | (s, none) => .done s
    | (s, some e) => .trap (accTrap e) s

/-- `ST`, R118. -/
def execSt (ty : Ty) (ord : Order) (sc : Scope) (d a : XReg) (imm : Word) (s : State) :
    Host.Outcome State Fault Refusal :=
  finishCtl 16 (guardRegs (xsrc [d, a]) s (stBody ty ord sc d a imm))

/-- The new value of an integer atomic operation, R119. -/
def amoInt (op : AmoOp) (ty : Ty) (old x : Nat) : Nat :=
  let w := ty.width
  let o := old % 2 ^ w
  let b := x % 2 ^ w
  match op with
  | .add => (o + b) % 2 ^ w
  | .and => o &&& b
  | .or => o ||| b
  | .xor => o ^^^ b
  | .min => if Ty.intVal ty b < Ty.intVal ty o then b else o
  | .max => if Ty.intVal ty o < Ty.intVal ty b then b else o
  | .swap => b

/-- One atomic read-modify-write at an aligned address: the old value, or the failing access (R119, R353). -/
def State.rmw (s : State) (path : Path) (rel : Bool) (va : Word) (n : Nat) (f : Nat → Nat) :
    State × Except (Cause × Word) Nat :=
  let ctx := s.ctxOf s.cur
  let r := s.pieces ctx .rmw va n
  let s := s.noteSpan ctx .rmw va n
  match r.1, r.2 with
  | p :: _, none =>
    let s := s.drainFor path rel [p]
    match s.poisonIn s.cur path p with
    | some o => (s, .error (.memue, va + wordN o))
    | none =>
      let old := leNat (s.pieceBytes s.cur path p)
      let s := (s.tookBytes.notePiece (cluOf s.cur) path true p).logRegRead p
      let pa := p.place.pa
      let new := f old
      (if s.physRow pa = .reg then s.writeReg none pa n (wordN new)
       else s.performBytes (.thread s.cur) (numWrite pa n new), .ok old)
  | _, some e => (s, .error e)
  | [], none => (s, .ok 0)

/-- `AMO` and `CAS`: alignment, the atomic access, the old value in xd (R119). -/
def atomicBody (ty : Ty) (rel : Bool) (d a : XReg) (imm : Word) (f : State → Nat → Nat) (s : State) : Out :=
  let n := ty.width / 8
  let va := s.ea a imm
  if !alignedTo n va then .trap { cause := .datafault, tval := va } s
  else
    match s.rmw .ct rel va n (f s) with
    | (s, .ok old) => .done (s.setX d (extTy ty old))
    | (s, .error e) => .trap (accTrap e) s

/-- `AMO`, R119. -/
def execAmo (op : AmoOp) (ty : Ty) (ord : Order) (sc : Scope) (d a b : XReg) (imm : Word) (s : State) :
    Host.Outcome State Fault Refusal :=
  finishCtl 16 (guardRegs (xsrc [a, b]) s
    (atomicBody ty (releases ord sc) d a imm fun s old => amoInt op ty old (s.me.rx b).toNat))

/-- `CAS`, R119: it writes the old value when the comparison fails. -/
def execCas (ty : Ty) (ord : Order) (sc : Scope) (d a b c : XReg) (imm : Word) (s : State) :
    Host.Outcome State Fault Refusal :=
  finishCtl 16 (guardRegs (xsrc [a, b, c]) s
    (atomicBody ty (releases ord sc) d a imm fun s old =>
      if old = (s.me.rx b).toNat % 2 ^ ty.width then (s.me.rx c).toNat % 2 ^ ty.width else old))

/-- The physical place of a hint when every check passes, R120. -/
def State.hintPlace (s : State) (va : Word) : Option Phys :=
  match s.xlate (s.ctxOf s.cur) .read va with
  | .ok p => some p
  | .error _ => none

/-- `PREF`, R120: level 1 brings a line of HBM4 into the cluster cache; the other levels hold nothing the model keeps
apart. A request without translation or permission is dropped. -/
def prefBody (a : XReg) (imm : Word) (lvl : BitVec 2) (s : State) : Out :=
  let va := s.ea a imm
  match s.hintPlace va with
  | none => .done (s.noteXlate (s.ctxOf s.cur) va)
  | some p =>
    let s := s.noteXlate (s.ctxOf s.cur) va
    .done (if lvl = 1 ∧ p.pa < 2 ^ 39 then s.bringLine (cluOf s.cur) false p else s)

/-- `PREF`, R120. -/
def execPref (a : XReg) (imm : Word) (lvl : BitVec 2) (s : State) : Host.Outcome State Fault Refusal :=
  finishCtl 16 (guardRegs (xsrc [a]) s (prefBody a imm lvl))

end Sys2Proof.Machine
end

