-- ==== Sys2Proof/Machine/VectorMem.lean ====
section
/-!
DEFINITION. Vector memory instructions (R121 to R132): element addresses, the restartable loops of R123, atomic
scatters, mask moves, spills and fills.
-/
namespace Sys2Proof.Machine

/-! ## Forms -/

/-- ILLEGAL with bits [63:0] of the instruction's word, R75 and R333. -/
def illegalWord (i : Instr) (s : State) : Out := illegal i.low64 s

/-- The type of a vector memory instruction: vtype, or a type of vtype's width (R121). -/
def Thread.memTy (th : Thread) (ty : Option Ty) : Option Ty :=
  let t := ty.getD th.vTy
  if t.width = th.ew then some t else none

/-- Types that only `VLD`, `VLDFF` and `VST` take, R122. -/
def unitOnly : Ty → Bool
  | .s2 | .s4 | .g6 => true
  | _ => false

/-- Types that the strided and indexed forms take, R122. -/
def multiForm (t : Ty) : Bool := !unitOnly t

/-- Width of an index, R122; none where width 0 is illegal. -/
def indexWidth (w : Nat) (iw : BitVec 2) : Option Nat :=
  match iw.toNat with
  | 0 => if w < 8 then none else some w
  | 1 => some 16
  | 2 => some 32
  | _ => some 64

/-- Element e of an index group, sign-extended (R122). -/
def Thread.index (th : Thread) (vb : VReg) (u e : Nat) : Word := wordI (sx u (th.elem vb u e))

/-- Address and bit offset of an element. -/
abbrev ElemAddr := Nat → Word × Nat

/-- Unit form: bit offset w × e, R122 under R41 and R57. -/
def unitAddr (base : Word) (ty : Ty) : ElemAddr := fun e =>
  (base + wordN (ty.memWidth * e / 8), ty.memWidth * e % 8)

/-- Strided form, R122. -/
def strideAddr (base stride : Word) : ElemAddr := fun e => (base + wordN e * stride, 0)

/-- Indexed form, R122. -/
def indexAddr (th : Thread) (base : Word) (vb : VReg) (u sh : Nat) : ElemAddr := fun e =>
  (base + (th.index vb u e <<< sh), 0)

/-- Bytes that an element touches. -/
def elemBytes (ty : Ty) (sh : Nat) : Nat := cdiv (sh + ty.memWidth) 8

/-- An element address that is not a multiple of the element's bytes, R122. -/
def misElem (ty : Ty) (va : Word) : Bool := 8 ≤ ty.memWidth && va.toNat % (ty.memWidth / 8) != 0

/-! ## The restartable loop -/

/-- Performs elements in order until one fails: the state, and the failing element with its cause and address
(R123). -/
def runElems (f : State → Nat → State × Option (Cause × Word)) : List Nat → State → State × Option (Nat × Cause × Word)
  | [], s => (s, none)
  | e :: es, s =>
    match f s e with
    | (s, none) => runElems f es s
    | (s, some x) => (s, some (e, x))

/-- The first element that a requested forced save keeps from being performed: that of the halt of a partition, or of a
WATCHDOG, which waits in supervisor mode (R340, R341). -/
def Thread.limit (th : Thread) (n : Nat) : Nat :=
  if th.halt = .asked then min n (max th.haltEl th.vstart.toNat)
  else
    match th.stop with
    | some el => if th.sup then n else min n (max el th.vstart.toNat)
    | none => n

/-- Sets vstart, which clears an error in it (R40). -/
def State.setVstart (s : State) (k : Nat) : State :=
  s.modMe fun th => { th.clearErr .special 2 with vstart := wordN k }

/-- The elements from vstart up to a limit that are active. -/
def Thread.todo (th : Thread) (mk : Option MReg) (n : Nat) : List Nat :=
  (List.range n).filter fun e => th.vstart.toNat ≤ e && th.active mk e

/-- Under `.u`, the elements above a failing one that the turn lets be performed before the trap (R123, R235); those
that fail are left. -/
def earlyElems (ord : VOrder) (f : State → Nat → State × Option (Cause × Word)) (k : Nat) (l : List Nat) (s : State) :
    State :=
  if ord = .u then
    (l.filter fun e => k < e && s.early.testBit e).foldl (fun s e =>
      match f s e with
      | (s', none) => s'
      | (_, some _) => s) s
  else s

/-- A restartable instruction over n elements: it stops at a failing element k with telem := k and vstart := k, stops
before the element that a forced save names, or completes with vstart := 0 (R30, R123, R341). Under `.u` the turn may
let elements above k be performed too, which the restart performs again. -/
def restartable (ord : VOrder) (n : Nat) (elems : Thread → Nat → List Nat)
    (f : State → Nat → State × Option (Cause × Word)) (finish : State → State) (s : State) : Out :=
  let lim := s.me.limit n
  let es := elems s.me lim
  match runElems f es s with
  | (s, some (k, c, a)) =>
    .trap { cause := c, tval := a, telem := wordN k } ((earlyElems ord f k es s).setVstart k)
  | (s, none) =>
    if lim < n then .stop (s.setVstart (max lim s.me.vstart.toNat))
    else .done ((finish s).setVstart 0)

/-- Reads element e. -/
def loadElem (ty : Ty) (vd : VReg) (addr : ElemAddr) (s : State) (e : Nat) : State × Option (Cause × Word) :=
  let a := addr e
  if misElem ty a.1 then (s, some (.datafault, a.1))
  else
    match s.load .vls a.1 (elemBytes ty a.2) with
    | (s, .ok x) => (s.modMe fun th => th.setElem vd ty.width e (x / 2 ^ a.2 % 2 ^ ty.memWidth), none)
    | (s, .error x) => (s, some x)

/-- The bytes of an element with their bit masks, R42. -/
def elemWrite (ty : Ty) (sh x : Nat) : List (Byte × Byte) :=
  let n := elemBytes ty sh
  (leBytes n (x % 2 ^ ty.memWidth * 2 ^ sh)).zip (leBytes n ((2 ^ ty.memWidth - 1) * 2 ^ sh))

/-- Writes element e; `op` stamps the store when its elements are contiguous: those of one line are one write (R226, log 10). -/
def storeElem (ty : Ty) (vd : VReg) (ordered : Option Nat) (op : Nat) (addr : ElemAddr) (s : State) (e : Nat) :
    State × Option (Cause × Word) :=
  let a := addr e
  if misElem ty a.1 then (s, some (.datafault, a.1))
  else s.writeRangeAt (s.ctxOf s.cur) .write .vls ordered false a.1 (elemWrite ty a.2 (s.me.elem vd ty.width e)) op

/-- The element order group of a store: none under `.u` (R234). -/
def orderOf (ord : VOrder) (s : State) : Option Nat := if ord = .u then none else some s.stamp

/-- A new stamp. -/
def State.bump (s : State) : State := { s with stamp := s.stamp + 1 }

/-- Source elements of index and data groups for REGERR (R38, R125). -/
def elemReads (mk : Option MReg) (ops : List (VReg × Nat)) (th : Thread) : List (Nat × List (VReg × Nat × Nat)) :=
  ((List.range th.vl).filter (th.active mk)).map fun e => (e, ops.map fun o => (o.1, o.2, e))

/-- The common head of the element loads and stores: a type that the word names and the form does not take, VABSENT, the
type, the destination's group, the checks of the form, REGERR of sources (R75, R77, R339). -/
def vecHead (i : Instr) (ty : Option Ty) (vd : VReg) (xs : List XReg) (mk : Option MReg)
    (srcs : Ty → List (VReg × Nat)) (takes : Ty → Bool) (ok : Thread → Ty → Bool) (s : State) (k : Ty → State → Out) :
    Out :=
  if !ty.all takes then illegalWord i s
  else guardVA s fun s =>
    match s.me.memTy ty with
    | none => illegalWord i s
    | some t =>
      if !takes t || !s.me.regOk vd s.me.ew || !ok s.me t then illegalWord i s
      else
        guardRegs (vrest ++ xsrc xs ++ s.me.maskSrc mk) s fun s =>
          guardVec ((srcs t).map fun o => (o.1, o.2, s.me.vl)) (elemReads mk (srcs t)) s fun s => k t s

/-- A load: vdirty at issue (R33), the charge (R16), the loop (R123). -/
def loadLoop (t : Ty) (ord : VOrder) (vd : VReg) (mk : Option MReg) (addr : State → ElemAddr) (s : State) : Out :=
  let a := addr s
  let s := (s.modMe fun th => th.dirty vd th.ew).chargeVec s.me.ew
  restartable ord s.me.vl (fun th n => th.todo mk n) (loadElem t vd a) id s

/-- A store, R123 to R125. The elements of the unit form are contiguous: those of one line form one write (R226). -/
def storeLoop (t : Ty) (ord : VOrder) (unit : Bool) (vd : VReg) (mk : Option MReg) (addr : State → ElemAddr) (s : State) :
    Out :=
  let a := addr s
  let o := orderOf ord s
  let s := s.bump.chargeVec s.me.ew
  restartable ord s.me.vl (fun th n => th.todo mk n) (storeElem t vd o (if unit then s.stamp else 0) a) id s

/-- `VLD`, R122 and R123. -/
def execVld (ty : Option Ty) (ord : VOrder) (vd : VReg) (a : XReg) (imm : Word) (mk : Option MReg) (s : State) :
    Host.Outcome State Fault Refusal :=
  finishCtl 16 (vecHead (.vld ty ord vd a imm mk) ty vd [a] mk (fun _ => []) (fun _ => true) (fun _ _ => true) s
    fun t s => loadLoop t ord vd mk (fun s => unitAddr (s.ea a imm) t) s)

/-- `VLDS`, R122. -/
def execVlds (ty : Option Ty) (ord : VOrder) (vd : VReg) (a b : XReg) (imm : Word) (mk : Option MReg) (s : State) :
    Host.Outcome State Fault Refusal :=
  finishCtl 16 (vecHead (.vlds ty ord vd a b imm mk) ty vd [a, b] mk (fun _ => []) multiForm (fun _ _ => true) s
    fun t s => loadLoop t ord vd mk (fun s => strideAddr (s.ea a imm) (s.me.rx b)) s)

/-- The index group of `VLDX`, `VSTX` and `VAMO` is legal, R122. -/
def indexOk (vb : VReg) (iw : BitVec 2) (th : Thread) (t : Ty) : Bool :=
  match indexWidth t.width iw with
    | some u => th.regOk vb u
    | none => false

/-- Width of the index group, as the checks have passed it. -/
def idxW (t : Ty) (iw : BitVec 2) : Nat := (indexWidth t.width iw).getD 64

/-- `VLDX`, R122. -/
def execVldx (ty : Option Ty) (ord : VOrder) (vd : VReg) (a : XReg) (vb : VReg) (sh : BitVec 3) (iw : BitVec 2)
    (imm : Word) (mk : Option MReg) (s : State) : Host.Outcome State Fault Refusal :=
  finishCtl 16 (vecHead (.vldx ty ord vd a vb sh iw imm mk) ty vd [a] mk (fun t => [(vb, idxW t iw)])
    multiForm (fun th t => indexOk vb iw th t && !th.meet vd th.ew vb (idxW t iw)) s fun t s =>
      loadLoop t ord vd mk (fun s => indexAddr s.me (s.ea a imm) vb (idxW t iw) sh.toNat) s)

/-- `VST`, R122. -/
def execVst (ty : Option Ty) (ord : VOrder) (vd : VReg) (a : XReg) (imm : Word) (mk : Option MReg) (s : State) :
    Host.Outcome State Fault Refusal :=
  finishCtl 16 (vecHead (.vst ty ord vd a imm mk) ty vd [a] mk (fun t => [(vd, t.width)]) (fun _ => true)
    (fun _ _ => true) s fun t s => storeLoop t ord true vd mk (fun s => unitAddr (s.ea a imm) t) s)

/-- `VSTS`, R122. -/
def execVsts (ty : Option Ty) (ord : VOrder) (vd : VReg) (a b : XReg) (imm : Word) (mk : Option MReg) (s : State) :
    Host.Outcome State Fault Refusal :=
  finishCtl 16 (vecHead (.vsts ty ord vd a b imm mk) ty vd [a, b] mk (fun t => [(vd, t.width)])
    multiForm (fun _ _ => true) s fun t s => storeLoop t ord false vd mk (fun s => strideAddr (s.ea a imm) (s.me.rx b)) s)

/-- `VSTX`, R122. -/
def execVstx (ty : Option Ty) (ord : VOrder) (vd : VReg) (a : XReg) (vb : VReg) (sh : BitVec 3) (iw : BitVec 2)
    (imm : Word) (mk : Option MReg) (s : State) : Host.Outcome State Fault Refusal :=
  finishCtl 16 (vecHead (.vstx ty ord vd a vb sh iw imm mk) ty vd [a] mk
    (fun t => [(vd, t.width), (vb, idxW t iw)]) multiForm (indexOk vb iw) s fun t s =>
      storeLoop t ord false vd mk (fun s => indexAddr s.me (s.ea a imm) vb (idxW t iw) sh.toNat) s)

/-! ## VLDFF -/

/-- The translation, permission or alignment fault of an element that is not performed (R126). -/
def State.probe (s : State) (t : Ty) (addr : ElemAddr) (e : Nat) : Option (Cause × Word) :=
  let a := addr e
  if misElem t a.1 then some (.datafault, a.1)
  else (s.pieces (s.ctxOf s.cur) .read a.1 (elemBytes t a.2)).2

/-- `VLDFF`, R126: the lowest faulting element above the first active one shortens vl. -/
def ffLoop (t : Ty) (ord : VOrder) (vd : VReg) (mk : Option MReg) (addr : State → ElemAddr) (s : State) : Out :=
  let a := addr s
  let s := (s.modMe fun th => th.dirty vd th.ew).chargeVec s.me.ew
  let es := s.me.todo mk s.me.vl
  match es.findSome? fun e => (s.probe t a e).map fun x => (e, x) with
  | none => restartable ord s.me.vl (fun th n => th.todo mk n) (loadElem t vd a) id s
  | some (k, x) =>
    let s := s.noteXlate (s.ctxOf s.cur) x.2
    if es.head? = some k then .trap { accTrap x with telem := wordN k } (s.setVstart k)
    else
      restartable ord k (fun th n => th.todo mk n) (loadElem t vd a) (fun s => s.modMe fun th => { th with vl := k }) s

/-- `VLDFF`, R126. -/
def execVldff (ty : Option Ty) (ord : VOrder) (vd : VReg) (a : XReg) (imm : Word) (mk : Option MReg) (s : State) :
    Host.Outcome State Fault Refusal :=
  finishCtl 16 (vecHead (.vldff ty ord vd a imm mk) ty vd [a] mk (fun _ => []) (fun _ => true) (fun _ _ => true) s
    fun t s => ffLoop t ord vd mk (fun s => unitAddr (s.ea a imm) t) s)

/-! ## Sums and VAMO -/

/-- One level of the tree of R65: positions 2i and 2i + 1, absent members as none. -/
def treeLevel {α : Type} (f : α → α → α) : List (Option α) → List (Option α)
  | [] => []
  | [x] => [x]
  | x :: y :: r =>
    (match x, y with
      | some a, some b => some (f a b)
      | some a, none => some a
      | none, some b => some b
      | none, none => none) :: treeLevel f r

/-- The tree of R65 over at most 2^n positions: its value, or none when every member is absent. -/
def treeOf {α : Type} (f : α → α → α) : Nat → List (Option α) → Option α
  | 0, l => l.headD none
  | n + 1, l => treeOf f n (treeLevel f l)

/-- Float addition that gathers flags. -/
def addGather (ty : Ty) (rm : Rm) (a b : Nat × Flags) : Nat × Flags :=
  let r := fAdd ty rm a.1 b.1
  (r.1, r.2 ||| a.2 ||| b.2)

/-- Types and operations of `VAMO`, R127. -/
def vamoOk (op : AmoOp) (t : Ty) : Bool :=
  match t with
  | .s32 | .s64 | .n32 | .n64 => true
  | .t32 => op != .min && op != .max
  | .f32 | .f64 => op != .and && op != .or && op != .xor
  | _ => false

/-- One contribution combined into a memory value, R127. -/
def vamoStep (op : AmoOp) (t : Ty) (rm : Rm) (m : Nat × Flags) (x : Nat) : Nat × Flags :=
  if t.isF then
    match op with
    | .add => addGather t rm m (x, 0)
    | .min => let r := fMinMax t false m.1 x; (r.1, r.2 ||| m.2)
    | .max => let r := fMinMax t true m.1 x; (r.1, r.2 ||| m.2)
    | _ => (x, m.2)
  else (amoInt op t m.1 x, m.2)

/-- The value of one address after its contributions, given as (element, value) in ascending order (R127). -/
def vamoValue (op : AmoOp) (t : Ty) (ord : VOrder) (rm : Rm) (vl m : Nat) (cs : List (Nat × Nat)) : Nat × Flags :=
  if ord = .u ∧ t.isF ∧ op = .add then
    let pos := (List.range vl).map fun e => (cs.find? fun c => c.1 == e).map fun c => (c.2, (0 : Flags))
    match treeOf (addGather t rm) 14 pos with
    | some x => addGather t rm (m, 0) x
    | none => (m, 0)
  else cs.foldl (fun r c => vamoStep op t rm r c.2) (m, 0)

/-- The translated address of every active element, or the lowest failing one (R127 step 1). -/
def vamoPlaces (s : State) (t : Ty) (addr : ElemAddr) : List Nat → Except (Nat × Cause × Word) (List (Nat × Piece))
  | [] => .ok []
  | e :: es =>
    let a := (addr e).1
    if misElem t a then .error (e, .datafault, a)
    else
      match s.pieces (s.ctxOf s.cur) .rmw a (t.width / 8) with
      | (_, some x) => .error (e, x)
      | (ps, none) => (vamoPlaces s t addr es).map fun l => (ps.map fun p => (e, p)) ++ l

/-- The offset, in the line of a piece, of the first byte with an uncorrectable error: `VAMO` reads its lines whole
(R127 step 2). Outside the package there is no line, and the error is one of the element's own bytes. -/
def State.linePoison (s : State) (p : Piece) : Option Nat :=
  if s.poison.isEmpty then none
  else
    (List.range 128).find? fun i =>
      s.poisonSeen s.cur .vls (p.place.pa - p.place.pa % 128 + i)

/-- `VAMO` once every element is translated: every address is read, combined and written at one moment (R127). MEMUE names
the lowest active element whose line is bad and the first bad byte of that line, and leaves vstart (log 18). -/
def vamoApply (op : AmoOp) (t : Ty) (ord : VOrder) (vd : VReg) (ps : List (Nat × Piece)) (s : State) : Out :=
  let s := s.drainFor .vls false (ps.map (·.2))
  match ps.findSome? fun p => (s.linePoison p.2).map fun o => (p.1, p.2.va - wordN (p.2.place.pa % 128) + wordN o) with
  | some (e, a) => .trap { cause := .memue, tval := a, telem := wordN e } s
  | none =>
    let th := s.me
    let pas := (ps.map fun p => p.2.place.pa).eraseDups
    let news := pas.filterMap fun pa => (ps.find? fun p => p.2.place.pa == pa).map fun p =>
      let cs := (ps.filter fun q => q.2.place.pa == pa).map fun q => (q.1, th.elem vd t.width q.1)
      (p.2, vamoValue op t ord (vtRm th.vtype) th.vl (leNat (s.pieceBytes s.cur .vls p.2)) cs)
    let s := news.foldl (fun s n => (s.notePiece (cluOf s.cur) .vls true n.1).logRegRead n.1) s.tookBytes
    let regs := news.filter fun n => s.physRow n.1.place.pa == .reg
    let mems := news.filter fun n => s.physRow n.1.place.pa != .reg
    let s := s.performBytes (.thread s.cur) (mems.flatMap fun n => numWrite n.1.place.pa (t.width / 8) n.2.1)
    let s := regs.foldl (fun s n => s.writeReg none n.1.place.pa (t.width / 8) (wordN n.2.1)) s
    .done ((s.setVstart 0).orFlags (news.foldl (fun f n => f ||| n.2.2) 0))

/-- `VAMO`, R127. A fault performs no element and leaves vstart. -/
def execVamo (op : AmoOp) (ty : Option Ty) (ord : VOrder) (sc : Scope) (vd : VReg) (a : XReg) (vb : VReg)
    (iw : BitVec 2) (imm : Word) (mk : Option MReg) (s : State) : Host.Outcome State Fault Refusal :=
  finishCtl 16 (vecHead (.vamo op ty ord sc vd a vb iw imm mk) ty vd [a] mk
    (fun t => [(vd, t.width), (vb, idxW t iw)]) (vamoOk op) (indexOk vb iw) s fun t s =>
      let th := s.me
      let base := s.ea a imm
      let s := s.chargeVec th.ew
      let addr : ElemAddr := fun e => (base + th.index vb (idxW t iw) e * wordN (t.width / 8), 0)
      let es := th.todo mk th.vl
      let r := vamoPlaces s t addr es
      let s := es.foldl (fun s e => s.noteXlate (s.ctxOf s.cur) (addr e).1) s
      match r with
      | .error (k, x) => .trap { accTrap x with telem := wordN k } s
      | .ok ps => vamoApply op t ord vd ps s)

/-! ## Masks -/

/-- Bytes that hold the elements from vstart up to n, one bit each. -/
def Thread.maskBytes (th : Thread) (n : Nat) : List Nat :=
  (List.range (cdiv n 8)).filter fun b => th.vstart.toNat < min n (8 * b + 8)

/-- The elements of byte b from vstart up to n. -/
def Thread.bitsOfByte (th : Thread) (b n : Nat) : List Nat :=
  ((List.range 8).map fun i => 8 * b + i).filter fun e => th.vstart.toNat ≤ e && e < n

/-- `VLDM` and `VSTM`: R123 with w = 1, telem the first element of the failing byte (R128). -/
def maskLoop (ord : VOrder) (f : Nat → State → Nat → State × Option (Cause × Word)) (s : State) : Out :=
  let n := s.me.vl
  let lim := s.me.limit n
  let s := s.chargeVec 1
  let bs := s.me.maskBytes lim
  match runElems (f lim) bs s with
  | (s, some (b, c, a)) =>
    .trap { cause := c, tval := a, telem := wordN (8 * b) }
      ((earlyElems ord (f lim) b bs s).setVstart (max (8 * b) s.me.vstart.toNat))
  | (s, none) =>
    if lim < n then .stop (s.setVstart (max lim s.me.vstart.toNat)) else .done (s.setVstart 0)

/-- `VLDM`, R128, with the order codes of R83. -/
def execVldm (ord : VOrder) (md : MReg) (a : XReg) (imm : Word) (s : State) : Host.Outcome State Fault Refusal :=
  finishCtl 16 (guardVA s fun s => guardRegs (vrest ++ xsrc [a]) s fun s =>
    let base := s.ea a imm
    maskLoop ord (fun n s b =>
      match s.load .vls (base + wordN b) 1 with
      | (s, .ok x) => (s.modMe fun th => th.setMbits md ((th.bitsOfByte b n).map fun e => (e, x.testBit (e % 8))), none)
      | (s, .error x) => (s, some x)) s)

/-- One byte of a mask with the bit mask of the elements it holds. -/
def Thread.maskByte (th : Thread) (m : MReg) (b n : Nat) : Byte × Byte :=
  let es := th.bitsOfByte b n
  (es.foldl (fun x e => if th.mbit m e then x ||| ((1 : Byte) <<< (e % 8)) else x) 0,
   es.foldl (fun x e => x ||| ((1 : Byte) <<< (e % 8))) 0)

/-- `VSTM`, R128, with the order codes of R83 under R234. -/
def execVstm (ord : VOrder) (md : MReg) (a : XReg) (imm : Word) (s : State) : Host.Outcome State Fault Refusal :=
  finishCtl 16 (guardVA s fun s => guardRegs (s.me.mSrc md :: vrest ++ xsrc [a]) s fun s =>
    let base := s.ea a imm
    let o := orderOf ord s
    maskLoop ord (fun n s b =>
      s.writeRangeAt (s.ctxOf s.cur) .write .vls o false (base + wordN b) [s.me.maskByte md b n] s.stamp) s.bump)

/-! ## Spills and fills -/

/-- A type of the frame's elements: g6 as its 8-bit container (R129). -/
def frameTy (t : Ty) : Ty := if t = .g6 then .n8 else t

/-- The zero padding after the last element of a frame, as bytes under masks (R129). -/
def framePad (n ew : Nat) : List (Byte × Byte) :=
  let used := n * ew
  let bytes := 16 * cdiv used 128
  let keep := used / 8
  (List.range (bytes - keep)).map fun i =>
    (0, if i = 0 then BitVec.ofNat 8 (256 - 2 ^ (used % 8)) else 0xFF)

/-- `VSPILL` past its checks: the header, the elements, the padding (R129, R131). -/
def spillBody (ord : VOrder) (vd : VReg) (base : Word) (s : State) : Out :=
  let t := frameTy s.me.vTy
  let n := min s.me.vl s.me.mvl
  let o := orderOf ord s
  let ctx := s.ctxOf s.cur
  let s := s.bump.chargeVec s.me.ew
  let op := s.stamp
  let put := fun (s : State) (a : Word) (bs : List (Byte × Byte)) => s.writeRangeAt ctx .write .vls o false a bs op
  match put s base (wholeBytes 16 s.me.vsw.toNat) with
  | (s, some x) => .trap (accTrap x) s
  | (s, none) =>
    restartable ord n (fun th k => (List.range k).filter fun e => th.vstart.toNat ≤ e)
      (storeElem t vd o op (unitAddr (base + 16) t))
      (fun s => (put s (base + 16 + wordN (n * t.width / 8)) (framePad n t.width)).1) s

/-- `VSPILL`, R131, with the order codes of R83 under R234: REGERR of a poisoned element in user mode only. A misaligned
base and a fault of the header leave vstart, with telem 0, and a restart writes the header again (log 18). -/
def execVspill (ord : VOrder) (vd : VReg) (a : XReg) (imm : Word) (s : State) : Host.Outcome State Fault Refusal :=
  finishCtl 16 (guardVA s fun s =>
    if !s.me.regOk vd s.me.ew then illegalWord (.vspill ord vd a imm) s
    else
      guardRegs (vrest ++ xsrc [a]) s fun s =>
        guardVec [(vd, s.me.ew, s.me.vl)]
          (fun th => if th.sup then [] else (List.range th.vl).map fun e => (e, [(vd, th.ew, e)])) s fun s =>
            let base := s.ea a imm
            if !aligned16 base then .trap { cause := .datafault, tval := base } s else spillBody ord vd base s)

/-- A saved vsw does not fit the current vtype: ew, fmt or grp differ (R132). -/
def Thread.frameFits (th : Thread) (h : Word) : Bool :=
  let vt : BitVec 16 := h.extractLsb' 24 16
  legalVsw h && vtEwCode vt == vtEwCode th.vtype && vtFmt vt == vtFmt th.vtype && vtGrp vt == vtGrp th.vtype

/-- Key of the i-th 128-bit word of the elements of the group at r, R10. -/
def groupWord (g : BitVec 7) (vt : BitVec 16) (r i : Nat) : Nat :=
  let wl := max 1 (laneWords g vt)
  (r + i % wl / 8) * 128 + (grantBase g + i / wl) * 8 + i % wl % 8

/-- A word of what lies above the last element of a frame: some word of the thread's own registers, or the zero padding of
the frame (R129, R132, log 6). -/
def Thread.tailWord (th : Thread) (own : List Nat) (n : Nat) : BitVec 128 :=
  match own[Config.pick n % (own.length + 1)]? with
  | some k => mapGet 0 th.v k
  | none => 0

/-- Gives the elements of a group from n up to mvl values of the thread's own registers or of the frame (R132, log 6). -/
def State.freeTail (s : State) (vd : VReg) (n : Nat) : State :=
  let th := s.me
  let u := th.ew
  if th.mvl ≤ n then s
  else
    let w0 := n * u / 128
    let words := (List.range (cdiv (th.mvl * u) 128)).filter (w0 ≤ ·)
    let own := ownWords th.grant
    let v := words.foldl (fun m i =>
      let key := groupWord th.grant th.vtype vd.toNat i
      let keep : BitVec 128 := if i = w0 then BitVec.ofNat 128 (2 ^ (n * u % 128) - 1) else 0
      mapPut 0 m key ((mapGet 0 m key &&& keep) ||| (th.tailWord own (s.freeIx + i) &&& ~~~keep))) th.v
    { s with freeIx := s.freeIx + cdiv (th.mvl * u) 128 }.modMe fun th => { th with v := v }

/-- Restores element e of a frame; bits [7:6] of a g6 container are written as zero (R56, log 18). -/
def fillElem (t : Ty) (vd : VReg) (base : Word) (s : State) (e : Nat) : State × Option (Cause × Word) :=
  let f := frameTy t
  let a := unitAddr base f e
  if misElem f a.1 then (s, some (.datafault, a.1))
  else
    match s.load .vls a.1 (elemBytes f a.2) with
    | (s, .ok x) => (s.modMe fun th => th.setElem vd f.width e (x / 2 ^ a.2 % 2 ^ t.memWidth), none)
    | (s, .error x) => (s, some x)

/-- `VFILL` past its header, R132: vl := E when it completes. Elements are restored up to E, whatever vl was (log 18). -/
def fillBody (t : Ty) (ord : VOrder) (vd : VReg) (base : Word) (h : Word) (s : State) : Out :=
  let n := min (bitsN h.toNat 16 0) s.me.mvl
  let s := (s.modMe fun th => th.dirty vd th.ew).chargeVec s.me.ew
  restartable ord n (fun th k => (List.range k).filter fun e => th.vstart.toNat ≤ e)
    (fillElem t vd (base + 16))
    (fun s => (s.freeTail vd n).modMe fun th => { th with vl := n }) s

/-- `VFILL`, R132, with the type of R121 and the order codes of R83. A misaligned base and a fault of the header leave
vstart, with telem 0 (log 18). -/
def execVfill (ty : Option Ty) (ord : VOrder) (vd : VReg) (a : XReg) (imm : Word) (s : State) :
    Host.Outcome State Fault Refusal :=
  finishCtl 16 (guardVA s fun s =>
    match s.me.memTy ty with
    | none => illegalWord (.vfill ty ord vd a imm) s
    | some t =>
      if !s.me.regOk vd s.me.ew then illegalWord (.vfill ty ord vd a imm) s
      else
        guardRegs (vrest ++ xsrc [a]) s fun s =>
          let base := s.ea a imm
          if !aligned16 base then .trap { cause := .datafault, tval := base } s
          else
            match s.load .vls base 8 with
            | (s, .error x) => .trap (accTrap x) s
            | (s, .ok h) => if s.me.frameFits (wordN h) then fillBody t ord vd base (wordN h) s else illegal (wordN h) s)

end Sys2Proof.Machine
end

