-- ==== Sys2Proof/Machine/VectorControl.lean ====
section
/-!
DEFINITION. Vector control (R130, R133 to R137): vtype, moves between vector and scalar registers, the vector-state
record, and the entry of a vector-fetch block.
-/
namespace Sys2Proof.Machine

/-- `VSETT` with a value, R134: it reads vl and the grant, and writes vtype. -/
def settBody (d a : XReg) (v : Word) (s : State) : Out :=
  let vt : BitVec 16 := v.setWidth 16
  if !vtOk vt then illegal (vt.setWidth 64) s
  else guardRegs (xsrc [a] ++ spsrc [0, 5]) s fun s =>
    let s := s.modMe fun th => (th.setVtype vt).clearErr .special 1
    .done (s.setX d (wordN s.me.mvl))

/-- `VSETT`, R134: the immediate where a = 0. -/
def execVsett (d a : XReg) (imm : BitVec 16) (s : State) : Host.Outcome State Fault Refusal :=
  finishCtl 16 (guardVA s fun s => settBody d a (if a = 0 then imm.setWidth 64 else s.me.rx a) s)

/-- `VMVL`, R130. -/
def execVmvl (d : XReg) (s : State) : Host.Outcome State Fault Refusal :=
  finishCtl 16 (guardVA s fun s => guardRegs (spsrc [1, 5]) s fun s =>
    .done (s.setX d (wordN (16 + 16 * cdiv (s.me.mvl * s.me.ew) 128))))

/-- The active elements whose bit of a mask is set, in order. -/
def Thread.hits (th : Thread) (m : MReg) (mk : Option MReg) : List Nat :=
  (List.range th.vl).filter fun e => th.active mk e && th.mbit m e

/-- `VMPOP`, R135, charged by the element width of vtype (R9, R16). -/
def execVmpop (d : XReg) (m : MReg) (mk : Option MReg) (s : State) : Host.Outcome State Fault Refusal :=
  finishCtl 16 (guardVA s fun s => guardRegs (s.me.mSrc m :: vspec ++ s.me.maskSrc mk) s fun s =>
    .done ((s.chargeVec s.me.ew).setX d (wordN (s.me.hits m mk).length)))

/-- `VMFIRST`, R135, charged as `VMPOP`. -/
def execVmfirst (d : XReg) (m : MReg) (mk : Option MReg) (s : State) : Host.Outcome State Fault Refusal :=
  finishCtl 16 (guardVA s fun s => guardRegs (s.me.mSrc m :: vspec ++ s.me.maskSrc mk) s fun s =>
    .done ((s.chargeVec s.me.ew).setX d (match s.me.hits m mk with | e :: _ => wordN e | [] => BitVec.allOnes 64)))

/-- An element as `VGETX` extends it, R136. -/
def getxWord (t : Ty) (x : Nat) : Word := if t = .g6 then wordN (x % 64) else extTy t x

/-- `VGETX`, R136, with the charge of every vector instruction (R16). Its read checks the words of every element below
vl (log 47). -/
def execVgetx (d : XReg) (va : VReg) (b : XReg) (imm : Word) (s : State) : Host.Outcome State Fault Refusal :=
  finishCtl 16 (guardVA s fun s =>
    if !s.me.regOk va s.me.ew then illegalWord (.vgetx d va b imm) s
    else
      guardRegs (vspec ++ xsrc [b]) s fun s =>
        let i := (s.me.rx b + imm).toNat
        if s.me.vl ≤ i then .done ((s.chargeVec s.me.ew).setX d 0)
        else
          guardVec [(va, s.me.ew, s.me.vl)] (fun th => [(i, [(va, th.ew, i)])]) s fun s =>
            .done ((s.chargeVec s.me.ew).setX d (getxWord s.me.vTy (s.me.elem va s.me.ew i))))

/-- `VPUTX`, R136, with the charge of every vector instruction (R16). -/
def execVputx (vd : VReg) (a b : XReg) (imm : Word) (s : State) : Host.Outcome State Fault Refusal :=
  finishCtl 16 (guardVA s fun s =>
    if !s.me.regOk vd s.me.ew then illegalWord (.vputx vd a b imm) s
    else
      guardRegs (vspec ++ xsrc [a, b]) s fun s =>
        let i := (s.me.rx b + imm).toNat
        let s := (s.chargeVec s.me.ew).modMe fun th => th.dirty vd th.ew
        if s.me.vl ≤ i then .done s
        else
          .done (s.modMe fun th =>
            th.setElems vd th.ew [(i, (th.rx a).toNat % 2 ^ th.vTy.memWidth)]))

/-- The vector-state record, R137. -/
def Thread.record (th : Thread) : List (Byte × Byte) :=
  wholeBytes 8 th.vsw.toNat ++ wholeBytes 8 th.vstart.toNat ++ wholeBytes 8 th.vrstate.toNat
    ++ wholeBytes 8 th.vdirty.toNat ++ wholeBytes 8 th.grant.toNat ++ wholeBytes 8 th.fcsr.toNat ++ wholeBytes 16 0

/-- `VSSAVE`, R137. -/
def execVssave (a : XReg) (imm : Word) (s : State) : Host.Outcome State Fault Refusal :=
  finishCtl 16 (guardVA s fun s => guardRegs (xsrc [a] ++ spsrc [7, 2, 3, 4, 5, 0x10]) s fun s =>
    let va := s.ea a imm
    if !alignedTo 64 va then .trap { cause := .datafault, tval := va } s
    else
      match s.writeRangeAt (s.ctxOf s.cur) .write .ct none false va s.me.record with
      | (s, none) => .done s
      | (s, some x) => .trap (accTrap x) s)

/-- Writes the vector state from a record: vdirty in supervisor mode only (R137). -/
def Thread.setRecord (th : Thread) (w0 w1 w2 w3 w5 : Word) : Thread :=
  { th.setVsw w0 with vstart := w1, vrstate := w2, fcsr := w5.setWidth 7,
                      vdirty := if th.sup then w3.setWidth 32 else th.vdirty }

/-- `VSLOAD`, R137. -/
def execVsload (a : XReg) (imm : Word) (s : State) : Host.Outcome State Fault Refusal :=
  finishCtl 16 (guardVA s fun s => guardRegs (xsrc [a]) s fun s =>
    let va := s.ea a imm
    if !alignedTo 64 va then .trap { cause := .datafault, tval := va } s
    else
      match s.readRange (s.ctxOf s.cur) .ct va 64 with
      | (s, .error x) => .trap (accTrap x) s
      | (s, .ok bs) =>
        let w := fun i => wordN (leNat ((bs.drop (8 * i)).take 8))
        if !legalVsw (w 0) then illegal (w 0) s
        else .done (s.modMe fun th =>
          (th.setRecord (w 0) (w 1) (w 2) (w 3) (w 5)).clearSpec ([0, 1, 7, 2, 3, 0x10] ++ if th.sup then [4] else [])))

/-- `VF`, R133 and R18: every VP below vl forms the running group. At vl = 0 no E-word executes. The pc stays at the
`VF` until its block completes. -/
def vfBody (off : Word) (s : State) : Out :=
  let target := s.me.pc + off
  let r := s.me.resumesAt
  let s := s.modMe fun th =>
    match r with
    | some _ => { th.setSt 1 false with resume := none, dogAt := none }
    | none => { th.clearErr .special 2 with vstart := 0, resume := none, dogAt := none }
  if s.me.vl = 0 then .done s
  else
    .wait (s.modMe fun th => { th with blk := some {
      vf := th.pc, epc := r.getD target, start := target, group := List.range th.vl } })

/-- `VF`, R133. -/
def execVf (off : Word) (s : State) : Host.Outcome State Fault Refusal :=
  finishCtl 16 (guardVA s fun s => guardRegs vspec s (vfBody off))

end Sys2Proof.Machine
end

