-- ==== Sys2Proof/Machine/BlockCore.lean ====
section
/-!
DEFINITION. How an E-word runs (R138 to R152): the running group, operands, the checks every entry shares, the end of
a block, divergence.
-/
namespace Sys2Proof.Machine

/-- How an E-word's body ends: it completes, it traps, or a forced save stops it between two elements (R148). -/
inductive EOut where
  | done (s : State)
  | trap (t : Trap) (s : State)
  | stop (s : State)
  deriving DecidableEq, Repr

/-- After an E-word: the next one of the running group; with no VP left, the pending group of the lowest address; with
none, the `VF` has completed (R18, R19). -/
def Thread.advanceBlk (th : Thread) : Thread :=
  match th.blk with
  | none => th
  | some b =>
    if !b.group.isEmpty then { th with blk := some { b with epc := b.epc + 8 } }
    else
      match b.pending with
      | [] => { th with blk := none, pc := b.vf + 16 }
      | (a, g) :: r => { th with blk := some { b with epc := wordN a, start := wordN a, group := g, pending := r } }

/-- A trap of this cause is resumable at its E-word when no `vpfetch` has executed, R147. -/
def Cause.resumable (c : Cause) : Bool := c = .regerr || c = .ternbyte

/-- Ends an E-word. Outside a block there is none to execute. -/
def finishE (body : Block → State → EOut) (s : State) : Host.Outcome State Fault Refusal :=
  match s.me.blk with
  | none => .next s
  | some b =>
    match body b s with
    | .done s => .next ((s.modMe fun th => th.advanceBlk).settled s.cur)
    | .trap t s =>
      .next (s.takeTrap s.cur b.vf (t.cause.resumable && !b.diverged) t)
    | .stop s => .next (s.forcedSave s.cur)

/-- ILLEGAL of an E-word: tval is the word, telem the lowest VP that reached it (R75). -/
def eIllegal (i : Instr) (b : Block) (s : State) : EOut :=
  .trap { cause := .illegal, tval := i.low64, telem := b.low } s

/-- A trap that reports the E-word's address, R146. -/
def eTrap (b : Block) (c : Cause) (telem : Nat) (s : State) : EOut :=
  .trap { cause := c, tval := b.epc, telem := wordN telem } s

/-! ## Operands -/

/-- The effective type: the override, or vtype's (R138). -/
def Thread.eTy (th : Thread) (e : EOp) : Ty := e.ty.getD th.vTy

/-- The governing rounding mode, R48 and R86. -/
def Thread.eRm (th : Thread) (e : EOp) : Rm := e.rnd.getD (vtRm th.vtype)

/-- The active elements of the running group, R144. -/
def eAct (th : Thread) (b : Block) (e : EOp) : List Nat :=
  b.group.filter fun k => k < th.vl && match th.govern e.mask with
    | some m => th.mbit m k
    | none => true

/-- x-register of the broadcast form, R143. -/
def bcastX (e : EOp) : XReg := e.va.setWidth 6

/-- opa(k) at width w, R138. -/
def opA (th : Thread) (e : EOp) (w k : Nat) : Nat :=
  if e.xb then (th.rx (bcastX e)).toNat % 2 ^ w else th.elem e.va w k

/-- opb(k) at width w for an entry marked imm, R138 and R142. -/
def opB (th : Thread) (e : EOp) (w k : Nat) : Nat :=
  if e.immForm then wrapI w (sx 16 e.imm.toNat) else th.elem e.vb w k

/-- Vector source group of operand a, none under the broadcast flag. -/
def srcA (e : EOp) (w : Nat) : List (VReg × Nat) := if e.xb then [] else [(e.va, w)]

/-- Vector source group of operand b, none under the immediate flag. -/
def srcB (e : EOp) (w : Nat) : List (VReg × Nat) := if e.immForm then [] else [(e.vb, w)]

/-- Source registers of R40 of an E-word: vl, vtype and vsw, the broadcast register and the governing mask. -/
def eSrcs (th : Thread) (e : EOp) : List Src :=
  vspec ++ (if e.xb then xsrc [(bcastX e)] else []) ++ th.maskSrc e.mask

/-- Register number 0 to 7 of a 5-bit field. -/
def low3 (r : VReg) : MReg := r.setWidth 3

/-! ## Shared checks -/

/-- What an E-word reads and where it writes: source groups with their widths, other source registers, destination
groups, whether it moves elements between positions or changes width ("cross", R141). -/
structure EShape where
  srcs : List (VReg × Nat)
  regs : List Src
  dsts : List (VReg × Nat)
  cross : Bool := false

/-- Groups are aligned and of at most 8 registers, and a cross entry's destinations meet no source (R27, R140,
R141). -/
def EShape.ok (p : EShape) (th : Thread) : Bool :=
  (p.srcs ++ p.dsts).all (fun o => th.regOk o.1 o.2)
    && (!p.cross || p.dsts.all fun d => p.srcs.all fun o => !th.meet d.1 d.2 o.1 o.2)

/-- The width that counts beats: the widest operand's (R150); `ew` for a direct `vpfetch`, which has no operand
(log 46). -/
def EShape.width (p : EShape) (th : Thread) : Nat :=
  ((p.srcs ++ p.dsts).map (·.2)).foldl max (if (p.srcs ++ p.dsts).isEmpty then th.ew else 0)

/-- The head of an E-word: ILLEGAL under its own checks and R140, R141; REGERR of a source (R38, R40, R146); then the
body. `reads` pairs each active destination element with the source elements it reads. -/
def eHead (i : Instr) (b : Block) (ok : Bool) (p : EShape) (reads : Thread → List (Nat × List (VReg × Nat × Nat)))
    (s : State) (k : State → EOut) : EOut :=
  if !ok || !p.ok s.me then eIllegal i b s
  else
    match s.me.badReg p.regs with
    | some r => eTrap b .regerr 0 (s.logRas 0x02 2 (dieNo (dieOf (cluOf s.cur))) s.cur (regTrap r.kind r.num).tval)
    | none =>
      let s := s.scan (p.srcs.map fun o => (o.1, o.2, s.me.vl))
      match s.me.poisonHit (reads s.me) with
      | some (e, _) => eTrap b .regerr e s
      | none => k (s.charge (s.me.lanes * s.me.beats (p.width s.me)))

/-- Element k of every source, for each active element. -/
def sameElem (act : List Nat) (srcs : List (VReg × Nat)) : List (Nat × List (VReg × Nat × Nat)) :=
  act.map fun k => (k, srcs.map fun o => (o.1, o.2, k))

/-- Writes results with their flags to active elements of a destination group. -/
def eWrite (vd : VReg) (u : Nat) (rs : List (Nat × Nat × Flags)) (s : State) : EOut :=
  let fl := rs.foldl (fun f r => f ||| r.2.2) (0 : Flags)
  .done (s.modMe fun th => ((th.setElems vd u (rs.map fun r => (r.1, r.2.1))).dirty vd u).orFlags fl)

/-- An element-wise E-word: for each active element, the value and flags of f. -/
def eMap (i : Instr) (e : EOp) (ok : Bool) (p : EShape) (du : Nat) (f : Thread → Nat → Nat × Flags)
    (b : Block) (s : State) : EOut :=
  let act := eAct s.me b e
  eHead i b ok p (fun _ => sameElem act p.srcs) s fun s =>
    eWrite e.vd du (act.map fun k => (k, f s.me k)) s

/-- The override, if any, keeps vtype's element width (R86). -/
def Thread.sameW (th : Thread) (e : EOp) : Bool := (th.eTy e).width == th.ew

/-! ## Block control -/

/-- `vnop`, R151. -/
def execVnop (_ : EOp) (s : State) : Host.Outcome State Fault Refusal := finishE (fun _ s => .done s) s

/-- `vstop`, R151: every VP of the running group has finished. -/
def execVstop (_ : EOp) (s : State) : Host.Outcome State Fault Refusal :=
  finishE (fun b s => .done (s.modMe fun th => { th with blk := some { b with group := [] } })) s

/-- A VP joins the pending group of an address, R19. -/
def joinGroup (vl : Nat) (p : List (Nat × List Nat)) (a : Word) (k : Nat) : List (Nat × List Nat) :=
  let old := mapGet [] p a.toNat
  mapSet p a.toNat ((List.range vl).filter fun j => old.contains j || j == k)

/-- Active VPs leave for their addresses, or the lowest with a misaligned one raises FETCHFAULT (R152). -/
def pfetch (b : Block) (ts : List (Nat × Word)) (s : State) : EOut :=
  match ts.find? fun t => !aligned16 t.2 with
  | some t => .trap { cause := .fetchfault, tval := t.2, telem := wordN t.1 } s
  | none =>
    let vl := s.me.vl
    let b' := { b with
      group := b.group.filter fun k => !ts.any fun t => t.1 == k,
      pending := ts.foldl (fun p t => joinGroup vl p t.2 t.1) b.pending,
      diverged := true }
    .done (s.modMe fun th => { th with blk := some b' })

/-- `vpfetch` to a direct target, R152. -/
def execVpfetchDirect (e : EOp) (s : State) : Host.Outcome State Fault Refusal :=
  finishE (fun b s =>
    let act := eAct s.me b e
    let t := (b.epc &&& ~~~0xF) + wordI (sx 16 e.imm.toNat * 16)
    eHead (.vpfetchDirect e) b true { srcs := [], regs := eSrcs s.me e, dsts := [] } (fun _ => []) s
      (pfetch b (act.map fun k => (k, t)))) s

/-- `vpfetch` to the addresses in a register, R152. -/
def execVpfetchIndirect (e : EOp) (s : State) : Host.Outcome State Fault Refusal :=
  finishE (fun b s =>
    let act := eAct s.me b e
    let srcs := [(e.va, 64)]
    eHead (.vpfetchIndirect e) b true { srcs := srcs, regs := eSrcs s.me e, dsts := [] }
      (fun _ => sameElem act srcs) s fun s =>
        pfetch b (act.map fun k => (k, wordN (s.me.elem e.va 64 k))) s) s

end Sys2Proof.Machine
end

