-- ==== Sys2Proof/Machine/BlockInt.lean ====
section
/-!
DEFINITION. Integer, torus, logic, shift and width-changing E-words, compares, mask logic, select (R153 to R158, R161
to R163).
-/
namespace Sys2Proof.Machine

/-! ## Types and shapes -/

/-- S and N of R139. -/
def tySN (t : Ty) : Bool := t.isS || t.isN
/-- S, N and T of R139. -/
def tySNT (t : Ty) : Bool := tySN t || t = .t32

/-- Two operands, the second in the immediate form where the flag is set. -/
def shape2 (th : Thread) (e : EOp) (w : Nat) : EShape :=
  { srcs := srcA e w ++ srcB e w, regs := eSrcs th e, dsts := [(e.vd, w)] }
/-- Two register operands. -/
def shapeR (th : Thread) (e : EOp) (w : Nat) : EShape :=
  { srcs := srcA e w ++ [(e.vb, w)], regs := eSrcs th e, dsts := [(e.vd, w)] }
/-- Three register operands. -/
def shape3 (th : Thread) (e : EOp) (w : Nat) : EShape :=
  { srcs := srcA e w ++ [(e.vb, w), (e.vc, w)], regs := eSrcs th e, dsts := [(e.vd, w)] }
/-- One operand. -/
def shape1 (th : Thread) (e : EOp) (w : Nat) : EShape :=
  { srcs := srcA e w, regs := eSrcs th e, dsts := [(e.vd, w)] }

/-- A binary entry marked imm: value and flags from two patterns (R153, R155). -/
def eBin2 (i : Instr) (e : EOp) (accepts : Ty → Bool) (f : Ty → Nat → Nat → Nat × Flags) (s : State) :
    Host.Outcome State Fault Refusal :=
  finishE (fun b s =>
    let ty := s.me.eTy e
    let w := ty.width
    eMap i e (accepts ty && s.me.sameW e) (shape2 s.me e w) w
      (fun th k => f ty (opA th e w k) (opB th e w k)) b s) s

/-- A binary entry without an immediate form. -/
def eBinR (i : Instr) (e : EOp) (accepts : Ty → Bool) (f : Ty → Nat → Nat → Nat × Flags) (s : State) :
    Host.Outcome State Fault Refusal :=
  finishE (fun b s =>
    let ty := s.me.eTy e
    let w := ty.width
    eMap i e (accepts ty && s.me.sameW e) (shapeR s.me e w) w
      (fun th k => f ty (opA th e w k) (th.elem e.vb w k)) b s) s

/-- A ternary entry. -/
def eTern3 (i : Instr) (e : EOp) (accepts : Ty → Bool) (f : Ty → Nat → Nat → Nat → Nat × Flags) (s : State) :
    Host.Outcome State Fault Refusal :=
  finishE (fun b s =>
    let ty := s.me.eTy e
    let w := ty.width
    eMap i e (accepts ty && s.me.sameW e) (shape3 s.me e w) w
      (fun th k => f ty (opA th e w k) (th.elem e.vb w k) (th.elem e.vc w k)) b s) s

/-- A unary entry. -/
def eUn1 (i : Instr) (e : EOp) (accepts : Ty → Bool) (f : Ty → Nat → Nat × Flags) (s : State) :
    Host.Outcome State Fault Refusal :=
  finishE (fun b s =>
    let ty := s.me.eTy e
    let w := ty.width
    eMap i e (accepts ty && s.me.sameW e) (shape1 s.me e w) w (fun th k => f ty (opA th e w k)) b s) s

/-- wrap of R138 without flags. -/
def wrapTy (t : Ty) (i : Int) : Nat × Flags := (wrapI t.width i, 0)
/-- sat of R138: the clamp sets OF. -/
def satTy (t : Ty) (i : Int) : Nat × Flags :=
  let c := Ty.clamp t i
  (wrapI t.width c.1, satFlag c.2)
/-- The second factor of a product: a t32 product reads it as a signed integer (R154). -/
def factor (t : Ty) (x : Nat) : Int := if t = .t32 then sx 32 x else Ty.intVal t x
/-- Value in ty. -/
def iv (t : Ty) (x : Nat) : Int := Ty.intVal t x

/-! ## R153 -/

/-- `vadd`, R153. -/
def execVadd (e : EOp) (s : State) : Host.Outcome State Fault Refusal :=
  eBin2 (.vadd e) e tySNT (fun t a b => wrapTy t (iv t a + iv t b)) s
/-- `vsub`, R153. -/
def execVsub (e : EOp) (s : State) : Host.Outcome State Fault Refusal :=
  eBin2 (.vsub e) e tySNT (fun t a b => wrapTy t (iv t a - iv t b)) s
/-- `vrsub`, R153. -/
def execVrsub (e : EOp) (s : State) : Host.Outcome State Fault Refusal :=
  eBin2 (.vrsub e) e tySNT (fun t a b => wrapTy t (iv t b - iv t a)) s
/-- `vmul`, R153 and R154. -/
def execVmul (e : EOp) (s : State) : Host.Outcome State Fault Refusal :=
  eBin2 (.vmul e) e tySNT (fun t a b => wrapTy t (iv t a * factor t b)) s
/-- `vmulh`, R153. -/
def execVmulh (e : EOp) (s : State) : Host.Outcome State Fault Refusal :=
  eBinR (.vmulh e) e tySN (fun t a b => wrapTy t (iv t a * iv t b / 2 ^ t.width)) s
/-- `vmadd`, R153 and R154. -/
def execVmadd (e : EOp) (s : State) : Host.Outcome State Fault Refusal :=
  eTern3 (.vmadd e) e tySNT (fun t a b c => wrapTy t (iv t a * factor t b + iv t c)) s
/-- `vmsub`, R153 and R154. -/
def execVmsub (e : EOp) (s : State) : Host.Outcome State Fault Refusal :=
  eTern3 (.vmsub e) e tySNT (fun t a b c => wrapTy t (iv t c - iv t a * factor t b)) s
/-- `vsadd`, R153. -/
def execVsadd (e : EOp) (s : State) : Host.Outcome State Fault Refusal :=
  eBin2 (.vsadd e) e tySN (fun t a b => satTy t (iv t a + iv t b)) s
/-- `vssub`, R153. -/
def execVssub (e : EOp) (s : State) : Host.Outcome State Fault Refusal :=
  eBin2 (.vssub e) e tySN (fun t a b => satTy t (iv t a - iv t b)) s
/-- `vmin`, R153. -/
def execVmin (e : EOp) (s : State) : Host.Outcome State Fault Refusal :=
  eBin2 (.vmin e) e tySN (fun t a b => (if iv t b < iv t a then b else a, 0)) s
/-- `vmax`, R153. -/
def execVmax (e : EOp) (s : State) : Host.Outcome State Fault Refusal :=
  eBin2 (.vmax e) e tySN (fun t a b => (if iv t a < iv t b then b else a, 0)) s
/-- `vabs`, R153. -/
def execVabs (e : EOp) (s : State) : Host.Outcome State Fault Refusal :=
  eUn1 (.vabs e) e Ty.isS (fun t a => wrapTy t (iv t a).natAbs) s
/-- `vneg`, R153. -/
def execVneg (e : EOp) (s : State) : Host.Outcome State Fault Refusal :=
  eUn1 (.vneg e) e tySNT (fun t a => wrapTy t (-(iv t a))) s
/-- `vavg`, R153. -/
def execVavg (e : EOp) (s : State) : Host.Outcome State Fault Refusal :=
  eBinR (.vavg e) e tySN (fun t a b => wrapTy t ((iv t a + iv t b + 1) / 2)) s

/-! ## R155 -/

/-- Bits that an E-word writes when it moves patterns: bits [7:6] of a g6 container are zero (R56). -/
def logicBits (t : Ty) (x : Nat) : Nat × Flags := (x % 2 ^ t.memWidth, 0)
/-- Any format, R139. -/
def tyAny (_ : Ty) : Bool := true

/-- `vand`, R155. -/
def execVand (e : EOp) (s : State) : Host.Outcome State Fault Refusal :=
  eBin2 (.vand e) e tyAny (fun t a b => logicBits t (a &&& b)) s
/-- `vor`, R155. -/
def execVor (e : EOp) (s : State) : Host.Outcome State Fault Refusal :=
  eBin2 (.vor e) e tyAny (fun t a b => logicBits t (a ||| b)) s
/-- `vxor`, R155. -/
def execVxor (e : EOp) (s : State) : Host.Outcome State Fault Refusal :=
  eBin2 (.vxor e) e tyAny (fun t a b => logicBits t (a ^^^ b)) s
/-- `vnot`, R155. -/
def execVnot (e : EOp) (s : State) : Host.Outcome State Fault Refusal :=
  eUn1 (.vnot e) e tyAny (fun t a => logicBits t (2 ^ t.width - 1 - a % 2 ^ t.width)) s
/-- `vshl`, R155: the amount is taken mod w. -/
def execVshl (e : EOp) (s : State) : Host.Outcome State Fault Refusal :=
  eBin2 (.vshl e) e tySNT (fun t a b => (a * 2 ^ (b % t.width) % 2 ^ t.width, 0)) s
/-- `vshr`, R155. -/
def execVshr (e : EOp) (s : State) : Host.Outcome State Fault Refusal :=
  eBin2 (.vshr e) e tySNT (fun t a b => (a / 2 ^ (b % t.width), 0)) s
/-- `vsra`, R155. -/
def execVsra (e : EOp) (s : State) : Host.Outcome State Fault Refusal :=
  eBin2 (.vsra e) e tySNT (fun t a b => wrapTy t (sx t.width a / 2 ^ (b % t.width))) s
/-- `vclz`, R155. -/
def execVclz (e : EOp) (s : State) : Host.Outcome State Fault Refusal :=
  eUn1 (.vclz e) e tySNT (fun t a => (clzN t.width a % 2 ^ t.width, 0)) s
/-- `vpopc`, R155. -/
def execVpopc (e : EOp) (s : State) : Host.Outcome State Fault Refusal :=
  eUn1 (.vpopc e) e tySNT (fun t a => (popN t.width a % 2 ^ t.width, 0)) s

/-! ## Width changes: R156 to R158 -/

/-- The type of twice the width and the same kind, R156; none where there is none. -/
def Ty.widen : Ty → Option Ty
  | .s2 => some .s4
  | .s4 => some .s8
  | .s8 => some .s16
  | .s16 => some .s32
  | .s32 => some .s64
  | .n8 => some .n16
  | .n16 => some .n32
  | .n32 => some .n64
  | .h16 => some .f32
  | .f32 => some .f64
  | _ => none

/-- Some operand has vtype's width, R140. -/
def Thread.someEw (th : Thread) (ws : List Nat) : Bool := ws.any (· == th.ew)

/-- The exact product of `vwmul`, whose only flag is that of a signalling NaN (R156). -/
def wideMul (a b : FVal) : FVal × Flags := ((mulVal a b).1, nanFlag (sNaN a || sNaN b))

/-- `vwadd` and `vwmul`, R156. -/
def eWide (i : Instr) (e : EOp) (isMul : Bool) (s : State) : Host.Outcome State Fault Refusal :=
  finishE (fun b s =>
    let ty := s.me.eTy e
    let w := ty.width
    let wide := (Ty.widen ty).getD .f64
    let p : EShape := { srcs := srcA e w ++ [(e.vb, w)], regs := eSrcs s.me e, dsts := [(e.vd, 2 * w)], cross := true }
    let rm := s.me.eRm e
    eMap i e ((Ty.widen ty).isSome && s.me.someEw [w, 2 * w]) p (2 * w)
      (fun th k =>
        let x := opA th e w k
        let y := th.elem e.vb w k
        if ty.isF then
          finish wide rm (if isMul then wideMul (decodeVal ty x) (decodeVal ty y)
            else addVal rm (decodeVal ty x) (decodeVal ty y))
        else wrapTy wide (if isMul then iv ty x * iv ty y else iv ty x + iv ty y)) b s) s

/-- `vwadd`, R156. -/
def execVwadd (e : EOp) (s : State) : Host.Outcome State Fault Refusal := eWide (.vwadd e) e false s
/-- `vwmul`, R156. -/
def execVwmul (e : EOp) (s : State) : Host.Outcome State Fault Refusal := eWide (.vwmul e) e true s

/-- The value of `vnarrow` before it is written, R157. -/
def narrowVal (sh : Nat) (half : Bool) (x : Int) : Int :=
  (if half ∧ 0 < sh then x + 2 ^ (sh - 1) else x) / 2 ^ sh

/-- `vnarrow`, R157. -/
def execVnarrow (e : EOp) (s : State) : Host.Outcome State Fault Refusal :=
  finishE (fun b s =>
    let ty := s.me.eTy e
    let w := ty.width
    let sh := e.imm.toNat
    let p : EShape := { srcs := [(e.va, 2 * w)], regs := eSrcs s.me e, dsts := [(e.vd, w)], cross := true }
    eMap (.vnarrow e) e (tySN ty && w ≤ 32 && s.me.someEw [w, 2 * w] && sh < 2 * w) p w
      (fun th k =>
        let x := th.elem e.va (2 * w) k
        let v := narrowVal sh (e.f.getLsbD 1) (if ty.isS then sx (2 * w) x else x)
        if e.f.getLsbD 0 then satTy ty v else wrapTy ty v) b s) s

/-- `vcvt`, R158. -/
def execVcvt (e : EOp) (s : State) : Host.Outcome State Fault Refusal :=
  finishE (fun b s =>
    let src := s.me.eTy e
    let dst := (Ty.ofCode (e.f.extractLsb' 0 5)).getD .tr
    let p : EShape := { srcs := [(e.va, src.width)], regs := eSrcs s.me e, dsts := [(e.vd, dst.width)],
                        cross := src.width != dst.width }
    let rm := s.me.eRm e
    eMap (.vcvt e) e (src != .tr && dst != .tr && s.me.someEw [src.width, dst.width]) p dst.width
      (fun th k => convert src dst rm (th.elem e.va src.width k)) b s) s

/-! ## Compares, mask logic, select: R161 to R163 -/

/-- Writes mask bits of the active elements of a mask register. -/
def eMaskWrite (m : MReg) (rs : List (Nat × Bool × Flags)) (s : State) : EOut :=
  let fl := rs.foldl (fun f r => f ||| r.2.2) (0 : Flags)
  .done (s.modMe fun th => (th.setMbits m (rs.map fun r => (r.1, r.2.1))).orFlags fl)

/-- The integer condition of a code, R85. -/
def iccOf (c : Nat) : ICond :=
  match c with
  | 0 => .eq
  | 1 => .ne
  | 2 => .lt
  | 3 => .ge
  | 4 => .ltn
  | _ => .gen

/-- The float condition of a code, R85. -/
def fccOf (c : Nat) : FCond :=
  match c with
  | 0 => .eq
  | 1 => .ne
  | 2 => .lt
  | 3 => .le
  | _ => .un

/-- `vcmp`, R161. -/
def execVcmp (e : EOp) (s : State) : Host.Outcome State Fault Refusal :=
  finishE (fun b s =>
    let ty := s.me.eTy e
    let w := ty.width
    let act := eAct s.me b e
    let p : EShape := { shape2 s.me e w with dsts := [] }
    eHead (.vcmp e) b (tySNT ty && s.me.sameW e) p (fun _ => sameElem act p.srcs) s fun s =>
      eMaskWrite (low3 e.vd)
        (act.map fun k => (k, iCond (iccOf (bitsN e.f.toNat 2 0)) w (opA s.me e w k) (opB s.me e w k), 0)) s) s

/-- `vfcmp`, R161. -/
def execVfcmp (e : EOp) (s : State) : Host.Outcome State Fault Refusal :=
  finishE (fun b s =>
    let ty := s.me.eTy e
    let w := ty.width
    let act := eAct s.me b e
    let p : EShape := { shapeR s.me e w with dsts := [] }
    eHead (.vfcmp e) b (ty.isF && s.me.sameW e) p (fun _ => sameElem act p.srcs) s fun s =>
      eMaskWrite (low3 e.vd)
        (act.map fun k => (k, fCond (fccOf (bitsN e.f.toNat 2 0)) ty (opA s.me e w k) (s.me.elem e.vb w k))) s) s

/-- Mask logic, R162: every bit is read before any is written. -/
def eMaskLogic (e : EOp) (srcs : List VReg) (f : Bool → Bool → Bool) (s : State) :
    Host.Outcome State Fault Refusal :=
  finishE (fun b s =>
    let act := eAct s.me b e
    let regs := vspec ++ (srcs.map fun r => s.me.mSrc (low3 r)) ++ s.me.maskSrc e.mask
    match s.me.badReg regs with
    | some r => eTrap b .regerr 0 (s.logRas 0x02 2 (dieNo (dieOf (cluOf s.cur))) s.cur (regTrap r.1 r.2).tval)
    | none =>
      let rs := act.map fun k => (k, f (s.me.mbit (low3 e.va) k) (s.me.mbit (low3 e.vb) k), (0 : Flags))
      eMaskWrite (low3 e.vd) rs (s.charge (s.me.lanes * s.me.beats 1))) s

/-- `mand`, R162. -/
def execMand (e : EOp) (s : State) : Host.Outcome State Fault Refusal :=
  eMaskLogic e [e.va, e.vb] (fun a b => a && b) s
/-- `mor`, R162. -/
def execMor (e : EOp) (s : State) : Host.Outcome State Fault Refusal :=
  eMaskLogic e [e.va, e.vb] (fun a b => a || b) s
/-- `mxor`, R162. -/
def execMxor (e : EOp) (s : State) : Host.Outcome State Fault Refusal :=
  eMaskLogic e [e.va, e.vb] (fun a b => a != b) s
/-- `mnot`, R162. -/
def execMnot (e : EOp) (s : State) : Host.Outcome State Fault Refusal :=
  eMaskLogic e [e.va] (fun a _ => !a) s

/-- `vsel`, R163. -/
def execVsel (e : EOp) (s : State) : Host.Outcome State Fault Refusal :=
  finishE (fun b s =>
    let ty := s.me.eTy e
    let w := ty.width
    let p := shapeR s.me e w
    eMap (.vsel e) e (s.me.sameW e) { p with regs := s.me.mSrc (low3 e.vc) :: p.regs } w
      (fun th k => logicBits ty (if th.mbit (low3 e.vc) k then opA th e w k else th.elem e.vb w k)) b s) s

end Sys2Proof.Machine
end

