-- ==== Sys2Proof/Machine/BlockFloat.lean ====
section
/-!
DEFINITION. Float E-words (R159, R160), permutes and indexes (R164 to R167), reductions (R168 to R170).
-/
namespace Sys2Proof.Machine

/-! ## Float arithmetic -/

/-- A float entry of two operands, with the governing rounding mode. -/
def eF2 (i : Instr) (e : EOp) (f : Ty → Rm → Nat → Nat → Nat × Flags) (s : State) : Host.Outcome State Fault Refusal :=
  eBinR i e Ty.isF (fun t a b => f t (s.me.eRm e) a b) s

/-- `vfadd`, R159. -/
def execVfadd (e : EOp) (s : State) : Host.Outcome State Fault Refusal := eF2 (.vfadd e) e fAdd s
/-- `vfsub`, R159. -/
def execVfsub (e : EOp) (s : State) : Host.Outcome State Fault Refusal := eF2 (.vfsub e) e fSub s
/-- `vfmul`, R159. -/
def execVfmul (e : EOp) (s : State) : Host.Outcome State Fault Refusal := eF2 (.vfmul e) e fMul s
/-- `vfma`, R159. -/
def execVfma (e : EOp) (s : State) : Host.Outcome State Fault Refusal :=
  eTern3 (.vfma e) e Ty.isF (fun t a b c => fFma t (s.me.eRm e) a b c) s
/-- `vfms`, R159. -/
def execVfms (e : EOp) (s : State) : Host.Outcome State Fault Refusal :=
  eTern3 (.vfms e) e Ty.isF (fun t a b c => fFms t (s.me.eRm e) a b c) s
/-- `vfdiv`, R159. -/
def execVfdiv (e : EOp) (s : State) : Host.Outcome State Fault Refusal := eF2 (.vfdiv e) e fDiv s
/-- `vfsqrt`, R159. -/
def execVfsqrt (e : EOp) (s : State) : Host.Outcome State Fault Refusal :=
  eUn1 (.vfsqrt e) e Ty.isF (fun t a => fSqrt t (s.me.eRm e) a) s
/-- `vfmin`, R160. -/
def execVfmin (e : EOp) (s : State) : Host.Outcome State Fault Refusal :=
  eBinR (.vfmin e) e Ty.isF (fun t a b => fMinMax t false a b) s
/-- `vfmax`, R160. -/
def execVfmax (e : EOp) (s : State) : Host.Outcome State Fault Refusal :=
  eBinR (.vfmax e) e Ty.isF (fun t a b => fMinMax t true a b) s
/-- `vfabs`, R160. -/
def execVfabs (e : EOp) (s : State) : Host.Outcome State Fault Refusal :=
  eUn1 (.vfabs e) e Ty.isF (fun t a => fSign t false a) s
/-- `vfneg`, R160. -/
def execVfneg (e : EOp) (s : State) : Host.Outcome State Fault Refusal :=
  eUn1 (.vfneg e) e Ty.isF (fun t a => fSign t true a) s

/-! ## Permute and index -/

/-- An E-word whose active destination element k takes the source element `from k`, the all-zero pattern where it
names none, or is kept where it is no destination (R144, R164 to R167). -/
inductive Move where
  | keep
  | zero
  | elem (k : Nat)
  deriving DecidableEq, Repr

/-- A cross E-word that moves elements of va. `extra` lists further source elements that every destination reads. -/
def eMove (i : Instr) (e : EOp) (ok : Bool) (p : EShape) (extra : Nat → List (VReg × Nat × Nat))
    (mv : Thread → Nat → Move) (b : Block) (s : State) : EOut :=
  let ty := s.me.eTy e
  let w := ty.width
  let act := eAct s.me b e
  eHead i b ok p
    (fun th => act.map fun k =>
      (k, extra k ++ match mv th k with | .elem j => [(e.va, w, j)] | _ => [])) s fun s =>
    eWrite e.vd w (act.filterMap fun k =>
      match mv s.me k with
      | .keep => none
      | .zero => some (k, 0, 0)
      | .elem j => some (k, logicBits ty (s.me.elem e.va w j))) s

/-- `vid`, R164. -/
def execVid (e : EOp) (s : State) : Host.Outcome State Fault Refusal :=
  finishE (fun b s =>
    let ty := s.me.eTy e
    let w := ty.width
    eMap (.vid e) e (tySNT ty && s.me.sameW e) { srcs := [], regs := eSrcs s.me e, dsts := [(e.vd, w)] } w
      (fun _ k => (wrapI w (sx 16 e.imm.toNat + k), 0)) b s) s

/-- `viota`, R164: the count runs over every lower bit of the mask. -/
def execViota (e : EOp) (s : State) : Host.Outcome State Fault Refusal :=
  finishE (fun b s =>
    let ty := s.me.eTy e
    let w := ty.width
    eMap (.viota e) e (tySNT ty && s.me.sameW e)
      { srcs := [], regs := s.me.mSrc (low3 e.va) :: eSrcs s.me e, dsts := [(e.vd, w)] } w
      (fun th k => (((List.range k).filter fun j => th.mbit (low3 e.va) j).length % 2 ^ w, 0)) b s) s

/-- `vbcast`, R164. -/
def execVbcast (e : EOp) (s : State) : Host.Outcome State Fault Refusal :=
  finishE (fun b s =>
    let ty := s.me.eTy e
    let w := ty.width
    if e.xb then
      eMap (.vbcast e) e (s.me.sameW e) (shape1 s.me e w) w (fun th k => logicBits ty (opA th e w k)) b s
    else
      eMove (.vbcast e) e (s.me.sameW e) { shape1 s.me e w with cross := true } (fun _ => [])
        (fun th _ => if e.imm.toNat < th.vl then .elem e.imm.toNat else .zero) b s) s

/-- The elements below vl whose bit of a mask is set, in order. -/
def Thread.setBits (th : Thread) (m : MReg) : List Nat := (List.range th.vl).filter fun k => th.mbit m k

/-- Shape of `vcompress` and `vexpand`. -/
def shapeK (th : Thread) (e : EOp) (w : Nat) : EShape :=
  { srcs := [(e.va, w)], regs := th.mSrc (low3 e.vc) :: eSrcs th e, dsts := [(e.vd, w)], cross := true }

/-- `vcompress`, R165. -/
def execVcompress (e : EOp) (s : State) : Host.Outcome State Fault Refusal :=
  finishE (fun b s =>
    let src := s.me.setBits (low3 e.vc)
    eMove (.vcompress e) e (s.me.sameW e) (shapeK s.me e (s.me.eTy e).width) (fun _ => [])
      (fun _ k => match src[k]? with | some j => .elem j | none => .keep) b s) s

/-- `vexpand`, R165. -/
def execVexpand (e : EOp) (s : State) : Host.Outcome State Fault Refusal :=
  finishE (fun b s =>
    let src := s.me.setBits (low3 e.vc)
    eMove (.vexpand e) e (s.me.sameW e) (shapeK s.me e (s.me.eTy e).width) (fun _ => [])
      (fun _ k => if src.contains k then .elem (src.idxOf k) else .keep) b s) s

/-- The amount of a slide, R166. -/
def slideAmt (th : Thread) (e : EOp) (w : Nat) : Nat :=
  if e.immForm then e.imm.toNat else th.elem e.vb w 0

/-- The slides, R166. -/
def eSlide (i : Instr) (e : EOp) (mv : Nat → Nat → Nat → Move) (s : State) : Host.Outcome State Fault Refusal :=
  finishE (fun b s =>
    let w := (s.me.eTy e).width
    let p : EShape := { srcs := (e.va, w) :: srcB e w, regs := eSrcs s.me e, dsts := [(e.vd, w)], cross := true }
    eMove i e (s.me.sameW e) p (fun _ => (srcB e w).map fun o => (o.1, o.2, 0))
      (fun th k => mv (slideAmt th e w) th.vl k) b s) s

/-- `vslideup`, R166. -/
def execVslideup (e : EOp) (s : State) : Host.Outcome State Fault Refusal :=
  eSlide (.vslideup e) e (fun n _ k => if n ≤ k then .elem (k - n) else .keep) s
/-- `vslidedn`, R166. -/
def execVslidedn (e : EOp) (s : State) : Host.Outcome State Fault Refusal :=
  eSlide (.vslidedn e) e (fun n vl k => if k + n < vl then .elem (k + n) else .zero) s

/-- `vperm`, R167. -/
def execVperm (e : EOp) (s : State) : Host.Outcome State Fault Refusal :=
  finishE (fun b s =>
    let w := (s.me.eTy e).width
    let iw := indexWidth w (e.f.extractLsb' 3 2)
    let u := iw.getD 64
    let p : EShape := { srcs := [(e.va, w), (e.vb, u)], regs := eSrcs s.me e, dsts := [(e.vd, w)], cross := true }
    eMove (.vperm e) e (s.me.sameW e && iw.isSome) p (fun k => [(e.vb, u, k)])
      (fun th k => let j := th.elem e.vb u k; if j < th.vl then .elem j else .zero) b s) s

/-! ## Reductions -/

/-- One step of a reduction, with the flags gathered so far. -/
abbrev RedStep := Nat × Flags → Nat × Flags → Nat × Flags

/-- Result of an ordered reduction, R64: the accumulator after the elements from vstart up to n. -/
def redOrdered (f : RedStep) (th : Thread) (act : List Nat) (va : VReg) (w start n : Nat) : Nat × Flags :=
  let acc := if th.vstart = 0 then start else th.vrstate.toNat % 2 ^ w
  (act.filter fun k => th.vstart.toNat ≤ k && k < n).foldl (fun a k => f a (th.elem va w k, 0)) (acc, 0)

/-- Result of a tree reduction, R65. -/
def redTree (f : RedStep) (th : Thread) (act : List Nat) (va : VReg) (w start : Nat) : Nat × Flags :=
  let pos := (List.range th.vl).map fun k => if act.contains k then some (th.elem va w k, (0 : Flags)) else none
  match treeOf f 14 pos with
  | some x => f (start, 0) x
  | none => (start, 0)

/-- Writes the result of a reduction to element 0 when it is active, R168. -/
def redWrite (e : EOp) (w : Nat) (act : List Nat) (r : Nat × Flags) (s : State) : EOut :=
  eWrite e.vd w (if act.contains 0 then [(0, r.1, 0)] else []) (s.orFlags r.2)

/-- Source registers of a reduction: an ordered one reads vstart, and vrstate where it goes on (R40, R64). -/
def redSrcs (th : Thread) (e : EOp) (ordered : Bool) : List Src :=
  eSrcs th e ++ if !ordered then [] else if th.vstart = 0 then spsrc [2] else spsrc [2, 3]

/-- A reduction (R168). A forced save stops an ordered one between two elements with vrstate and vstart (R64, R341);
the flags gathered so far are kept, as the uninterrupted run would leave them. -/
def eReduce (i : Instr) (e : EOp) (accepts : Ty → Bool) (step : Ty → Rm → RedStep) (s : State) :
    Host.Outcome State Fault Refusal :=
  finishE (fun b s =>
    let ty := s.me.eTy e
    let w := ty.width
    let act := eAct s.me b e
    let f := step ty (s.me.eRm e)
    let ordered := e.f == 1
    let p : EShape := { srcs := [(e.va, w), (e.vb, w)], regs := redSrcs s.me e ordered, dsts := [(e.vd, w)] }
    let reads := fun (th : Thread) =>
      (if (ordered ∧ th.vstart ≠ 0) ∨ ¬ act.contains 0 then [] else [(0, [(e.vb, w, 0)])])
        ++ (act.filter fun k => !ordered || th.vstart.toNat ≤ k).map fun k => (k, [(e.va, w, k)])
    eHead i b (accepts ty && s.me.sameW e) p reads s fun s =>
      let th := s.me
      let start := th.elem e.vb w 0
      if ordered then
        let lim := if b.diverged then th.vl else th.limit th.vl
        let r := redOrdered f th act e.va w start lim
        if lim < th.vl then
          .stop ((s.modMe fun th => (if lim = 0 then { th.clearSpec [2] with vstart := 0 }
            else { th.clearSpec [2, 3] with vstart := wordN (max lim th.vstart.toNat), vrstate := wordN r.1 }).dirty e.vd w).orFlags
              r.2)
        else redWrite e w act r (s.setVstart 0)
      else redWrite e w act (redTree f th act e.va w start) s) s

/-- acc + x of R169. -/
def redAdd (t : Ty) (rm : Rm) : RedStep := fun a x =>
  if t.isF then addGather t rm a x else (wrapI t.width (iv t a.1 + iv t x.1), 0)
/-- Larger or smaller of R169. -/
def redPick (isMax : Bool) (t : Ty) (_ : Rm) : RedStep := fun a x =>
  if t.isF then
    let r := fMinMax t isMax a.1 x.1
    (r.1, r.2 ||| a.2 ||| x.2)
  else (if (if isMax then iv t a.1 < iv t x.1 else iv t x.1 < iv t a.1) then x.1 else a.1, 0)
/-- Types of the maxima and minima. -/
def tySNF (t : Ty) : Bool := tySN t || t.isF

/-- `vredsum`, R169. -/
def execVredsum (e : EOp) (s : State) : Host.Outcome State Fault Refusal :=
  eReduce (.vredsum e) e (fun t => tySNT t || t.isF) redAdd s
/-- `vredmax`, R169. -/
def execVredmax (e : EOp) (s : State) : Host.Outcome State Fault Refusal :=
  eReduce (.vredmax e) e tySNF (redPick true) s
/-- `vredmin`, R169. -/
def execVredmin (e : EOp) (s : State) : Host.Outcome State Fault Refusal :=
  eReduce (.vredmin e) e tySNF (redPick false) s
/-- `vredand`, R169. -/
def execVredand (e : EOp) (s : State) : Host.Outcome State Fault Refusal :=
  eReduce (.vredand e) e tySNT (fun _ _ a x => (a.1 &&& x.1, 0)) s
/-- `vredor`, R169. -/
def execVredor (e : EOp) (s : State) : Host.Outcome State Fault Refusal :=
  eReduce (.vredor e) e tySNT (fun _ _ a x => (a.1 ||| x.1, 0)) s

/-- rnd64 of an exact value, R170. -/
def rnd64 (v : FVal) : Nat := (encodeVal .f64 .rne v).1

/-- A binary64 sum under the tree of R65, starting from +0. -/
def sum64 (xs : List (Option Nat)) : Nat :=
  let add := fun a b => (fAdd .f64 .rne a b).1
  match treeOf add 14 xs with
  | some x => add 0 x
  | none => 0

/-- Mean and variance of R170 as binary64, from the values by position. -/
def meanVar (xs : List (Option FVal)) : Nat × Nat :=
  let n := (xs.filter Option.isSome).length
  let n64 := rnd64 (.fin false n 0)
  let mean := (fDiv .f64 .rne (sum64 (xs.map (·.map rnd64))) n64).1
  let sq := fun (x : FVal) =>
    let d := (addVal .rne x (decodeVal .f64 mean).neg).1
    rnd64 (mulVal d d).1
  (mean, (fDiv .f64 .rne (sum64 (xs.map (·.map sq))) n64).1)

/-- `vmeanvar`, R170. Its roundings are RNE, its only mode (R48); the two final ones happen only where element 0 is
active, and NV is set where no element is. -/
def execVmeanvar (e : EOp) (s : State) : Host.Outcome State Fault Refusal :=
  finishE (fun b s =>
    let ty := s.me.vTy
    let w := ty.width
    let act := eAct s.me b e
    let p : EShape := { srcs := [(e.va, w)], regs := eSrcs s.me e, dsts := [(e.vd, w), (e.vc, w)] }
    eHead (.vmeanvar e) b ty.isF p (fun _ => sameElem act p.srcs) s fun s =>
      let th := s.me
      let xs := (List.range th.vl).map fun k => if act.contains k then some (decodeVal ty (th.elem e.va w k)) else none
      let sn := nanFlag (xs.any fun x => (x.map sNaN).getD false)
      let r := meanVar xs
      let m := if act.isEmpty then (Ty.nanPat ty, fNV) else encodeVal ty .rne (decodeVal .f64 r.1)
      let v := if act.isEmpty then (Ty.nanPat ty, fNV) else encodeVal ty .rne (decodeVal .f64 r.2)
      let fl := if act.isEmpty || act.contains 0 then m.2 ||| v.2 else 0
      let s := s.orFlags (sn ||| fl)
      .done (s.modMe fun th =>
        let th := if act.contains 0 then (th.setElems e.vd w [(0, m.1)]).setElems e.vc w [(0, v.1)] else th
        (th.dirty e.vd w).dirty e.vc w)) s

end Sys2Proof.Machine
end

