-- ==== Sys2Proof/Machine/BlockTable.lean ====
section
/-!
DEFINITION. Table functions (R171 to R173), block scales (R174, R175), ternary pack and unpack (R176, R177).
-/
namespace Sys2Proof.Machine

/-! ## vfn -/

/-- A table as `vfn` reads it: binary32 patterns of the header and the knots (R171, R206). -/
structure FnTable where
  hdr : Nat → Nat
  knot : Nat → Nat

/-- The table in a table register. -/
def Thread.fnTable (th : Thread) (t : TbReg) : FnTable :=
  { hdr := fun i => (th.tbWord t i).toNat, knot := fun i => (th.tbWord t (8 + i)).toNat }

/-- Binary32 value of a pattern. -/
def f32v (x : Nat) : FVal := decodeVal .f32 x

/-- Finite test. -/
def FVal.isFin : FVal → Bool
  | .fin .. => true
  | _ => false

/-- Signed significand over 2^q of a finite value. -/
def FVal.scaled (v : FVal) (q : Int) : Int :=
  match v with
  | .fin n a e => sigAt n a e q
  | _ => 0

/-- Exponent of a finite value. -/
def FVal.exp (v : FVal) : Int :=
  match v with
  | .fin _ _ e => e
  | _ => 0

/-- Position of u in the domain: numerator and denominator of (u − lo) × 255 ÷ (hi − lo). -/
def knotPos (u lo hi : FVal) : Nat × Nat :=
  let q := min u.exp (min lo.exp hi.exp)
  (((u.scaled q - lo.scaled q) * 255).toNat, (hi.scaled q - lo.scaled q).toNat)

/-- The interpolated value k0 + (tn ÷ den) × (k1 − k0), rounded once into binary32; at a knot, the knot (R172,
R173). -/
def interpolate (rm : Rm) (k0 k1 : Nat) (tn den : Nat) : Nat × Flags :=
  if tn = 0 then (k0, 0)
  else if tn = den then (k1, 0)
  else
    let a := f32v k0
    let b := f32v k1
    let q := min a.exp b.exp
    let num := a.scaled q * den + tn * (b.scaled q - a.scaled q)
    let down := decide (rm = .rdn)
    -- an exact zero takes the sign of R48: two zeros of one sign, or a cancellation (log 44)
    let neg := if num = 0 then (if a.isNeg = b.isNeg then a.isNeg else down) else decide (num < 0)
    roundFG .f32 rm neg num.natAbs den q

/-- The value of a table at u, R172: binary32 pattern and flags. -/
def tableAt (t : FnTable) (rm : Rm) (u : FVal) : Nat × Flags :=
  let lo := f32v (t.hdr 0)
  let hi := f32v (t.hdr 1)
  if !(lo.isFin && hi.isFin && cmpVal lo hi < 0) then (Ty.nanPat .f32, fNV)
  else if u.isNaN then (Ty.nanPat .f32, 0)
  else if cmpVal u lo < 0 then (t.hdr 2, 0)
  else if cmpVal hi u < 0 then (t.hdr 3, 0)
  else
    let p := knotPos u lo hi
    let i := min (p.1 / p.2) 254
    let tn := p.1 - i * p.2
    if (f32v (t.knot i)).isFin && (f32v (t.knot (i + 1))).isFin then interpolate rm (t.knot i) (t.knot (i + 1)) tn p.2
    else (if 2 * tn < p.2 then t.knot i else t.knot (i + 1), 0)

/-- `vfn` on an exact binary32 argument, R172: binary32 pattern and flags. -/
def vfnAt (t : FnTable) (fused : Bool) (rm : Rm) (x : FVal) : Nat × Flags :=
  let u := if fused then finish .f32 rm (fmaVal rm (f32v (t.hdr 4)) x (f32v (t.hdr 5))) else encodeVal .f32 rm x
  let y := tableAt t rm (f32v u.1)
  let r := if fused then finish .f32 rm (mulVal (f32v (t.hdr 6)) (f32v y.1)) else (y.1, 0)
  (r.1, u.2 ||| y.2 ||| r.2)

/-- `vfn`, R172. -/
def execVfn (e : EOp) (s : State) : Host.Outcome State Fault Refusal :=
  finishE (fun b s =>
    let ty := s.me.eTy e
    let w := ty.width
    let rm := s.me.eRm e
    let p : EShape := { srcs := [(e.va, w)], regs := { kind := .tb, num := e.vb.toNat } :: eSrcs s.me e, dsts := [(e.vd, w)] }
    eMap (.vfn e) e ((ty = .h16 || ty = .f32) && s.me.sameW e) p w
      (fun th k =>
        let y := vfnAt (th.fnTable (low3 e.vb)) (e.f.getLsbD 0) rm (decodeVal ty (th.elem e.va w k))
        let r := encodeVal ty rm (f32v y.1)
        (r.1, r.2 ||| y.2)) b s) s

/-! ## Block scales -/

/-- Types of the scale E-words, R174. -/
def tyScaled (t : Ty) : Bool :=
  match t with
  | .s2 | .s4 | .s8 | .g8 | .g6 => true
  | _ => false

/-- `vbscale`, R174. -/
def execVbscale (e : EOp) (s : State) : Host.Outcome State Fault Refusal :=
  finishE (fun b s =>
    let ty := s.me.eTy e
    let w := ty.width
    let bl := vtBlk s.me.vtype
    let act := eAct s.me b e
    let rm := s.me.eRm e
    let p : EShape := { srcs := [(e.va, w), (e.vb, 8)], regs := eSrcs s.me e, dsts := [(e.vd, 32)], cross := true }
    eHead (.vbscale e) b (tyScaled ty && bl != 0 && s.me.sameW e) p
      (fun _ => act.map fun k => (k, [(e.va, w, k), (e.vb, 8, k / bl)])) s fun s =>
      let th := s.me
      eWrite e.vd 32
        (act.map fun k => (k, scaledF32 rm (scaledVal ty (th.elem e.va w k) (th.elem e.vb 8 (k / bl))))) s) s

/-- eT of R175. -/
def quantBias (t : Ty) : Int :=
  match t with
  | .s8 => 6
  | .s4 => 2
  | _ => 0

/-- Magnitude of a value that is no NaN is larger. -/
def magLess (a b : FVal) : Bool :=
  let abs := fun v => match v with | .inf _ => FVal.inf false | .fin _ x e => .fin false x e | v => v
  cmpVal (abs a) (abs b) < 0

/-- The scale code of a block from its active members, R175. -/
def quantScale (t : Ty) (xs : List FVal) : Nat :=
  if xs.any (·.isNaN) then 255
  else
    match xs.foldl (fun m x => if magLess m x then x else m) (.fin false 0 0) with
    | .fin _ a e => if a = 0 then 127 else (max 0 (min 254 (127 + log2Q a 1 e - quantBias t))).toNat
    | _ => 254

/-- One quantised element, R175. -/
def quantElem (t : Ty) (rm : Rm) (b : Nat) (x : FVal) : Nat × Flags :=
  if b = 255 then (if t.isG then Ty.nanPat t else 0, nanFlag (sNaN x))
  else
    match x with
    | .fin n a e => encodeVal t rm (.fin n a (e + 127 - b))
    | v => encodeVal t rm v

/-- The source elements that active destination elements of `vbquant` read: element j of vd those of its block, for the
scale comes from all of them, and element j of vc those of block j (R146, R175; log 18). -/
def quantReads (va : VReg) (bl : Nat) (act : List Nat) : List (Nat × List (VReg × Nat × Nat)) :=
  act.map fun j => (j, (act.filter fun k => k / bl == j / bl || k / bl == j).map fun k => (va, 32, k))

/-- `vbquant`, R175. -/
def execVbquant (e : EOp) (s : State) : Host.Outcome State Fault Refusal :=
  finishE (fun b s =>
    let ty := s.me.eTy e
    let w := ty.width
    let bl := vtBlk s.me.vtype
    let act := eAct s.me b e
    let rm := s.me.eRm e
    let p : EShape := { srcs := [(e.va, 32)], regs := eSrcs s.me e, dsts := [(e.vd, w), (e.vc, 8)], cross := true }
    eHead (.vbquant e) b (tyScaled ty && bl != 0 && s.me.sameW e && !s.me.meet e.vd w e.vc 8) p
      (fun _ => quantReads e.va bl act) s fun s =>
      let th := s.me
      let val := fun k => f32v (th.elem e.va 32 k)
      let blocks := (act.map (· / bl)).eraseDups
      let codes := blocks.map fun i => (i, quantScale ty ((act.filter (· / bl == i)).map val))
      let rs := act.map fun k => (k, quantElem ty rm (((codes.find? (·.1 == k / bl)).map (·.2)).getD 0) (val k))
      let s := s.modMe fun th => (th.setElems e.vc 8 codes).dirty e.vc 8
      eWrite e.vd w rs s) s

/-! ## Ternary pack and unpack -/

/-- Digit of a trit value, R176: 1 above zero, 2 below zero. -/
def tritDigit (v : Int) : Nat := if v = 0 then 0 else if 0 < v then 1 else 2

/-- Value of digit i of a packed byte, R61. -/
def byteTrit (x i : Nat) : Int :=
  match x / 3 ^ i % 3 with
  | 0 => 0
  | 1 => 1
  | _ => -1

/-- The trits of byte j that lie below vl. -/
def tritsOf (vl j : Nat) : List Nat := ((List.range 5).map fun i => 5 * j + i).filter (· < vl)

/-- s2 and s8 of R176. -/
def tyTrit (t : Ty) : Bool := t = .s2 || t = .s8

/-- `vtpack`, R176. -/
def execVtpack (e : EOp) (s : State) : Host.Outcome State Fault Refusal :=
  finishE (fun b s =>
    let ty := s.me.eTy e
    let w := ty.width
    let act := (eAct s.me b e).filter (· < cdiv s.me.vl 5)
    let p : EShape := { srcs := [(e.va, w)], regs := eSrcs s.me e, dsts := [(e.vd, 8)], cross := true }
    eHead (.vtpack e) b (tyTrit ty && s.me.sameW e) p
      (fun th => act.map fun j => (j, (tritsOf th.vl j).map fun k => (e.va, w, k))) s fun s =>
      let th := s.me
      let trit := fun k => iv ty (th.elem e.va w k)
      eWrite e.vd 8 (act.map fun j =>
        let ks := tritsOf th.vl j
        (j, (ks.map fun k => tritDigit (trit k) * 3 ^ (k - 5 * j)).foldl (· + ·) 0,
          satFlag (ks.any fun k => 1 < (trit k).natAbs))) s) s

/-- `vtunpk`, R177: TERNBYTE of the lowest illegal byte that holds an active trit, and nothing is written. -/
def execVtunpk (e : EOp) (s : State) : Host.Outcome State Fault Refusal :=
  finishE (fun b s =>
    let ty := s.me.eTy e
    let w := ty.width
    let act := eAct s.me b e
    let p : EShape := { srcs := [(e.va, 8)], regs := eSrcs s.me e, dsts := [(e.vd, w)], cross := true }
    eHead (.vtunpk e) b (tyTrit ty && s.me.sameW e) p
      (fun _ => act.map fun k => (k, [(e.va, 8, k / 5)])) s fun s =>
      match (act.map (· / 5)).eraseDups.find? fun j => 243 ≤ s.me.elem e.va 8 j with
      | some j => eTrap b .ternbyte j s
      | none =>
        eWrite e.vd w (act.map fun k => (k, wrapTy ty (byteTrit (s.me.elem e.va 8 (k / 5)) (k % 5)))) s) s

end Sys2Proof.Machine
end

