-- ==== Sys2Proof/Machine/Array.lean ====
section
/-!
DEFINITION. The ternary array (R178 to R192): weight buffers, accumulator tiles, `TMMA`, and the drains.
-/
namespace Sys2Proof.Machine

/-! ## Weight buffers -/

/-- Trit i of a tr byte, R61. -/
def tritOf (x i : Nat) : Int :=
  match x / 3 ^ i % 3 with
  | 0 => 0
  | 1 => 1
  | _ => -1

/-- The bytes of a weight buffer. -/
def CoreState.wbBytes (c : CoreState) (b : Nat) : Array Nat :=
  (mapRange c.wb (b * 13312) (b * 13312 + 13312)).foldl (fun a p => a.set! (p.1 - b * 13312) p.2.toNat)
    (Array.replicate 13312 0)

/-- wt(b, k, n) on the bytes of buffer b (R61, R63, R178). -/
def wtAt (bs : Array Nat) (k n : Nat) : Int := tritOf bs[52 * k + n / 5]! (n % 5)

/-- wz(b, s), R178. -/
def wzAt (bs : Array Nat) (s : Nat) : Bool :=
  (List.range 16).all fun i => (List.range 256).all fun n => wtAt bs (16 * s + i) n == 0

/-- The sixteen flags wz of a buffer as a number. -/
def wzWord (bs : Array Nat) : Nat :=
  (List.range 16).foldl (fun x s => if wzAt bs s then x + 2 ^ s else x) 0

/-- The readable bytes of a range before its first failing byte, with the failing access (R99, R355). -/
def State.readPrefix (s : State) (ctx : Ctx) (path : Path) (va : Word) (n : Nat) :
    State × List Byte × Option (Cause × Word) :=
  let r := s.pieces ctx .read va n
  let s := (s.noteSpan ctx .read va n).beforeRead ctx.tid path r.1
  let t := s.takeBytes ctx path r.1
  let s' := r.1.foldl (fun s p => (s.notePiece (cluOf ctx.tid) path false p).logRegRead p) t.1.tookBytes
  match r.1.findSome? (fun p => (s.poisonIn ctx.tid path p).map fun o => p.va + wordN o) with
  | some a => (s', t.2.take (a - va).toNat, some (.memue, a))
  | none => (s', t.2, r.2)

/-- Raises ACCGRANT unless the thread holds the tile (R21, R179). -/
def guardTile (acc : AccReg) (s : State) (k : State → Out) : Out :=
  if s.me.tiles.contains acc.toNat then k s
  else .trap { cause := .accgrant, tval := acc.setWidth 64 } s

/-- Commits a tile of bytes to a weight buffer, R180. -/
def CoreState.setWb (c : CoreState) (b : Nat) (bs : List Byte) (va : Word) (ctx : Ctx) : CoreState :=
  let new := bs.zipIdx.filterMap fun p => if p.1 = 0 then none else some (b * 13312 + p.2, p.1)
  { c with wb := mapRange c.wb 0 (b * 13312) ++ new ++ mapRange c.wb (b * 13312 + 13312) 26624,
           wbAddr := mapSet c.wbAddr b (va, ctx), wbBad := mapErase c.wbBad b }

/-- `TLW`, R179 and R180. -/
def tlwBody (b : Nat) (va : Word) (s : State) : Out :=
  let ctx := s.ctxOf s.cur
  match s.readPrefix ctx .arr va 13312 with
  | (s, bs, e) =>
    match bs.zipIdx.find? (fun p => 243 ≤ p.1.toNat), e with
    | some p, _ => .trap { cause := .ternbyte, tval := wordN p.2 } s
    | none, some x => .trap (accTrap x) s
    | none, none => .done (s.modCore (coreOf s.cur) fun c => c.setWb b bs va ctx)

/-- `TLW`, R180. -/
def execTlw (wb : Bool) (a : XReg) (imm : Word) (s : State) : Host.Outcome State Fault Refusal :=
  finishCtl 16 (
    if s.me.tiles.isEmpty then .trap { cause := .accgrant, tval := BitVec.allOnes 64 } s
    else guardRegs (xsrc [a]) s fun s => tlwBody (if wb then 1 else 0) (s.ea a imm) s)

/-! ## Tiles -/

/-- A tile of a core. -/
def CoreState.tile (c : CoreState) (n : Nat) : Tile := mapGet {} c.tiles n

/-- The tile of the issuing thread's core. -/
def State.tile (s : State) (acc : AccReg) : Tile := (s.core (coreOf s.cur)).tile acc.toNat

/-- Sets a tile of the issuing thread's core. -/
def State.setTile (s : State) (acc : AccReg) (t : Tile) : State :=
  s.modCore (coreOf s.cur) fun c => { c with tiles := mapSet c.tiles acc.toNat t }

/-- acc(N, r, ·) of R178, as the bits of its 256 columns. -/
def Tile.row (t : Tile) (r : Nat) : Array Nat :=
  (mapRange t.acc (r * 256) (r * 256 + 256)).foldl (fun a p => a.set! (p.1 - r * 256) p.2.toNat)
    (Array.replicate 256 0)

/-- Writes the 256 columns of a row; the map keeps its canonical form. -/
def Tile.setRow (t : Tile) (r : Nat) (f : Nat → Nat) : Tile :=
  { t with acc :=
      t.acc.filter (fun p => p.1 < r * 256)
        ++ (List.range 256).filterMap (fun n =>
          let x := BitVec.ofNat 32 (f n)
          if x = 0 then none else some (r * 256 + n, x))
        ++ t.acc.filter (fun p => r * 256 + 256 ≤ p.1) }

/-- scale(N, c) of R178. -/
def Tile.scale (t : Tile) (c : Nat) : BitVec 32 := t.scales.getD (c / t.group) 0

/-- What `TZERO` leaves in a tile, R181. The tag, whose valid bit alone the rule clears, becomes 0 (log 24). -/
def Tile.zeroed (t : Tile) (m : TileMode) : Tile :=
  { mode := m, scales := List.replicate 4 (if m = .torus then 1 else 0x3F800000), lastRegion := t.lastRegion }

/-- A result written to a tile clears the errors of its words (R40). -/
def State.clearAcc (s : State) (acc : AccReg) : State :=
  s.modCore (coreOf s.cur) fun c => { c with accErr := c.accErr.filter fun e => e.1 != acc.toNat }

/-- REGERR of an accumulator word that is read, R40. -/
def guardAcc (acc : AccReg) (words : Nat → Bool) (s : State) (k : State → Out) : Out :=
  if (s.core (coreOf s.cur)).accErr.any fun e => e.1 == acc.toNat && words e.2 then s.regErrTrap .acc acc.toNat
  else k s

/-- `TZERO`, R181. -/
def execTzero (acc : AccReg) (mode : TileMode) (s : State) : Host.Outcome State Fault Refusal :=
  finishCtl 16 (guardTile acc s fun s => .done ((s.setTile acc ((s.tile acc).zeroed mode)).clearAcc acc))

/-- `TSCALE` past its checks, R182. -/
def tscaleBody (acc : AccReg) (va : Word) (g : Nat) (s : State) : Out :=
  if !alignedTo 4 va then .trap { cause := .datafault, tval := va } s
  else
    let n := 256 / g
    match s.readRange (s.ctxOf s.cur) .arr va (4 * n) with
    | (s, .error x) => .trap (accTrap x) s
    | (s, .ok bs) =>
      let ws := (List.range n).map fun j => BitVec.ofNat 32 (leNat ((bs.drop (4 * j)).take 4))
      let t := s.tile acc
      match if t.mode = .torus then ws.find? (fun w => w.toInt < -128 || 127 < w.toInt) else none with
      | some w => illegal (w.setWidth 64) s
      | none => .done (s.setTile acc { t with group := g, scales := ws })

/-- `TSCALE`, R182. -/
def execTscale (acc : AccReg) (a : XReg) (imm : Word) (grp : BitVec 2) (s : State) :
    Host.Outcome State Fault Refusal :=
  finishCtl 16 (guardTile acc s fun s => guardRegs (xsrc [a]) s fun s =>
    tscaleBody acc (s.ea a imm) (8 * 2 ^ grp.toNat) s)

/-! ## TMMA -/

/-- The tile mode that a vtype format selects, R183. -/
def actMode : Ty → Option TileMode
  | .s2 | .s4 | .s8 | .n8 => some .int
  | .t32 => some .torus
  | .h16 | .g8 | .g6 => some .float
  | _ => none

/-- Alignment of a row address, R184. -/
def rowAlign : Ty → Nat
  | .h16 => 2
  | .t32 => 4
  | _ => 1

/-- The 256 element patterns of a row, R41 and R57. -/
def rowElems (t : Ty) (bs : List Byte) : Array Nat :=
  let x := leNat bs
  ((List.range 256).map fun k => x / 2 ^ (t.memWidth * k) % 2 ^ t.memWidth).toArray

/-- An activation other than ±0; NaN is not zero (R187). -/
def actLive (t : Ty) (x : Nat) : Bool :=
  match decodeVal t x with
  | .fin _ n _ => n != 0
  | _ => true

/-- wt × x in the float mode: the activation or its negation, none for a zero (R185). -/
def floatTerm (w : Int) (v : FVal) : Option FVal :=
  match v with
  | .fin _ 0 _ => none
  | _ => if w = 0 then none else if w = 1 then some v else some v.neg

/-- One float addition of a term or a group sum, RNE (R185). -/
def accAdd (a : Nat × Flags) (v : FVal) : Nat × Flags :=
  let r := finish .f32 .rne (addVal .rne (f32v a.1) v)
  (r.1, r.2 ||| a.2)

/-- NV of a group that holds both infinities, whatever else it holds (R185). -/
def infFlag (ts : List FVal) : Flags := if ts.contains (.inf false) && ts.contains (.inf true) then fNV else 0

/-- The exact sum of a group's terms with its flags; none without a term. -/
def groupSum (ts : List FVal) : Option (FVal × Flags) :=
  match ts with
  | [] => none
  | t :: r =>
    some (r.foldl (fun a v => let q := addVal .rne a.1 v; (q.1, q.2 ||| a.2)) (t, nanFlag (sNaN t) ||| infFlag ts))

/-- Float update of one accumulator by one row, R185. -/
def accFloat (assoc : Bool) (a : Nat) (wt : Nat → Int) (x : Nat → FVal) : Nat × Flags :=
  if assoc then
    (List.range 8).foldl (fun a g =>
      match groupSum ((List.range 32).filterMap fun i => floatTerm (wt (32 * g + i)) (x (32 * g + i))) with
      | none => a
      | some s => let r := accAdd a s.1; (r.1, r.2 ||| s.2)) (a, 0)
  else ((List.range 256).filterMap fun k => floatTerm (wt k) (x k)).foldl accAdd (a, 0)

/-- Integer or torus update of one accumulator by one row, R185. -/
def accInt (a : Nat) (wt : Nat → Int) (x : Nat → Int) : Nat :=
  wrapI 32 ((List.range 256).foldl (fun s k => s + wt k * x k) (a : Int))

/-- One row added into the tile row r, R185: the tile and the flags. -/
def Tile.addRow (t : Tile) (ty : Ty) (assoc : Bool) (bs : Array Nat) (r : Nat) (xs : Array Nat) : Tile × Flags :=
  let row := t.row r
  if t.mode = .float then
    let vs := xs.map (decodeVal ty)
    let ys := ((List.range 256).map fun n => accFloat assoc row[n]! (fun k => wtAt bs k n) (fun k => vs.getD k (.fin false 0 0))).toArray
    (t.setRow r (fun n => ys[n]!.1), ys.foldl (fun f y => f ||| y.2) 0)
  else
    let vs := xs.map (Ty.intVal ty)
    (t.setRow r (fun n => accInt row[n]! (fun k => wtAt bs k n) (fun k => vs[k]!)), 0)

/-- The slabs of an M-block that count for R187: u_b. -/
def liveSlabs (ty : Ty) (wz : Nat) (rows : List (Array Nat)) : Nat :=
  ((List.range 16).filter fun s =>
    !wz.testBit s && rows.any fun xs => (List.range 16).any fun i => actLive ty xs[16 * s + i]!).length

/-- The first row from i0 that fails its check, R184. -/
def State.rowFault (s : State) (ty : Ty) (addr : Nat → Word) (i0 m : Nat) : Option (Nat × Cause × Word) :=
  ((List.range m).drop i0).findSome? fun i =>
    let a := addr i
    if a.toNat % rowAlign ty != 0 then some (i, .datafault, a)
    else (s.pieces (s.ctxOf s.cur) .read a (32 * ty.memWidth)).2.map fun x => (i, x)

/-- Reads the rows of an M-block. -/
def State.readRows (s : State) (ty : Ty) (addr : Nat → Word) :
    List Nat → State × Except (Nat × Cause × Word) (List (Array Nat))
  | [] => (s, .ok [])
  | i :: is =>
    match s.readRange (s.ctxOf s.cur) .arr (addr i) (32 * ty.memWidth) with
    | (s, .error x) => (s, .error (i, x))
    | (s, .ok bs) =>
      match s.readRows ty addr is with
      | (s, .ok l) => (s, .ok (rowElems ty bs :: l))
      | (s, .error e) => (s, .error e)

/-- Tag, ν and counts after a torus pass, R186. -/
def Tile.torusNote (t : Tile) (bs : Array Nat) (xn : Word) : Tile :=
  { t with
    tagValid := true, tag := xn.extractLsb' 32 4, nu := max t.nu (bitsN xn.toNat 31 0),
    cnt := (List.range 256).foldl (fun m c =>
      let k := ((List.range 256).filter fun k => wtAt bs k c != 0).length
      mapPut 0 m c (min (mapGet 0 t.cnt c + k) (2 ^ 32 - 1))) t.cnt }

/-- The M-blocks from b up to ceil(lim ÷ 16), R184: each is read whole and then added. The accumulated pair holds the
cycles and the skipped slabs of R187. -/
def tmmaBlocks (acc : AccReg) (ty : Ty) (assoc : Bool) (bs : Array Nat) (wz row0 : Nat) (addr : Nat → Word) (g : Nat) :
    List Nat → Nat × Nat → State → State × Option (Nat × Nat × Cause × Word) × Nat × Nat
  | [], n, s => (s, none, n)
  | b :: r, n, s =>
    let is := (List.range (min (16 * b + 16) g)).drop (16 * b)
    match s.readRows ty addr is with
    | (s, .error e) => (s, some (b, e), n)
    | (s, .ok rows) =>
      let t := (is.zip rows).foldl (fun t p =>
        let q := Tile.addRow t.1 ty assoc bs (row0 + p.1) p.2
        (q.1, q.2 ||| t.2)) (s.tile acc, (0 : Flags))
      let u := liveSlabs ty wz rows
      tmmaBlocks acc ty assoc bs wz row0 addr g r (n.1 + max 1 u, n.2 + (16 - u)) ((s.setTile acc t.1).orFlags t.2)

/-- The cycles and skipped slabs of the M-blocks below b that this `TMMA` performed before it was stopped (R187); none
where no such stop is known (log 24). -/
def Thread.tmmaSoFar (th : Thread) (b : Nat) : Nat × Nat :=
  match mapFind th.tmmaPart th.pc.toNat with
  | some p => if b ≠ 0 ∧ p.1 = b then p.2 else (0, 0)
  | none => (0, 0)

/-- Stops a `TMMA` at an M-block: a restart begins there and goes on counting (R184, R187). -/
def State.stopTmma (s : State) (b : Nat) (n : Nat × Nat) : State :=
  (s.setVstart (16 * b)).modMe fun th => { th with tmmaPart := mapSet th.tmmaPart th.pc.toNat (b, n) }

/-- Completes a `TMMA`: what `TSTAT` reports of it, and its cycles in the cluster's counter (R187, R192, R394). -/
def State.endTmma (s : State) (n : Nat × Nat) (g : Nat) : State :=
  ((s.setVstart 0).modMe fun th =>
    { th with lastTmma := (12 + n.1, n.2, g), tmmaPart := mapErase th.tmmaPart th.pc.toNat }).count (cluOf s.cur) 2
      (12 + n.1)

/-- `TMMA` past its checks: granted rows g from row i0, with the restart rules of R184 and R341. -/
def tmmaRun (acc : AccReg) (ty : Ty) (assoc : Bool) (bs : Array Nat) (row0 : Nat) (addr : Nat → Word) (i0 g : Nat)
    (s : State) : Out :=
  let lim := max i0 (s.me.limit g)
  let last := if lim < g then lim / 16 else cdiv g 16
  match tmmaBlocks acc ty assoc bs (wzWord bs) row0 addr g ((List.range last).drop (i0 / 16)) (s.me.tmmaSoFar (i0 / 16))
      s with
  | (s, some (b, i, c, a), n) => .trap { cause := c, tval := a, telem := wordN i } (s.stopTmma b n)
  | (s, none, n) => if lim < g then .stop (s.stopTmma last n) else .done (s.endTmma n g)

/-- The torus checks of R186, and what they note. -/
def tmmaTorus (acc : AccReg) (bs : Array Nat) (xn : Word) (g : Nat) (s : State) (k : State → Out) : Out :=
  let t := s.tile acc
  let tag : BitVec 4 := xn.extractLsb' 32 4
  if t.mode ≠ .torus then k s
  else if t.tagValid && t.tag != tag then .trap { cause := .keytag, tval := tag.setWidth 64 } s
  else k (if 0 < g then s.setTile acc (t.torusNote bs xn) else s)

/-- A byte that a restore met in the buffer raises TERNBYTE once, R346. -/
def guardWb (wb : Nat) (s : State) (k : State → Out) : Out :=
  let c := s.core (coreOf s.cur)
  match mapFind c.wbBad wb with
  | some o =>
    .trap { cause := .ternbyte, tval := wordN o }
      (s.modCore (coreOf s.cur) fun c => { c with wbBad := mapErase c.wbBad wb })
  | none => k s

/-- `TMMA`, R183 to R187. -/
def tmmaBody (assoc ff : Bool) (acc : AccReg) (a b c : XReg) (wb : Bool) (rb : BitVec 2) (n : XReg) (imm : Word)
    (s : State) : Out :=
  let ty := s.me.vTy
  let row0 := 16 * rb.toNat
  let m := (s.me.rx c).toNat
  let base := s.ea a imm
  let addr := fun i => base + wordN i * s.me.rx b
  let buf := if wb then 1 else 0
  let i0 := 16 * (s.me.vstart.toNat / 16)
  if 64 - row0 < m then illegal (s.me.rx c) s
  else guardRegs (vrest ++ xsrc [a, b, c, n]) s fun s =>
   guardAcc acc (fun w => (row0 + i0) * 256 ≤ w && w < (row0 + m) * 256) s fun s =>
    let f := s.rowFault ty addr i0 m
    let g := match f with
      | some x => if ff && i0 < x.1 then x.1 else m
      | none => m
    let stop := match f with
      | some x => if ff && i0 < x.1 then none else some x
      | none => none
    let s := match f with
      | some x => s.noteXlate (s.ctxOf s.cur) x.2.2
      | none => s
    match stop with
    | some (i, c, a) => .trap { cause := c, tval := a, telem := wordN i } s
    | none =>
      guardWb buf s fun s =>
        let bs := (s.core (coreOf s.cur)).wbBytes buf
        let xn := s.me.rx n
        tmmaTorus acc bs xn g s fun s =>
          tmmaRun acc ty assoc bs row0 addr i0 g (if ff then s.setX c (wordN g) else s)

/-- `TMMA`, R183. -/
def execTmma (assoc ff : Bool) (acc : AccReg) (a b c : XReg) (wb : Bool) (rb : BitVec 2) (n : XReg) (imm : Word)
    (s : State) : Host.Outcome State Fault Refusal :=
  finishCtl 32 (guardVA s fun s => guardTile acc s fun s =>
    match actMode s.me.vTy with
    | none => illegal (s.me.vtype.setWidth 64) s
    | some m =>
      if m ≠ (s.tile acc).mode ∨ ((m = .torus) ↔ n = 0) then illegal (s.me.vtype.setWidth 64) s
      else tmmaBody assoc ff acc a b c wb rb n imm s)

/-! ## Drains -/

/-- Destination formats of a drain outside torus mode, R189. -/
def drainTy : Ty → Bool
  | .s8 | .s16 | .s32 | .n8 | .n16 | .n32 | .h16 | .f32 | .g8 => true
  | _ => false

/-- The value of a drained accumulator, R190: pattern of the destination format and flags. -/
def Tile.drained (t : Tile) (tab : FnTable) (fn : Nat) (rm : Rm) (dst : Ty) (a c : Nat) : Nat × Flags :=
  let sc := t.scale c
  if t.mode = .torus then (a * (wrapI 32 sc.toInt) % 2 ^ 32, 0)
  else
    let x := decodeVal (if t.mode = .float then .f32 else .s32) a
    let y := finish .f32 rm (mulVal x (f32v sc.toNat))
    let z := if fn = 0 then (y.1, (0 : Flags)) else vfnAt tab (fn = 2) rm (f32v y.1)
    let r := convert .f32 dst rm z.1
    (r.1, r.2 ||| z.2 ||| y.2)

/-- e(c) of R191. -/
def Tile.noiseOf (t : Tile) (c : Nat) : Nat :=
  noiseMul (min (mapGet 0 t.cnt c * t.nu) (2 ^ 32 - 1)) (t.scale c).toInt

/-- The columns that a drain writes, R189. -/
def Thread.drainCols (th : Thread) (mk : Option MReg) : List Nat := (List.range 256).filter (th.active mk)

/-- KEYTAG of a torus drain entered at vstart = 0 with a valid tag whose slot is unbound (R191): an operand value, which
comes before a register's error (R339). -/
def guardSlot (acc : AccReg) (s : State) (k : State → Out) : Out :=
  let t := s.tile acc
  if t.mode = .torus ∧ s.me.vstart = 0 ∧ t.tagValid ∧ mapFind (s.cluster (cluOf s.cur)).keys t.tag.toNat = none then
    .trap { cause := .keytag, tval := t.tag.setWidth 64 } s
  else k s

/-- NOISE and the noise vector of a torus drain entered at vstart = 0, R191. -/
def drainNoise (acc : AccReg) (mk : Option MReg) (h : XReg) (o : Option Nat) (op : Nat) (s : State)
    (k : State → Out) : Out :=
  let t := s.tile acc
  if t.mode ≠ .torus ∨ s.me.vstart ≠ 0 then k s
  else
    let cols := s.me.drainCols mk
    let slot := mapFind (s.cluster (cluOf s.cur)).keys t.tag.toNat
    let top := (cols.map t.noiseOf).foldl max 0
    let past := match slot with | some ks => ks.ceil.toNat < top | none => false
    if t.tagValid && past then
      .trap { cause := .noise, tval := wordN top,
              telem := wordN ((cols.find? fun c => t.noiseOf c == top).getD 0) } s
    else
      let xh := s.me.rx h
      let put := fun (s : State) (c : Nat) =>
        let va := xh + wordN (4 * c)
        if !alignedTo 4 va then (s, some (Cause.datafault, va))
        else
          match s.writeRangeAt (s.ctxOf s.cur) .write .vls o false va (wholeBytes 4 (t.noiseOf c)) op with
          | (s, some x) => (s, some (x.1, va))
          | (s, none) => (s, none)
      match runElems put cols s with
      | (s, some (c, x)) => .trap { accTrap x with telem := wordN c } s
      | (s, none) => k s

/-- A drain past its checks, R190. `rowA` gives the address of row offset i. The noise vector and each row are contiguous
stores of their own (R226). -/
def drainBody (acc : AccReg) (mk : Option MReg) (row0 rows fn : Nat) (tb : TbReg) (h : XReg) (rowA : Nat → Word)
    (s : State) : Out :=
  let dst := s.me.vTy
  let n := dst.width / 8
  let rm := vtRm s.me.vtype
  let t := s.tile acc
  let tab := s.me.fnTable tb
  let o := some s.stamp
  let op := s.stamp + 1
  drainNoise acc mk h o op { s with stamp := op + rows } fun s =>
    let put := fun (s : State) (k : Nat) =>
      let va := rowA (k / 256) + wordN (k % 256 * n)
      if va.toNat % n ≠ 0 then (s, some (Cause.datafault, va))
      else
        let y := t.drained tab fn rm dst (mapGet 0 t.acc ((row0 + k / 256) * 256 + k % 256)).toNat (k % 256)
        match s.writeRangeAt (s.ctxOf s.cur) .write .vls o false va (wholeBytes n y.1) (op + 1 + k / 256) with
        | (s, none) => (s.orFlags y.2, none)
        | r => r
    restartable .o (rows * 256)
      (fun th lim => (List.range lim).filter fun k => th.vstart.toNat ≤ k && th.active mk (k % 256)) put id s

/-- The combination of mode, format, table and noise register is legal, R189. -/
def drainOk (t : Tile) (dst : Ty) (fn : BitVec 2) (h : XReg) : Bool :=
  if t.mode = .torus then dst = .t32 && fn = 0 && h != 0 else drainTy dst && h = 0

/-- Source registers of a drain: its mask, its table when one is applied (R40). -/
def drainSrcs (th : Thread) (mk : Option MReg) (fn : BitVec 2) (tb : TbReg) : List Src :=
  vrest ++ th.maskSrc mk ++ (if fn = 0 then [] else [{ kind := .tb, num := tb.toNat }])

/-- The accumulator words that a drain reads: the active columns of its rows. -/
def Thread.drainWords (th : Thread) (mk : Option MReg) (row0 rows : Nat) (w : Nat) : Bool :=
  row0 ≤ w / 256 && w / 256 < row0 + rows && th.active mk (w % 256)

/-- `TDRAIN`, R189 to R191. -/
def execTdrain (acc : AccReg) (a b : XReg) (imm : Word) (mk : Option MReg) (row0 : BitVec 6) (rows : BitVec 7)
    (fn : BitVec 2) (tb : TbReg) (h : XReg) (s : State) : Host.Outcome State Fault Refusal :=
  finishCtl 32 (guardVA s fun s => guardTile acc s fun s =>
    if !drainOk (s.tile acc) s.me.vTy fn h then illegal (s.me.vtype.setWidth 64) s
    else
      guardSlot acc s fun s => guardRegs (xsrc [a, b, h] ++ drainSrcs s.me mk fn tb) s fun s =>
       guardAcc acc (s.me.drainWords mk row0.toNat rows.toNat) s fun s =>
        let base := s.ea a imm
        let stride := s.me.rx b
        drainBody acc mk row0.toNat rows.toNat fn.toNat tb h (fun i => base + wordN i * stride) s)

/-- `TDRAINX`, R189: index(i) is element i of vb as 32-bit elements. -/
def execTdrainx (acc : AccReg) (a : XReg) (vb : VReg) (imm : Word) (mk : Option MReg) (row0 : BitVec 6)
    (rows : BitVec 7) (fn : BitVec 2) (tb : TbReg) (h : XReg) (s : State) : Host.Outcome State Fault Refusal :=
  finishCtl 32 (guardVA s fun s =>
    if !s.me.regOk vb 32 then illegalWord (.tdrainx acc a vb imm mk row0 rows fn tb h) s
    else guardTile acc s fun s =>
      if !drainOk (s.tile acc) s.me.vTy fn h then illegal (s.me.vtype.setWidth 64) s
      else if s.me.mvl < rows.toNat then illegal (rows.setWidth 64) s
      else
        guardSlot acc s fun s => guardRegs (xsrc [a, h] ++ drainSrcs s.me mk fn tb) s fun s =>
         guardAcc acc (s.me.drainWords mk row0.toNat rows.toNat) s fun s =>
          guardVec [(vb, 32, rows.toNat)]
            (fun _ => (List.range rows.toNat).map fun i => (256 * i, [(vb, 32, i)])) s fun s =>
              let base := s.ea a imm
              let th := s.me
              drainBody acc mk row0.toNat rows.toNat fn.toNat tb h (fun i => base + th.index vb 32 i) s)

/-! ## TSTAT -/

/-- Word of the mode field, R181 and R192. -/
def TileMode.code : TileMode → Nat
  | .int => 0
  | .torus => 1
  | .float => 2

/-- The value that `TSTAT` writes, R192. -/
def State.tstat (s : State) (acc : AccReg) (sel : Nat) (col : Nat) : Nat :=
  let t := s.tile acc
  let l := s.me.lastTmma
  match sel with
  | 0 => l.1
  | 1 => l.2.1
  | 2 => l.2.2
  | 3 => TileMode.code t.mode + (if t.tagValid then 4 else 0) + t.tag.toNat * 16 + t.nu * 2 ^ 32
  | 4 => min (mapGet 0 t.cnt col * t.nu) (2 ^ 32 - 1)
  | _ =>
    let c := s.core (coreOf s.cur)
    wzWord (c.wbBytes 0) + wzWord (c.wbBytes 1) * 2 ^ 16

/-- `TSTAT`, R192. -/
def execTstat (d : XReg) (acc : AccReg) (sel : BitVec 4) (col : BitVec 8) (s : State) :
    Host.Outcome State Fault Refusal :=
  let k := fun (s : State) => Out.done (s.setX d (wordN (s.tstat acc sel.toNat col.toNat)))
  finishCtl 16 (if sel = 3 ∨ sel = 4 then guardTile acc s k else k s)

end Sys2Proof.Machine
end

