-- ==== Sys2Proof/Machine/Bank.lean ====
section
/-!
DEFINITION. Bank units: `BGEMV`, `BWAIT`, and the completion of an operation (R193, R194, R291, R292).
-/
namespace Sys2Proof.Machine

/-- The first byte of a range that lies in the cluster-local window, R278. -/
def meetsWindow (va : Word) (n : Nat) : Option Word :=
  let a := va.toNat
  if inWindow a && n != 0 then some va
  else if a < winBase && winBase < a + n then some (wordN winBase)
  else if 2 ^ 64 + winBase < a + n then some (wordN winBase)
  else none

/-- PROT at issue for an operand range that meets the window, R278. -/
def guardWindow (rs : List (Word × Nat)) (s : State) (k : State → Out) : Out :=
  match rs.findSome? fun r => meetsWindow r.1 r.2 with
  | some a => .trap { cause := .prot, tval := a } s
  | none => k s

/-- Bytes of the weight matrix, R292. -/
def BgOp.wBytes (o : BgOp) : Nat := 52 * (cdiv o.n 256 * o.k)

/-- Address of activation vector j, R193. -/
def BgOp.xAt (o : BgOp) (j : Nat) : Word := o.x + wordN (j * o.astr)

/-- Address of output j, R193. -/
def BgOp.yAt (o : BgOp) (j : Nat) : Word := o.y + wordN (j * o.ostr)

/-- Operand ranges, R278: the matrix, the activations, the outputs. -/
def BgOp.ranges (o : BgOp) : List (Word × Nat) :=
  (o.w, o.wBytes) :: ((List.range o.b).map fun j => (o.xAt j, o.k)) ++ (List.range o.b).map fun j => (o.yAt j, 4 * o.n)

/-- The fault of a first byte at issue, R193: of the matrix, of the activations at xb and of the outputs at xc. The later
vectors are parts of the two ranges at xb and xc, not ranges of their own (log 48). -/
def State.firstFault (s : State) (o : BgOp) : Option (Cause × Word) :=
  [(o.w, Acc.read), (o.x, .read), (o.y, .write)].findSome? fun p => (s.pieces o.ctx p.2 p.1 1).2

/-- `BGEMV`, R193. -/
def execBgemv (d a b c : XReg) (k n : BitVec 16) (bv : BitVec 4) (astr ostr : BitVec 32) (s : State) :
    Host.Outcome State Fault Refusal :=
  finishCtl 32 (guardRegs (xsrc [a, b, c]) s fun s =>
    let th := s.me
    let o : BgOp := {
      ticket := th.tickets + 1, w := th.rx a, x := th.rx b, y := th.rx c, k := k.toNat, n := n.toNat, b := bv.toNat,
      astr := astr.toNat, ostr := ostr.toNat, ctx := s.ctxOf s.cur }
    guardWindow o.ranges s fun s =>
      if !alignedTo 4 o.y then .trap { cause := .datafault, tval := o.y } s
      else
        match s.firstFault o with
        | some x => .trap (accTrap x) (s.noteXlate o.ctx x.2)
        | none =>
          let s := [o.w, o.x, o.y].foldl (fun s a => s.noteXlate o.ctx a) s
          .done ((s.modMe fun th => { th with tickets := o.ticket, bg := th.bg ++ [o] }).setX d (wordN o.ticket)))

/-- A completion point that covers the operations with tickets up to `last`: it waits for them, and reports the first
failed one, once (R194). -/
def bgPointAt (wait : State → Out) (last : Nat) (s : State) (k : State → Out) : Out :=
  let ops := s.me.bg.filter fun o => o.ticket ≤ last
  if ops.any fun o => o.failed.isNone then wait s
  else
    match ops with
    | [] => k s
    | o :: _ =>
      let s := s.modMe fun th => { th with bg := th.bg.filter fun p => p.ticket ≠ o.ticket }
      match o.failed with
      | some x => .trap { cause := x.1, tval := x.2, telem := wordN o.ticket, late := true } s
      | none => k s

/-- The completion point of a `BWAIT`, whose wait a forced save stops at once (R341). -/
def bgPoint (last : Nat) (s : State) (k : State → Out) : Out := bgPointAt .wait last s k

/-- The completion point of a `HEDGE` (R194, R341). -/
def bgHold (last : Nat) (s : State) (k : State → Out) : Out := bgPointAt .hold last s k

/-- `BWAIT`, R194; xa = 0 waits for every operation. -/
def execBwait (a : XReg) (s : State) : Host.Outcome State Fault Refusal :=
  finishCtl 16 (guardRegs (xsrc [a]) s fun s =>
    bgPoint (if s.me.rx a = 0 then s.me.tickets else (s.me.rx a).toNat) s .done)

/-! ## Completion -/

/-- Every byte of the matrix lies in TERNBANK pages; otherwise the first that does not (R292). -/
def State.notTern (s : State) (o : BgOp) : Option Word :=
  ((s.pieces o.ctx .read o.w o.wBytes).1.find? fun p => !p.place.tern).map (·.va)

/-- Output j of an operation on the matrix bytes, R193 and R292. -/
def BgOp.output (o : BgOp) (bs : Array Nat) (xs : Array Nat) : List Byte :=
  (List.range o.n).flatMap fun n =>
    leBytes 4 (wrapI 32 ((List.range o.k).foldl (fun y k =>
      y + tritOf bs[52 * (n / 256 * o.k + k) + n % 256 / 5]! (n % 256 % 5) * sx 8 xs[k]!) 0))

/-- Reads the activation vectors in order. -/
def State.readActs (s : State) (o : BgOp) : List Nat → State × Except (Cause × Word) (List (Array Nat))
  | [] => (s, .ok [])
  | j :: js =>
    match s.readRange o.ctx .bnk (o.xAt j) o.k with
    | (s, .error x) => (s, .error x)
    | (s, .ok bs) =>
      match s.readActs o js with
      | (s, .ok l) => (s, .ok ((bs.map (·.toNat)).toArray :: l))
      | (s, .error x) => (s, .error x)

/-- The die whose bank units run an operation: the one whose stacks hold the matrix (R193, R227). -/
def State.bankDie (s : State) (o : BgOp) : DieId :=
  match (s.pieces o.ctx .read o.w 1).1 with
  | p :: _ => homeDie p.place.pa
  | [] => dieOf (cluOf o.ctx.tid)

/-- Writes outputs in order until one fails. -/
def State.writeOuts (s : State) (o : BgOp) : List (Nat × List Byte) → State × Option (Cause × Word)
  | [] => (s, none)
  | p :: ps =>
    match s.engineWrite (.die (s.bankDie o)) o.ctx .bnk (o.yAt p.1) p.2 with
    | (s, some x) => (s, some x)
    | (s, none) => s.writeOuts o ps

/-- The failure of the matrix at the lowest byte; at one byte a page that is not TERNBANK comes before an illegal byte, and
that before MEMUE (R339). -/
def BgOp.weightFault (o : BgOp) (flat : Option Word) (bs : List Byte) (e : Option (Cause × Word)) :
    Option (Cause × Word) :=
  let place := fun (x : Cause × Word) => ((x.2 - o.w).toNat, x)
  let bad := (bs.zipIdx.find? fun p => 243 ≤ p.1.toNat).map fun p => (p.2, Cause.ternbyte, wordN p.2)
  ((flat.map fun a => place (.prot, a)).toList ++ bad.toList ++ (e.map place).toList).foldl
    (fun (m : Option (Nat × Cause × Word)) x => match m with
      | some y => if x.1 < y.1 then some x else m
      | none => some x) none |>.map (·.2)

/-- Runs an operation; a failing access ends it (R193, R194). The reads and writes of an operation happen at its
completion (log 20). -/
def State.runBg (s : State) (o : BgOp) : State × Option (Cause × Word) :=
  match s.readPrefix o.ctx .bnk o.w o.wBytes with
  | (s, bs, e) =>
    match o.weightFault (s.notTern o) bs e with
    | some x => (s, some x)
    | none =>
      match s.readActs o (List.range o.b) with
      | (s, .error x) => (s, some x)
      | (s, .ok xs) =>
        let w := (bs.map (·.toNat)).toArray
        s.writeOuts o (xs.zipIdx.map fun x => (x.2, o.output w x.1))

/-- Output bytes of a failed operation: free values wherever they can be written (R194, log 6). An illegal weight byte
writes nothing (R62). -/
def State.freeOuts (s : State) (o : BgOp) (x : Cause × Word) : State :=
  if x.1 = .ternbyte then s
  else (List.range o.b).foldl (fun s j => s.freeRange (.die (s.bankDie o)) o.ctx (o.yAt j) (4 * o.n)) s

/-- `BGEMV_COMPLETION`: an operation in flight ends, R194. -/
def execBgemvCompletion (tid ticket : Nat) (s : State) : Host.Outcome State Fault Refusal :=
  match (s.thread tid).bg.find? fun o => o.ticket == ticket && o.failed.isNone with
  | none => .next s
  | some o =>
    match s.runBg o with
    | (s, none) => .next (s.modThread tid fun th => { th with bg := th.bg.filter fun p => p.ticket ≠ ticket })
    | (s, some x) =>
      .next ((s.freeOuts o x).modThread tid fun th =>
        { th with bg := th.bg.map fun p => if p.ticket = ticket then { p with failed := some x } else p })

end Sys2Proof.Machine
end

