-- ==== Sys2Proof/Machine/Cipher.lean ====
section
/-!
DEFINITION. Keysets, ciphertext registers, droves, and the refresh of the Coppice (R195 to R205, R269 to R276).
-/
namespace Sys2Proof.Machine

/-! ## Pending registers and checks -/

/-- Waits for pending ciphertext registers and raises the fault that a failed pass left; telem names the operation by its
ciphertext register (R198, R205, R332, log 25). The wait is none of those that R341 lists. -/
def guardC (rs : List CReg) (s : State) (k : State → Out) : Out :=
  let th := s.me
  if rs.any fun r => th.cPend.contains r.toNat then .hold s
  else
    match th.cFail.find? fun f => rs.any fun r => r.toNat == f.1 with
    | some f =>
      .trap { cause := f.2.1, tval := f.2.2, telem := wordN f.1, late := true }
        (s.modMe fun th => { th with cFail := th.cFail.filter fun g => g.1 ≠ f.1 })
    | none => k s

/-- A bound slot of the issuing thread's cluster. -/
def State.slot (s : State) (ks : Nat) : Option KeySlot := mapFind (s.cluster (cluOf s.cur)).keys ks

/-- Ciphertext sources for REGERR. -/
def csrc (rs : List CReg) : List Src := rs.map fun r => { kind := .c, num := r.toNat }

/-- Writes a ciphertext register of the issuing thread. -/
def State.setC (s : State) (r : CReg) (c : Cipher) : State :=
  s.modMe fun th => { th with c := mapSet th.c r.toNat c }.clearErr .c r.toNat

/-- KEYTAG with a value. -/
def keytag (v : Nat) (s : State) : Out := .trap { cause := .keytag, tval := wordN v } s

/-- A checked result, R197: the slot is bound and the noise word keeps its ceiling. -/
def checkedC (cd : CReg) (srcs : List Src) (c : Cipher) (noise : Nat) (s : State) : Out :=
  match s.slot c.tag.toNat with
  | none => keytag c.tag.toNat s
  | some ks =>
    guardRegs srcs s fun s =>
      if ks.ceil.toNat < noise then .trap { cause := .noise, tval := wordN noise } s
      else .done (s.setC cd { c with noise := BitVec.ofNat 32 noise })

/-! ## KSET -/

/-- Bytes of the bootstrapping key, R269. -/
def bkSize : Nat := 150994944
/-- Bytes of the key-switching key, R269. -/
def kskSize : Nat := 75595776

/-- A drove on a slot is open, started or running (R195). -/
def Cluster.slotBusy (c : Cluster) (ks : Nat) : Bool :=
  c.droves.any (fun d => d.slot == ks) || c.started.any (fun d => d.1.slot == ks)
    || (c.running.map fun r => r.1.slot == ks).getD false

/-- The slot that a descriptor describes, when it passes every check of R195. -/
def readKeyset (bs : List Byte) (ctx : Ctx) : Option KeySlot :=
  let f := fun off n => leNat ((bs.drop off).take n)
  let bk := f 0 8
  let ksk := f 8 8
  if bk != 0 && bk % 64 == 0 && ksk != 0 && ksk % 64 == 0 && f 28 2 == 768 && f 30 2 == 2048 && f 32 1 == 1
      && (bs.drop 33).all (· == 0) && f 20 4 != 0 && f 16 4 ≤ f 20 4 then
    some { bk := wordN bk, ksk := wordN ksk, fresh := BitVec.ofNat 32 (f 16 4), ceil := BitVec.ofNat 32 (f 20 4),
           n := 768, ctx := ctx }
  else none

/-- `KSET`, R195. -/
def execKset (ks : KsReg) (a : XReg) (imm : Word) (s : State) : Host.Outcome State Fault Refusal :=
  finishCtl 16 (guardRegs (xsrc [a]) s fun s =>
    let va := s.ea a imm
    let ctx := s.ctxOf s.cur
    if (s.cluster (cluOf s.cur)).slotBusy ks.toNat then .wait s
    else if !alignedTo 64 va then .trap { cause := .datafault, tval := va } s
    else
      guardWindow [(va, 256)] s fun s =>
        match s.readRange ctx .cop va 256 with
        | (s, .error x) => .trap (accTrap x) s
        | (s, .ok bs) =>
          match readKeyset bs ctx with
          | none => illegal va s
          | some k =>
            guardWindow [(k.bk, bkSize), (k.ksk, kskSize)] s fun s =>
              .done (s.modCluster (cluOf s.cur) fun c => { c with keys := mapSet c.keys ks.toNat k }))

/-! ## Moves and arithmetic -/

/-- Bytes of a ciphertext image, R196. -/
def Cipher.image (c : Cipher) : List Byte :=
  leBytes 2 c.dim.toNat ++ leBytes 2 c.tag.toNat ++ leBytes 4 c.noise.toNat ++ leBytes 8 0
    ++ c.words.flatMap fun w => leBytes 4 w.toNat

/-- A reserved bit of an image header is set, R196. -/
def headerBad (h : Nat) : Bool := bitsN h 15 10 != 0 || bitsN h 31 20 != 0 || bitsN h 127 64 != 0

/-- `CLD` past its first checks, R196: the header, then the words. -/
def cldBody (cd : CReg) (va : Word) (s : State) : Out :=
  let ctx := s.ctxOf s.cur
  guardWindow [(va, 16)] s fun s =>
    match s.readRange ctx .cop va 16 with
    | (s, .error x) => .trap (accTrap x) s
    | (s, .ok hb) =>
      let h := leNat hb
      if headerBad h then illegal (wordN h) s
      else
        let n := bitsN h 9 0
        guardWindow [(va, 16 + 4 * (n + 1))] s fun s =>
          match s.readRange ctx .cop (va + 16) (4 * (n + 1)) with
          | (s, .error x) => .trap (accTrap x) s
          | (s, .ok bs) =>
            .done (s.setC cd {
              words := (List.range (n + 1)).map fun i => BitVec.ofNat 32 (leNat ((bs.drop (4 * i)).take 4)),
              noise := BitVec.ofNat 32 (bitsN h 63 32), tag := BitVec.ofNat 4 (bitsN h 19 16),
              dim := BitVec.ofNat 10 n })

/-- `CLD`, R196. -/
def execCld (cd : CReg) (a : XReg) (imm : Word) (s : State) : Host.Outcome State Fault Refusal :=
  finishCtl 16 (guardC [cd] s fun s => guardRegs (xsrc [a]) s fun s =>
    let va := s.ea a imm
    if !aligned16 va then .trap { cause := .datafault, tval := va } s else cldBody cd va s)

/-- `CST`, R196. -/
def execCst (cs : CReg) (a : XReg) (imm : Word) (s : State) : Host.Outcome State Fault Refusal :=
  finishCtl 16 (guardC [cs] s fun s => guardRegs (xsrc [a] ++ csrc [cs]) s fun s =>
    let va := s.ea a imm
    let bs := (s.me.cipher cs).image
    if !aligned16 va then .trap { cause := .datafault, tval := va } s
    else
      guardWindow [(va, bs.length)] s fun s =>
        match s.writeRangeAt (s.ctxOf s.cur) .write .cop none false va (bs.map fun b => (b, 0xFF)) with
        | (s, some x) => .trap (accTrap x) s
        | (s, none) => .done s)

/-- `CZERO`, R197. -/
def execCzero (cd : CReg) (ks : KsReg) (s : State) : Host.Outcome State Fault Refusal :=
  finishCtl 16 (guardC [cd] s fun s =>
    match s.slot ks.toNat with
    | none => keytag ks.toNat s
    | some k => .done (s.setC cd {
        words := List.replicate (k.n + 1) 0, noise := 0, tag := ks, dim := BitVec.ofNat 10 k.n }))

/-- `CMOV`, R197. -/
def execCmov (cd cs : CReg) (s : State) : Host.Outcome State Fault Refusal :=
  finishCtl 16 (guardC [cd, cs] s fun s => guardRegs (csrc [cs]) s fun s => .done (s.setC cd (s.me.cipher cs)))

/-- `CADD` and `CSUB`, R197. -/
def addBody (cd ca cb : CReg) (f : BitVec 32 → BitVec 32 → BitVec 32) (s : State) : Out :=
  guardC [cd, ca, cb] s fun s =>
    let x := s.me.cipher ca
    let y := s.me.cipher cb
    if x.tag ≠ y.tag ∨ x.dim ≠ y.dim then keytag (x.tag.toNat * 16 + y.tag.toNat) s
    else
      checkedC cd (csrc [ca, cb]) { x with words := List.zipWith f x.words y.words }
        (noiseAdd x.noise.toNat y.noise.toNat) s

/-- `CADD`, R197. -/
def execCadd (cd ca cb : CReg) (s : State) : Host.Outcome State Fault Refusal :=
  finishCtl 16 (addBody cd ca cb (· + ·) s)
/-- `CSUB`, R197. -/
def execCsub (cd ca cb : CReg) (s : State) : Host.Outcome State Fault Refusal :=
  finishCtl 16 (addBody cd ca cb (· - ·) s)

/-- `CNEG`, R197. -/
def execCneg (cd cs : CReg) (s : State) : Host.Outcome State Fault Refusal :=
  finishCtl 16 (guardC [cd, cs] s fun s => guardRegs (csrc [cs]) s fun s =>
    let x := s.me.cipher cs
    .done (s.setC cd { x with words := x.words.map fun w => -w }))

/-- bits(xb + imm, 31, 0) of R197. -/
def State.constC (s : State) (b : XReg) (imm : Word) : BitVec 32 := (s.me.rx b + imm).setWidth 32

/-- `CMULK`, R197. -/
def execCmulk (cd cs : CReg) (b : XReg) (imm : Word) (s : State) : Host.Outcome State Fault Refusal :=
  finishCtl 16 (guardC [cd, cs] s fun s =>
    let x := s.me.cipher cs
    let k := s.constC b imm
    checkedC cd (xsrc [b] ++ csrc [cs]) { x with words := x.words.map fun w => k * w }
      (noiseMul x.noise.toNat k.toInt) s)

/-- Adds a constant to the body, the last word (R22, R197). -/
def Cipher.addBody (c : Cipher) (k : BitVec 32) : Cipher :=
  { c with words := c.words.zipIdx.map fun p => if p.2 + 1 = c.words.length then p.1 + k else p.1 }

/-- `CADDK`, R197. -/
def execCaddk (cd cs : CReg) (b : XReg) (imm : Word) (s : State) : Host.Outcome State Fault Refusal :=
  finishCtl 16 (guardC [cd, cs] s fun s => guardRegs (xsrc [b] ++ csrc [cs]) s fun s =>
    .done (s.setC cd ((s.me.cipher cs).addBody (s.constC b imm))))

/-- `CNOISE`, R197. -/
def execCnoise (d : XReg) (cs : CReg) (s : State) : Host.Outcome State Fault Refusal :=
  finishCtl 16 (guardC [cs] s fun s => guardRegs (csrc [cs]) s fun s =>
    let x := s.me.cipher cs
    .done (s.setX d (wordN (x.noise.toNat + x.tag.toNat * 2 ^ 32 + x.dim.toNat * 2 ^ 36))))

/-- `CNRAISE`, R197. -/
def execCnraise (cd : CReg) (b : XReg) (s : State) : Host.Outcome State Fault Refusal :=
  finishCtl 16 (guardC [cd] s fun s =>
    let x := s.me.cipher cd
    checkedC cd (xsrc [b] ++ csrc [cd]) x (max x.noise.toNat (bitsN (s.me.rx b).toNat 31 0)) s)

/-! ## Droves -/

/-- Starts the open drove on a slot (R203): it queues for its pass. -/
def Cluster.startDrove (c : Cluster) (ks : Nat) : Cluster :=
  match c.droves.find? fun d => d.slot == ks, mapFind c.keys ks with
  | some d, some k => { c with droves := c.droves.filter fun e => e.slot ≠ ks, started := c.started ++ [(d, k)] }
  | _, _ => c

/-- A member joins the open drove on a slot, or a drove of one that it opens; a full drove starts (R203). -/
def Cluster.join (c : Cluster) (ks : Nat) (m : Member) : Cluster :=
  let d := (c.droves.find? fun d => d.slot == ks).getD { slot := ks, count := 1 }
  let d := { d with members := d.members ++ [m], first := some (d.first.getD c.cycle) }
  let c := { c with droves := c.droves.filter (fun e => e.slot ≠ ks) ++ [d] }
  if d.count ≤ d.members.length then c.startDrove ks else c

/-- `DROVE`, R202. -/
def execDrove (ks : KsReg) (count : BitVec 6) (s : State) : Host.Outcome State Fault Refusal :=
  let clu := cluOf s.cur
  let d := (s.cluster clu).droves.find? fun d => d.slot == ks.toNat
  finishCtl 16 (
    if count = 0 then
      .done (match d with
        | some x => if x.members.isEmpty then
            s.modCluster clu fun c => { c with droves := c.droves.filter fun e => e.slot ≠ ks.toNat }
          else s
        | none => s)
    else
      match d with
      | some _ => .wait s
      | none => .done (s.modCluster clu fun c => { c with droves := c.droves ++ [{
          slot := ks.toNat, count := count.toNat, opener := s.me.region.map (·.rcb) }] }))

/-- A task of the region remains placed in the cluster, R202; a child of `TFORK` is part of its caller's task, and a
context that Ciros started holds no task (R358). -/
def State.hasTask (s : State) (clu rcb : Nat) : Bool :=
  s.threads.any fun p => cluOf p.1 == clu && p.2.run != .free && p.2.parent.isNone && !p.2.ciros
    && (p.2.region.map (·.rcb)) == some rcb

/-- Discards the open droves without a member whose opening region has no task left in the cluster, R202. -/
def State.dropDroves (s : State) (clu : Nat) : State :=
  if (s.cluster clu).droves.isEmpty then s
  else
    s.modCluster clu fun c =>
      { c with droves := c.droves.filter fun d =>
          !(d.members.isEmpty && match d.opener with | some r => !s.hasTask clu r | none => false) }

/-- `DROVE_WINDOW_EXPIRY`: 3,500 cycles after the first member joined, the drove starts (R203). -/
def execDroveWindowExpiry (clu : Nat) (ks : KsReg) (s : State) : Host.Outcome State Fault Refusal :=
  let c := s.cluster clu
  match (c.droves.find? fun d => d.slot == ks.toNat).bind (·.first) with
  | some f => .next (if f + 3500 ≤ c.cycle then s.setCluster clu (c.startDrove ks.toNat) else s)
  | none => .next s

/-! ## The refresh, R199 to R201 -/

/-- P of R199. -/
def nttP : Nat := 2 ^ 64 - 2 ^ 32 + 1

/-- b^e mod P, for e below 2^fuel. -/
def powP (b : Nat) : Nat → Nat → Nat
  | 0, _ => 1
  | f + 1, e =>
    let h := powP b f (e / 2)
    let q := h * h % nttP
    if e % 2 = 1 then q * b % nttP else q

/-- ψ of R199. -/
def psi : Nat := powP 7 64 ((nttP - 1) / 4096)

/-- The powers ψ^0 to ψ^4095. -/
def psiPows : Array Nat := (List.range 4095).foldl (fun a _ => a.push (a.back! * psi % nttP)) #[1]

/-- transform(D)_j, R200. -/
def transform (pw : Array Nat) (d : Array Int) : Array Nat :=
  ((List.range 2048).map fun j =>
    ((List.range 2048).foldl (fun (x : Int) m => x + d[m]! * pw[(2 * j + 1) * m % 4096]!) 0 % nttP).toNat).toArray

/-- The inverse transform, each coefficient as the representative of (−P ÷ 2, P ÷ 2), reduced mod 2^32 (R200). -/
def inverse (pw : Array Nat) (x : Array Nat) : Array Nat :=
  let ninv := powP 2048 64 (nttP - 2)
  ((List.range 2048).map fun m =>
    let v := ((List.range 2048).foldl (fun a j => a + x[j]! * pw[(4096 - (2 * j + 1) * m % 4096) % 4096]!) 0 % nttP)
      * ninv % nttP
    wrapI 32 (if 2 * v < nttP then (v : Int) else (v : Int) - nttP)).toArray

/-- X^k times a polynomial mod X^2048 + 1 over t32 words, k below 4,096 (R200). -/
def mulX (k : Nat) (a : Array Nat) : Array Nat :=
  ((List.range 2048).map fun m =>
    let t := (m + 4096 - k) % 4096
    if t < 2048 then a[t]! else (2 ^ 32 - a[t - 2048]!) % 2 ^ 32).toArray

/-- A low signed digit from −1,024 to 1,023. -/
def digit11 (x : Int) : Int := (x + 1024) % 2048 - 1024

/-- The digits δ_0, δ_1, δ_2 of a coefficient, R200. -/
def digits (w t : Nat) : Int :=
  let x := sx 32 w
  let x1 := (x - digit11 x) / 2048
  match t with
  | 0 => digit11 x
  | 1 => digit11 x1
  | _ => (x1 - digit11 x1) / 2048

/-- ext_prod of R200: `key r q j` is the key value of this step. -/
def extProd (pw : Array Nat) (key : Nat → Nat → Nat → Nat) (d : Array Nat × Array Nat) : Array Nat × Array Nat :=
  let ts := (List.range 6).map fun r =>
    transform pw ((if r < 3 then d.1 else d.2).map fun w => digits w (r % 3))
  let part := fun q => inverse pw (((List.range 2048).map fun j =>
    (ts.zipIdx.foldl (fun x t => x + t.1[j]! * key t.2 q j) 0) % nttP).toArray)
  (part 0, part 1)

/-- ms of R200. -/
def modSwitch (x : BitVec 32) : Nat := (x.toNat + 2 ^ 19) / 2 ^ 20 % 4096

/-- T of R200. -/
def testPoly (p : Nat) (entry : Nat → BitVec 32) : Array Nat :=
  let box := 2048 / 2 ^ p
  let half := box / 2
  ((List.range 2048).map fun i =>
    if i < 2048 - half then (entry ((i + half) / box)).toNat else (-(entry 0)).toNat).toArray

/-- Word-wise sum of two polynomials. -/
def polyAdd (a b : Array Nat) : Array Nat := ((List.range 2048).map fun i => (a[i]! + b[i]!) % 2 ^ 32).toArray
/-- Word-wise difference of two polynomials. -/
def polySub (a b : Array Nat) : Array Nat := ((List.range 2048).map fun i => (a[i]! + 2 ^ 32 - b[i]!) % 2 ^ 32).toArray

/-- The blind rotation of R200; a step with at(i) = 0 has d = 0 and changes nothing. -/
def rotate (key : Nat → Nat → Nat → Nat → Nat) (at' : List Nat) (bt : Nat) (t : Array Nat) : Array Nat × Array Nat :=
  let pw := psiPows
  at'.zipIdx.foldl (fun acc p =>
    if p.1 = 0 then acc
    else
      let d := (polySub (mulX p.1 acc.1) acc.1, polySub (mulX p.1 acc.2) acc.2)
      let e := extProd pw (key p.2) d
      (polyAdd acc.1 e.1, polyAdd acc.2 e.2)) (Array.replicate 2048 0, mulX ((4096 - bt) % 4096) t)

/-- Digit j of the balanced ternary form of y, for y mod 3^12 (R200). -/
def balDigit (y : Int) (j : Nat) : Int :=
  match j with
  | 0 => (y + 1) % 3 - 1
  | j + 1 => balDigit ((y - ((y + 1) % 3 - 1)) / 3) j

/-- The key switch of R200: `ksk i j w` is word w of K(i, j). -/
def keySwitch (ksk : Nat → Nat → Nat → Nat) (acc : Array Nat × Array Nat) : List (BitVec 32) :=
  let a' : Nat → Nat := fun j => if j = 0 then acc.1[0]! else (2 ^ 32 - acc.1[2048 - j]!) % 2 ^ 32
  let es := ((List.range 2048).flatMap fun i =>
    let y : Nat := (a' i * 3 ^ 12 + 2 ^ 31) / 2 ^ 32 % 3 ^ 12
    let c : Int := if (3 ^ 12 - 1) / 2 < y then (y : Int) - 3 ^ 12 else y
    (List.range 12).map fun j => (i, j, balDigit c j)).filter fun e => e.2.2 ≠ 0
  (List.range 769).map fun w =>
    let start : Int := if w = 768 then acc.2[0]! else 0
    BitVec.ofInt 32 (es.foldl (fun x e => x - e.2.2 * ksk e.1 e.2.1 w) start)

/-- The words of a refreshed ciphertext, R200. -/
def refresh (bk : Nat → Nat → Nat → Nat → Nat) (ksk : Nat → Nat → Nat → Nat) (m : Member) : List (BitVec 32) :=
  let n := m.src.dim.toNat
  let at' := (m.src.words.take n).map modSwitch
  let bt := modSwitch (m.src.words.getD n 0)
  keySwitch ksk (rotate bk at' bt (testPoly m.p fun i => m.entries.getD i 0))

/-! ## CREF and the passes -/

/-- `CREF`, R200 and R203. -/
def execCref (cd cs : CReg) (tb : TbReg) (ks : KsReg) (s : State) : Host.Outcome State Fault Refusal :=
  finishCtl 16 (guardC [cd, cs] s fun s =>
    let x := s.me.cipher cs
    let w7 := s.me.tbWord tb 7
    let p := w7.toNat % 8
    if x.tag ≠ ks then keytag (x.tag.toNat * 16 + ks.toNat) s
    else
      match s.slot ks.toNat with
      | none => keytag ks.toNat s
      | some k =>
        if x.dim.toNat ≠ k.n then keytag (ks.toNat * 16 + ks.toNat) s
        else if 8 ≤ w7.toNat ∨ p = 0 ∨ p = 7 then illegal (w7.setWidth 64) s
        else
          guardRegs ({ kind := .tb, num := tb.toNat } :: csrc [cs]) s fun s =>
            let m : Member := {
              tid := s.cur, cd := cd.toNat, src := x, p := p,
              entries := (List.range 256).map fun i => s.me.tbWord tb (8 + i) }
            let s := s.modMe fun th => { th with cPend := th.cPend ++ [cd.toNat] }
            .done (s.modCluster (cluOf s.cur) fun c => c.join ks.toNat m))

/-- The failing bytes of a range, each with its offset and cause: a translation or permission fault, or a poisoned byte
(R195, R205). The key address of R205 is taken as that of the failing byte (log 25). -/
def State.rangeFaults (s : State) (ctx : Ctx) (va : Word) (n : Nat) : List (Nat × Cause × Word) :=
  (spanChunks va n).flatMap fun c =>
    match s.xlate ctx .read c.1 with
    | .error e => [((c.1 - va).toNat, e, c.1)]
    | .ok p => (s.poison.filter fun q => q.2 && p.pa < 8 * q.1 + 8 && 8 * q.1 < p.pa + c.2).map fun q =>
        let a := c.1 + wordN (8 * q.1 - p.pa)
        ((a - va).toNat, .memue, a)

/-- The first failing byte of a pass in the order of its stream: the bootstrapping key, then the key-switching key, each
in ascending offset order; of a key that a running stream already brings, the lines begin at the current position, which
the spec does not give, and wrap (R204, R205, R275, log 25). -/
def State.passFault (s : State) (k : KeySlot) (joined : Bool × Bool) : Option (Cause × Word) :=
  let turned := fun (l : List (Nat × Cause × Word)) (pos : Nat) => l.filter (pos ≤ ·.1) ++ l.filter (·.1 < pos)
  let bk := s.rangeFaults k.ctx k.bk bkSize
  let ksk := (s.rangeFaults k.ctx k.ksk kskSize).map fun x => (bkSize + x.1, x.2)
  let pos := Config.pick s.freeIx
  let l := match joined with
    | (true, true) => turned (bk ++ ksk) (pos % (bkSize + kskSize))
    | (true, false) => turned (bk ++ ksk) (pos % bkSize)
    | (false, true) => bk ++ turned ksk (bkSize + pos % kskSize)
    | (false, false) => bk ++ ksk
  l.head?.map (·.2)

/-- The walks of a pass, and its reads of the lines that no running stream brings, on path COP (R225, R280, R296, R352). -/
def State.noteKeyReads (s : State) (k : KeySlot) (joined : Bool × Bool) : State :=
  [(k.bk, bkSize, joined.1), (k.ksk, kskSize, joined.2)].foldl (fun s r =>
    let s := s.noteSpan k.ctx .read r.1 r.2.1
    if r.2.2 then s
    else (s.pieces k.ctx .read r.1 r.2.1).1.foldl (fun s p => s.notePiece (cluOf k.ctx.tid) .cop false p) s) s

/-- The places of a range whose byte is not simply the one that memory lists: what a swap-out has filled (R347), and the
lines whose home has moved (R289). -/
def State.oddPlaces (s : State) (lo hi : Nat) : List Nat :=
  let odd : List (Nat × Nat) :=
    (s.veil.map fun v => (v.1, v.2.1)) ++ s.moved.map fun m => (m.1 * 128, m.2 * 128 + 128)
  odd.flatMap fun r =>
    (List.range (min hi r.2 - max lo r.1)).map (max lo r.1 + ·)

/-- The bytes of a range by their offset, but for the zeros that memory does not list: what the Coppice streams (R204). -/
def State.sparseBytes (s : State) (ctx : Ctx) (va : Word) (n : Nat) : List (Nat × Byte) :=
  (s.pieces ctx .read va n).1.flatMap fun p =>
    let off := fun (a : Nat) => (p.va - va).toNat + (a - p.place.pa)
    ((s.oddPlaces p.place.pa (p.place.pa + p.len)).map fun a => (off a, s.homeByte .cop a))
      ++ (mapRange s.mem p.place.pa (p.place.pa + p.len)).map fun e => (off e.1, e.2)

/-- The physical ranges of the keys of a slot for a cluster, as cluster, first byte and end. -/
def State.keyRanges (s : State) (clu : Nat) (k : KeySlot) : List (Nat × Nat × Nat) :=
  ([(k.bk, bkSize), (k.ksk, kskSize)].flatMap fun r => (s.pieces k.ctx .read r.1 r.2).1).foldl (fun l p =>
    match l with
    | (c, lo, hi) :: r =>
      if hi = p.place.pa then (c, lo, hi + p.len) :: r else (clu, p.place.pa, p.place.pa + p.len) :: l
    | [] => [(clu, p.place.pa, p.place.pa + p.len)]) []

/-- The bytes of both keys of a slot. -/
def State.keyBytes (s : State) (k : KeySlot) : List (Nat × Byte) × List (Nat × Byte) :=
  (s.sparseBytes k.ctx k.bk bkSize, s.sparseBytes k.ctx k.ksk kskSize)

/-- n bytes at an offset of a sparse list. -/
def sparseNat (l : List (Nat × Byte)) (off : Nat) : Nat → Nat
  | 0 => 0
  | n + 1 => (mapGet memDefault l off).toNat + 256 * sparseNat l (off + 1) n

/-- A value of the bootstrapping key, R199. -/
def bkAt (l : List (Nat × Byte)) (i r q j : Nat) : Nat := sparseNat l (8 * (((i * 6 + r) * 2 + q) * 2048 + j)) 8

/-- A word of the key-switching key, R199. -/
def kskAt (l : List (Nat × Byte)) (i j w : Nat) : Nat := sparseNat l (4 * ((i * 12 + j) * 769 + w)) 4

/-- A key stream: the bootstrapping-key address, in its address space (R276). The spec compares addresses and does not say
whether equal ones of two spaces are one stream; they are two here (log 25). -/
def KeySlot.stream (k : KeySlot) : Nat × Word := (k.ctx.root, k.bk)

/-- The stream of the key-switching key, R275. -/
def KeySlot.kskStream (k : KeySlot) : Nat × Word := (k.ctx.root, k.ksk)

/-- The slots of the running passes of a die. -/
def State.passes (s : State) (d : DieId) : List KeySlot :=
  s.clusters.filterMap fun c => if dieOf c.1 = d then c.2.running.map (·.2.1) else none

/-- The key streams of the running passes of a die. -/
def State.streams (s : State) (d : DieId) : List (Nat × Word) := ((s.passes d).map KeySlot.stream).eraseDups

/-- The keys of a slot that running passes of a die already stream: the bootstrapping key and the key-switching key, each by
its own address (R204, R275). -/
def State.joins (s : State) (d : DieId) (k : KeySlot) : Bool × Bool :=
  ((s.passes d).any fun p => p.stream == k.stream, (s.passes d).any fun p => p.kskStream == k.kskStream)

/-- A die streams keys for at most four bootstrapping-key addresses at once, R276. -/
def State.admits (s : State) (clu : Nat) (k : KeySlot) : Bool :=
  (s.streams (dieOf clu)).contains k.stream || (s.streams (dieOf clu)).length < 4

/-- `COPPICE_PASS_RUN`: the first started drove begins its pass when no other of the cluster runs and its key stream
is admitted (R203, R274, R276). -/
def execCoppicePassRun (clu : Nat) (s : State) : Host.Outcome State Fault Refusal :=
  let c := s.cluster clu
  match c.running, c.started with
  | none, d :: r =>
    .next (if s.admits clu d.2 then
        let joined := s.joins (dieOf clu) d.2
        let s := s.setCluster clu { c with started := r, running := some (d.1, d.2, c.cycle), joined := joined }
        { s with keyAt := s.keyAt ++ s.keyRanges clu d.2, keyHit := s.keyHit.filter (· ≠ clu) }
      else s)
  | _, _ => .next s

/-- Cycles of a pass with m members, R203. -/
def passCycles (m : Nat) : Nat := max 131250 (10775 * m)

/-- A failed pass: the destination stays as it was and stops being pending, and the cause waits there (R205). -/
def State.failMember (s : State) (m : Member) (x : Cause × Word) : State :=
  s.modThread m.tid fun th =>
    { th with cPend := th.cPend.filter (· ≠ m.cd), cFail := th.cFail ++ [(m.cd, x)] }

/-- A member's destination at the end of its pass (R200, R203). -/
def State.endMember (s : State) (m : Member) (words : List (BitVec 32)) (k : KeySlot) : State :=
  s.modThread m.tid fun th =>
    { th with
      c := mapSet th.c m.cd { words := words, noise := k.fresh, tag := m.src.tag, dim := m.src.dim },
      cPend := th.cPend.filter (· ≠ m.cd) }.clearErr .c m.cd

/-- The path classes on which a pass reads its keys, R225. -/
def State.keyPaths (s : State) (k : KeySlot) : List Path :=
  ([(k.bk, bkSize), (k.ksk, kskSize)].flatMap fun r =>
    (s.pieces k.ctx .read r.1 r.2).1.map fun p => s.pathAt .cop p.place.pa).eraseDups

/-- The writes that a `HEDGE` of a member's thread puts before the key reads are performed first (R233). -/
def State.beforeKeys (s : State) (k : KeySlot) (ms : List Member) : State :=
  let ps := s.keyPaths k
  ms.foldl (fun s m => ps.foldl (fun s p => s.before m.tid p) s) s

/-- Every mask word of a member's source is zero: its result depends on no key (R201). -/
def Member.trivial (m : Member) : Bool := (m.src.words.take m.src.dim.toNat).all (· == 0)

/-- `COPPICE_PASS_END`: the pass has run its cycles (R203). A fault on a key line fails every member (R205); keys that
software changes while the pass runs leave the words of a member free that is not trivial (R195, R201, log 25). -/
def execCoppicePassEnd (clu : Nat) (s : State) : Host.Outcome State Fault Refusal :=
  let c := s.cluster clu
  match c.running with
  | none => .next s
  | some (d, k, start) =>
    if c.cycle < start + passCycles d.members.length then .next s
    else
      let changed := s.keyHit.contains clu
      let s := s.setCluster clu { c with running := none }
      let s := { s with keyAt := s.keyAt.filter (·.1 ≠ clu), keyHit := s.keyHit.filter (· ≠ clu) }
      let s := (s.beforeKeys k d.members).noteKeyReads k c.joined
      match s.passFault k c.joined with
      | some x => .next (d.members.foldl (fun s m => s.failMember m x) { s with freeIx := s.freeIx + 1 })
      | none =>
        let keys := s.keyBytes k
        let s := d.members.foldl (fun s m =>
          if !changed || m.trivial then s.endMember m (refresh (bkAt keys.1) (kskAt keys.2) m) k
          else
            { s with freeIx := s.freeIx + 769 }.endMember m
              ((List.range 769).map fun i => Config.freeT32 (s.freeIx + i)) k) s
        .next (s.tookBytes.count clu 3 d.members.length)

end Sys2Proof.Machine
end

