-- ==== Sys2Proof/Machine/Control.lean ====
section
/-!
DEFINITION. Flow control (R101 to R108, R110, R111).
-/
namespace Sys2Proof.Machine

/-- Ends the thread's turn at the vector sequencer, R330. -/
def State.endTurn (s : State) : State :=
  if (s.core (coreOf s.cur)).turn.contains s.cur then
    s.modCore (coreOf s.cur) fun c => { c with turn := c.turn.filter (· ≠ s.cur) }
  else s

/-- Takes a pending grant, at a `STRIP` or `SETVL` that produces a vl (R11, R331). -/
def State.takeGrant (s : State) : State :=
  match s.me.pendGrant with
  | some g => s.regrant s.cur g
  | none => s

/-- vl := grant(n) under the grant in force, R60 and R107. -/
def Thread.setVl (th : Thread) (n : Nat) : Thread :=
  { th with vl := grantVl th.mvl (vtBlk th.vtype) n }.clearErr .special 0

/-- A relative branch, R101. -/
def branch (srcs : List XReg) (taken : State → Bool) (off : Word) (s : State) : Out :=
  guardRegs (xsrc srcs) s fun s => if taken s then .goto (s.me.pc + off) s else .done s

/-- Pushes the return address and vsw and transfers control, R103. -/
def callTo (t : Word) (s : State) : Out :=
  if !aligned16 t then .trap { cause := .fetchfault, tval := t } s
  else
    let sp := s.me.rx 2 - 16
    if !aligned16 (s.me.rx 2) then .trap { cause := .datafault, tval := sp } s
    else
      match s.store .ct false sp 8 (s.me.pc + 16).toNat with
      | (s, some e) => .trap (accTrap e) s
      | (s, none) =>
        match s.store .ct false (sp + 8) 8 s.me.vsw.toNat with
        | (s, some e) => .trap (accTrap e) s
        | (s, none) => .goto t ((s.setX 2 sp).setX 1 (s.me.pc + 16))

/-- `NOP`, R102. -/
def execNop (s : State) : Host.Outcome State Fault Refusal := finishCtl 16 (.done s)
/-- `BR`, R101. -/
def execBr (off : Word) (s : State) : Host.Outcome State Fault Refusal :=
  finishCtl 16 (branch [] (fun _ => true) off s)
/-- `B.cc`, R101. -/
def execBcc (cc : ICond) (a b : XReg) (off : Word) (s : State) : Host.Outcome State Fault Refusal :=
  finishCtl 16 (branch [a, b] (fun s => condX cc (s.me.rx a) (s.me.rx b)) off s)
/-- `BZ`, R101. -/
def execBz (a : XReg) (off : Word) (s : State) : Host.Outcome State Fault Refusal :=
  finishCtl 16 (branch [a] (fun s => s.me.rx a == 0) off s)
/-- `BNZ`, R101. -/
def execBnz (a : XReg) (off : Word) (s : State) : Host.Outcome State Fault Refusal :=
  finishCtl 16 (branch [a] (fun s => s.me.rx a != 0) off s)
/-- `CALL`, R103. -/
def execCall (off : Word) (s : State) : Host.Outcome State Fault Refusal :=
  finishCtl 16 (guardVA s fun s => guardRegs (xsrc [2] ++ vspec) s fun s => callTo (s.me.pc + off) s)
/-- `CALLR`, R103. -/
def execCallr (a : XReg) (s : State) : Host.Outcome State Fault Refusal :=
  finishCtl 16 (guardVA s fun s => guardRegs (xsrc [a, 2] ++ vspec) s fun s => callTo (s.me.rx a) s)

/-- `RET`, R104. -/
def retBody (s : State) : Out :=
  let sp := s.me.rx 2
  if !aligned16 sp then .trap { cause := .datafault, tval := sp } s
  else
    match s.load .ct sp 8 with
    | (s, .error e) => .trap (accTrap e) s
    | (s, .ok ra) =>
      match s.load .ct (sp + 8) 8 with
      | (s, .error e) => .trap (accTrap e) s
      | (s, .ok v) =>
        if !aligned16 (wordN ra) then .trap { cause := .fetchfault, tval := wordN ra } s
        else if !legalVsw (wordN v) then illegal (wordN v) s
        else .goto (wordN ra) ((s.modMe fun th => (th.setVsw (wordN v)).clearSpec [0, 1, 7]).setX 2 (sp + 16))

/-- `RET`, R104. -/
def execRet (s : State) : Host.Outcome State Fault Refusal :=
  finishCtl 16 (guardVA s fun s => guardRegs (xsrc [2] ++ spsrc [5]) s retBody)

/-- `JMPR`, R105. -/
def execJmpr (a : XReg) (s : State) : Host.Outcome State Fault Refusal :=
  finishCtl 16 (guardRegs (xsrc [a]) s fun s =>
    if aligned16 (s.me.rx a) then .goto (s.me.rx a) s
    else .trap { cause := .fetchfault, tval := s.me.rx a } s)

/-- `JTAB`, R106. -/
def jtabBody (a b c : XReg) (off : Word) (s : State) : Out :=
  if (s.me.rx c).toNat ≤ (s.me.rx a).toNat then .goto (s.me.pc + off) s
  else
    let ea := s.me.rx b + 8 * s.me.rx a
    if !alignedTo 8 ea then .trap { cause := .datafault, tval := ea } s
    else
      match s.load .ct ea 8 with
      | (s, .error e) => .trap { cause := e.1, tval := ea } s
      | (s, .ok t) =>
        if aligned16 (wordN t) then .goto (wordN t) s else .trap { cause := .fetchfault, tval := wordN t } s

/-- `JTAB`, R106. -/
def execJtab (a b c : XReg) (off : Word) (s : State) : Host.Outcome State Fault Refusal :=
  finishCtl 16 (guardRegs (xsrc [a, b, c]) s (jtabBody a b c off))

/-- `SETVL`, R107. -/
def execSetvl (d a : XReg) (s : State) : Host.Outcome State Fault Refusal :=
  finishCtl 16 (guardVA s fun s => guardRegs (xsrc [a] ++ spsrc [1, 5]) s fun s =>
    let s := s.takeGrant.modMe fun th => th.setVl (th.rx a).toNat
    .done ((s.setX d (wordN s.me.vl)).endTurn))

/-- `YIELD`, R110. -/
def execYieldTurn (s : State) : Host.Outcome State Fault Refusal := finishCtl 16 (.done s.endTurn)
/-- `BRK`, R111. -/
def execBrk (imm : Word) (s : State) : Host.Outcome State Fault Refusal :=
  finishCtl 16 (.trap { cause := .brk, tval := imm } s)
/-- `TRAP`, R111. -/
def execTrap (imm : Word) (s : State) : Host.Outcome State Fault Refusal :=
  finishCtl 16 (.trap { cause := .trap, tval := imm } s)

/-- Advances one pointer of a `STRIP`, R108. -/
def Thread.advance (th : Thread) (n : Nat) (p : XReg) (sc : BitVec 8) : Thread :=
  if p = 0 then th else th.setX p (th.rx p + wordI (n * sc.toInt))

/-- The physical addresses of the lines of a range, in ascending order, up to the first page without a cached
translation or outside HBM4 (R293). -/
def State.hintLines (s : State) (ctx : Ctx) : List (Word × Nat) → List Nat
  | [] => []
  | c :: cs =>
    match tlbFind ((s.core (coreOf ctx.tid)).tlb ++ (s.cluster (cluOf ctx.tid)).tlb) ctx.asid c.1.toNat with
    | none => []
    | some t =>
      let pa := bitsN t.entry.toNat 51 8 * 256 + c.1.toNat % 2 ^ t.log
      if inWindow c.1.toNat ∨ s.physRow pa ≠ .hbm then []
      else ((List.range ((pa + c.2 - 1) / 128 - pa / 128 + 1)).map fun i => (pa / 128 + i) * 128) ++ s.hintLines ctx cs

/-- The row-activate hints of one pointer of a `STRIP`: at most 32 distinct rows of the range that the next strip
takes, from the pointer on; only banks of the dies change (R293, R294). -/
def State.hint (s : State) (p : XReg) (sc : BitVec 8) : State :=
  let n : Int := s.me.vl * sc.toInt
  if p = 0 ∨ n = 0 then s
  else
    let lo := if 0 < n then s.me.rx p else s.me.rx p + wordI n
    let rows := ((s.hintLines (s.ctxOf s.cur) (spanChunks lo n.natAbs)).map s.dramRow).eraseDups
    let t := (rows.take 32).foldl (fun s r => s.activate (if r.1 < 128 then .a else .b) (r.1 % 128) r.2.1 r.2.2) s
    { s with dieA := t.dieA, dieB := t.dieB }

/-- `STRIP`, R108. A pending grant is taken where the strip produces a vl (R11); where it branches back, the load-store
unit sends its row hints (R293). -/
def execStrip (d p0 p1 p2 p3 : XReg) (s0 s1 s2 s3 : BitVec 8) (off : Word) (s : State) :
    Host.Outcome State Fault Refusal :=
  finishCtl 32 (guardVA s fun s => guardRegs (xsrc [d, p0, p1, p2, p3] ++ spsrc [0, 1, 5]) s fun s =>
    let n := s.me.vl
    let x := s.me.rx d - wordN n
    let s := s.modMe fun th =>
      ((((th.setX d x).advance n p0 s0).advance n p1 s1).advance n p2 s2).advance n p3 s3
    if 0 < sval x then
      let s := s.takeGrant.modMe fun th => th.setVl x.toNat
      let s := (((s.hint p0 s0).hint p1 s1).hint p2 s2).hint p3 s3
      .goto (s.me.pc + off) s.endTurn
    else .done s.endTurn)

end Sys2Proof.Machine
end

