-- ==== Sys2Proof/Machine/Claims.lean ====
section
/-!
DEFINITION. Reserving loops: `RLOPEN`, `CLAIM`, `CLAIMDONE`, `RLCLOSE`, the Fold and the Shepherd's answer (R208 to
R212, R304 to R312).
-/
namespace Sys2Proof.Machine

/-- rlstate as a word, R208. -/
def RlState.word (r : RlState) : Word :=
  wordN (r.wave % 2 ^ 32 * 2 ^ 32 + r.cnt % 64 * 2 ^ 16 + r.g % 16 * 2 ^ 8 + (if r.posted then 2 else 0)
    + (if r.isOpen then 1 else 0))

/-- CLAIMSEQ of the issuing thread; tval is rlstate (R333). -/
def claimseq (s : State) : Out := .trap { cause := .claimseq, tval := s.me.rl.word } s

/-- The participants that have not left, R208. -/
def Fold.active (f : Fold) : List Nat := f.left.foldl List.erase f.joined

/-- Closes the wave when every participant has joined and each that has not left has posted: the answer is due 40 +
ceil(m ÷ 32) cycles later (R210). -/
def Fold.close (f : Fold) (cycle : Nat) : Fold :=
  if f.isOpen && f.due.isNone && f.joined.length == f.c && !f.active.isEmpty
      && f.active.all fun t => f.posted.contains t
  then { f with due := some (cycle + 40 + cdiv f.posts.length 32) }
  else f

/-- Changes the Fold of a cluster, and closes the wave where that completes it. -/
def State.modFold (s : State) (clu : Nat) (g : Fold → Fold) : State :=
  s.modCluster clu fun c => { c with fold := (g c.fold).close c.cycle }

/-- A participant leaves (R312): its open post and its answer are dropped, and the loop ends with its last participant
(R212). -/
def Fold.leave (f : Fold) (tid : Nat) : Fold :=
  let left := f.left ++ [tid]
  let g := { f with
    left := left, answers := mapErase f.answers tid,
    posts := if f.due.isNone then f.posts.filter fun p => p.tid != tid else f.posts,
    posted := f.posted.filter (· != tid) }
  if g.active.isEmpty then {} else g

/-- The thread leaves its loop; rlstate is clear outside a loop. -/
def State.leaveLoop (s : State) (tid : Nat) : State :=
  (s.modThread tid fun th => { th with rl := {} }).modFold (cluOf tid) fun f => f.leave tid

/-- `RLOPEN`, R208. -/
def rlopenBody (a : XReg) (c : Word) (g : Nat) (s : State) : Out :=
  let f := (s.cluster (cluOf s.cur)).fold
  let join := fun (f : Fold) => (s.modMe fun th =>
      { th with rl := { isOpen := true, g := g, cnt := c.toNat, wave := f.wave } }).modFold (cluOf s.cur) fun _ =>
    { f with joined := f.joined ++ [s.cur] }
  if c = 0 ∨ 32 < c.toNat ∨ s.me.rl.isOpen then illegal c s
  else if g < 2 ∨ 12 < g then illegal (wordN g) s
  else if f.isOpen ∧ f.joined.length < f.c ∧ (f.c ≠ c.toNat ∨ f.g ≠ g) then claimseq s
  else
    guardRegs (xsrc [a]) s fun _ =>
      if !f.isOpen then .done (join { isOpen := true, c := c.toNat, g := g })
      else if f.c ≤ f.joined.length then .wait s
      else .done (join f)

/-- `RLOPEN`, R208. -/
def execRlopen (a : XReg) (g : BitVec 4) (s : State) : Host.Outcome State Fault Refusal :=
  finishCtl 16 (rlopenBody a (s.me.rx a) g.toNat s)

/-- Writes a held answer into md under the mask and vl in force, R209 and R309. -/
def deliver (md : MReg) (mk : Option MReg) (a : Answer) (s : State) : State :=
  let es := (List.range s.me.vl).filter fun e => s.me.active mk e && a.posted.contains e
  let s := s.modMe fun th => th.setMbits md (es.map fun e => (e, a.admitted.contains e))
  s.modFold (cluOf s.cur) fun f => { f with answers := mapErase f.answers s.cur }

/-- The claims of a `CLAIM`, R209: item, signature, element. -/
def Thread.claims (th : Thread) (tid : Nat) (va : VReg) (base : Word) (es : List Nat) : List Post :=
  es.map fun e =>
    { item := base + wordN e, tid := tid, elem := e, sig := sig (wordN (th.elem va 64 e)) th.rl.g }

/-- Posts a `CLAIM`, R209 and R306; the answer is still to come. -/
def postClaim (va : VReg) (b : XReg) (mk : Option MReg) (s : State) : Out :=
  guardRegs (vspec ++ xsrc [b] ++ s.me.maskSrc mk) s fun s =>
    let es := (List.range s.me.vl).filter fun e => s.me.active mk e
    guardVec [(va, 64, s.me.vl)] (fun _ => es.map fun e => (e, [(va, 64, e)])) s fun s =>
      match es.find? fun e => bitsN (s.me.elem va 64 e) 63 56 != 0 with
      | some e => .trap { cause := .datafault, tval := wordN (s.me.elem va 64 e), telem := wordN e } s
      | none =>
        .wait (s.modFold (cluOf s.cur) fun f =>
          { f with posts := f.posts ++ s.me.claims s.cur va (s.me.rx b) es, posted := f.posted ++ [s.cur] })

/-- `CLAIM`, R209 and R309: while its post stands it waits for the answer, and a held answer is written. -/
def claimBody (md : MReg) (va : VReg) (b : XReg) (mk : Option MReg) (s : State) : Out :=
  let f := (s.cluster (cluOf s.cur)).fold
  if !s.me.regOk va 64 then illegalWord (.claim md va b mk) s
  else if !s.me.rl.isOpen then claimseq s
  else
    match mapFind f.answers s.cur with
    | some a => guardRegs (vspec ++ s.me.maskSrc mk) s fun s => .done (deliver md mk a s)
    | none =>
      if f.posted.contains s.cur then .wait s
      else if s.me.rl.posted then claimseq s
      else postClaim va b mk s

/-- `CLAIM`, R209. -/
def execClaim (md : MReg) (va : VReg) (b : XReg) (mk : Option MReg) (s : State) : Host.Outcome State Fault Refusal :=
  finishCtl 16 (guardVA s (claimBody md va b mk))

/-- The thread holds an answer that no `CLAIM` has written, R309. -/
def State.undelivered (s : State) (tid : Nat) : Bool :=
  (mapFind (s.cluster (cluOf tid)).fold.answers tid).isSome

/-- The effect of a `CLAIMDONE`: earlier writes on CT and VLS are performed, and posted clears (R212). -/
def State.claimDone (s : State) (tid : Nat) : State :=
  (s.drain tid fencedPath).modThread tid fun th => { th with rl := { th.rl with posted := false } }

/-- `CLAIMDONE`, R212 and R309. -/
def execClaimdone (s : State) : Host.Outcome State Fault Refusal :=
  finishCtl 16 (if !s.me.rl.posted || s.undelivered s.cur then claimseq s else .done (s.claimDone s.cur))

/-- `RLCLOSE`, R212 and R309. -/
def execRlclose (s : State) : Host.Outcome State Fault Refusal :=
  finishCtl 16
    (if !s.me.rl.isOpen then claimseq s
    else if !s.me.rl.posted then .done (s.leaveLoop s.cur)
    else if s.undelivered s.cur then claimseq s
    else .done ((s.claimDone s.cur).leaveLoop s.cur))

/-! ## The Shepherd's answer -/

/-- Claim p comes before claim q: by item, then tid, then element (R210). -/
def Post.before (p q : Post) : Bool :=
  p.item.toNat < q.item.toNat || (p.item == q.item && (p.tid < q.tid || (p.tid == q.tid && p.elem < q.elem)))

/-- Inserts a claim in order. -/
def insertPost (p : Post) : List Post → List Post
  | [] => [p]
  | q :: r => if p.before q then p :: q :: r else q :: insertPost p r

/-- The claims of a wave in the order of R210. -/
def sortPosts (ps : List Post) : List Post := ps.foldr insertPost []

/-- The admitted claims among the first n of a sorted list, R210. -/
def admitPosts : Nat → List Nat → List Post → List Post
  | 0, _, _ => []
  | _, _, [] => []
  | n + 1, taken, p :: r =>
    if taken.contains p.sig then admitPosts n taken r else p :: admitPosts n (p.sig :: taken) r

/-- The answer of a wave to one participant. -/
def answerOf (ps adm : List Post) (tid : Nat) : Answer where
  posted := (ps.filter fun p => p.tid == tid).map (·.elem)
  admitted := (adm.filter fun p => p.tid == tid).map (·.elem)

/-- The Shepherd answers a closed wave, R210: at most 4,096 claims are considered. -/
def State.answerWave (s : State) (clu : Nat) : State :=
  let f := (s.cluster clu).fold
  let adm := admitPosts 4096 [] (sortPosts f.posts)
  let wave := (f.wave + 1) % 2 ^ 32
  let s := f.active.foldl (fun s t => s.modThread t fun th =>
    { th with rl := { th.rl with posted := true, wave := wave } }) s
  let s := s.modFold clu fun f =>
    { f with posts := [], posted := [], due := none, wave := wave,
             answers := mapSetAll f.answers (f.active.map fun t => (t, answerOf f.posts adm t)) }
  (s.count clu 4 1).count clu 5 (f.posts.length - adm.length)

/-- `WAVE_ANSWER`: at the cycle at which a closed wave's answer is due (R210). -/
def execWaveAnswer (clu : Nat) (s : State) : Host.Outcome State Fault Refusal :=
  let c := s.cluster clu
  match c.fold.due with
  | some d => if d ≤ c.cycle then .next (s.answerWave clu) else .next s
  | none => .next s

end Sys2Proof.Machine
end

