-- ==== Sys2Proof/Machine/Domain.lean ====
section
/-!
DEFINITION. Launch lists, which the scheduler and device code share in memory (R317). Their words are read and written at
the coherence point by physical address.
-/
namespace Sys2Proof.Machine

/-- Tail of a region's launch list, R315. -/
def State.listTail (s : State) (r : Region) : Nat := s.physWord (r.rcb + 64)
/-- Head of a region's launch list, R315. -/
def State.listHead (s : State) (r : Region) : Nat := s.physWord (r.rcb + 72)
/-- Physical address of the slot of packet number j, R317. -/
def Region.slotAt (r : Region) (j : Nat) : Nat := r.listBase + j % 2 ^ r.listLog * 128

/-- The list has a free slot, R317. -/
def State.listRoom (s : State) (r : Region) : Bool :=
  (s.listTail r + 2 ^ 64 - s.listHead r) % 2 ^ 64 < 2 ^ r.listLog

/-- A write by physical address on a path of a cluster, with its line access (R225, R280). -/
def State.listPut (s : State) (who : Party) (clu : Nat) (path : Path) (pa : Nat) (bs : List Byte) : State :=
  let put := listWrite pa bs
  ((s.writePhys who put).notePut path (put.map (·.1))).notePiece clu path true
    { va := wordN pa, place := { pa := pa, cached := true, log := 16 }, len := bs.length }

/-- Appends a packet of 128 bytes, R317: the tail, bytes 8 to 127, then the seq word. -/
def State.append (s : State) (who : Party) (clu : Nat) (path : Path) (r : Region) (pkt : List Byte) : State :=
  let j := s.listTail r
  let pa := r.slotAt j
  let s := s.listPut who clu path (r.rcb + 64) (leBytes 8 ((j + 1) % 2 ^ 64))
  let s := s.listPut who clu path (pa + 8) ((pkt.drop 8).take 120)
  s.listPut who clu path pa (leBytes 8 j)

end Sys2Proof.Machine
end

