-- ==== Sys2Proof/Machine/Copy.lean ====
section
/-!
DEFINITION. Copy engines, the dependence graph, the range checker, the slice queues that copies pass (R218 to R221,
R290, R299 to R301), and rings (R213, R214, R281, R302, R303).
-/
namespace Sys2Proof.Machine

/-! ## Rings -/

/-- Bytes of a slot, R213. -/
def Ring.slotSize (r : Ring) : Nat := r.ss * 128
/-- Slots of a ring, R213. -/
def Ring.slotCount (r : Ring) : Nat := r.nb * 1024 / r.ss
/-- Offset in the window of the slot of push number j, R213. -/
def Ring.slotOff (r : Ring) (j : Nat) : Nat := r.bank * 2 ^ 17 + j % r.slotCount * r.slotSize
/-- Every cursor has passed the next slot, R214. -/
def Ring.room (r : Ring) : Bool := r.cursors.all fun c => r.push < c + r.slotCount
/-- A ring of a cluster. -/
def Cluster.ring (c : Cluster) (q : Nat) : Option Ring := mapFind c.rings q
/-- Key of a byte of a cluster's SRAM. -/
def sramAt (clu off : Nat) : Nat := sramBase + clu * sramSize + off

/-- Writes the next slot and publishes it, R214. -/
def State.pushSlot (s : State) (who : Party) (clu q : Nat) (r : Ring) (bs : List Byte) : State :=
  let put := listWrite (sramAt clu (r.slotOff r.push)) bs
  let s := (s.performBytes who put).notePut .cpy (put.map (·.1))
  s.modCluster clu fun c => { c with rings := mapSet c.rings q { r with push := r.push + 1 } }

/-! ## Nodes -/

/-- Changes a node of a core. -/
def State.modNode (s : State) (core ord : Nat) (f : Node → Node) : State :=
  s.modCore core fun c =>
    match mapFind c.nodes ord with
    | some n => { c with nodes := mapSet c.nodes ord (f n) }
    | none => c

/-- A node waits or runs, R218. -/
def Node.live (n : Node) : Bool :=
  match n.st with
  | .failed .. => false
  | _ => true

/-- The ordinal has been given to a node of the core, R218. -/
def CoreState.created (c : CoreState) (ord : Nat) : Bool := ord != 0 && ord < 2 ^ 32 && ord < c.nextOrd

/-- The ordinal that an id names, when it is an id of this core whose node has been created (R218, R219). -/
def State.ordOf (s : State) (id : Word) : Option Nat :=
  let core := coreOf s.cur
  let ord := bitsN id.toNat 31 0
  if bitsN id.toNat 63 32 = core && (s.core core).created ord then some ord else none

/-- The nodes that a set of nodes leads to through the graph, itself included. -/
def reachable (ns : List (Nat × Node)) : Nat → List Nat → List Nat
  | 0, l => l
  | f + 1, l =>
    reachable ns f (l ++ l.flatMap fun o => ((mapFind ns o).map (·.succs)).getD []).eraseDups

/-- Some thread of the core waits in a `GWAIT` on one of the nodes. -/
def State.gwaited (s : State) (core : Nat) (ords : List Nat) : Bool :=
  (List.range 4).any fun k =>
    match (s.thread (4 * core + k)).holds with
    | .node o => ords.contains o
    | _ => false

/-- Id of a node, R218. -/
def nodeId (core ord : Nat) : Word := wordN (core * 2 ^ 32 + ord)

/-- Marks a node failed, and writes the event of a failure that no `GWAIT` waits for (R220, R329). -/
def State.markFailed (s : State) (x : Cause × Word) (core ord : Nat) : State :=
  match mapFind (s.core core).nodes ord with
  | none => s
  | some n =>
    let seen := s.gwaited core (reachable (s.core core).nodes 256 [ord])
    let s := s.modNode core ord fun n => { n with st := .failed x.1 x.2, rows := [], todo := [], out := [], data := [] }
    match n.region with
    | some r => if seen then s else s.faultEvent r .nodeFailure (nodeId core ord).toNat x.2
    | none => s

/-- A node fails, and with it every live node that it leads to (R220). -/
def State.failNode (s : State) (x : Cause × Word) (core ord : Nat) : State :=
  let ns := (s.core core).nodes
  ((reachable ns 256 [ord]).filter fun o => ((mapFind ns o).map (·.live)).getD false).foldl
    (fun s o => s.markFailed x core o) s

/-- A node finishes: it is no longer listed, and its successors have one predecessor less (R218). -/
def State.finishNode (s : State) (core ord : Nat) : State :=
  match mapFind (s.core core).nodes ord with
  | none => s
  | some n =>
    let s := s.modCore core fun c => { c with nodes := mapErase c.nodes ord }
    n.succs.foldl (fun s o => s.modNode core o fun n => { n with preds := n.preds - 1 }) s

/-! ## The range checker, R221 -/

/-- A range clipped to the cluster-local window. -/
def clipWin (lo hi : Int) : Option (Int × Int) :=
  let a := max lo winBase
  let b := min hi (winBase + sramSize : Nat)
  if a < b then some (a, b) else none

/-- The hull of n rows of a length from a base at a stride. -/
def rowHull (base : Word) (n len : Nat) (stride : Int) : Option (Int × Int) :=
  if n = 0 then none
  else
    let a : Int := base.toNat
    let z := a + (n - 1 : Nat) * stride
    clipWin (min a z) (max a z + len)

/-- Hulls of source and destination in the window, R221. The destination of a ring copy is taken as the whole range of the
ring's banks (log 49). -/
def Node.hulls (n : Node) (c : Cluster) : Option (Int × Int) × Option (Int × Int) :=
  let ringHull := (n.ring.bind c.ring).bind fun r =>
    clipWin (winBase + r.bank * 2 ^ 17 : Nat) (winBase + (r.bank + r.nb) * 2 ^ 17 : Nat)
  let p := match n.op with
    | .cpy d a len => (rowHull a 1 len 0, rowHull d 1 len 0)
    | .cpy2d d a rows len ds ss => (rowHull a rows len ss.toInt, rowHull d rows len ds.toInt)
    | .cpyg d _ items size _ _ => (clipWin winBase (winBase + sramSize : Nat), rowHull d 1 (items * size) 0)
    | .gnode _ => (none, none)
  if n.ring.isSome then (p.1, ringHull) else p

/-- Two hulls overlap. -/
def hullsMeet (a b : Option (Int × Int)) : Bool :=
  match a, b with
  | some x, some y => x.1 < y.2 && y.1 < x.2
  | _, _ => false

/-- Two commands conflict, R221. -/
def conflicts (c : Cluster) (m n : Node) : Bool :=
  let a := m.hulls c
  let b := n.hulls c
  hullsMeet a.2 b.1 || hullsMeet a.2 b.2 || hullsMeet b.2 a.1

/-- An earlier unfinished node of the core holds this one back: it conflicts, and the graph does not order this one
before it (R221). -/
def State.heldBack (s : State) (core ord : Nat) (n : Node) : Bool :=
  let ns := (s.core core).nodes
  let after := reachable ns 256 [ord]
  ns.any fun p => p.2.seq < n.seq && p.2.live && conflicts (s.cluster (core / 8)) p.2 n && !after.contains p.1

/-! ## Line reads, slice queues and slots: R290 and R299 to R301 -/

/-- Row of a line read. -/
def CopyPart.row (p : CopyPart) : Nat := p.ix / 2 ^ 64
/-- Physical address of the line. -/
def CopyPart.line (p : CopyPart) : Nat := p.piece.place.pa / 128 * 128

/-- The node is a copy that runs, every source byte of which has returned. -/
def Node.allRead (n : Node) : Bool := n.copying && n.todo.isEmpty && n.out.isEmpty

/-- The bytes of row j that have returned. -/
def Node.rowData (n : Node) (j : Nat) : List Byte :=
  (mapRange n.data (j * 2 ^ 64) ((j + 1) * 2 ^ 64)).flatMap (·.2)

/-- Row of the first fault of a copy's reads; without one, the number of its rows. -/
def Node.badRow (n : Node) : Nat :=
  match n.bad with
  | some b => b.1 / 2 ^ 64
  | none => n.rows.length

/-- Length of the rows of a copy, which are all alike (R218). -/
def Node.rowLen (n : Node) : Nat := (n.rows.head?.map (·.2)).getD 0

/-- The last bytes of row j returned in an earlier cycle, and no read of a row up to it has failed (R301). -/
def Node.passes (n : Node) (j now : Nat) : Bool :=
  decide (j < n.badRow) && match mapFind n.whole j with
    | some c => c < now
    | none => false

/-- A ring-destination node publishes, in order, the slots whose row has returned, while the ring has room (R214, R301). -/
def State.publish (s : State) (core ord : Nat) : Nat → State
  | 0 => s
  | f + 1 =>
    match mapFind (s.core core).nodes ord with
    | some n =>
      match n.ring.bind fun q => ((s.cluster (core / 8)).ring q).map fun r => (q, r) with
      | some (q, r) =>
        let k := n.slots.length * r.slotSize
        if n.passes (k / n.rowLen) s.fab && r.room then
          let bs := ((n.rowData (k / n.rowLen)).drop (k % n.rowLen)).take r.slotSize
          let s := s.pushSlot (.core core) (core / 8) q r bs
          (s.modNode core ord fun n => { n with slots := n.slots ++ [r.push] }).publish core ord f
        else s
      | none => s
    | none => s

/-- Publishes for one node. -/
def State.publishNode (s : State) (core ord : Nat) (n : Node) : State :=
  match n.ring.bind fun q => (s.cluster (core / 8)).ring q with
  | some r => s.publish core ord (n.rows.length * n.rowLen / r.slotSize)
  | none => s

/-- The running copies of the package: core, ordinal, node. -/
def State.copies (s : State) : List (Nat × Nat × Node) :=
  s.cores.flatMap fun c => (c.2.nodes.filter fun n => n.2.copying).map fun n => (c.1, n.1, n.2)

/-- Publishes for every node of a cluster. -/
def State.publishAll (s : State) (clu : Nat) : State :=
  (s.copies.filter fun p => p.1 / 8 == clu).foldl (fun s p => s.publishNode p.1 p.2.1 p.2.2) s

/-- The earlier of two faults in the order of the reads. -/
def firstBad (b : Option (Nat × Cause × Word)) (x : Nat × Cause × Word) : Option (Nat × Cause × Word) :=
  match b with
  | some y => if y.1 ≤ x.1 then b else some x
  | none => some x

/-- Notes in which cycle the last bytes of a row returned. -/
def Node.noteWhole (n : Node) (j now : Nat) : Node :=
  if (n.todo.any fun p => p.row == j) || n.out.any fun p => p.1.row == j then n
  else { n with whole := mapSet n.whole j now }

/-- A line read of a copy returns: its bytes are those of this moment (R218, R299). -/
def State.takePart (s : State) (core ord : Nat) (p : CopyPart) : State :=
  match mapFind (s.core core).nodes ord with
  | some n =>
    if !n.copying then s
    else
      let tid := n.ctx.tid
      let s := s.beforeRead tid .cpy [p.piece]
      let back := fun (n : Node) => { n with out := n.out.filter fun q => q.1.ix ≠ p.ix }
      match s.poisonIn tid .cpy p.piece with
      | some o =>
        s.modNode core ord fun n => { back n with bad := firstBad n.bad (p.ix, .memue, p.piece.va + wordN o) }
      | none =>
        let bs := s.pieceBytes tid .cpy p.piece
        let s := (s.tookBytes.notePiece (core / 8) .cpy false p.piece).logRegRead p.piece
        s.modNode core ord fun n => { back n with data := mapSet n.data p.ix bs }.noteWhole p.row s.fab
  | none => s

/-- The queue of a slice of a die, oldest first. -/
def DieState.queue (x : DieState) (slice : Nat) : List SliceReq := mapGet [] x.slices slice

/-- The slice takes a request in this cycle: one of its 8 entries was free before it, and it has taken none in it (R290,
R300). -/
def DieState.takes (x : DieState) (slice now : Nat) : Bool :=
  decide ((x.queue slice).length + (if mapFind x.freed slice = some now then 1 else 0) < 8)
    && !(x.queue slice).any fun q => q.arr == now

/-- Acceptance cycles, from one cycle on, for the misses of a channel that have arrived in this cycle: in ascending slice
number (R300). -/
def reaccept (ch : Nat → Nat) (c now first : Nat) : List (Nat × List SliceReq) → List (Nat × List SliceReq)
  | [] => []
  | q :: r =>
    let mine := fun (x : SliceReq) => !x.hit && x.arr == now && ch x.part.line == c
    (q.1, q.2.map fun x => if mine x then { x with acc := first } else x)
      :: reaccept ch c now (if q.2.any mine then first + 1 else first) r

/-- A request enters a slice queue, and a miss goes at once to the memory-side cache of its channel, which accepts one
request per cycle (R290, R300). -/
def State.enqueue (s : State) (d : DieId) (sl : Nat) (q : SliceReq) : State :=
  s.modDie d fun x =>
    let x := { x with slices := mapSet x.slices sl (x.queue sl ++ [q]) }
    if q.hit then x
    else
      let c := s.channelOf q.part.line
      let same := (x.slices.flatMap (·.2)).filter fun y => !y.hit && y.arr == q.arr && s.channelOf y.part.line == c
      let ch := x.channel (c % 128)
      let first := max q.arr (ch.free - (same.length - 1))
      { x with slices := reaccept s.channelOf c q.arr first x.slices,
               channels := mapSet x.channels (c % 128) { ch with free := first + same.length } }

/-- A line read of a copy at its home slice, unless the slice holds it; whether it hits shows as it enters (R290, R300). -/
def State.askSlice (s : State) (core ord : Nat) (p : CopyPart) : Option State :=
  let d := homeDie p.line
  let sl := (s.homeSlice p.line).1
  if (s.die d).takes sl s.fab then
    some (s.enqueue d sl {
      core := core, ord := ord, part := p, hit := mapGet false s.held (p.line / 128), arr := s.fab, head := s.fab,
      acc := s.fab })
  else none

/-- A read of the cluster-local window is issued: its bank serves one in a cycle, and it returns 8 cycles after (R299). -/
def State.askBank (s : State) (clu : Nat) (p : CopyPart) : State × Nat :=
  let bank := (p.piece.place.pa - sramAt clu 0) / 2 ^ 17
  let first := max s.fab (mapGet 0 (s.cluster clu).served bank)
  (s.modCluster clu fun c => { c with served := mapSet c.served bank (first + 1) }, first + 8)

/-- A copy engine issues its next line read, unless a full queue holds it and all that follow (R290, R299). A line that the
cluster cache holds, and one outside the package, is read at once: the spec gives no time for it (log 52). -/
def State.issuePart (s : State) (core ord : Nat) (n : Node) : State :=
  match n.todo with
  | [] => s
  | p :: r =>
    let sent := fun (s : State) (ret : Option Nat) =>
      s.modNode core ord fun n => { n with todo := r, out := n.out ++ [(p, ret)] }
    let pa := p.piece.place.pa
    if s.physRow pa = .sram then let (s, c) := s.askBank (core / 8) p; sent s (some c)
    else if s.physRow pa ≠ .hbm ∨ (s.cluster (core / 8)).lines.any (fun l => l.line == pa / 128) then
      (sent s none).takePart core ord p
    else
      match s.askSlice core ord p with
      | some s => sent s none
      | none => s

/-- One cycle of the copy engines: reads of the window return, slots are published, and every running copy issues a line
(R299, R301). -/
def State.fabCycle (s : State) : State :=
  let s := { s with fab := s.fab + 1 }
  let s := s.copies.foldl (fun s c =>
    (c.2.2.out.filter fun p => p.2.any (· ≤ s.fab)).foldl (fun s p => s.takePart c.1 c.2.1 p.1) s) s
  let s := s.copies.foldl (fun s c => s.publishNode c.1 c.2.1 c.2.2) s
  s.copies.foldl (fun s c => s.issuePart c.1 c.2.1 c.2.2) s

/-- Cycles of the copy engines. Without a running copy nothing happens in them. -/
def State.fabCycles (s : State) : Nat → State
  | 0 => s
  | n + 1 => if s.copies.isEmpty then { s with fab := s.fab + n + 1 } else s.fabCycle.fabCycles n

/-- The head of a slice queue returns: a line that the slice holds in the cycle after it reached the head, a miss 64 cycles
after its acceptance, and one line in a cycle (R290, R300). -/
def SliceReq.due (q : SliceReq) (now : Nat) : Bool := q.head < now && (q.hit || q.acc + 64 ≤ now)

/-- `MEMORY_SIDE_CACHE_RETURN`: the head of a slice queue returns its line and frees its entry (R290, R300). -/
def execMemorySideCacheReturn (die : DieId) (slice : Nat) (s : State) : Host.Outcome State Fault Refusal :=
  match (s.die die).queue slice with
  | [] => .next s
  | q :: r =>
    if !q.due s.fab then .next s
    else
      let rest := match r with
        | h :: t => { h with head := s.fab } :: t
        | [] => []
      let s := s.modDie die fun x =>
        { x with slices := mapSet x.slices slice rest, freed := mapSet x.freed slice s.fab }
      .next (s.takePart q.core q.ord q.part)

/-! ## Launch and finish -/

/-- The rows that a copy moves, as (destination, source, length): R218. A `CPYG` first reads its index list. -/
def State.copyRows (s : State) (n : Node) : State × Except (Cause × Word) (List (Word × Word × Nat)) :=
  match n.op with
  | .cpy d a len => (s, .ok [(d, a, len)])
  | .cpy2d d a rows len ds ss =>
    (s, .ok ((List.range rows).map fun (i : Nat) =>
      (d + wordI ((i : Int) * ds.toInt), a + wordI ((i : Int) * ss.toInt), len)))
  | .cpyg d a items size list w64 =>
    let iw := if w64 then 8 else 4
    match s.readRange n.ctx .cpy list (items * iw) with
    | (s, .error x) => (s, .error x)
    | (s, .ok bs) =>
      (s, .ok ((List.range items).map fun i =>
        (d + wordN (i * size), a + wordI (sx (8 * iw) (leNat ((bs.drop (i * iw)).take iw))), size)))
  | .gnode _ => (s, .ok [])

/-- Splits a range of addresses at the boundaries of lines. -/
def lineChunks : Nat → Word → Nat → List (Word × Nat)
  | 0, _, _ => []
  | f + 1, va, n =>
    if n = 0 then []
    else
      let k := min n (128 - va.toNat % 128)
      (va, k) :: lineChunks f (va + wordN k) (n - k)

/-- The pieces of a range, one for each line. -/
def lineSpan (va : Word) (n : Nat) : List (Word × Nat) := lineChunks (n / 128 + 2) va n

/-- The line reads of a row, numbered from k on, up to the first without a translation (R299). -/
def State.rowParts (s : State) (ctx : Ctx) : Nat → List (Word × Nat) → List CopyPart × Option (Nat × Cause × Word)
  | _, [] => ([], none)
  | k, c :: cs =>
    match s.xlate ctx .read c.1 with
    | .error e => ([], some (k, e, c.1))
    | .ok p =>
      let r := s.rowParts ctx (k + 1) cs
      ({ ix := k, piece := { va := c.1, place := p, len := c.2 } } :: r.1, r.2)

/-- The line reads of a copy in order, from row j on, up to the first without a translation (R299). -/
def State.copyParts (s : State) (ctx : Ctx) :
    Nat → List (Word × Word × Nat) → List CopyPart × Option (Nat × Cause × Word)
  | _, [] => ([], none)
  | j, r :: rs =>
    match s.rowParts ctx (j * 2 ^ 64) (lineSpan r.2.1 r.2.2) with
    | (ps, some x) => (ps, some x)
    | (ps, none) =>
      let t := s.copyParts ctx (j + 1) rs
      (ps ++ t.1, t.2)

/-- Launches a copy: its lines are read in the cycles that follow. The rows before one whose read fails pass to a ring
(R299, R301). -/
def State.launchCopy (s : State) (core ord : Nat) (n : Node) : State :=
  let set := fun (s : State) (f : Node → Node) => s.modNode core ord fun n => f { n with st := .launched }
  match s.copyRows n with
  | (s, .error x) => set s fun n => { n with bad := some (0, x) }
  | (s, .ok rows) =>
    let t := s.copyParts n.ctx 0 rows
    let s := rows.foldl (fun s r => s.noteSpan n.ctx .read r.2.1 r.2.2) s
    set s fun n => { n with rows := rows.map fun r => (r.1, r.2.2), todo := t.1, bad := t.2 }

/-- Launches a `GNODE`: its packet is read on path CPY and placed as `SPAWN` does; while the list is full it waits, and in a
context without a region, where the spec gives no list, the node stays as it is (R218, log 22, log 36). -/
def State.launchGnode (s : State) (core ord : Nat) (n : Node) (pkt : Word) : State :=
  match s.readRange n.ctx .cpy pkt 128, n.region with
  | (s, .error x), _ => s.failNode x core ord
  | (s, .ok _), none => s
  | (s, .ok bs), some own =>
    let r := (s.liveRegion own).getD own
    if s.listRoom r then
      let j := s.listTail r
      let s := s.append (.core core) (core / 8) .cpy r bs
      let s := { s with gnodes := s.gnodes ++ [(r.rcb, j, core, ord)] }
      s.modNode core ord fun n => { n with st := .launched }
    else s

/-- `COPY_NODE_LAUNCH`: a node with no predecessor left launches, unless the range checker, two busy engines or a
halted partition hold it (R218, R221, R345). -/
def execCopyNodeLaunch (core ord : Nat) (s : State) : Host.Outcome State Fault Refusal :=
  match mapFind (s.core core).nodes ord with
  | none => .next s
  | some n =>
    if n.st = .waiting && n.preds = 0 && s.cluRuns (core / 8) && !s.heldBack core ord n then
      match n.op with
      | .gnode p => .next (s.launchGnode core ord n p)
      | _ =>
        if ((s.core core).nodes.filter fun p => p.2.copying).length < 2 then .next (s.launchCopy core ord n)
        else .next s
    else .next s

/-- The line writes of a copy in order, as address and bytes (R226). -/
def Node.lineWrites (n : Node) : List (Word × List Byte) :=
  n.rows.zipIdx.flatMap fun r =>
    let bs := n.rowData r.2
    (lineSpan r.1.1 r.1.2).map fun c => (c.1, (bs.drop (c.1 - r.1.1).toNat).take c.2)

/-- Bytes that a copy moves, R218. -/
def NodeOp.bytes : NodeOp → Nat
  | .cpy _ _ len => len
  | .cpy2d _ _ rows len .. => rows * len
  | .cpyg _ _ items size .. => items * size
  | .gnode _ => 0

/-- The slots that a ring-destination copy may have written, by push number: those that it has published and no later
push has reused, and the free ones that come next (R214, R220). -/
def Node.ringSlots (n : Node) (r : Ring) : List Nat :=
  let next := (List.range (min r.slotCount (n.op.bytes / r.slotSize - n.slots.length))).map fun i => r.push + i
  n.slots.filter (fun j => r.push ≤ j + r.slotCount) ++ next.filter fun j => r.cursors.all fun c => j < c + r.slotCount

/-- Makes the bytes of a slot free. -/
def State.freeSlot (s : State) (core : Nat) (r : Ring) (j : Nat) : State :=
  let bs := (List.range r.slotSize).map fun i => Config.freeByte (s.freeIx + i)
  { s.performBytes (.core core) (listWrite (sramAt (core / 8) (r.slotOff j)) bs) with freeIx := s.freeIx + r.slotSize }

/-- The bytes that a failed copy has written: free values, in its destination or in its slots (R220, log 6). -/
def State.freeWritten (s : State) (core : Nat) (n : Node) : State :=
  match n.ring with
  | none => n.rows.foldl (fun s r => s.freeRange (.core core) n.ctx r.1 r.2) s
  | some q =>
    match (s.cluster (core / 8)).ring q with
    | some r => (n.ringSlots r).foldl (fun s j => s.freeSlot core r j) s
    | none => s

/-- A running copy fails: what it wrote is undefined, and its successors fail (R220). -/
def State.failCopy (s : State) (x : Cause × Word) (core ord : Nat) (n : Node) : State :=
  (s.freeWritten core n).failNode x core ord

/-- Performs a line write of a copy, or fails the copy. -/
def State.putLine (s : State) (core ord : Nat) (n : Node) (k : Nat) (c : Word × List Byte) : State :=
  match s.engineWrite (.core core) n.ctx .cpy c.1 c.2 with
  | (s, none) => s.modNode core ord fun n => { n with wrote := n.wrote ++ [k] }
  | (s, some x) => s.failCopy x core ord n

/-- The k-th line write of a copy is performed, once every source byte has been read (R218), in any order but for writes to
one line (R226). -/
def State.copyWrite (s : State) (core ord k : Nat) : State :=
  match mapFind (s.core core).nodes ord with
  | some n =>
    if !n.allRead || n.ring.isSome || n.bad.isSome || n.wrote.contains k then s
    else
      match n.lineWrites[k]? with
      | some c =>
        let waits := (n.lineWrites.take k).zipIdx.any fun d =>
          !n.wrote.contains d.2 && d.1.1.toNat / 128 == c.1.toNat / 128
        if waits then s else s.putLine core ord n k c
      | none => s
  | none => s

/-- Performs the line writes of a copy that are not yet performed, in order, until one fails. -/
def State.putLines (s : State) (core : Nat) (ctx : Ctx) :
    List (Word × List Byte) → State × Option (Cause × Word)
  | [] => (s, none)
  | c :: cs =>
    match s.engineWrite (.core core) ctx .cpy c.1 c.2 with
    | (s, some x) => (s, some x)
    | (s, none) => s.putLines core ctx cs

/-- `COPY_NODE_FINISH`: a copy whose lines have returned performs what it has not yet written, or fails (R218, R220). A ring
copy that met a fault fails once the rows before it are published (R301). -/
def execCopyNodeFinish (core ord : Nat) (s : State) : Host.Outcome State Fault Refusal :=
  match mapFind (s.core core).nodes ord with
  | none => .next s
  | some n =>
    if !n.allRead then .next s
    else
      let size := ((n.ring.bind fun q => (s.cluster (core / 8)).ring q).map (·.slotSize)).getD 1
      if n.ring.isSome ∧ n.slots.length * size ≠ n.badRow * n.rowLen then .next s
      else
        match n.bad with
        | some b => .next (s.failCopy b.2 core ord n)
        | none =>
          if n.ring.isSome then .next (s.finishNode core ord)
          else
            let left := (n.lineWrites.zipIdx.filter fun c => !n.wrote.contains c.2).map (·.1)
            match s.putLines core n.ctx left with
            | (s, none) => .next (s.finishNode core ord)
            | (s, some x) => .next (s.failCopy x core ord n)

/-- The pieces that a node, launched or not, reads and writes in memory: its index list or packet, its sources and its
destination (R225). -/
def State.nodePieces (s : State) (n : Node) : List Piece :=
  let rows := match (s.copyRows n).2 with
    | .ok rows => rows
    | .error _ => []
  let list := match n.op with
    | .cpyg _ _ items _ l w64 => (s.pieces n.ctx .read l (items * if w64 then 8 else 4)).1
    | .gnode p => (s.pieces n.ctx .read p 128).1
    | _ => []
  list ++ rows.flatMap fun r =>
    (s.pieces n.ctx .read r.2.1 r.2.2).1 ++ if n.ring.isSome then [] else (s.pieces n.ctx .write r.1 r.2.2).1

/-- A node makes accesses of class EXT, R225. -/
def State.nodeOutside (s : State) (n : Node) : Bool :=
  (s.nodePieces n).any fun p => s.pathAt .cpy p.place.pa == .ext

/-! ## Creating nodes -/

/-- Creates a node, or waits while 256 are live (R218). -/
def newNode (d : XReg) (op : NodeOp) (ring : Option Nat) (h : Bool) (s : State) : Out :=
  let core := coreOf s.cur
  let c := s.core core
  if 256 ≤ (c.nodes.filter fun n => n.2.live).length then .hold s
  else
    let ord := (c.nextOrd - 1) % (2 ^ 32 - 1) + 1
    let n : Node := {
      op := op, seq := c.nextOrd, ring := ring, preds := if h then 1 else 0, held := h, ctx := s.ctxOf s.cur, region := s.me.region }
    .done ((s.setCore core { c with nodes := mapSet c.nodes ord n, nextOrd := c.nextOrd + 1 }).setX d
      (nodeId core ord))

/-- The checks on a length and on a ring destination, R218: a length or size of 0 comes before RINGSEQ (log 49). -/
def guardCopy (ring : Bool) (q : Nat) (len : Nat) (zeroBad : Bool) (s : State) (k : Option Nat → State → Out) : Out :=
  if zeroBad && len == 0 then illegal 0 s
  else if !ring then k none s
  else
    match (s.cluster (cluOf s.cur)).ring q with
    | none => .trap { cause := .ringseq, tval := wordN q } s
    | some r => if len % r.slotSize ≠ 0 then illegal (wordN len) s else k (some q) s

/-- `CPY`, R218. -/
def execCpy (h ring : Bool) (d a b c : XReg) (s : State) : Host.Outcome State Fault Refusal :=
  finishCtl 16 (guardCopy ring a.toNat (s.me.rx c).toNat false s fun q s =>
    guardRegs (xsrc (if ring then [b, c] else [a, b, c])) s fun s =>
      newNode d (.cpy (s.me.rx a) (s.me.rx b) (s.me.rx c).toNat) q h s)

/-- `CPY2D`, R218. -/
def execCpy2d (h ring : Bool) (d a b c : XReg) (len dstr sstr : BitVec 32) (s : State) :
    Host.Outcome State Fault Refusal :=
  finishCtl 32 (guardCopy ring a.toNat len.toNat true s fun q s =>
    guardRegs (xsrc (if ring then [b, c] else [a, b, c])) s fun s =>
      newNode d (.cpy2d (s.me.rx a) (s.me.rx b) (s.me.rx c).toNat len.toNat dstr sstr) q h s)

/-- `CPYG`, R218. -/
def execCpyg (h ring : Bool) (d a b c : XReg) (size : BitVec 16) (xi : XReg) (w64 : Bool) (s : State) :
    Host.Outcome State Fault Refusal :=
  finishCtl 32 (guardCopy ring a.toNat size.toNat true s fun q s =>
    guardRegs (xsrc (if ring then [b, c, xi] else [a, b, c, xi])) s fun s =>
      newNode d (.cpyg (s.me.rx a) (s.me.rx b) (s.me.rx c).toNat size.toNat (s.me.rx xi) w64) q h s)

/-- `GNODE`, R218. -/
def execGnode (h : Bool) (d a : XReg) (s : State) : Host.Outcome State Fault Refusal :=
  finishCtl 16 (guardRegs (xsrc [a]) s fun s => newNode d (.gnode (s.me.rx a)) none h s)

/-- State of a node that is listed. -/
def State.nodeSt (s : State) (core ord : Nat) : Option NodeSt :=
  match mapFind (s.core core).nodes ord with
  | some n => some n.st
  | none => none

/-- The node that a `GLINK` may still hold back: created and not launched (R219). -/
def State.waitingNode (s : State) (id : Word) : Option (Nat × Node) :=
  (s.ordOf id).bind fun o =>
    (mapFind (s.core (coreOf s.cur)).nodes o).bind fun n => if n.st = .waiting then some (o, n) else none

/-- Adds the edge p → o, R219. -/
def State.linkNodes (s : State) (core p o : Nat) : State :=
  match s.nodeSt core p with
  | none => s
  | some (.failed c v) => s.failNode (c, v) core o
  | some _ =>
    (s.modNode core p fun m => { m with succs := m.succs ++ [o] }).modNode core o fun m =>
      { m with preds := m.preds + 1 }

/-- `GLINK`, R219; a = 0 releases the hold. Where both ids are at fault, tval is xb (log 49). -/
def glinkBody (a b : XReg) (s : State) : Out :=
  let core := coreOf s.cur
  match s.waitingNode (s.me.rx b) with
  | none => illegal (s.me.rx b) s
  | some (o, n) =>
    if a = 0 then
      if n.held then
        guardRegs (xsrc [b]) s fun s => .done (s.modNode core o fun n => { n with held := false, preds := n.preds - 1 })
      else illegal (s.me.rx b) s
    else
      match s.ordOf (s.me.rx a) with
      | none => illegal (s.me.rx a) s
      | some p => guardRegs (xsrc [a, b]) s fun s => .done (s.linkNodes core p o)

/-- `GLINK`, R219. -/
def execGlink (a b : XReg) (s : State) : Host.Outcome State Fault Refusal := finishCtl 16 (glinkBody a b s)

/-- What the thread holds on to while it waits. -/
def State.setHold (s : State) (h : Hold) : State :=
  if s.me.holds = h then s else s.modMe fun th => { th with holds := h }

/-- `GWAIT`, R219 and R220. -/
def execGwait (a : XReg) (s : State) : Host.Outcome State Fault Refusal :=
  finishCtl 16 (match s.ordOf (s.me.rx a) with
    | none => illegal (s.me.rx a) s
    | some o => guardRegs (xsrc [a]) s fun s =>
      match s.nodeSt (coreOf s.cur) o with
      | none => .done (s.setHold .nothing)
      | some (.failed c v) => .trap { cause := c, tval := v, telem := wordN o, late := true } s
      | some _ => .wait (s.setHold (.node o)))

/-! ## Ring instructions -/

/-- RINGSEQ with its tval, R333. -/
def ringseq (q ci : Nat) (s : State) : Out :=
  .trap { cause := .ringseq, tval := wordN (q + 16 * ci) } (s.setHold .nothing)

/-- The ring of a handle for a consumer index; RINGSEQ where there is none, and where a `BANKCFG` tore it down while
the instruction waited (R213, R214). -/
def guardRing (q ci : Nat) (s : State) (k : Ring → State → Out) : Out :=
  if s.me.holds = .ring q true then ringseq q ci s
  else
    match (s.cluster (cluOf s.cur)).ring q with
    | none => ringseq q ci s
    | some r => if r.cursors.length ≤ ci then ringseq q ci s else k r s

/-- `RPUSH`, R214. A forced save stops its wait, and it executes again (R357). -/
def execRpush (q : QReg) (a : XReg) (imm : Word) (s : State) : Host.Outcome State Fault Refusal :=
  finishCtl 16 (guardRing q.toNat 0 s fun r s => guardRegs (xsrc [a]) s fun s =>
    if !r.room then .wait (s.setHold (.ring q.toNat false))
    else
      match s.readRange (s.ctxOf s.cur) .cpy (s.ea a imm) r.slotSize with
      | (s, .error x) => .trap (accTrap x) s
      | (s, .ok bs) => .done ((s.pushSlot (.thread s.cur) (cluOf s.cur) q.toNat r bs).setHold .nothing))

/-- `RPEEK`, R214: the slot at a cursor is published once the push count has passed it. -/
def execRpeek (d : XReg) (q : QReg) (ci : BitVec 3) (seq : Bool) (s : State) : Host.Outcome State Fault Refusal :=
  finishCtl 16 (guardRing q.toNat ci.toNat s fun r s =>
    let c := r.cursors.getD ci.toNat 0
    if r.push ≤ c then .wait (s.setHold (.ring q.toNat false))
    else .done ((s.setHold .nothing).setX d (wordN (if seq then c else winBase + r.slotOff c))))

/-- A byte lies in banks of a cluster. -/
def inBanks (clu : Nat) (banks : List Nat) (pa : Nat) : Bool :=
  sramAt clu 0 ≤ pa && pa < sramAt (clu + 1) 0 && banks.contains ((pa - sramAt clu 0) / 2 ^ 17)

/-- Banks of a ring. -/
def Ring.banks (r : Ring) : List Nat := (List.range r.nb).map fun i => r.bank + i

/-- A read that a thread has taken lies in banks of its cluster. -/
def Taken.inBanks (q : Taken) (clu : Nat) (banks : List Nat) : Bool := q.bytes.any fun b => Machine.inBanks clu banks b.1

/-- `RPOP`, R214: the thread's CT and VLS reads of the ring's banks have taken their values (R302); a node that waits for
room then publishes (R301). -/
def execRpop (q : QReg) (ci : BitVec 3) (s : State) : Host.Outcome State Fault Refusal :=
  finishCtl 16 (guardRing q.toNat ci.toNat s fun r s =>
    let c := r.cursors.getD ci.toNat 0
    if r.push ≤ c then ringseq q.toNat ci.toNat s
    else
      let s := s.fixLate s.cur fun q => fencedPath q.path && q.inBanks (cluOf s.cur) r.banks
      let s := s.modCluster (cluOf s.cur) fun x =>
        { x with rings := mapSet x.rings q.toNat { r with cursors := r.cursors.set ci.toNat (c + 1) } }
      .done (s.publishAll (cluOf s.cur)))

/-! ## BANKCFG -/

/-- A legal value for `BANKCFG`, R213. -/
def bankOk (v : Word) : Bool :=
  let x := v.toNat
  let mode := bitsN x 6 5
  let nb := bitsN x 29 24
  let ss := bitsN x 23 16
  mode != 3 && bitsN x 63 30 == 0 && !x.testBit 15 && !x.testBit 7
    && (if mode = 2 then 1 ≤ nb && bitsN x 4 0 + nb ≤ 32 && 1 ≤ ss
        else nb == 0 && ss == 0 && bitsN x 14 12 == 0 && bitsN x 11 8 == 0)

/-- The mode of a code, R213. -/
def bankMode (n : Nat) : BankMode :=
  match n with
  | 0 => .cache
  | 1 => .scratch
  | _ => .fifo

/-- The banks that a value names, R213. -/
def bankNamed (v : Word) : List Nat :=
  (List.range (if bitsN v.toNat 6 5 = 2 then bitsN v.toNat 29 24 else 1)).map fun i => bitsN v.toNat 4 0 + i

/-- The rings that a value tears down: ring q of a FIFO setting, and every ring that holds a named bank (R213,
R281). -/
def Cluster.tornBy (c : Cluster) (v : Word) : List (Nat × Ring) :=
  c.rings.filter fun r =>
    (bitsN v.toNat 6 5 == 2 && r.1 == bitsN v.toNat 11 8) || r.2.banks.any fun b => (bankNamed v).contains b

/-- An access to one of the banks is in flight: a write of a thread of the cluster, or a running copy that is not torn
down with its ring (R213). -/
def State.banksBusy (s : State) (clu : Nat) (banks torn : List Nat) : Bool :=
  let c := s.cluster clu
  ((List.range 32).any fun t => (s.thread (32 * clu + t)).pend.any fun w => w.bytes.any fun b => inBanks clu banks b.1)
    || (List.range 8).any fun k => (s.core (8 * clu + k)).nodes.any fun n =>
      n.2.copying && !(n.2.ring.any fun q => torn.contains q)
        && let h := n.2.hulls c
           banks.any fun b =>
             let w := clipWin (winBase + b * 2 ^ 17 : Nat) (winBase + (b + 1) * 2 ^ 17 : Nat)
             hullsMeet h.1 w || hullsMeet h.2 w

/-- Zeroes a bank: its bytes, its poison, and every line that it held (R281). -/
def State.zeroBank (s : State) (clu b : Nat) : State :=
  let lo := sramAt clu (b * 2 ^ 17)
  let s := s.modCluster clu fun c => { c with lines := c.lines.filter fun l => l.way != b }
  { s with mem := mapDropRange s.mem lo (lo + 2 ^ 17), poison := mapDropRange s.poison (lo / 8) ((lo + 2 ^ 17) / 8) }

/-- Tears a ring down: waiting instructions and unfinished nodes meet RINGSEQ, and its banks become scratchpad (R213). -/
def State.tearRing (s : State) (clu : Nat) (q : Nat) (r : Ring) : State :=
  let s := (List.range 32).foldl (fun s t =>
    if (s.thread (32 * clu + t)).holds = .ring q false then
      s.modThread (32 * clu + t) fun th => { th with holds := .ring q true }
    else s) s
  let ns := (List.range 8).flatMap fun k =>
    ((s.core (8 * clu + k)).nodes.filter fun n => n.2.live && n.2.ring == some q).map fun n => (8 * clu + k, n.1)
  let s := ns.foldl (fun s n => s.failNode (.ringseq, wordN q) n.1 n.2) s
  s.modCluster clu fun c =>
    { c with rings := mapErase c.rings q,
             modes := r.banks.foldl (fun m b => mapPut .cache m b .scratch) c.modes }

/-- Sets banks, R213 and R281: a bank is zeroed unless it stays cache way or scratchpad. -/
def State.setBanks (s : State) (clu : Nat) (v : Word) : State :=
  let m := bankMode (bitsN v.toNat 6 5)
  let named := bankNamed v
  let torn := (s.cluster clu).tornBy v
  let s := (List.range 32).foldl (fun s t =>
    s.fixLate (32 * clu + t) fun q => q.inBanks clu (named ++ torn.flatMap (·.2.banks))) s
  let keep := named.filter fun b => (s.cluster clu).mode b == m && m != .fifo
  let s := torn.foldl (fun s r => s.tearRing clu r.1 r.2) s
  let zero := (torn.flatMap (·.2.banks) ++ named.filter fun b => !keep.contains b).eraseDups
  let s := zero.foldl (fun s b => s.zeroBank clu b) s
  let s := s.modCluster clu fun c => { c with modes := named.foldl (fun l b => mapPut .cache l b m) c.modes }
  if m = .fifo then
    s.modCluster clu fun c =>
      { c with rings := mapSet c.rings (bitsN v.toNat 11 8) {
          bank := bitsN v.toNat 4 0, nb := bitsN v.toNat 29 24, ss := bitsN v.toNat 23 16,
          cursors := List.replicate (bitsN v.toNat 14 12 + 1) 0 } }
  else s

/-- `BANKCFG`, R213. -/
def execBankcfg (a : XReg) (s : State) : Host.Outcome State Fault Refusal :=
  finishCtl 16 (
    let v := s.me.rx a
    let clu := cluOf s.cur
    if !bankOk v then illegal v s
    else guardRegs (xsrc [a]) s fun s =>
      let torn := (s.cluster clu).tornBy v
      if s.banksBusy clu (bankNamed v ++ torn.flatMap (·.2.banks)) (torn.map (·.1)) then .hold s
      else .done (s.setBanks clu v))

end Sys2Proof.Machine
end

