-- ==== Sys2Proof/Machine/Sched.lean ====
section
/-!
DEFINITION. What placing and ending a task share with `TFORK`, `TJOIN` and `END`: cores in service, slots, the
task-start state (R7, R316, R328), tiles (R7, R315), exclusive lanes (R331), the end of a task (R109, R217, R356).
-/
namespace Sys2Proof.Machine

/-! ## Cores and slots -/

/-- Lanes 8 to 15 of the core are retired, R389. -/
def State.halfCore (s : State) (core : Nat) : Bool := (mapGet 0 s.hub.halfLanes (core / 8)).getLsbD (core % 8)

/-- Role of a slot, R315. -/
def Region.role (r : Region) (slot : Nat) : Nat := bitsN r.roles.toNat (8 * slot + 7) (8 * slot + 6)

/-- A tile named for a slot, R315. -/
def Region.names (r : Region) (slot tile : Nat) : Bool := r.roles.toNat.testBit (8 * slot + 2 + tile)

/-- Tiles of a slot; a tile named for two slots belongs to the lower one (R315). -/
def Region.tilesOf (r : Region) (slot : Nat) : List Nat :=
  (List.range 4).filter fun t => r.names slot t && !(List.range slot).any fun q => r.names q t

/-- Grant of a slot, clipped on a core without lanes 8 to 15 (R315, R389). -/
def State.slotGrant (s : State) (core : Nat) (r : Region) (slot : Nat) : BitVec 7 :=
  let g : BitVec 7 := r.grants.extractLsb' (8 * slot) 7
  if !s.halfCore core then g
  else if grantLanes g = 16 then 0x30
  else if 8 ≤ grantBase g then g - 8
  else g

/-- The context holds a task. -/
def Thread.placed (th : Thread) : Bool := th.task.isSome && th.run != .free

/-- The contexts of a core other than one of them. -/
def others (tid : Nat) : List Nat := ((List.range 4).map fun k => coreOf tid * 4 + k).filter (· ≠ tid)

/-- vt at task start: the least vt of the core's other threads that hold a task, or 0 (R328). -/
def State.startVt (s : State) (tid : Nat) : Nat :=
  match (others tid).filter fun t => (s.thread t).placed with
  | [] => 0
  | t :: ts => ts.foldl (fun v t => min v (s.thread t).vt) (s.thread t).vt

/-! ## Task start -/

/-- Zeroes the tiles of a slot that another region held last, with the errors in them (R7, R40, R181), and notes the region
that holds them now. -/
def State.takeTiles (s : State) (core : Nat) (r : Region) (slot : Nat) : State :=
  s.modCore core fun c =>
    let zero := (r.tilesOf slot).filter fun t => (mapGet {} c.tiles t).lastRegion != some r.rcb
    { c with tiles := (r.tilesOf slot).foldl (fun m t =>
               mapSet m t (if zero.contains t then { lastRegion := some r.rcb } else mapGet {} m t)) c.tiles,
             accErr := c.accErr.filter fun e => !zero.contains e.1 }

/-- x-registers at task start that no rule sets are zero; these are the others, in ascending order of number. -/
def startRegs (sp gp : Word) (tid : Nat) (args loop : List Word) : List (Nat × Word) :=
  [(2, sp), (3, gp), (4, wordN tid)] ++ (args.take 8).zipIdx.map (fun a => (5 + a.2, a.1))
    ++ (loop.take 8).zipIdx.map fun a => (45 + a.2, a.1)

/-- The task-start state of a context of a region, R7 and R316. -/
def State.startState (s : State) (tid : Nat) (r : Region) (task : Option Nat) (pc : Word)
    (x : List (Nat × Word)) (grant : BitVec 7) : Thread :=
  { run := .ready, pc := pc, x := x, grant := grant, svec := ((s.die r.die).partOf r.part).svec,
    region := some r, task := task, tiles := r.tilesOf (tid % 4), vt := s.startVt tid }

/-- Starts a task on a context, R7 and R316. -/
def State.startTask (s : State) (tid : Nat) (r : Region) (task : Nat) (pc : Word) (args loop : List Word) : State :=
  let sp := r.stackBase + wordN ((tid + 1) * r.stackSize)
  (s.takeTiles (coreOf tid) r (tid % 4)).setThread tid
    (s.startState tid r (some task) pc (startRegs sp r.gp tid args loop) (s.slotGrant (coreOf tid) r (tid % 4)))

/-! ## Exclusive lanes, R331 -/

/-- Two grants overlap. -/
def grantsMeet (g h : BitVec 7) : Bool :=
  grantBase g < grantBase h + grantLanes h && grantBase h < grantBase g + grantLanes g

/-- The largest aligned set of at least 2 lanes within a grant that a smaller grant does not overlap: the other half,
where there is one (R331). -/
def grantBeside (g excl : BitVec 7) : Option (BitVec 7) :=
  let half := grantLanes g / 2
  if grantLanes g ≤ grantLanes excl ∨ half < 2 then none
  else
    let base := if grantBase excl < grantBase g + half then grantBase g + half else grantBase g
    some (g - 0x10 - BitVec.ofNat 7 (grantBase g) + BitVec.ofNat 7 base)

/-- Priority of a context's region. -/
def Thread.prio (th : Thread) : Nat := (th.region.map (·.prio)).getD 0

/-- Gives a thread a pending grant beside an exclusive one. -/
def State.shrink (s : State) (excl : Nat) (tid : Nat) : State :=
  let g := (s.thread excl).grant
  let th := s.thread tid
  if th.placed && th.prio < (s.thread excl).prio && grantsMeet th.grant g then
    match grantBeside th.grant g with
    | some h => s.setThread tid { th with
        pendGrant := some h, shrunk := th.shrunk.filter (· ≠ excl) ++ [excl], reform := false }
    | none => s
  else s

/-- An exclusive task that has been placed takes its lanes from the core's threads of lower priority (R331). -/
def State.takeLanes (s : State) (tid : Nat) : State :=
  let th := s.thread tid
  if (th.region.map (·.excl)).getD false && grantLanes th.grant ≤ 8 then
    (others tid).foldl (fun s t => s.shrink tid t) s
  else s

/-- An exclusive task that has ended gives the lanes back (R331). -/
def State.giveLanes (s : State) (tid : Nat) : State :=
  (others tid).foldl (fun s t =>
    let th := s.thread t
    if th.shrunk.contains tid then
      s.setThread t { th with shrunk := th.shrunk.filter (· ≠ tid), reform := false,
                              pendGrant := th.region.map fun r => s.slotGrant (coreOf t) r (t % 4) }
    else s) s

/-- A `TFORK` or `TJOIN` discards the pending grant, and the scheduler looks again at the overlap with exclusive tasks
(R331). -/
def Thread.discardGrant (th : Thread) : Thread := { th with pendGrant := none, reform := true }

/-! ## The end of a task -/

/-- Ends the turn of a context at the vector sequencer, R330. -/
def State.endTurnOf (s : State) (tid : Nat) : State :=
  s.modCore (coreOf tid) fun c => { c with turn := c.turn.filter (· ≠ tid), want := c.want.filter (· ≠ tid) }

/-- The smallest legal grant that contains two grants, R217. -/
def grantHull (g h : BitVec 7) : BitVec 7 :=
  let lo := min (grantBase g) (grantBase h)
  let hi := max (grantBase g + grantLanes g) (grantBase h + grantLanes h) - 1
  let k := ((List.range 5).find? fun k => k != 0 && lo / 2 ^ k == hi / 2 ^ k).getD 4
  BitVec.ofNat 7 (k * 16 + lo / 2 ^ k * 2 ^ k)

/-- Joins a child that has ended: its lanes return, and its context is free (R217). Lanes that the thread did not hold are
not part of its turn at the sequencer, which ends (R330). -/
def State.joinChild (s : State) (child : Nat) : State :=
  let g := grantHull s.me.grant (s.thread child).grant
  let s := if g = s.me.grant then s else s.endTurnOf s.cur
  let s := s.modMe fun th => { th.discardGrant with children := th.children.filter (· ≠ child) }
  (s.regrant s.cur g).setThread child {}

/-- A thread whose task has ended is released from no barrier any more; its arrivals stand, and belong to no later task of
the context: they are kept as 512 + tid (R357). -/
def State.leaveBars (s : State) (tid : Nat) : State :=
  if (s.cluster (cluOf tid)).bars.isEmpty then s
  else
    s.modCluster (cluOf tid) fun c =>
      let l := mapVals (fun (b : Barrier) =>
        { b with arrived := b.arrived.map fun t => if t = tid then 512 + tid else t,
                 released := b.released.filter (· ≠ tid) }) c.bars
      { c with bars := l.filter fun (b : Nat × Barrier) => !(b.2.arrived.isEmpty && b.2.released.isEmpty) }

/-- The packet of a context's task counts its end (R319, R325). -/
def State.countEnd (s : State) (th : Thread) : State :=
  match th.region, th.task with
  | some r, some u => s.modDie r.die fun d =>
    { d with packets := d.packets.map fun (p : Packet) => if p.uid = u then { p with running := p.running - 1 } else p }
  | _, _ => s

/-- The next iteration of the packet that a context's task belongs to starts on it, handed over while the `END` waited
(R14, R325). -/
def State.startAhead (s : State) (tid : Nat) (th : Thread) (loop : List Word) : State :=
  match th.region.bind fun r => (s.die r.die).packets.find? fun p => some p.uid == th.task with
  | some p => (s.startTask tid p.region p.uid p.entry p.args loop).takeLanes tid
  | none => s

/-- The task of the context has ended: the context is free, runs the next iteration of its loop nest, or waits for its
`TJOIN` (R217, R325). A context that Ciros started stays halted until its release, and Ciros reports it (R358, log 50). -/
def State.freeContext (s : State) (tid : Nat) : State :=
  let th := s.thread tid
  let s := (((s.drainAll tid).endTurnOf tid).giveLanes tid).leaveBars tid
  if th.parent.isSome then s.modThread tid fun th => { th with run := .joinable }
  else if th.ciros then (s.modThread tid fun th => { th with run := .halted }).answer (.halted tid)
  else
    let s := (s.countEnd th).setThread tid {}
    (match th.ahead with
      | some l => s.startAhead tid th l
      | none => s).dropDroves (cluOf tid)

end Sys2Proof.Machine
end

