-- ==== Sys2Proof/Machine/Sync.lean ====
section
/-!
DEFINITION. Synchronisation and threads: `BAR`, `FENCE`, `HEDGE`, `WAITM`, `TFORK`, `TJOIN`, and `END` (R109, R215 to
R217, R232, R233, R356).
-/
namespace Sys2Proof.Machine

/-! ## Fences and barriers -/

/-- Puts the pending writes and the late reads of the classes of one mask before the later accesses of another's (R233). -/
def Thread.hedgeFrom (th : Thread) (src dst : BitVec 7) : Thread :=
  { th with
    pend := th.pend.map fun w => if maskHas src w.path then { w with hedged := w.hedged ||| dst } else w,
    late := th.late.map fun l =>
      { l with parts := l.parts.map fun (q : Taken) =>
          if maskHas src q.path then { q with hedged := q.hedged ||| dst } else q } }

/-- Orders the thread's CT and VLS accesses among themselves as it sees them, and toward no other party (R227, R229). -/
def Thread.join (th : Thread) : Thread :=
  { th with
    pend := th.pend.map fun w => if fencedPath w.path then { w with joined := true } else w,
    late := th.late.map fun l =>
      { l with parts := l.parts.map fun (q : Taken) => if fencedPath q.path then { q with joined := true } else q } }

/-- The mask of the classes that fences order, CT and VLS (R88, R229). -/
def fencedMask : BitVec 7 := 3

/-- Later fetches see what a `CFLUSH` before a `FENCE.sc` of a scope has covered (R90). -/
def State.noteFence (s : State) (sc : Scope) : State :=
  let s := { s with stamp := s.stamp + 1 }
  s.modMe fun th => { th with fences := mapSet th.fences (scopeLvl sc) s.stamp }

/-- Every earlier CT and VLS access of the issuing thread is performed. -/
def State.completeFenced (s : State) : State := (s.drain s.cur fencedPath).fixLate s.cur fun q => fencedPath q.path

/-- A `FENCE.sc` of a scope wider than thr: every earlier CT and VLS access is performed (R232). -/
def State.fenceSc (s : State) (sc : Scope) : State := s.completeFenced.noteFence sc

/-- `FENCE`, R215, R227, R229 and R232: every order and scope orders CT and VLS among themselves in both directions, scope
thr for the thread alone. -/
def execFence (ord : Order) (sc : Scope) (s : State) : Host.Outcome State Fault Refusal :=
  finishCtl 16 (.done (
    if sc = .thr then
      let s := s.modMe Thread.join
      if ord = .sc then s.noteFence sc else s
    else if ord = .sc then s.fenceSc sc
    else s.modMe fun th => th.hedgeFrom fencedMask fencedMask))

/-- Key of a barrier: id 0 to 15 at cluster scope, then 16 for each core (R215). -/
def barKey (core : Nat) (sc : Scope) (id : BitVec 4) : Nat :=
  match sc with
  | .core => 16 + core % 8 * 16 + id.toNat
  | _ => id.toNat

/-- Threads of a scope, R215: four for each core in service. -/
def State.threadsIn (s : State) (sc : Scope) : Nat :=
  let core := coreOf s.cur
  match sc with
  | .core => 4
  | _ => 4 * ((List.range 8).filter fun k => s.coreUp (core / 8 * 8 + k)).length

/-- Replaces a barrier of the issuing cluster; one that nobody waits at is forgotten. -/
def State.setBar (s : State) (key : Nat) (b : Barrier) : State :=
  s.modCluster (cluOf s.cur) fun c =>
    { c with bars := if b.arrived.isEmpty && b.released.isEmpty then mapErase c.bars key else mapSet c.bars key b }

/-- A barrier of the issuing cluster. -/
def State.bar (s : State) (key : Nat) : Barrier := mapGet { count := 0 } (s.cluster (cluOf s.cur)).bars key

/-- `BAR`, R215 and R341: an arrival stands until the barrier releases it. The tval of its ILLEGAL is the count, for a
count of 0 or above the threads in scope as for one that differs (log 49). -/
def barBody (sc : Scope) (a : XReg) (n : Word) (key : Nat) (s : State) : Out :=
  let b := s.bar key
  if b.released.contains s.cur then
    .done ((s.setBar key { b with released := b.released.filter (· != s.cur) }).fenceSc sc)
  else if b.arrived.contains s.cur then .wait s
  else if n = 0 ∨ s.threadsIn sc < n.toNat ∨ (!b.arrived.isEmpty ∧ b.count ≠ n.toNat) then illegal n s
  else guardRegs (xsrc [a]) s fun s =>
    let arrived := b.arrived ++ [s.cur]
    let s := s.completeFenced
    if arrived.length = n.toNat then
      .done ((s.setBar key
        { b with arrived := [], released := b.released ++ arrived.filter fun t => t != s.cur && t < 512 }).fenceSc sc)
    else .wait (s.setBar key { b with count := n.toNat, arrived := arrived })

/-- `BAR`, R215; the default scope is clu. -/
def execBar (sc : Scope) (a : XReg) (id : BitVec 4) (s : State) : Host.Outcome State Fault Refusal :=
  let sc := if sc = .dflt then Scope.clu else sc
  finishCtl 16 (barBody sc a (s.me.rx a) (barKey (coreOf s.cur) sc id) s)

/-! ## HEDGE -/

/-- A node of a copy; the tasks of a `GNODE` are no accesses of the thread (R225). -/
def NodeOp.copies : NodeOp → Bool
  | .gnode _ => false
  | _ => true

/-- The nodes that a `HEDGE` waits for, of those that `which` names: the copies the thread created that are neither held nor
waiting on an unfinished predecessor (R233). -/
def State.hedgeNodes (s : State) (which : Node → Bool) : List Nat :=
  ((s.core (coreOf s.cur)).nodes.filter fun n =>
    n.2.op.copies && n.2.ctx.tid == s.cur && n.2.live && n.2.preds == 0 && which n.2).map (·.1)

/-- The droves of a cluster with the slots of their keys: open, started and running. -/
def Cluster.allDroves (c : Cluster) : List (Drove × KeySlot) :=
  (c.droves.filterMap fun d => (mapFind c.keys d.slot).map fun k => (d, k)) ++ c.started
    ++ (c.running.map fun r => (r.1, r.2.1)).toList

/-- The pending `CREF`s of the issuing thread whose pass reads keys outside the package, by ciphertext register (R225). -/
def State.outsidePasses (s : State) : List Nat :=
  s.me.cPend.filter fun c =>
    (s.cluster (cluOf s.cur)).allDroves.any fun d =>
      (d.1.members.any fun m => m.tid == s.cur && m.cd == c) && (s.keyPaths d.2).contains .ext

/-- An operation of the bank units makes accesses of class EXT, R225. -/
def State.bgOutside (s : State) (o : BgOp) : Bool :=
  o.ranges.any fun r => (s.pieces o.ctx .read r.1 r.2).1.any fun p => s.pathAt .bnk p.place.pa == .ext

/-- What a `HEDGE` from CPY, COP or EXT waits for, R233: copy nodes, passes, and operations of the bank units. -/
def State.hedgeWaits (s : State) (src dst : BitVec 7) : Hedge :=
  { dst := dst,
    nodes := s.hedgeNodes fun n => maskHas src .cpy || (maskHas src .ext && s.nodeOutside n),
    passes := if maskHas src .cop then s.me.cPend else if maskHas src .ext then s.outsidePasses else [],
    tickets := if maskHas src .ext then (s.me.bg.filter fun o => o.failed.isNone && s.bgOutside o).map (·.ticket) else [] }

/-- Puts the accesses of the from-classes before the later ones of the to-classes, R233: the pending writes and late
loads of the thread, its copy nodes, the passes that hold a `CREF` of it, and its `BGEMV`s. -/
def State.hedge (s : State) (src dst : BitVec 7) : State :=
  let h := s.hedgeWaits src dst
  s.modMe fun th =>
    { th.hedgeFrom src dst with
      hedges := if h.nodes.isEmpty && h.passes.isEmpty && h.tickets.isEmpty then th.hedges else th.hedges ++ [h] }

/-- `HEDGE`, R215 and R233. Every later access on a to-class finds the accesses of the from-classes completed; the
paths that the masks do not name go on. A failed `BGEMV` is raised here, so BNK is waited for at once. -/
def hedgeBody (src dst : BitVec 7) (s : State) : Out :=
  if maskHas src .bnk then bgHold s.me.tickets s fun s => .done (s.hedge src dst) else .done (s.hedge src dst)

/-- `HEDGE`, R215. -/
def execHedge (src dst : BitVec 7) (s : State) : Host.Outcome State Fault Refusal :=
  finishCtl 16 (hedgeBody src dst s)

/-! ## WAITM -/

/-- The first read of a `WAITM`, R215. -/
def waitmBody (cc : ICond) (d a b : XReg) (imm : Word) (s : State) : Out :=
  let va := s.ea a imm
  if s.me.waitm.isSome then .wait s
  else if !alignedTo 8 va then .trap { cause := .datafault, tval := va } s
  else
    match s.load .ct va 8 with
    | (s, .error x) => .trap (accTrap x) s
    | (s, .ok v) =>
      if condX cc (wordN v) (s.me.rx b) then .done (s.setX d (wordN v))
      else .wait (s.modMe fun th => { th with waitm := some { cc := cc, d := d, addr := va, cmp := th.rx b } })

/-- `WAITM`, R215; what it waits with is read again by `WAITM_REREAD`. -/
def execWaitm (cc : ICond) (d a b : XReg) (imm : Word) (s : State) : Host.Outcome State Fault Refusal :=
  finishCtl 16 (guardRegs (xsrc [a, b]) s (waitmBody cc d a b imm))

/-- A thread's `WAITM` reads again, R215 and R400. -/
def State.reread (s : State) (tid : Nat) (w : WaitM) : State :=
  match s.readRange (s.ctxOf tid) .ct w.addr 8 with
  | (s, .error x) => s.takeTrap tid (s.thread tid).pc false (accTrap x)
  | (s, .ok bs) =>
    let v := wordN (leNat bs)
    if condX w.cc v w.cmp then
      (s.modThread tid fun th => { th.setX w.d v with waitm := none, pc := th.pc + 16 }).settled tid
    else s

/-- `WAITM_REREAD`: a waiting `WAITM` reads again; its cluster issues accesses (R345). -/
def execWaitmReread (tid : Nat) (s : State) : Host.Outcome State Fault Refusal :=
  let th := s.thread tid
  match th.waitm with
  | some w => if th.run = .ready && s.cluRuns (cluOf tid) then .next (s.reread tid w) else .next s
  | none => .next s

/-! ## TFORK and TJOIN -/

/-- The lowest-numbered free context of the issuing core, R216. -/
def State.freeSibling (s : State) : Option Nat := (others s.cur).find? fun t => (s.thread t).run == .free

/-- Lower half of a grant. -/
def lowerHalf (g : BitVec 7) : BitVec 7 := g - 0x10
/-- Upper half of a grant. -/
def upperHalf (g : BitVec 7) : BitVec 7 := g - 0x10 + BitVec.ofNat 7 (grantLanes g / 2)

/-- The caller's side of a `TFORK`: the lower half of its grant, and vl within the new mvl (R11, R12, R216, R331). -/
def State.keepLower (s : State) (child : Nat) : State :=
  let g := s.me.grant
  ((s.modMe fun th => { th.discardGrant with children := th.children ++ [child] }).regrant s.cur (lowerHalf g)).modMe
    fun th => { th with vl := min th.vl th.mvl }

/-- The child of a `TFORK`, R216. -/
def State.childState (s : State) (child : Nat) (sp pc : Word) : Thread :=
  let th := s.me
  let x := startRegs sp (th.rx 3) child ((List.range 8).map fun i => th.rx (BitVec.ofNat 6 (5 + i))) []
  let g := upperHalf th.grant
  match th.region with
  | some r => { s.startState child r th.task pc x g with parent := some s.cur }
  | none => { run := .ready, ciros := th.ciros, pc := pc, x := x, grant := g, parent := some s.cur,
              vt := s.startVt child }

/-- `TFORK`, R216. -/
def tforkBody (d a : XReg) (off : Word) (s : State) : Out :=
  match if grantLanes s.me.grant ≤ 2 then none else s.freeSibling with
  | none => .done (s.setX d (BitVec.allOnes 64))
  | some t =>
    let child := s.childState t (s.me.rx a) (s.me.pc + off)
    let s := match s.me.region with
      | some r => s.takeTiles (coreOf t) r (t % 4)
      | none => s
    let child := { child with halt := s.me.halt, haltEl := s.me.haltEl, stopCycle := s.me.stopCycle }
    .done (((s.keepLower t).setThread t child).setX d (wordN t))

/-- `TFORK`, R216. -/
def execTfork (d a : XReg) (off : Word) (s : State) : Host.Outcome State Fault Refusal :=
  finishCtl 16 (guardRegs (xsrc [a, 3, 5, 6, 7, 8, 9, 10, 11, 12]) s (tforkBody d a off))

/-- `TJOIN`, R217. -/
def tjoinBody (a : XReg) (v : Word) (s : State) : Out :=
  if !s.me.children.contains v.toNat then illegal v s
  else guardRegs (xsrc [a]) s fun s =>
    if (s.thread v.toNat).run = .joinable then .done (s.joinChild v.toNat) else .wait s

/-- `TJOIN`, R217. -/
def execTjoin (a : XReg) (s : State) : Host.Outcome State Fault Refusal :=
  finishCtl 16 (tjoinBody a (s.me.rx a) s)

/-! ## END -/

/-- Leaves a reserving loop at `END`, R309 and R356. -/
def State.endLoop (s : State) : State :=
  if !s.me.rl.isOpen then s
  else (if s.me.rl.posted then s.claimDone s.cur else s).leaveLoop s.cur

/-- `END`, R109 and R356: out of the loop, then every child joined in turn; the pc stays at the `END`. The wait for a
child is none of those that R341 lists. -/
def endBody (s : State) : Out :=
  let s := s.endLoop
  match s.me.children with
  | c :: _ =>
    if (s.thread c).run = .joinable then .hold (s.joinChild c) else .hold s
  | [] => .hold ((s.endTurnOf s.cur).modMe fun th => { th with run := .ending })

/-- `END`, R109. -/
def execEndTask (s : State) : Host.Outcome State Fault Refusal := finishCtl 16 (endBody s)

/-- Ends a context's task whose `END` has issued: a failed operation is reported first, named by its ticket or its
ciphertext register (R109, R194, R205, R332). -/
def State.tryEnd (s : State) (tid : Nat) : State :=
  let th := s.thread tid
  let again := fun (s : State) (t : Trap) =>
    (s.modThread tid fun th => { th with run := .ready }).takeTrap tid th.pc false t
  match th.bg, th.cFail with
  | o :: r, _ =>
    match o.failed with
    | some x =>
      if th.bg.any fun p => p.failed.isNone then s
      else again (s.modThread tid fun th => { th with bg := r })
        { cause := x.1, tval := x.2, telem := wordN o.ticket, late := true }
    | none => s
  | [], f :: fs =>
    let low := fs.foldl (fun l p => if p.1 < l.1 then p else l) f
    if th.cPend.isEmpty then
      again (s.modThread tid fun th => { th with cFail := th.cFail.filter fun p => p.1 ≠ low.1 })
        { cause := low.2.1, tval := low.2.2, telem := wordN low.1, late := true }
    else s
  | [], [] => if th.cPend.isEmpty then s.freeContext tid else s

/-- `END_TAKES_EFFECT`, R109. -/
def execEndTakesEffect (tid : Nat) (s : State) : Host.Outcome State Fault Refusal :=
  if (s.thread tid).run = .ending && s.cluRuns (cluOf tid) then .next (s.tryEnd tid) else .next s

end Sys2Proof.Machine
end

