-- ==== Sys2Proof/Machine/System.lean ====
section
/-!
DEFINITION. System instructions (R222 to R225, R334, R336, R354): `ERET`, the special registers, `TLBINV`, `CFLUSH`,
`CPIN`, `CUNPIN`, `HALT`, `SPAWN`.
-/
namespace Sys2Proof.Machine

/-! ## ERET -/

/-- `ERET`, R336. -/
def execEret (s : State) : Host.Outcome State Fault Refusal :=
  finishCtl 16
    (match s.me.leaveTrap with
    | some th => guardRegs (spsrc [0x20] ++ bankSrc s.me.sup [0x23]) s fun s => .goto th.pc (s.setThread s.cur th)
    | none => .trap { cause := .prot, tval := s.me.pc } s)

/-! ## Special registers, R23 to R25 and R334 -/

/-- Who may reach a special register, R23. -/
inductive SpecLevel where
  /-- Read in user mode, never written. -/
  | ro
  /-- Read and written in user mode. -/
  | rw
  /-- Read in user mode, written in supervisor mode. -/
  | us
  /-- Reached in supervisor mode only. -/
  | sup
  deriving DecidableEq, Repr

/-- The registers of R23. -/
def specLevel (num : Nat) : Option SpecLevel :=
  if num = 0x000 ∨ num = 0x001 ∨ num = 0x002 ∨ num = 0x003 ∨ num = 0x007 ∨ num = 0x010 ∨ num = 0x025 then some .rw
  else if num = 0x004 ∨ (0x021 ≤ num ∧ num ≤ 0x024) then some .us
  else if num = 0x020 ∨ num = 0x026 then some .sup
  else if num = 0x005 ∨ num = 0x006 ∨ (0x030 ≤ num ∧ num ≤ 0x033) ∨ num = 0x040 ∨ num = 0x050 then some .ro
  else none

/-- The trap bank that `MFS` and `MTS` reach, R334. -/
def Thread.bank (th : Thread) : TrapBank := if th.sup && !th.ub then th.super else th.user

/-- Changes the trap bank that `MTS` reaches. -/
def Thread.modBank (th : Thread) (f : TrapBank → TrapBank) : Thread :=
  if th.sup && !th.ub then { th with super := f th.super } else { th with user := f th.user }

/-- Reads a special register, R23. -/
def State.readSpec (s : State) (num : Nat) : Word :=
  let th := s.me
  match num with
  | 0x000 => wordN th.vl
  | 0x001 => th.vtype.setWidth 64
  | 0x002 => th.vstart
  | 0x003 => th.vrstate
  | 0x004 => th.vdirty.setWidth 64
  | 0x005 => th.grant.setWidth 64
  | 0x006 => wordN th.mvl
  | 0x007 => th.vsw
  | 0x010 => th.fcsr.setWidth 64
  | 0x020 => th.tstatus.setWidth 64
  | 0x021 => th.bank.tcause
  | 0x022 => th.bank.tval
  | 0x023 => th.bank.tpc
  | 0x024 => th.bank.telem
  | 0x025 => th.tvec
  | 0x026 => th.svec
  | 0x030 => wordN (s.cluster (cluOf s.cur)).cycle
  | 0x031 => s.time
  | 0x032 => wordN s.cur
  | 0x033 => wordN (coreOf s.cur)
  | 0x040 => th.rl.word
  | _ => wordN ((th.region.map (·.id.toNat)).getD 0)

/-- A value that `MTS` may not write to the register: R25. -/
def specBad (num : Nat) (v : Word) : Bool :=
  (num == 0x001 && !vtOk (v.setWidth 16)) || (num == 0x007 && !legalVsw v)

/-- Writes a special register, R23 to R25. -/
def Thread.writeSpec (th : Thread) (num : Nat) (v : Word) : Thread :=
  match num with
  | 0x000 => { th with vl := min v.toNat th.mvl }
  | 0x001 => th.setVtype (v.setWidth 16)
  | 0x002 => { th with vstart := v }
  | 0x003 => { th with vrstate := v }
  | 0x004 => { th with vdirty := v.setWidth 32 }
  | 0x007 => th.setVsw v
  | 0x010 => { th with fcsr := v.setWidth 7 }
  | 0x020 => { th with tstatus := v.setWidth 5 }
  | 0x021 => th.modBank fun b => { b with tcause := v &&& 0x1FF }
  | 0x022 => th.modBank fun b => { b with tval := v }
  | 0x023 => th.modBank fun b => { b with tpc := v }
  | 0x024 => th.modBank fun b => { b with telem := v }
  | 0x025 => { th with tvec := v }
  | 0x026 => { th with svec := v }
  | _ => th

/-- VABSENT of the vector-state numbers, R34. -/
def guardSpecVA (num : Nat) (s : State) (k : State → Out) : Out := if num ≤ 7 then guardVA s k else k s

/-- The word of a special register as a source of R40: of a trap register the one in the bank that is reached (R334). -/
def State.specSrc (s : State) (n : Nat) : List Src :=
  if 0x21 ≤ n ∧ n ≤ 0x24 then bankSrc (s.me.sup && !s.me.ub) [n] else spsrc [n]

/-- `MFS`, R24 and R223. -/
def mfsBody (d : XReg) (num : BitVec 12) (s : State) : Out :=
  let n := num.toNat
  let go := guardSpecVA n s fun s => guardRegs (s.specSrc n) s fun s => .done (s.setX d (s.readSpec n))
  match specLevel n with
  | none => illegalWord (.mfs d num) s
  | some .sup => guardSup (.mfs d num) s fun _ => go
  | some _ => go

/-- `MFS`, R223. -/
def execMfs (d : XReg) (num : BitVec 12) (s : State) : Host.Outcome State Fault Refusal :=
  finishCtl 16 (mfsBody d num s)

/-- `MTS` to a register that may be written, R25. -/
def mtsGo (n : Nat) (a : XReg) (s : State) : Out :=
  guardSpecVA n s fun s =>
    if specBad n (s.me.rx a) then illegal (s.me.rx a) s
    else
      guardRegs (xsrc [a]) s fun s =>
        .done (s.modMe fun th => ((s.specSrc n).foldl (fun t r => t.clearWords .special r.num r.words)
          (th.writeSpec n (th.rx a))))

/-- `MTS`, R24 and R223. -/
def mtsBody (num : BitVec 12) (a : XReg) (s : State) : Out :=
  match specLevel num.toNat with
  | none => illegalWord (.mts num a) s
  | some .ro => illegalWord (.mts num a) s
  | some .rw => mtsGo num.toNat a s
  | some _ => guardSup (.mts num a) s (mtsGo num.toNat a)

/-- `MTS`, R223. -/
def execMts (num : BitVec 12) (a : XReg) (s : State) : Host.Outcome State Fault Refusal :=
  finishCtl 16 (mtsBody num a s)

/-! ## Caches -/

/-- A cluster lies in a scope of the issuing thread; the default is the widest (R227). -/
def State.cluInScope (s : State) (sc : Scope) (clu : Nat) : Bool :=
  match sc with
  | .thr | .core | .clu => clu == cluOf s.cur
  | .die => dieOf clu = dieOf (cluOf s.cur)
  | _ => true

/-- A core lies in a scope of the issuing thread. -/
def State.coreInScope (s : State) (sc : Scope) (core : Nat) : Bool :=
  match sc with
  | .thr | .core => core == coreOf s.cur
  | _ => s.cluInScope sc (core / 8)

/-- Drops cached translations of a scope, R223 and R354. -/
def State.dropTlb (s : State) (sc : Scope) (which : TlbEntry → Bool) : State :=
  let keep := fun (l : List TlbEntry) => l.filter fun t => !which t
  { s with
    cores := s.cores.map fun c =>
      (c.1, if s.coreInScope sc c.1 then { c.2 with tlb := keep c.2.tlb } else c.2),
    clusters := s.clusters.map fun c =>
      (c.1, if sc != .core && s.cluInScope sc c.1 then { c.2 with tlb := keep c.2.tlb } else c.2) }

/-- The translations that a `TLBINV` names, as address space, page and log2 of the size: every one, or that of a page of an
address space (R223). -/
def pageNamed (one : Bool) (va asid : Word) (t : Nat × Nat × Nat) : Bool :=
  !one || (t.1 == asid.toNat % 65536 && t.2.1 == va.toNat / 2 ^ t.2.2)

/-- The cached translations that a `TLBINV` names. -/
def tlbNamed (one : Bool) (va asid : Word) (t : TlbEntry) : Bool := pageNamed one va asid (t.asid, t.page, t.log)

/-- Every access of the threads of a scope that used one of the named translations completes, cached still or not: their
writes are performed, and their late loads take no other value (R223). -/
def State.finishUses (s : State) (sc : Scope) (named : Nat × Nat × Nat → Bool) : State :=
  (s.threads.map (·.1)).foldl (fun s t =>
    if s.coreInScope sc (coreOf t) then
      (s.drainW t fun w => w.pages.any named).modThread t fun th => th.fixWhere fun p => p.pages.any named
    else s) s

/-- `TLBINV`, R223 and R354. -/
def execTlbinv (sc : Scope) (a b : XReg) (one : Bool) (s : State) : Host.Outcome State Fault Refusal :=
  finishCtl 16 (guardSup (.tlbinv sc a b one) s fun s =>
    guardRegs (xsrc (if one then [a, b] else [])) s fun s =>
      let va := s.me.rx a
      let asid := s.me.rx b
      let s := s.drain s.cur (· == .ct)
      .done ((s.finishUses sc (pageNamed one va asid)).dropTlb sc (tlbNamed one va asid)))

/-- The lines of a range, as first and last line number of each piece. -/
def lineSpans (ps : List Piece) : List (Nat × Nat) :=
  (ps.filter fun p => p.len != 0).map fun p => (p.place.pa / 128, (p.place.pa + p.len - 1) / 128)

/-- A line lies in one of the spans. -/
def spansHave (l : List (Nat × Nat)) (line : Nat) : Bool := l.any fun r => r.1 ≤ line && line ≤ r.2

/-- The first `CFLUSH` that covers a store is the one that counts (R90). -/
def OldPart.cover (stamp : Nat) (p : OldPart) : OldPart :=
  { p with flushed := some (p.flushed.getD stamp) }

/-- The slice that holds a line belongs to a scope: slices 2c and 2c + 1 of a die to its core c, none to a thread alone
(R227, R285, log 9). -/
def State.slicesInScope (s : State) (sc : Scope) (line : Nat) : Bool :=
  let core := dieNo (homeDie (line * 128)) * 64 + (s.homeSlice (line * 128)).1 / 2
  match sc with
  | .thr => false
  | _ => s.coreInScope sc core

/-- Spans of lines without the lines of others that a test names: whole where the test holds for every line. -/
def cutLines (which : Nat → Bool) (ms ls : List (Nat × Nat)) : List (Nat × Nat) :=
  ls.foldl (fun ms l =>
    (List.range (l.2 + 1 - l.1)).foldl (fun ms i => if which (l.1 + i) then ms.flatMap (cutSpan (l.1 + i, l.1 + i)) else ms)
      ms) ms

/-- Flushes lines, R90, R223, R236, R289 and R298: they leave the cluster caches and slices of the scope, their stores
count as covered for the fetches (R90 asks for no scope of the `CFLUSH`), and remote readers see them after a
`CFLUSH.sys`. -/
def State.flushLines (s : State) (sc : Scope) (l : List (Nat × Nat)) : State :=
  let stamp := s.stamp + 1
  { s with
    stamp := stamp,
    held := s.held.filter fun h => !(spansHave l h.1 && s.slicesInScope sc h.1),
    moved := if s.moved.isEmpty then []
      else if sc = .pkg ∨ sc = .sys ∨ sc = .dflt then cutSpans s.moved l
      else cutLines (s.slicesInScope sc) s.moved l,
    old := s.old.map fun o => (o.1, if spansHave l (o.1 / 16) then o.2.map (OldPart.cover stamp) else o.2),
    stale := if sc = .sys ∨ sc = .dflt then s.stale.filter fun o => !spansHave l (o.1 / 16) else s.stale,
    clusters := s.clusters.map fun c =>
      (c.1, if s.cluInScope sc c.1 then { c.2 with lines := c.2.lines.filter fun x => !spansHave l x.line }
            else c.2) }

/-- `CFLUSH`, R223: a range with a byte that cannot be translated fails as a read of it does. -/
def execCflush (sc : Scope) (a : XReg) (imm : Word) (b : XReg) (s : State) : Host.Outcome State Fault Refusal :=
  finishCtl 16 (guardRegs (xsrc [a, b]) s fun s =>
    let va := s.ea a imm
    let ctx := s.ctxOf s.cur
    let s := (s.drain s.cur (· == .ct)).noteSpan ctx .read va (s.me.rx b).toNat
    match s.pieces ctx .read va (s.me.rx b).toNat with
    | (_, some x) => .trap (accTrap x) s
    | (ps, none) => .done (s.flushLines sc (lineSpans ps)))

/-- The place of a line that `CPIN` and `CUNPIN` act on: none in the window or without translation (R283). -/
def State.pinPlace (s : State) (va : Word) : Option Phys :=
  if inWindow va.toNat then none
  else
    match s.xlate (s.ctxOf s.cur) .read va with
    | .ok p => if p.pa < 2 ^ 39 then some p else none
    | .error _ => none

/-- `CPIN`, R223 and R283. -/
def execCpin (a : XReg) (imm : Word) (s : State) : Host.Outcome State Fault Refusal :=
  finishCtl 16 (guardRegs (xsrc [a]) s fun s =>
    match s.pinPlace (s.ea a imm) with
    | some p => .done ((s.noteXlate (s.ctxOf s.cur) (s.ea a imm)).bringLine (cluOf s.cur) true p)
    | none => .done (s.noteXlate (s.ctxOf s.cur) (s.ea a imm)))

/-- `CUNPIN`, R223 and R283. -/
def execCunpin (a : XReg) (imm : Word) (s : State) : Host.Outcome State Fault Refusal :=
  finishCtl 16 (guardRegs (xsrc [a]) s fun s =>
    match s.pinPlace (s.ea a imm) with
    | some p =>
      .done (s.modCluster (cluOf s.cur) fun c =>
        { c with lines := c.lines.map fun l => if l.line = p.pa / 128 then { l with pinned := false } else l })
    | none => .done (s.noteXlate (s.ctxOf s.cur) (s.ea a imm)))

/-! ## HALT and SPAWN -/

/-- `HALT`, R223 and R358: it waits until the thread's `BGEMV`s and passes have ended; every earlier write is performed, and the pc
stands behind the instruction. -/
def execHalt (s : State) : Host.Outcome State Fault Refusal :=
  finishCtl 16 (guardSup .halt s fun s =>
    if (s.me.bg.any fun o => o.failed.isNone) || !s.me.cPend.isEmpty then .hold s
    else
      let s := (s.drainAll s.cur).modMe fun th => { th.bindAll with run := .halted }
      .done (if s.me.ciros then s.answer (.halted s.cur) else s))

/-- The region that `SPAWN` names: the thread's own, as the table holds it now, or an enabled descendant of the same die
before the other (R222, R313, R314). -/
def State.spawnRegion (s : State) (own : Region) (xb : Word) : Option Region :=
  if xb = 0 ∨ xb = own.id.setWidth 64 then some ((s.liveRegion own).getD own)
  else
    let other := match own.die with
      | .a => DieId.b
      | .b => .a
    (((s.die own.die).regions ++ (s.die other).regions).map (·.2)).find? fun r =>
      r.id.setWidth 64 == xb && r.chain.contains own.rcb

/-- `SPAWN`, R222: the packet is read, and may trap, before the list is tested for room (log 36). -/
def spawnBody (d a : XReg) (xb : Word) (s : State) : Out :=
  match s.me.region.bind fun r => s.spawnRegion r xb with
  | none => .trap { cause := .prot, tval := xb } s
  | some r =>
    match s.completeFenced.readRange (s.ctxOf s.cur) .ct (s.me.rx a) 128 with
    | (s, .error x) => .trap (accTrap x) s
    | (s, .ok bs) =>
      if s.listRoom r then .done ((s.append (.thread s.cur) (cluOf s.cur) .ct r bs).setX d 0)
      else .done (s.setX d 1)

/-- `SPAWN`, R222. -/
def execSpawn (d a b : XReg) (s : State) : Host.Outcome State Fault Refusal :=
  finishCtl 16 (guardRegs (xsrc [a, b]) s fun s => spawnBody d a (s.me.rx b) s)

end Sys2Proof.Machine
end

