-- ==== Sys2Proof/Machine/Schedule.lean ====
section
/-!
DEFINITION. The scheduler of a die and the vector sequencer of a core: consuming packets (R317 to R321), candidates and
placement (R322 to R326), deadlines, completion (R319), the watchdog (R327), turns (R328, R330), pending grants (R331).
-/
namespace Sys2Proof.Machine

/-! ## Packets -/

/-- The clusters of a region's partition on its die. -/
def State.regionClus (s : State) (r : Region) : List Nat := cluList r.die ((s.die r.die).partOf r.part).clu

/-- The address space in which the scheduler accesses memory for a region, as user mode: it belongs to no cluster, so
no cluster's window is there (R319). -/
def Region.schedCtx (r : Region) : Ctx := { root := r.root, asid := r.asid, user := true, tid := 512 }

/-- The clusters that a packet may use: the named one, or all of the partition's (R319, R321, R324). -/
def packetClus (clus : List Nat) (b : Nat) : List Nat := if b = 0xFF then clus else clus.filter (· == b)

/-- The fields of R319 that every packet must keep (R321). -/
def packetOk (r : Region) (clus : List Nat) (bs : List Byte) : Bool :=
  let f := fieldN bs
  (f 8 1 == 1 || f 8 1 == 2) && f 9 1 ≤ 3 && (List.range 4).any (fun k => r.role k == f 9 1)
    && !(packetClus clus (f 10 1)).isEmpty && f 11 1 ≤ 1 && f 12 4 == 0 && f 24 8 % 16 == 0 && f 104 8 % 8 == 0
    && f 120 8 == 0 && (f 8 1 == 2 || f 96 8 == 0)

/-- A loop-nest record, R320. -/
def nestOf (addr : Word) (bs : List Byte) : Option Nest :=
  let f := fieldN bs
  let d := f 0 1
  let dims := (List.range d).map fun i =>
    (wordN (f (16 + 16 * i) 8), f (24 + 16 * i) 4, BitVec.ofNat 32 (f (28 + 16 * i) 4))
  if 1 ≤ d ∧ d ≤ 6 ∧ f 1 15 = 0 ∧ dims.all (fun x => 1 ≤ x.2.1) ∧ (dims.foldl (fun n x => n * x.2.1) 1) ≤ 2 ^ 32
  then some { addr := addr, dims := dims } else none

/-- Logs the malformed entry that a walk of the scheduler meets; no thread makes the access, so the unit of the record is
free (R352, R393, log 6). -/
def State.noteSched (s : State) (r : Region) (va : Word) : State :=
  if va.toNat ≥ 2 ^ 56 || inWindow va.toNat then s
  else
    match s.lookup r.schedCtx va.toNat with
    | .malformed pa =>
      let (s, w) := s.freeWord
      s.logRas 0x05 2 (dieNo r.die) (w.toNat % 2 ^ 32) (wordN pa)
    | _ => s

/-- Reads bytes for the scheduler; none where a byte cannot be read (R321). -/
def State.schedRead (s : State) (r : Region) (va : Word) (n : Nat) : State × Option (List Byte) :=
  match s.pieces r.schedCtx .read va n with
  | (ps, none) =>
    if ps.any fun p => (List.range p.len).any fun i => s.poisoned (p.place.pa + i) then (s, none)
    else (s, some (ps.flatMap fun p => s.bytesPhys p.place.pa p.len))
  | (_, some x) => (s.noteSched r x.2, none)

/-- Reads the loop-nest record of a packet: 16 bytes, then 16 for each dimension (R320). -/
def State.readNest (s : State) (r : Region) (va : Word) : State × Option Nest :=
  match s.schedRead r va 16 with
  | (s, none) => (s, none)
  | (s, some h) =>
    if 6 < fieldN h 0 1 then (s, none)
    else
      let (s, bs) := s.schedRead r va (16 + 16 * fieldN h 0 1)
      (s, bs.bind (nestOf va))

/-- Iterations of a nest. -/
def Nest.total (x : Nest) : Nat := x.dims.foldl (fun n d => n * d.2.1) 1

/-- The packet that 128 bytes at a physical address stand for, or none where it breaks R319 or R320. -/
def State.readPacket (s : State) (r : Region) (pa : Nat) (bs : List Byte) : State × Option Packet :=
  let f := fieldN bs
  let p : Packet := {
    uid := s.uid, region := r, addr := pa, role := f 9 1, clu := if f 10 1 = 0xFF then none else some (f 10 1),
    evMiss := f 11 1 == 1, deadline := wordN (f 16 8), entry := wordN (f 24 8),
    args := (List.range 8).map fun i => wordN (f (32 + 8 * i) 8), nest := none, compAddr := wordN (f 104 8),
    compVal := wordN (f 112 8), total := 1 }
  if !packetOk r (s.regionClus r) bs then (s, none)
  else if f 8 1 = 1 then (s, some p)
  else
    let (s, n) := s.readNest r (wordN (f 96 8))
    (s, n.map fun n => { p with nest := some n, total := n.total })

/-- The node that placed packet j of a list, and the state without that note (R218). -/
def State.takeNode (s : State) (rcb j : Nat) : State × Option (Nat × Nat) :=
  ({ s with gnodes := s.gnodes.filter fun g => !(g.1 == rcb && g.2.1 == j) },
    (s.gnodes.find? fun g => g.1 == rcb && g.2.1 == j).map fun g => g.2.2)

/-- A bad packet is discarded with an event, whose tval the spec does not state; a `GNODE` node for it finishes
(R321, R329). -/
def State.discard (s : State) (r : Region) (pa : Nat) (node : Option (Nat × Nat)) : State :=
  let (s, v) := s.freeWord
  let s := s.faultEvent r .badPacket pa v
  match node with
  | some n => s.finishNode n.1 n.2
  | none => s

/-- Consumes the head packet of a list, R318 and R321. -/
def State.consume (s : State) (r : Region) : State :=
  let h := s.listHead r
  let pa := r.slotAt h
  let bs := s.bytesAt pa 128
  let bad := (List.range 16).any fun i => s.poisoned (pa + 8 * i)
  let (s, p) := if bad then (s, none) else s.readPacket r pa bs
  let s := s.engineNum (.die r.die) (r.rcb + 72) 8 ((h + 1) % 2 ^ 64)
  let (s, node) := s.takeNode r.rcb h
  match p with
  | none => s.discard r pa node
  | some p =>
    { s with uid := s.uid + 1 }.modDie r.die fun d => { d with packets := d.packets ++ [{ p with node := node }] }

/-- `PACKET_CONSUME`: the head packet of entry idx's list, once tail is greater than head and its seq word is published, while
the die is not held in reset (R313, R318, R364). -/
def execPacketConsume (die : DieId) (idx : Nat) (s : State) : Host.Outcome State Fault Refusal :=
  match mapFind (s.die die).regions idx with
  | none => .next s
  | some r =>
    let h := s.listHead r
    if !s.hub.recovery && s.resident r && h < s.listTail r && s.physWord (r.slotAt h) == h then .next (s.consume r)
    else .next s

/-! ## Candidates and contexts -/

/-- The cluster-core-slot contexts of a cluster, in order. -/
def cluTids (clu : Nat) : List Nat := (List.range 32).map fun k => 32 * clu + k

/-- Cores that run a task of the region, on whichever die: the cap of R315 bounds them together. -/
def State.coresOf (s : State) (r : Region) : List Nat :=
  ((s.threads.filter fun t => t.2.placed && (t.2.region.map (·.rcb)) == some r.rcb).map fun t => coreOf t.1).eraseDups

/-- The context is free for a packet; for the next iteration of its own loop nest it is free once its `END` has issued
(R325). -/
def State.freeFor (s : State) (p : Packet) (tid : Nat) : Bool :=
  let th := s.thread tid
  th.run == .free || (th.run == .ending && p.nest.isSome && th.task == some p.uid && th.parent.isNone && th.ahead.isNone)

/-- The slot and the core of a context suit a packet, R324. -/
def State.suits (s : State) (p : Packet) (tid : Nat) : Bool :=
  let r := p.region
  let cores := s.coresOf r
  s.coreUp (coreOf tid) && r.role (tid % 4) == p.role
    && (r.cap == 0 || cores.contains (coreOf tid) || cores.length < r.cap)

/-- The context can be used by a packet, R324 and R325. -/
def State.usable (s : State) (p : Packet) (tid : Nat) : Bool := s.freeFor p tid && s.suits p tid

/-- The context is held for a packet against the candidates after it: it is free, or its task's `END` has issued, so that
it will be (R322, R325, R326). -/
def State.claimable (s : State) (p : Packet) (tid : Nat) : Bool :=
  let th := s.thread tid
  (th.run == .free || (th.run == .ending && th.parent.isNone && th.ahead.isNone)) && s.suits p tid

/-- Contexts of a cluster that a packet can use. -/
def State.usableIn (s : State) (p : Packet) (clu : Nat) : List Nat := (cluTids clu).filter fun t => s.usable p t

/-- Clusters of the partition that a packet may still go to: its walker's, its named one, or all of them (R324, R326). -/
def State.packetClus (s : State) (p : Packet) : List Nat :=
  let all := s.regionClus p.region
  match p.bound, p.clu with
  | some c, _ => all.filter (· == c)
  | none, some c => all.filter (· == c)
  | none, none => all

/-- The cluster of a list with the most contexts that a packet can use, the lowest on a tie (R326). -/
def State.bestClu (s : State) (p : Packet) : List Nat → Option Nat
  | [] => none
  | c :: cs =>
    match s.bestClu p cs with
    | none => some c
    | some b => if (s.usableIn p c).length < (s.usableIn p b).length then some b else some c

/-- Packets that a cluster's walker holds, R326; those of a partition that is swapped out are saved with it (R346). -/
def State.walkerLoad (s : State) (clu : Nat) : Nat :=
  ((s.die (dieOf clu)).packets.filter fun p => p.bound == some clu && s.resident p.region).length

/-- The walker of a cluster may hand out an iteration: at most one every 8 cycles (R326). -/
def Cluster.mayWalk (c : Cluster) : Bool :=
  match c.walked with
  | some w => w + 8 ≤ c.cycle
  | none => true

/-- The clusters whose contexts a packet can take now: for a loop nest its walker's, where the walker has room and may
hand out an iteration (R324, R326). -/
def State.openClus (s : State) (p : Packet) : List Nat :=
  let clus := s.packetClus p
  match p.nest, p.bound with
  | none, _ => clus
  | some _, some _ => clus.filter fun c => (s.cluster c).mayWalk
  | some _, none =>
    match s.bestClu p clus with
    | some c => if s.walkerLoad c < 4 && (s.cluster c).mayWalk then [c] else []
    | none => []

/-- The contexts that a packet can take now, in order (R324, R326). -/
def State.choices (s : State) (p : Packet) : List Nat := (s.openClus p).flatMap fun c => s.usableIn p c

/-- The contexts that a packet keeps from the candidates after it (R322). -/
def State.claims (s : State) (p : Packet) : List Nat :=
  (s.openClus p).flatMap fun c => (cluTids c).filter fun t => s.claimable p t

/-- Packet p is offered a context before packet q, R322. -/
def Packet.ahead (p q : Packet) : Bool :=
  let a := p.region
  let b := q.region
  b.prio < a.prio || (a.prio == b.prio && (p.deadline.toNat < q.deadline.toNat || (p.deadline == q.deadline
    && (a.idx < b.idx || (a.idx == b.idx && p.uid < q.uid)))))

/-- Inserts a packet in the order of R322. -/
def insertPacket (p : Packet) : List Packet → List Packet
  | [] => [p]
  | q :: r => if p.ahead q then p :: q :: r else q :: insertPacket p r

/-- The candidates of a die with the contexts that each can take now and those that it claims, in the order of R322. -/
def State.offers (s : State) (d : DieId) : List (Packet × List Nat × List Nat) :=
  (((s.die d).packets.filter s.candidate).foldr insertPacket []).map fun p => (p, s.choices p, s.claims p)

/-- The first packet of some kind with a context that goes to it: no candidate before it can use that context, and one
that cannot use a context holds nothing back (R322). -/
def firstOffer (which : Packet → Bool) : List Nat → List (Packet × List Nat × List Nat) → Option (Packet × Nat)
  | _, [] => none
  | taken, o :: r =>
    match if which o.1 then o.2.1.find? fun t => !taken.contains t else none with
    | some t => some (o.1, t)
    | none => firstOffer which (taken ++ o.2.2) r

/-- The placement that comes next on a die among the packets of some kind, R322; none while the dies are held in reset
(R364). -/
def State.nextPlace (s : State) (d : DieId) (which : Packet → Bool) : Option (Packet × Nat) :=
  if s.hub.recovery then none else firstOffer which [] (s.offers d)

/-! ## Placing tasks -/

/-- Indices of iteration n in lexicographic order, outermost first (R320). -/
def nestIndices : List (Word × Nat × BitVec 32) → Nat → List Word
  | [], _ => []
  | d :: ds, n =>
    let inner := ds.foldl (fun m x => m * x.2.1) 1
    (d.1 + wordI ((n / inner % d.2.1 : Nat) * d.2.2.toInt)) :: nestIndices ds n

/-- x45 to x52 of a task of a packet, R6 and R320. -/
def Packet.loopRegs (p : Packet) : List Word :=
  match p.nest with
  | none => []
  | some n =>
    let ix := nestIndices n.dims p.placed
    ix ++ List.replicate (6 - ix.length) 0 ++ [wordN p.placed, n.addr]

/-- Places the next task of a packet on a context, R316, R324 and R331. A deadline that has passed is counted first, and
an iteration for a context whose `END` waits is held for it (R323, R325). -/
def State.placeTask (s : State) (p : Packet) (tid : Nat) : State :=
  let loop := p.nest.isSome
  let missed := p.missed || s.late p
  let s := if s.late p then s.miss p else s
  let s := s.setPacket p.region.die
    { p with placed := p.placed + 1, running := p.running + 1, missed := missed,
             bound := if loop then some (cluOf tid) else none }
  let s := if loop then s.modCluster (cluOf tid) fun c => { c with walked := some c.cycle } else s
  if (s.thread tid).run = .ending then s.modThread tid fun th => { th with ahead := some p.loopRegs }
  else (s.startTask tid p.region p.uid p.entry p.args p.loopRegs).takeLanes tid

/-- `TASK_PLACEMENT`: a context goes to the first candidate that can use it; the iterations of a bound loop nest come
from its walker (R322, R324, R326). -/
def execTaskPlacement (die : DieId) (s : State) : Host.Outcome State Fault Refusal :=
  match s.nextPlace die fun p => p.bound.isNone with
  | some o => .next (s.placeTask o.1 o.2)
  | none => .next s

/-- `LOOP_NEST_ITERATION`: the walker of a cluster hands out the next iteration to a context that no candidate before its
packet can take (R322, R326). -/
def execLoopNestIteration (clu : Nat) (s : State) : Host.Outcome State Fault Refusal :=
  match s.nextPlace (dieOf clu) fun p => p.bound = some clu with
  | some o => .next (s.placeTask o.1 o.2)
  | none => .next s

/-- A packet of a die. -/
def DieState.packet (x : DieState) (uid : Nat) : Option Packet := x.packets.find? fun p => p.uid == uid

/-- `DEADLINE_MISS`: time has reached the deadline of a candidate, once (R323). -/
def execDeadlineMiss (die : DieId) (uid : Nat) (s : State) : Host.Outcome State Fault Refusal :=
  match (s.die die).packet uid with
  | some p => .next (if !s.hub.recovery && s.late p then s.miss p else s)
  | none => .next s

/-! ## Completion -/

/-- Writes the completion value, or answers why it cannot (R319). -/
def State.writeCompletion (s : State) (p : Packet) : State × Option (Cause × Word) :=
  if p.compAddr = 0 then (s, none)
  else
    match s.pieces p.region.schedCtx .write p.compAddr 8 with
    | (_, some x) => (s.noteSched p.region x.2, some x)
    | ([], none) => (s, none)
    | (q :: _, none) =>
      if s.poisoned q.place.pa then (s, some (.memue, p.compAddr))
      else (s.engineNum (.die p.region.die) q.place.pa 8 p.compVal.toNat, none)

/-- Completes a packet, R319: the completion write, and the `GNODE` node that placed the packet. -/
def State.complete (s : State) (p : Packet) : State :=
  let s := s.modDie p.region.die fun x => { x with packets := x.packets.filter fun q => q.uid != p.uid }
  match s.writeCompletion p with
  | (s, none) => match p.node with
    | some n => s.finishNode n.1 n.2
    | none => s
  | (s, some x) =>
    let s := s.faultEvent p.region .completionFault p.addr p.compAddr
    match p.node with
    | some n => s.failNode (x.1, p.compAddr) n.1 n.2
    | none => s

/-- `PACKET_COMPLETION`: every task of the packet has ended (R319). The packet of a partition that is swapped out
completes when it is resident again, for the node that placed it is saved with the partition (R346). -/
def execPacketCompletion (die : DieId) (uid : Nat) (s : State) : Host.Outcome State Fault Refusal :=
  match (s.die die).packet uid with
  | some p => .next (if p.placed = p.total && p.running = 0 && s.resident p.region then s.complete p else s)
  | none => .next s

/-! ## The watchdog -/

/-- Per-task cycle limit, 0 for none (R315). -/
def Thread.cycleCap (th : Thread) : Nat :=
  match th.region with
  | some r => r.cycleLimit.toNat
  | none => 0

/-- `WATCHDOG`: the cycles of the task have reached its limit; `el` is the element at which a vector instruction stops
(R327, R341). The trap itself comes at the thread's next boundary (`settled`), once in a run of the count: after its
delivery the count starts again at the `ERET`. -/
def execWatchdog (tid el : Nat) (s : State) : Host.Outcome State Fault Refusal :=
  let th := s.thread tid
  if th.placed && th.cycleCap != 0 && th.cycleCap ≤ th.used && th.stop.isNone && !th.dogged then
    .next (s.setThread tid { th with stop := some el, stopCycle := (s.cluster (cluOf tid)).cycle })
  else .next s

/-! ## The vector sequencer -/

/-- The current window of 65,536 cycles of a core, R328. -/
def State.window (s : State) (core : Nat) : Nat := (s.cluster (core / 8)).cycle / 65536

/-- The thread's region is below its floor on the core in the current window, R328. -/
def State.belowFloor (s : State) (tid : Nat) : Bool :=
  let c := s.core (coreOf tid)
  match (s.thread tid).region with
  | some r => (if c.beatsWin = s.window (coreOf tid) then mapGet 0 c.beats r.rcb else 0) < r.floor * 4096
  | none => false

/-- Thread t is considered before thread u, R330. -/
def State.turnAhead (s : State) (t u : Nat) : Bool :=
  let a := s.belowFloor t
  let b := s.belowFloor u
  let x := s.thread t
  let y := s.thread u
  (a && !b) || (a == b && (y.prio < x.prio || (x.prio == y.prio && (x.vt < y.vt || (x.vt == y.vt && t < u)))))

/-- Inserts a thread in the order of R330. -/
def State.insertTurn (s : State) (t : Nat) : List Nat → List Nat
  | [] => [t]
  | u :: r => if s.turnAhead t u then t :: u :: r else u :: s.insertTurn t r

/-- Gives a thread its turn when all its lanes are free. -/
def State.startTurn (s : State) (tid : Nat) : State :=
  let c := s.core (coreOf tid)
  if c.turn.any fun u => u == tid || grantsMeet (s.thread u).grant (s.thread tid).grant then s
  else s.setCore (coreOf tid) { c with turn := c.turn ++ [tid] }

/-- `VECTOR_SEQUENCER_TURN`: lanes have come free, and the threads of the core that have an entry ready take their
turns in the order of R330. -/
def execVectorSequencerTurn (core : Nat) (ready : List Nat) (s : State) : Host.Outcome State Fault Refusal :=
  let ts := ready.filter fun t => coreOf t == core && (s.thread t).run != .free
  .next ((ts.foldr s.insertTurn []).foldl (fun s t => s.startTurn t) s)

/-- `TURN_IDLE_END`: the thread has had no entry ready for 8 cycles (R330). -/
def execTurnIdleEnd (tid : Nat) (s : State) : Host.Outcome State Fault Refusal :=
  .next (if (s.thread tid).blk.isNone && (s.thread tid).entryAt + 8 ≤ (s.cluster (cluOf tid)).cycle then s.endTurnOf tid
    else s)

/-- `FLOOR_WINDOW_END`: an aligned window of 65,536 cycles has ended, and the counts of the next start from zero
(R328). -/
def execFloorWindowEnd (core : Nat) (s : State) : Host.Outcome State Fault Refusal :=
  .next (if (s.core core).beatsWin = s.window core then s
    else s.modCore core fun c => { c with beats := [], beatsWin := s.window core })

/-- The exclusive tasks of higher priority whose lanes a thread's grant overlaps, R331. -/
def State.overlapping (s : State) (tid : Nat) : List Nat :=
  let th := s.thread tid
  (others tid).filter fun e =>
    let x := s.thread e
    x.placed && (x.region.map (·.excl)).getD false && grantLanes x.grant ≤ 8 && th.prio < x.prio
      && grantsMeet th.grant x.grant

/-- The pending grant that the scheduler forms again from a thread's grant after a `TFORK` or `TJOIN`: beside each
exclusive task that it still overlaps (R331). -/
def State.reformGrant (s : State) (tid : Nat) : Option (BitVec 7) :=
  let g := (s.thread tid).grant
  let h := (s.overlapping tid).foldl (fun h e =>
    if grantsMeet h (s.thread e).grant then (grantBeside h (s.thread e).grant).getD h else h) g
  if h = g then none else some h

/-- `PENDING_GRANT_REFORM`, R331. -/
def execPendingGrantReform (tid : Nat) (s : State) : Host.Outcome State Fault Refusal :=
  let th := s.thread tid
  if th.reform then
    let excl := s.overlapping tid
    .next (s.setThread tid { th with pendGrant := s.reformGrant tid, reform := false,
                                     shrunk := th.shrunk.filter (fun e => !excl.contains e) ++ excl })
  else .next s

end Sys2Proof.Machine
end

