-- ==== Sys2Proof/Machine/Hbm.lean ====
section
/-!
DEFINITION. The HBM4 controllers (R383 to R386), the hot-page tracker (R296, R297), the remote reader ports (R295,
R381, R382), and memory errors (R355).
-/
namespace Sys2Proof.Machine

/-! ## Controllers -/

/-- `PER_BANK_REFRESH`: one tREFI has passed (R383). With demand traffic the refresh is owed, up to 8; without, the
controller issues it and one that it owes (log 30). -/
def execPerBankRefresh (die : DieId) (ch bank : Nat) (busy : Bool) (s : State) : Host.Outcome State Fault Refusal :=
  let x := s.bank die ch bank
  .next (if 128 ≤ ch then s else s.setBank die ch bank { x with owed := if busy then min 8 (x.owed + 1) else x.owed - 1 } 0 0)

/-- `ACTIVATION`: a bank of one of the 128 channels of the die activates a row (R3, R384). -/
def execActivation (die : DieId) (ch bank row : Nat) (s : State) : Host.Outcome State Fault Refusal :=
  .next (if ch < 128 then s.activate die ch bank row else s)

/-- `TRACKER_CLEAR`: the bank's full refresh window ends (R384). -/
def execTrackerClear (die : DieId) (ch bank : Nat) (s : State) : Host.Outcome State Fault Refusal :=
  .next (if 128 ≤ ch then s else s.setBank die ch bank { s.bank die ch bank with rows := [] } 0 0)

/-- `ACTIVATION_COUNT_ALERT`: activations are held; the 8 owed refreshes, and refresh management for every tracked row
at half the threshold or more (R386). -/
def execActivationCountAlert (die : DieId) (ch bank : Nat) (s : State) : Host.Outcome State Fault Refusal :=
  let x := s.bank die ch bank
  let thr := ((s.die die).channel ch).thr
  let hot := x.rows.filter fun r => thr ≤ 2 * r.2
  .next (if 128 ≤ ch then s else s.setBank die ch bank
    { held := true, owed := if x.owed = 8 then 0 else x.owed,
      rows := mapVals (fun n => if thr ≤ 2 * n then 0 else n) x.rows } hot.length 1)

/-- `ALERT_RELEASE`: the alert's commands have completed (R386). -/
def execAlertRelease (die : DieId) (ch bank : Nat) (s : State) : Host.Outcome State Fault Refusal :=
  .next (if 128 ≤ ch then s else s.setBank die ch bank { s.bank die ch bank with held := false } 0 0)

/-- `CHANNEL_CONFIG_WRITE`, R385: by the owner (R372). -/
def execChannelConfigWrite (m : BitVec 16) (die : DieId) (ch : Nat) (v : Word) (s : State) :
    Host.Outcome State Fault Refusal :=
  .next (s.ownerOnly m fun s => if ch < 128 then s.writeChannel die ch v else s)

/-! ## The hot-page tracker -/

/-- The cycle at which the epoch of the tracker ends, R296. -/
def DieState.epochEnd (x : DieState) : Nat := x.hotEpoch + 2 ^ 20

/-- A page of the tracker that meets the proposal test at the end of the epoch, R296: not within a skip of R297. -/
def DieState.hotMeets (x : DieState) (e : Nat × Nat × Nat) : Bool :=
  x.hotThr ≤ e.2.2 && 2 * e.2.1 < e.2.2 && !(x.hotSkip.any fun k => k.1 == e.1 && x.epochEnd ≤ k.2)

/-- Inserts a page by descending remote count, lower key first on a tie. -/
def insertHot (e : Nat × Nat × Nat) : List (Nat × Nat × Nat) → List (Nat × Nat × Nat)
  | [] => [e]
  | f :: r => if f.2.2 < e.2.2 then e :: f :: r else f :: insertHot e r

/-- Size and page number of a tracker key. -/
def hotPage (k : Nat) : Nat × Nat := (k / 2 % 64, k / 128)

/-- `HOT_PAGE_EPOCH_END`: the epoch of 2^20 cycles is over and the next one has begun; PEERDST pages are skipped and logged,
and at most 16 others are proposed (R296, R297). -/
def execHotPageEpochEnd (die : DieId) (s : State) : Host.Outcome State Fault Refusal :=
  let x := s.die die
  if x.cycle < x.epochEnd then .next s
  else
    let meets := x.hot.filter x.hotMeets
    let skip := meets.filter fun e => e.1 % 2 = 1
    let go := ((meets.filter fun e => e.1 % 2 = 0).foldl (fun l e => insertHot e l) []).take 16
    let s := skip.foldl (fun s e =>
      s.logRas 0x06 0 (dieNo die) (dieNo die) (wordN ((hotPage e.1).2 * 2 ^ (hotPage e.1).1))) s
    let skips := skip.foldl (fun l e => mapSet l e.1 (x.epochEnd + 2 ^ 20)) (x.hotSkip.filter fun k => x.epochEnd ≤ k.2)
    let s := s.modDie die fun d => { d with hot := [], hotSkip := skips, hotEpoch := x.epochEnd }
    .next (if go.isEmpty then s else s.answer (.hotPages die (go.map fun e => hotPage e.1)))

/-! ## Remote readers -/

/-- Entry e of a stack's table grants a read, R381. -/
def DieState.accessGrants (x : DieState) (stack e reader addr len : Nat) : Bool :=
  let w := fun i => (mapGet 0 x.access ((stack % 4 * 256 + e) * 2 + i)).toNat
  let base := bitsN (w 0) 51 16 * 65536
  (w 1).testBit 63 && (bitsN (w 1) 47 32 == reader || bitsN (w 1) 47 32 == 0xFFFF) && base / 2 ^ 36 == stack
    && base ≤ addr && addr + len ≤ base + bitsN (w 1) 31 0 * 65536

/-- A remote read is granted, R295, R369 and R381. -/
def State.remoteOk (s : State) (stack reader addr len : Nat) : Bool :=
  let d := homeDie addr
  !s.hub.wiping && (len == 64 || len == 128) && addr / 2 ^ 36 == stack && stack < 8 && s.physRow addr == .hbm
    && s.physRow (addr + len - 1) == .hbm && (addr + len - 1) / 2 ^ 36 == stack
    && (List.range 256).any fun e => (s.die d).accessGrants stack e reader addr len

/-- A byte as the port returns it: entry j of `old` asks for an older value of the j-th part, 1 for the one before the last
write that no `CFLUSH.sys` has covered, 2 for the one before that (R236). -/
def State.remoteByte (s : State) (addr i : Nat) (old : List Nat) : Byte :=
  match old.getD ((addr + i) / 8 - addr / 8) 0 with
  | 0 => s.byte (addr + i)
  | k + 1 =>
    match (mapGet [] s.stale ((addr + i) / 8)).reverse[k]? with
    | some w => (leBytes 8 w.toNat).getD ((addr + i) % 8) 0
    | none => s.byte (addr + i)

/-- `REMOTE_READ`: checked once, when it arrives at one of the 8 ports (R3, R295, R382). -/
def execRemoteRead (stack reader addr len : Nat) (old : List Nat) (s : State) : Host.Outcome State Fault Refusal :=
  .next (if 8 ≤ stack then s
    else if s.remoteOk stack reader addr len then
      s.answer (.remoteData stack reader addr ((List.range len).map fun i => s.remoteByte addr i old))
    else (s.logRas 0x07 0 (dieNo (if stack < 4 then .a else .b)) stack (wordN reader)).answer
      (.remoteRefused stack reader addr))

/-- `ACCESS_CONTROL_ENTRY_WRITE`, R381 and R382: by the owner (R372). -/
def execAccessControlEntryWrite (m : BitVec 16) (die : DieId) (stack entry : Nat) (hi : Bool) (v : Word) (s : State) :
    Host.Outcome State Fault Refusal :=
  .next (s.ownerOnly m fun s => s.writeAccess die stack entry (if hi then 1 else 0) v)

/-! ## Memory errors -/

/-- `MEMORY_ERROR`: a corrected error is logged, and an uncorrectable one poisons its 8 bytes and is logged (R355,
R393). Cluster SRAM that is in service (R2) belongs to no channel, so the unit of its record is free (log 6). -/
def execMemoryError (addr : Nat) (uncorr : Bool) (s : State) : Host.Outcome State Fault Refusal :=
  match s.physRow addr with
  | .hbm | .sram =>
    if s.physRow addr = .sram ∧ !s.cluInService ((addr - sramBase) / sramSize) then .next s else
    let hbm : Bool := s.physRow addr == .hbm
    let (s, w) := s.freeWord
    let unit := if hbm then s.channelOf addr else w.toNat % 2 ^ 32
    let die := if hbm then homeDie addr else dieOf ((addr - sramBase) / sramSize)
    let s := if uncorr then { s with poison := mapSet s.poison (addr / 8) true } else s
    .next (s.logRas (if uncorr then 0x04 else 0x03) (if uncorr then 2 else 1) (dieNo die) unit (wordN addr))
  | _ => .next s

end Sys2Proof.Machine
end

