-- ==== Sys2Proof/Machine/Interface.lean ====
section
/-!
DEFINITION. What the host, peers and masters do (R370 to R380), and the writes of the tables that have events of their
own, with the swap of partitions (R286, R314, R345 to R349).
-/
namespace Sys2Proof.Machine

/-! ## CXL.mem -/

/-- The HBM4 of the package can be reached from outside: no wipe runs, and Ciros is not in recovery (R364, R369). -/
def State.memOpen (s : State) : Bool := !s.hub.wiping && !s.hub.recovery

/-- Every byte of a range lies in HBM4. -/
def State.allHbm (s : State) (pa n : Nat) : Bool := (List.range n).all fun i => s.physRow (pa + i) == .hbm

/-- `CXL_MEM_READ`: at the coherence point; no data during a wipe or where a byte is poisoned or lies outside HBM4
(R355, R369, R375). -/
def execCxlMemRead (addr len : Nat) (s : State) : Host.Outcome State Fault Refusal :=
  let ok := s.memOpen && s.allHbm addr len && !(List.range len).any fun i => s.poisoned (addr + i)
  .next (s.answer (.cxlData addr (if ok then some (s.bytesPhys addr len) else none)))

/-- `CXL_MEM_WRITE`: from the host, which must own the device (R369, R372, R375). -/
def execCxlMemWrite (addr : Nat) (bytes : List Byte) (s : State) : Host.Outcome State Fault Refusal :=
  .next (s.ownerOnly 1 fun s =>
    if s.memOpen && s.allHbm addr bytes.length then s.performBytes .outside (listWrite addr bytes) else s)

/-! ## Peers -/

/-- Inbound window w admits an access of a node, R377. -/
def Hub.windowOk (h : Hub) (w node addr len : Nat) (r wr : Bool) : Bool :=
  let base := bitsN (mapGet 0 h.windows (2 * w)).toNat 51 16 * 65536
  let v := (mapGet 0 h.windows (2 * w + 1)).toNat
  v.testBit 63 && (!wr || v.testBit 62) && (!r || v.testBit 61) && (v.testBit 60 || bitsN v 50 40 == node)
    && base ≤ addr && addr + len ≤ base + bitsN v 31 0 * 65536

/-- A peer access is performed, R369, R376 and R377: 1 to 128 bytes within a line, in HBM4, inside a window. -/
def State.peerOk (s : State) (node addr len : Nat) (r wr : Bool) : Bool :=
  s.memOpen && !s.hub.linksUp.isEmpty && 1 ≤ len && addr % 128 + len ≤ 128 && s.allHbm addr len
    && (List.range 16).any fun w => s.hub.windowOk w node addr len r wr

/-- A refused peer access, R377. -/
def State.peerRefuse (s : State) (node addr : Nat) : State :=
  (s.logRas 0x08 0 2 0 (wordN node)).answer (.peerRefused node addr)

/-- `PEER_READ`, R376 and R377. -/
def execPeerRead (node addr len : Nat) (s : State) : Host.Outcome State Fault Refusal :=
  .next (if s.peerOk node addr len true false then s.answer (.peerData node addr (s.bytesPhys addr len))
    else s.peerRefuse node addr)

/-- `PEER_WRITE`, R376 and R377. -/
def execPeerWrite (node addr : Nat) (bytes : List Byte) (s : State) : Host.Outcome State Fault Refusal :=
  .next (if s.peerOk node addr bytes.length false true then
      (s.performBytes .outside (listWrite addr bytes)).answer (.peerAck node addr)
    else s.peerRefuse node addr)

/-- The value that a peer's `AMO` or `CAS` leaves, R119. -/
def peerNew (isCas : Bool) (op : AmoOp) (ty : Ty) (x y : Word) (old : Nat) : Nat :=
  if isCas then (if old = x.toNat % 2 ^ ty.width then y.toNat % 2 ^ ty.width else old) else amoInt op ty old x.toNat

/-- `PEER_ATOMIC`: of 4 or 8 bytes, aligned, at the coherence point; it needs both R and W (R376, R377). -/
def execPeerAtomic (node addr : Nat) (cas : Bool) (op : AmoOp) (ty : Ty) (x y : Word) (s : State) :
    Host.Outcome State Fault Refusal :=
  let n := ty.width / 8
  .next (if (n == 4 || n == 8) && addr % n == 0 && s.peerOk node addr n true true then
      let old := s.readPhys addr n
      (s.performBytes .outside (numWrite addr n (peerNew cas op ty x y old))).answer (.peerData node addr (leBytes n old))
    else s.peerRefuse node addr)

/-- The lines of a copy's destination that it has still to write. -/
def Node.linesLeft (n : Node) : List (Word × Nat) :=
  if n.ring.isSome then []
  else (((n.rows.flatMap fun r => lineSpan r.1 r.2).zipIdx).filter fun c => !n.wrote.contains c.2).map (·.1)

/-- The first byte of a peer's memory that a running copy has still to read or to write. -/
def State.peerByte (s : State) (n : Node) : Option Word :=
  let dst := n.linesLeft.flatMap fun c => (s.pieces n.ctx .write c.1 c.2).1
  ((n.todo.map (·.piece) ++ dst).find? fun p => s.physRow p.place.pa == .peer).map (·.va)

/-- The pending writes of threads to peers are performed: their instructions have completed (R337, log 29). -/
def State.landPeerWrites (s : State) : State :=
  s.threads.foldl (fun s t => s.drainW t.1 fun w => w.bytes.any fun b => s.physRow b.1 == .peer) s

/-- The running copies of the package that reach a peer, with the byte that fails. -/
def State.peerCopies (s : State) : List (Nat × Nat × Word) :=
  s.cores.flatMap fun c => (c.2.nodes.filter fun n => n.2.copying).filterMap fun n =>
    (s.peerByte n.2).map fun a => (c.1, n.1, a)

/-- `HOLT_LINK_DOWN`: the running copies that reach a peer fail with DATAFAULT (R220, R377). -/
def execHoltLinkDown (link : Nat) (s : State) : Host.Outcome State Fault Refusal :=
  if s.hub.linksUp.contains link then
    let s := s.landPeerWrites
    let s := s.peerCopies.foldl (fun s c =>
      match mapFind (s.core c.1).nodes c.2.1 with
      | some n => s.failCopy (.datafault, c.2.2) c.1 c.2.1 n
      | none => s) s
    .next (s.modHub fun h => { h with linksUp := h.linksUp.filter (· != link) })
  else .next s

/-- `HOLT_LINK_UP`: one of the 16 links (R3, R376). -/
def execHoltLinkUp (link : Nat) (s : State) : Host.Outcome State Fault Refusal :=
  .next (s.modHub fun h => if 16 ≤ link || h.linksUp.contains link then h else { h with linksUp := h.linksUp ++ [link] })

/-! ## Reductions -/

/-- `REDUCTION_GROUP_ENABLE`, R378 and R379: a write by the owner (R372). -/
def execReductionGroupEnable (m : BitVec 16) (g : Nat) (v : Word) (s : State) : Host.Outcome State Fault Refusal :=
  .next (s.ownerOnly m fun s => s.writeRed g v)

/-- One sum of a reduction: rounded to nearest even for float types, modulo the width for the others (R237, R380). -/
def redSum (ty : Ty) (a b : Nat) : Nat :=
  match ty with
  | .h16 | .f32 | .f64 => (fAdd ty .rne a b).1
  | _ => (a + b) % 2 ^ ty.width

/-- A byte of a slot as the engine reads it: one that was written after its arrival bit may still show a value of before
(R380). -/
def State.redByte (s : State) (pa : Nat) : Byte :=
  let l := mapGet [] s.redOld (pa / 8)
  match l[Config.pick (s.freeIx * 2 ^ 49 + pa / 8) % (l.length + 1)]? with
  | some w => (leBytes 8 w.toNat).getD (pa % 8) 0
  | none => s.byte pa

/-- Element i of the result: the contributions in ascending rank (R237). -/
def State.redElem (s : State) (r : RedGroup) (i : Nat) : Nat :=
  let n := r.ty.width / 8
  let at' := fun k => leNat ((List.range n).map fun j => s.redByte (r.landing + k * r.slot + i * n + j))
  (List.range (r.ranks - 1)).foldl (fun acc k => redSum r.ty acc (at' (k + 1))) (at' 0)

/-- Every rank has set its arrival bit, R380. -/
def State.redArrived (s : State) (r : RedGroup) : Bool := (List.range r.ranks).all fun k => (s.physWord r.arrival).testBit k

/-- Combines a group, R380: the copy engine of the group's core writes the result, then the arrival word, then the
completion value. -/
def State.combine (s : State) (r : RedGroup) : State :=
  let bs := (List.range r.count).flatMap fun i => leBytes (r.ty.width / 8) (s.redElem r i)
  let s := { s.writePhys (.core r.core) (listWrite (r.landing + r.ranks * r.slot) bs) with
             freeIx := s.freeIx + 1,
             redOld := s.redOld.filter fun e =>
               !(r.landing ≤ 8 * e.1 && 8 * e.1 < r.landing + r.ranks * r.slot) }
  (s.engineNum (.core r.core) r.arrival 8 0).engineNum (.core r.core) r.compAddr 8 r.compVal.toNat

/-- `REDUCTION_COMBINE`: all arrival bits of an enabled group are set, and the group's core is in service and not held in
reset (R2, R364, R380). -/
def execReductionCombine (g : Nat) (s : State) : Host.Outcome State Fault Refusal :=
  match mapFind s.hub.redg g with
  | some r =>
    .next (if r.reg.getLsbD 63 && s.redArrived r && s.coreUp r.core && !s.hub.recovery then s.combine r else s)
  | none => .next s

/-! ## Tables -/

/-- `REGION_TABLE_WRITE`, R313 and R314: a write by the owner (R372). -/
def execRegionTableWrite (m : BitVec 16) (die : DieId) (i : Nat) (v : Word) (s : State) :
    Host.Outcome State Fault Refusal :=
  .next (s.ownerOnly m fun s => s.writeRegion die i v)

/-- `RANGE_TABLE_WRITE`, R286 and R287: a write by the owner (R372). -/
def execRangeTableWrite (m : BitVec 16) (die : DieId) (entry : Nat) (hi : Bool) (v : Word) (s : State) :
    Host.Outcome State Fault Refusal :=
  .next (s.ownerOnly m fun s => s.writeRange die entry (if hi then 1 else 0) v)

/-- `PARTITION_TABLE_WRITE`, R348: a write by the owner (R372). -/
def execPartitionTableWrite (m : BitVec 16) (die : DieId) (p word : Nat) (v : Word) (s : State) :
    Host.Outcome State Fault Refusal :=
  .next (s.ownerOnly m fun s => s.writePart die p word v)

/-! ## Swaps -/

/-- `SWAP_OUT`: the owner writes SWAP (R345, R349, R372). -/
def execSwapOut (m : BitVec 16) (die : DieId) (v : Word) (s : State) : Host.Outcome State Fault Refusal :=
  .next (s.ownerOnly m fun s => s.writeSwap die v)

/-- Bytes of the context of clusters, R347. -/
def State.contextSize (s : State) (cs : List Nat) : Nat :=
  (cs.map fun c => 8 * 728 * 1024 + 16384
    + 131072 * ((List.range 32).filter fun b => (s.cluster c).mode b != .cache).length).foldl (· + ·) 0

/-- The part of a saved context that finds no room in the shadow area goes to the overflow area: what those bytes of HBM4
then hold is free (R347, log 51). -/
def State.fillOverflow (s : State) (p : Part) (size : Nat) : State :=
  let n := size - (shadowArea p.w2).2 * 2 ^ 20
  let lo := bitsN p.w3.toNat 51 12 * 4096
  if n = 0 then s
  else { s with veil := (lo, lo + n, s.freeIx) :: s.veil, freeIx := s.freeIx + n, mem := mapDropRange s.mem lo (lo + n),
                poison := mapDropRange s.poison (lo / 8) ((lo + n) / 8) }

/-- Saves the halted partition, R346 and R347: the cache-way banks are written back, it is out, its clusters are idle, and
the incoming one may be restored. The duration of the swap counts from now, for the partition is halted (R345, R349). -/
def State.savePart (s : State) (d : DieId) (o : Nat) : State :=
  let p := (s.die d).partOf o
  let cs := cluList d p.clu
  let snap := s.snapshot cs
  let s := s.fillOverflow p (s.contextSize cs)
  let s := (s.resetClusters cs).modDie d fun ds =>
    let p : Part := { ds.partOf o with st := .out, saved := snap }
    let w : Swap := { ds.swap with saved := true, since := s.time.toNat }
    { ds with parts := mapSet ds.parts o p, swap := w }
  match (s.die d).swap.inP with
  | some i => s.setPartSt d i .restoring
  | none => s.endSwap d

/-- `PARTITION_SAVE`: the outgoing partition is halted: its passes, `BGEMV`s and running copies have completed (R345,
R346). -/
def execPartitionSave (die : DieId) (s : State) : Host.Outcome State Fault Refusal :=
  let w := (s.die die).swap
  match w.outP with
  | some o =>
    if w.busy && !w.saved && ((s.die die).partOf o).st = .halting
        && s.quiet (cluList die ((s.die die).partOf o).clu) then .next (s.savePart die o)
    else .next s
  | none => .next s

/-- Restores a partition, R346 and R349. -/
def State.restorePart (s : State) (d : DieId) (i : Nat) : State :=
  let p := (s.die d).partOf i
  let s := (s.restore (cluList d p.clu) p.saved).modDie d fun ds =>
    let p : Part := { p with st := .resident, saved := {} }
    { ds with parts := mapSet ds.parts i p }
  s.endSwap d

/-- `SWAP_IN`: once nothing is left to save, the incoming partition is restored and resident (R349). -/
def execSwapIn (die : DieId) (s : State) : Host.Outcome State Fault Refusal :=
  let w := (s.die die).swap
  match w.inP with
  | some i =>
    if w.busy && w.saved && ((s.die die).partOf i).st = .restoring then .next (s.restorePart die i) else .next s
  | none => .next s

/-! ## Ownership -/

/-- `OWNCLAIM`, R371. -/
def execOwnclaim (m : BitVec 16) (v : Word) (s : State) : Host.Outcome State Fault Refusal := .next (s.ownClaim m v)
/-- `HEARTBEAT`, R371. -/
def execHeartbeat (m : BitVec 16) (v : Word) (s : State) : Host.Outcome State Fault Refusal := .next (s.heartBeat m v)
/-- `SUCCESSOR`, R371. -/
def execSuccessor (m : BitVec 16) (v : Word) (s : State) : Host.Outcome State Fault Refusal := .next (s.succeed m v)

/-- `OWNERSHIP_EXPIRY`: 2 s after the last claim, heartbeat or successor write that succeeded (R371). -/
def execOwnershipExpiry (s : State) : Host.Outcome State Fault Refusal :=
  .next s.expire

/-- `REGISTER_WRITE`: a master writes a register at a physical address of the three blocks (R361, R372). -/
def execRegisterWrite (m : BitVec 16) (addr size : Nat) (v : Word) (s : State) : Host.Outcome State Fault Refusal :=
  .next (if s.physRow addr = .reg then s.writeReg (some m) addr size v else s)

/-- A master reads a register of the three blocks, which needs no ownership: an aligned 8-byte access reads it, and any
other reads zero and is logged (R361, R372). -/
def State.hostRead (s : State) (m : BitVec 16) (addr size : Nat) : State :=
  if !masterOk m || s.physRow addr != .reg then s
  else if size = 8 ∧ addr % 8 = 0 then s.answer (.regData m addr (s.readReg addr))
  else (s.logAccess (some m)).answer (.regData m addr 0)

/-- The writes of ownership registers that arrive in one hub cycle: the expiry of the timer, then the host, the board
controller, and the peers in ascending node id (R373). -/
def State.ownershipCycle (s : State) (l : List (BitVec 16 × Nat × Word)) : State :=
  let order := l.foldr (fun x r => r.takeWhile (fun y => y.1 < x.1) ++ x :: r.dropWhile fun y => y.1 < x.1) []
  order.foldl (fun s w => (s.writeOwnReg w.1 w.2.1 w.2.2).getD s) s.expire

end Sys2Proof.Machine
end

