-- ==== Sys2Proof/Machine/Boot.lean ====
section
/-!
DEFINITION. Ciros: reset, boot and measurement (R362 to R365), the wipe (R368, R399), the life cycle (R367), SPDM
(R366), firmware slots and the minimum version (R397), contexts that Ciros starts (R358), and restarts (R223).
-/
namespace Sys2Proof.Machine

/-! ## Boot -/

/-- Starts a boot image, R362. -/
def Hub.startImage (h : Hub) (i : Image) : Hub := { h.extend 0 (imageDigest i) with booted := true }

/-- The boot ROM, R362: slot A, else slot B, else recovery (R364). MEAS2 takes the life-cycle and fuse record (R365). -/
def Hub.boot (h : Hub) (b : BootInput) : Hub :=
  let h := { h with target := b }.extend 2 (sha384 (Config.fuseRecord h.life h.identityWord.toNat))
  match b.slotA.filter (h.passes (· == 0)), b.slotB.filter (h.passes (· == 0)) with
  | some i, _ => h.startImage i
  | none, some i => h.startImage i
  | none, none => { h with recovery := true }

/-! ## Reset -/

/-- Units out of service, R391: cores of each cluster, cores without lanes 8 to 15, channels of each stack. -/
def coresUnder (l : List (Nat × Word)) : List (Nat × BitVec 8) :=
  (retiredUnits l 1).foldl
    (fun m u => mapSet m (u / 8) (mapGet 0xFF m (u / 8) &&& ~~~((1 : BitVec 8) <<< (u % 8)))) []
/-- Cores whose lanes 8 to 15 are retired, R391. -/
def halvesUnder (l : List (Nat × Word)) : List (Nat × BitVec 8) :=
  (retiredUnits l 2).foldl (fun m u => mapSet m (u / 8) (mapGet 0 m (u / 8) ||| ((1 : BitVec 8) <<< (u % 8)))) []
/-- Channels in service, R391. -/
def stacksUnder (l : List (Nat × Word)) : List (Nat × BitVec 32) :=
  ((List.range 8).map fun k => (k, chansUnder l k)).filter fun e => e.2 != 0xFFFFFFFF

/-- The hub after a reset: fuses, the nonvolatile lists and the shadow register stay, and the retire list and the
carve-out take effect (R347, R371, R391, R392, R397). -/
def Hub.afterReset (h : Hub) : Hub :=
  { life := h.life, identity := h.identity, part := h.part, isModule := h.isModule, step := h.step, fclu := h.fclu,
    stk := h.stk, keyHash := h.keyHash, revoked := h.revoked, minVersion := h.minVersion, retired := h.retired,
    clu := cluUnder h h.retired, cores := coresUnder h.retired, halfLanes := halvesUnder h.retired,
    chans := stacksUnder h.retired, fatal := h.fatal, wipe := h.wipe, shadowReg := h.shadowReg,
    shadow := (min 64 (bitsN h.shadowReg.toNat 6 0), min 64 (bitsN h.shadowReg.toNat 14 8)), wiping := true }

/-- The address lies outside the package: no wipe reaches it (R360, R368). -/
def outsideKey (k : Nat) : Bool := 2 ^ 39 ≤ k && k < sramBase

/-- Memory after a wipe, R368. -/
def State.wipedMem (s : State) : State :=
  { s with mem := s.mem.filter fun e => outsideKey e.1, poison := [], veil := [], tern := [], held := [], moved := [],
           keyAt := [], keyHit := [], redOld := [], old := s.old.filter fun e => outsideKey (8 * e.1), stale := s.stale.filter fun e => outsideKey (8 * e.1) }

/-- The whole machine after a reset (R368): what lies outside the package stays. -/
def State.afterReset (s : State) : State :=
  let s := s.wipedMem
  { turns := s.turns, mem := s.mem, old := s.old, stale := s.stale, hub := s.hub.afterReset, peers := s.peers,
    out := s.out, freeIx := s.freeIx, stamp := s.stamp, uid := s.uid }

/-- A package reset and the boot that follows it. -/
def State.resetWith (s : State) (b : BootInput) : State := s.afterReset.modHub fun h => h.boot b

/-- `RESET`, R362 and R368; the wipe has begun. -/
def execReset (boot : BootInput) (s : State) : Host.Outcome State Fault Refusal := .next (s.resetWith boot)

/-! ## The wipe and the life cycle -/

/-- The wipe of a life-cycle change: registers of cores, clusters and engines, SRAM, shadow storage and HBM4 (R368). -/
def State.startWipe (s : State) (cause : Nat) : State :=
  let wipeDie := fun (d : DieState) =>
    { d with packets := [], slices := [], freed := [], parts := mapVals (fun (p : Part) => { p with saved := {} }) d.parts }
  { s.wipedMem with
    threads := [], cores := [], gnodes := [],
    clusters := mapVals (fun (c : Cluster) => { cycle := c.cycle, counters := c.counters }) s.clusters,
    dieA := wipeDie s.dieA, dieB := wipeDie s.dieB,
    hub := { s.hub with wiping := true, wipeCause := cause, ready := false } }

/-- The device reports ready, R362. -/
def Hub.updateReady (h : Hub) : Hub := { h with ready := h.readyPoint && !h.wiping && !h.recovery }

/-- Logs the end of a wipe for each stack that it covered, R392 and R393. -/
def State.logWipe (s : State) (failed : BitVec 8) : State :=
  ((List.range 8).filter fun k => s.hub.stk.getLsbD k).foldl (fun s k =>
    s.logRas 0x0D (if failed.getLsbD k then 3 else 0) (dieNo (if k < 4 then .a else .b)) k (wordN s.hub.wipe.count)) s

/-- The bits of retired channels in a list of 32 bytes, R399. -/
def Hub.retiredBytes (h : Hub) (l : List Byte) : List Byte :=
  (List.range 32).map fun j =>
    l.getD j 0 &&& ~~~((mapGet 0xFFFFFFFF h.chans (j / 4)).extractLsb' (8 * (j % 4)) 8)

/-- `WIPE_COMPLETE`: the record W, MEAS3, and readiness; a stack that cannot be wiped keeps the device in recovery
(R362, R365, R368, R399). -/
def execWipeComplete (failed : BitVec 8) (dur : Word) (unread : List Byte) (s : State) :
    Host.Outcome State Fault Refusal :=
  if !s.hub.wiping then .next s
  else
    let f := failed &&& s.hub.stk
    let s := s.modHub fun h =>
      let unread := h.retiredBytes unread
      let w : Wipe := { count := h.wipe.count + 1, cause := h.wipeCause, stackBits := h.stk, failed := f, dur := dur,
                        unread := unread }
      ({ h with wipe := w, wiping := false, recovery := h.recovery || f != 0 }.extend 3
        (sha384 w.bytes)).updateReady
    .next (s.logWipe f)

/-- `RECOVERY_IMAGE`: in recovery the owner offers a boot image on the management port (R364, R372). -/
def execRecoveryImage (m : BitVec 16) (img : Image) (s : State) : Host.Outcome State Fault Refusal :=
  .next (s.ownerMay m false fun s =>
    if m = 2 && s.hub.recovery && s.hub.passes (· == 0) img then
      s.modHub fun h => { h.startImage img with recovery := h.wipe.failed != 0 && !h.wiping }
    else s)

/-- `PROVISION`: blank becomes provisioned, and the identity key is generated (R366, R367). The spec gives the provisioning
record no format; the event says whether an Ndonoholt key has signed it (log 7). -/
def execProvision (m : BitVec 16) (signed : Bool) (s : State) : Host.Outcome State Fault Refusal :=
  .next (s.ownerMay m false fun s =>
    if s.hub.life = 0 && signed then
      (s.modHub fun h => { h with life := 1, identity := true }).startWipe 1
    else s)

/-- `DEPLOY`: provisioned becomes deployed (R367). -/
def execDeploy (m : BitVec 16) (s : State) : Host.Outcome State Fault Refusal :=
  .next (s.ownerMay m false fun s =>
    if s.hub.life = 1 then (s.modHub fun h => { h with life := 2 }).startWipe 1 else s)

/-- `DECOMMISSION`: the identity key is destroyed (R367). -/
def execDecommission (m : BitVec 16) (s : State) : Host.Outcome State Fault Refusal :=
  .next (s.ownerMay m false fun s =>
    if s.hub.life = 1 ∨ s.hub.life = 2 then
      (s.modHub fun h => { h with life := 3, identity := false }).startWipe 1
    else s)

/-! ## SPDM: the codes are those of SPDM 1.3 (PRESUMED, log 7) -/

/-- ERROR UnsupportedRequest, R366. -/
def State.spdmError (s : State) : State := s.answer (.spdm 0x7F [0x07])

/-- An answer of Ciros; a decommissioned device answers GET_VERSION only (R367). -/
def State.spdmAnswer (s : State) (code : Nat) (payload : List Byte) : State :=
  if s.hub.life = 3 then s.spdmError else s.answer (.spdm code payload)

/-- `GET_VERSION`, R366. -/
def execGetVersion (s : State) : Host.Outcome State Fault Refusal :=
  .next (s.answer (.spdm 0x04 (Config.spdmBody 0x84 [])))
/-- The capability flags: certificates, challenges and measurements, and no secure session (R366). -/
def spdmFlags : Nat := 0x16
/-- The base algorithms: ECDSA P-384 and SHA-384 (R366). -/
def spdmAlgorithms : List Byte := leBytes 4 0x80 ++ leBytes 4 0x02

/-- `GET_CAPABILITIES`: the flags, then what the spec does not give (R366). -/
def execGetCapabilities (s : State) : Host.Outcome State Fault Refusal :=
  .next (s.spdmAnswer 0x61 (leBytes 4 spdmFlags ++ Config.spdmBody 0xE1 []))
/-- `NEGOTIATE_ALGORITHMS`: the algorithms, then what the spec does not give (R366). -/
def execNegotiateAlgorithms (s : State) : Host.Outcome State Fault Refusal :=
  .next (s.spdmAnswer 0x63 (spdmAlgorithms ++ Config.spdmBody 0xE3 []))
/-- `GET_DIGESTS`, R366: there is a chain once the identity key exists. -/
def execGetDigests (s : State) : Host.Outcome State Fault Refusal :=
  .next (if s.hub.identity then s.spdmAnswer 0x01 (sha384 Config.certChain) else s.spdmError)
/-- `GET_CERTIFICATE`, R366: there is a chain once the identity key exists. -/
def execGetCertificate (off len : Nat) (s : State) : Host.Outcome State Fault Refusal :=
  .next (if s.hub.identity then s.spdmAnswer 0x02 (sliceB Config.certChain off len) else s.spdmError)
/-- `CHALLENGE`, R366: signed with the identity key, where there is one (R367). -/
def execChallenge (nonce : List Byte) (s : State) : Host.Outcome State Fault Refusal :=
  .next (if s.hub.identity then
      s.spdmAnswer 0x03 (Config.spdmBody 0x83 nonce ++ Config.identitySign (Config.spdmBody 0x83 nonce))
    else s.spdmError)
/-- `GET_MEASUREMENTS`: indices 1 to 8 return MEAS0 to MEAS7 as raw digests (R366). -/
def execGetMeasurements (index : Nat) (s : State) : Host.Outcome State Fault Refusal :=
  .next (if 1 ≤ index ∧ index ≤ 8 then s.spdmAnswer 0x60 (s.hub.measReg (index - 1)) else s.spdmError)
/-- `UNSUPPORTED_REQUEST`: every other request (R366). -/
def execUnsupportedRequest (_code : Byte) (s : State) : Host.Outcome State Fault Refusal := .next s.spdmError

/-! ## Firmware -/

/-- `FIRMWARE_STAGE_START`: a later stage is verified and measured into MEAS1 before it runs (R362, R365). -/
def execFirmwareStageStart (img : Image) (s : State) : Host.Outcome State Fault Refusal :=
  .next (if s.hub.booted && s.hub.passes (· == 1) img then s.modHub fun h => h.extend 1 (imageDigest img) else s)

/-- `FIRMWARE_MEASUREMENT_REQUEST`: an image is measured into the register of MEAS4 to MEAS7 that it names (R365). -/
def execFirmwareMeasurementRequest (img : Image) (s : State) : Host.Outcome State Fault Refusal :=
  .next (if s.hub.booted && s.hub.passes (fun r => 4 ≤ r && r ≤ 7) img then
      s.modHub fun h => h.extend (imageReg img) (imageDigest img)
    else s)

/-- `READY_POINT`: the boot image reaches its ready point (R362). -/
def execReadyPoint (s : State) : Host.Outcome State Fault Refusal :=
  .next (if s.hub.booted then s.modHub fun h => { h with readyPoint := true }.updateReady else s)

/-- `SLOT_VERIFY`: the owner names a slot (R397). -/
def execSlotVerify (m : BitVec 16) (v : Word) (s : State) : Host.Outcome State Fault Refusal :=
  .next (s.ownerOnly m fun s => s.writeHub 0x0400 v)

/-- `SLOT_VERIFY_DONE`: the result of a verification that has been started; a slot that cannot be read fails, and its
version is free (R397, log 6). -/
def execSlotVerifyDone (img : Option Image) (s : State) : Host.Outcome State Fault Refusal :=
  if !s.hub.verifying then .next s
  else
    let (s, w) := s.freeWord
    .next (s.modHub fun h =>
      match img with
      | some i => { h with verifying := false, verify := if h.passes (· == 0) i then 1 else 2,
                           verifyVersion := BitVec.ofNat 32 (imageVersion i) }
      | none => { h with verifying := false, verify := 2, verifyVersion := w.setWidth 32 })

/-- `MINIMUM_VERSION_RAISE`: burnt when slot A passes with at least that version (R397). -/
def execMinimumVersionRaise (m : BitVec 16) (v : Word) (slotA : Option Image) (s : State) :
    Host.Outcome State Fault Refusal :=
  .next (s.ownerOnly m fun s => s.raiseMin v slotA)

/-! ## Contexts of Ciros -/

/-- The region of a control block: as an enabled table entry holds it, else as its bytes give it (R315, R358). -/
def State.regionAt (s : State) (d : DieId) (rcb : Nat) : Region :=
  match ((s.dieA.regions ++ s.dieB.regions).map (·.2)).find? fun r => r.rcb == rcb with
  | some r => r
  | none => s.readRegion d 0 0 rcb ((s.rcbChain 8 rcb).getD [rcb])

/-- The state in which Ciros starts a context, R358. -/
def State.cirosState (s : State) (tid : Nat) (addr : Word) (args : List Word) (r : Region) : Thread :=
  { run := .ready, ciros := true, sup := true, pc := addr, x := startRegs 0 0 tid args [],
    grant := if s.halfCore (coreOf tid) then 0x30 else 0x40, region := some r, vt := s.startVt tid }

/-- `CIROS_START_CONTEXT`: a free context of a core in service, at a 16-byte-aligned address (R358). -/
def execCirosStartContext (tid : Nat) (addr : Word) (args : List Word) (rcb : Nat) (s : State) :
    Host.Outcome State Fault Refusal :=
  .next (if (s.thread tid).run = .free && tid < 512 && s.coreUp (coreOf tid) && aligned16 addr && s.cluRuns (cluOf tid)
    then s.setThread tid (s.cirosState tid addr args (s.regionAt (dieOf (cluOf tid)) rcb)) else s)

/-- `CIROS_RELEASE_CONTEXT`: a halted context of Ciros becomes free for the scheduler (R358). -/
def execCirosReleaseContext (tid : Nat) (s : State) : Host.Outcome State Fault Refusal :=
  let th := s.thread tid
  .next (if th.ciros && th.run = .halted then s.setThread tid {} else s)

/-- `THREAD_RESTART`: a halted thread issues again at its pc, which stands behind the `HALT` (R223). -/
def execThreadRestart (tid : Nat) (s : State) : Host.Outcome State Fault Refusal :=
  .next (if (s.thread tid).run = .halted && s.cluRuns (cluOf tid) then
      s.modThread tid fun th => { th with run := .ready }
    else s)

end Sys2Proof.Machine
end

