-- ==== Sys2Proof/Machine/Fleet.lean ====
section
/-!
DEFINITION. Retirement (R391), the power cap (R395, R396), and register errors (R36 to R40).
-/
namespace Sys2Proof.Machine

/-- `RETIRE_ADD`, R391: by the owner. -/
def execRetireAdd (m : BitVec 16) (v : Word) (s : State) : Host.Outcome State Fault Refusal :=
  .next (s.ownerOnly m fun s => s.retireAdd v)

/-- `RETIRE_CLEAR`, R391: by the owner. -/
def execRetireClear (m : BitVec 16) (v : Word) (s : State) : Host.Outcome State Fault Refusal :=
  .next (s.ownerOnly m fun s => s.retireClear v)

/-! ## Power -/

/-- Compute islands, R395. -/
def computeIsland (i : Nat) : Bool := i < 16 || (24 ≤ i && i < 28)

/-- An island belongs to a unit in service: a cluster, or the base die of a stack that is present (R2, R389). -/
def Hub.islandUp (h : Hub) (i : Nat) : Bool :=
  if i < 16 then h.clu.getLsbD i else if i < 24 then h.stk.getLsbD (i - 16) else true

/-- The islands in service, with their numbers. -/
def Hub.allIslands (h : Hub) : List (Nat × Island) :=
  ((List.range 32).filter h.islandUp).map fun i => (i, h.island i)

/-- The islands that a step lowers because the package is above its cap: the lowest prio still above 875 MHz. -/
def lowered (l : List (Nat × Island)) : List Nat :=
  let up := l.filter fun p => computeIsland p.1 && 875 < p.2.clk
  let least := up.foldl (fun m p => min m p.2.prio) 8
  (up.filter fun p => p.2.prio == least).map (·.1)

/-- The islands that a step raises: the highest prio below their fmax, of whatever kind. -/
def raised (l : List (Nat × Island)) : List Nat :=
  let low := l.filter fun p => p.2.clk < p.2.fmax
  let most := low.foldl (fun m p => max m p.2.prio) 0
  (low.filter fun p => p.2.prio == most).map (·.1)

/-- The clocks after a comparison, R395: an island above 100 °C is lowered whatever the cap. -/
def State.stepClocks (s : State) (power : Nat) : State :=
  let l := s.hub.allIslands
  let hot := (l.filter fun p => 1600 < p.2.temp && 875 < p.2.clk).map (·.1)
  let down := if s.hub.cap < power then lowered l else []
  let up := if power * 100 ≤ s.hub.cap * 95 then (raised l).filter fun i => !(hot.contains i) else []
  l.foldl (fun s p =>
    if hot.contains p.1 || down.contains p.1 then s.setClock p.1 (max 875 (p.2.clk - 25))
    else if up.contains p.1 then s.setClock p.1 (min p.2.fmax (p.2.clk + 25))
    else s) s

/-- Takes new readings of temperature and power, R395. -/
def Hub.readings (h : Hub) (temps pwrs : List Nat) : Hub :=
  { h with islands := (List.range 32).foldl (fun m i =>
      mapSet m i { mapGet {} m i with temp := temps.getD i 0, pwr := pwrs.getD i 0 }) h.islands }

/-- `POWER_CAP_COMPARISON`: every 100 µs Ciros compares the package power with the cap; an island above 115 °C trips a
package reset with a fatal record, which boots from the target of the last reset (R395, log 31). -/
def execPowerCapComparison (power : Nat) (temps pwrs : List Nat) (s : State) : Host.Outcome State Fault Refusal :=
  let s := (s.modHub fun h => h.readings temps pwrs).stepClocks power
  let trips := s.hub.allIslands.filter fun p => 1840 < p.2.temp
  let s' := trips.foldl (fun s p => s.logRas 0x0C 3 (islandDie p.1) p.1 (wordN p.2.temp)) s
  .next (if trips.isEmpty then s else s'.resetWith s.hub.target)

/-! ## Register errors -/

/-- Registers that carry parity only, so that no error in them can be corrected (R40). -/
def parityOnly : RegKind → Bool
  | .acc | .c | .tb => true
  | _ => false

/-- `REGISTER_ERROR`: a byte of a lane word of a context of a core in service takes a parity error, which its next read meets
(R2, R3, R36 to R38); lanes that are retired hold no word (R389). A correctable error in another register is corrected and logged; an uncorrectable one, and
every one in a register with parity only, stays in its word until a write (R39, R40). The late loads of the core's threads
take no other value. -/
def execRegisterError (tid : Nat) (loc : ErrAt) (s : State) : Host.Outcome State Fault Refusal :=
  if !s.coreUp (coreOf tid) then .next s else
  let s := (List.range 4).foldl (fun s k => s.bindIn (fun _ => true) (4 * coreOf tid + k)) s
  match loc with
  | .lane r g l byte =>
    if 8 ≤ g ∨ 17 ≤ l ∨ 16 ≤ byte ∨ (s.halfCore (coreOf tid) ∧ 8 ≤ l ∧ l < 16) then .next s
    else
      .next (s.modThread tid fun th =>
        let pos := r.toNat * 8 + g
        if th.vErr.any fun e => e.pos == pos && e.lane == l && e.byte == byte then th
        else { th with vErr := th.vErr ++ [{ pos := pos, lane := l, byte := byte }] })
  | .word k n w uncorr =>
    if !uncorr && !parityOnly k then .next (s.logRas 0x01 1 (dieNo (dieOf (cluOf tid))) tid (regTrap k n).tval)
    else if k = .acc then
      .next (s.modCore (coreOf tid) fun c =>
        if c.accErr.contains (n, w) then c else { c with accErr := c.accErr ++ [(n, w)] })
    else
      .next (s.modThread tid fun th =>
        if th.regErr.contains (k, n, w) then th else { th with regErr := th.regErr ++ [(k, n, w)] })

end Sys2Proof.Machine
end

