-- ==== Sys2Proof/Machine/Scalar.lean ====
section
/-!
DEFINITION. Scalar integer instructions (R112 to R114).
-/
namespace Sys2Proof.Machine

/-- An instruction whose only effect is on its destination register: REGERR of a source (R40), else the value. -/
def intOp (d : XReg) (srcs : List XReg) (f : Thread → Word) (s : State) : Host.Outcome State Fault Refusal :=
  finishCtl 16 (guardRegs (xsrc srcs) s fun s => .done (s.setX d (f s.me)))

/-- Signed quotient rounded toward zero with the special cases of R113. -/
def divS (a b : Word) : Word := if b = 0 then BitVec.allOnes 64 else wordI (Int.tdiv (sval a) (sval b))

/-- Natural quotient with the special case of R113. -/
def divU (a b : Word) : Word := if b = 0 then BitVec.allOnes 64 else wordN (a.toNat / b.toNat)

/-- Shift amount (xb + imm) mod 64, R112. -/
def shAmt (th : Thread) (b : XReg) (imm : Word) : Nat := (th.rx b + imm).toNat % 64

/-- `ADD`, R112. -/
def execAdd (d a b : XReg) (s : State) : Host.Outcome State Fault Refusal :=
  intOp d [a, b] (fun th => th.rx a + th.rx b) s
/-- `SUB`, R112. -/
def execSub (d a b : XReg) (s : State) : Host.Outcome State Fault Refusal :=
  intOp d [a, b] (fun th => th.rx a - th.rx b) s
/-- `ADDI`, R112. -/
def execAddi (d a : XReg) (imm : Word) (s : State) : Host.Outcome State Fault Refusal :=
  intOp d [a] (fun th => th.rx a + imm) s
/-- `MUL`, R112. -/
def execMul (d a b : XReg) (s : State) : Host.Outcome State Fault Refusal :=
  intOp d [a, b] (fun th => th.rx a * th.rx b) s
/-- `MULH`, R112. -/
def execMulh (d a b : XReg) (s : State) : Host.Outcome State Fault Refusal :=
  intOp d [a, b] (fun th => wordI (sval (th.rx a) * sval (th.rx b) / 2 ^ 64)) s
/-- `MULHN`, R112. -/
def execMulhn (d a b : XReg) (s : State) : Host.Outcome State Fault Refusal :=
  intOp d [a, b] (fun th => wordN ((th.rx a).toNat * (th.rx b).toNat / 2 ^ 64)) s
/-- `DIV`, R112 and R113. -/
def execDiv (d a b : XReg) (s : State) : Host.Outcome State Fault Refusal :=
  intOp d [a, b] (fun th => divS (th.rx a) (th.rx b)) s
/-- `DIVN`, R112 and R113. -/
def execDivn (d a b : XReg) (s : State) : Host.Outcome State Fault Refusal :=
  intOp d [a, b] (fun th => divU (th.rx a) (th.rx b)) s
/-- `REM`, R112 and R113. -/
def execRem (d a b : XReg) (s : State) : Host.Outcome State Fault Refusal :=
  intOp d [a, b] (fun th => th.rx a - th.rx b * divS (th.rx a) (th.rx b)) s
/-- `REMN`, R112 and R113. -/
def execRemn (d a b : XReg) (s : State) : Host.Outcome State Fault Refusal :=
  intOp d [a, b] (fun th => th.rx a - th.rx b * divU (th.rx a) (th.rx b)) s
/-- `AND`, R112. -/
def execAnd (d a b : XReg) (s : State) : Host.Outcome State Fault Refusal :=
  intOp d [a, b] (fun th => th.rx a &&& th.rx b) s
/-- `OR`, R112. -/
def execOr (d a b : XReg) (s : State) : Host.Outcome State Fault Refusal :=
  intOp d [a, b] (fun th => th.rx a ||| th.rx b) s
/-- `XOR`, R112. -/
def execXor (d a b : XReg) (s : State) : Host.Outcome State Fault Refusal :=
  intOp d [a, b] (fun th => th.rx a ^^^ th.rx b) s
/-- `ANDN`, R112. -/
def execAndn (d a b : XReg) (s : State) : Host.Outcome State Fault Refusal :=
  intOp d [a, b] (fun th => th.rx a &&& ~~~(th.rx b)) s
/-- `SHL`, R112. -/
def execShl (d a b : XReg) (imm : Word) (s : State) : Host.Outcome State Fault Refusal :=
  intOp d [a, b] (fun th => th.rx a <<< shAmt th b imm) s
/-- `SHR`, R112. -/
def execShr (d a b : XReg) (imm : Word) (s : State) : Host.Outcome State Fault Refusal :=
  intOp d [a, b] (fun th => th.rx a >>> shAmt th b imm) s
/-- `SRA`, R112. -/
def execSra (d a b : XReg) (imm : Word) (s : State) : Host.Outcome State Fault Refusal :=
  intOp d [a, b] (fun th => (th.rx a).sshiftRight (shAmt th b imm)) s
/-- `ROT`, R112. -/
def execRot (d a b : XReg) (imm : Word) (s : State) : Host.Outcome State Fault Refusal :=
  intOp d [a, b] (fun th => (th.rx a).rotateLeft (shAmt th b imm)) s
/-- `MIN`, R112. -/
def execMin (d a b : XReg) (s : State) : Host.Outcome State Fault Refusal :=
  intOp d [a, b] (fun th => if sval (th.rx b) < sval (th.rx a) then th.rx b else th.rx a) s
/-- `MAX`, R112. -/
def execMax (d a b : XReg) (s : State) : Host.Outcome State Fault Refusal :=
  intOp d [a, b] (fun th => if sval (th.rx a) < sval (th.rx b) then th.rx b else th.rx a) s
/-- `MINN`, R112. -/
def execMinn (d a b : XReg) (s : State) : Host.Outcome State Fault Refusal :=
  intOp d [a, b] (fun th => if (th.rx b).toNat < (th.rx a).toNat then th.rx b else th.rx a) s
/-- `MAXN`, R112. -/
def execMaxn (d a b : XReg) (s : State) : Host.Outcome State Fault Refusal :=
  intOp d [a, b] (fun th => if (th.rx a).toNat < (th.rx b).toNat then th.rx b else th.rx a) s
/-- `CLZ`, R112. -/
def execClz (d a : XReg) (s : State) : Host.Outcome State Fault Refusal :=
  intOp d [a] (fun th => wordN (clzN 64 (th.rx a).toNat)) s
/-- `CTZ`, R112. -/
def execCtz (d a : XReg) (s : State) : Host.Outcome State Fault Refusal :=
  intOp d [a] (fun th => wordN (ctzN 64 (th.rx a).toNat)) s
/-- `POPC`, R112. -/
def execPopc (d a : XReg) (s : State) : Host.Outcome State Fault Refusal :=
  intOp d [a] (fun th => wordN (popN 64 (th.rx a).toNat)) s
/-- `SEL`, R112. -/
def execSel (d a b c : XReg) (s : State) : Host.Outcome State Fault Refusal :=
  intOp d [a, b, c] (fun th => if th.rx c = 0 then th.rx b else th.rx a) s
/-- `SET.cc`, R112. -/
def execSetcc (cc : ICond) (d a b : XReg) (s : State) : Host.Outcome State Fault Refusal :=
  intOp d [a, b] (fun th => if condX cc (th.rx a) (th.rx b) then 1 else 0) s
/-- `LEA`, R112. -/
def execLea (d a b : XReg) (sh : BitVec 5) (imm : Word) (s : State) : Host.Outcome State Fault Refusal :=
  intOp d [a, b] (fun th => th.rx a + (th.rx b <<< sh.toNat) + imm) s
/-- `BFX`, R112. -/
def execBfx (d a : XReg) (pos : BitVec 6) (len : BitVec 7) (s : State) : Host.Outcome State Fault Refusal :=
  intOp d [a] (fun th => wordN (bitsN (th.rx a).toNat (pos.toNat + len.toNat - 1) pos.toNat)) s

/-- A field of len bits at pos of x replaced by the low bits of y, R112. -/
def insertBits (x y : Word) (pos len : Nat) : Word :=
  let m := wordN ((2 ^ len - 1) * 2 ^ pos)
  (x &&& ~~~m) ||| ((y <<< pos) &&& m)

/-- `BFI`, R112; it reads its destination. -/
def execBfi (d a : XReg) (pos : BitVec 6) (len : BitVec 7) (s : State) : Host.Outcome State Fault Refusal :=
  intOp d [a, d] (fun th => insertBits (th.rx d) (th.rx a) pos.toNat len.toNat) s
/-- `LI`, R112. -/
def execLi (d : XReg) (imm : Word) (s : State) : Host.Outcome State Fault Refusal :=
  intOp d [] (fun _ => imm) s

/-- The home slice of a physical address in the fields of R114; none set outside HBM4. -/
def State.sliceWord (s : State) (pa : Nat) : Word :=
  if s.physRow pa = .hbm then
    let r := s.homeSlice pa
    wordN (r.1 % 128 + dieNo (homeDie pa) * 2 ^ 7
      + (match r.2 with | some e => e * 2 ^ 8 | none => 2 ^ 14))
  else 0x8000

/-- `SLHASH`, R114: a translation without permission check and without access. -/
def slhashBody (d a : XReg) (imm : Word) (s : State) : Out :=
  let va := s.ea a imm
  if inWindow va.toNat then .done (s.setX d 0x8000)
  else if 2 ^ 56 ≤ va.toNat then .trap { cause := .datafault, tval := va } s
  else
    let ctx := s.ctxOf s.cur
    let w := s.lookup ctx va.toNat
    let s := s.noteXlate ctx va
    match w with
    | .leaf e log => .done (s.setX d (s.sliceWord (bitsN e 51 8 * 256 + va.toNat % 2 ^ log)))
    | _ => .trap { cause := .datafault, tval := va } s

/-- `SLHASH`, R114. -/
def execSlhash (d a : XReg) (imm : Word) (s : State) : Host.Outcome State Fault Refusal :=
  finishCtl 16 (guardRegs (xsrc [a]) s (slhashBody d a imm))

end Sys2Proof.Machine
end

