-- ==== Sys2Proof/Machine/ScalarFloat.lean ====
section
/-!
DEFINITION. Scalar float instructions (R115 to R117).
-/
namespace Sys2Proof.Machine

/-- The low bits of a register in a type's width. -/
def Thread.pat (th : Thread) (ty : Ty) (r : XReg) : Nat := (th.rx r).toNat % 2 ^ ty.width

/-- A scalar float instruction: pattern and flags from the thread's registers and frm; the result is zero-extended
and the flags are ORed into fcsr (R47, R115). `rounds` says that it reads fcsr.frm. -/
def floatOp (rounds : Bool) (d : XReg) (srcs : List XReg) (f : Thread → Nat × Flags) (s : State) :
    Host.Outcome State Fault Refusal :=
  finishCtl 16 (guardRegs (xsrc srcs ++ if rounds then spsrc [0x10] else []) s fun s =>
    let r := f s.me
    .done ((s.setX d (wordN r.1)).orFlags r.2))

/-- `FADD`, R115. -/
def execFadd (ty : Ty) (d a b : XReg) (s : State) : Host.Outcome State Fault Refusal :=
  floatOp true d [a, b] (fun th => fAdd ty th.frm (th.pat ty a) (th.pat ty b)) s
/-- `FSUB`, R115. -/
def execFsub (ty : Ty) (d a b : XReg) (s : State) : Host.Outcome State Fault Refusal :=
  floatOp true d [a, b] (fun th => fSub ty th.frm (th.pat ty a) (th.pat ty b)) s
/-- `FMUL`, R115. -/
def execFmul (ty : Ty) (d a b : XReg) (s : State) : Host.Outcome State Fault Refusal :=
  floatOp true d [a, b] (fun th => fMul ty th.frm (th.pat ty a) (th.pat ty b)) s
/-- `FMA`, R115. -/
def execFma (ty : Ty) (d a b c : XReg) (s : State) : Host.Outcome State Fault Refusal :=
  floatOp true d [a, b, c] (fun th => fFma ty th.frm (th.pat ty a) (th.pat ty b) (th.pat ty c)) s
/-- `FDIV`, R115. -/
def execFdiv (ty : Ty) (d a b : XReg) (s : State) : Host.Outcome State Fault Refusal :=
  floatOp true d [a, b] (fun th => fDiv ty th.frm (th.pat ty a) (th.pat ty b)) s
/-- `FSQRT`, R115. -/
def execFsqrt (ty : Ty) (d a : XReg) (s : State) : Host.Outcome State Fault Refusal :=
  floatOp true d [a] (fun th => fSqrt ty th.frm (th.pat ty a)) s
/-- `FMIN`, R116. -/
def execFmin (ty : Ty) (d a b : XReg) (s : State) : Host.Outcome State Fault Refusal :=
  floatOp false d [a, b] (fun th => fMinMax ty false (th.pat ty a) (th.pat ty b)) s
/-- `FMAX`, R116. -/
def execFmax (ty : Ty) (d a b : XReg) (s : State) : Host.Outcome State Fault Refusal :=
  floatOp false d [a, b] (fun th => fMinMax ty true (th.pat ty a) (th.pat ty b)) s

/-- A conversion result in an x-register: sign-extended for s targets, zero-extended otherwise (R117). -/
def cvtWord (dst : Ty) (r : Nat × Flags) : Nat × Flags := ((extTy dst r.1).toNat, r.2)

/-- `FCVT`, R117. -/
def execFcvt (src dst : Ty) (d a : XReg) (s : State) : Host.Outcome State Fault Refusal :=
  floatOp true d [a] (fun th => cvtWord dst (convert src dst th.frm (th.pat src a))) s
/-- `FCMP.cc`, R115 and R85. -/
def execFcmp (cc : FCond) (ty : Ty) (d a b : XReg) (s : State) : Host.Outcome State Fault Refusal :=
  floatOp false d [a, b]
    (fun th => let r := fCond cc ty (th.pat ty a) (th.pat ty b); (if r.1 then 1 else 0, r.2)) s

end Sys2Proof.Machine
end

