-- ==== Sys2Proof/Machine/Tables.lean ====
section
/-!
DEFINITION. Table registers: `TBLD`, `TBST`, `TBSET` (R206, R207). The functions of R207 are evaluated as exact
fractions where they are rational, and otherwise as fractions that lie closer to the exact value than any rounding
boundary of binary32 does (log 21).
-/
namespace Sys2Proof.Machine

/-! ## Moves -/

/-- Writes the 264 words of a table register of the issuing thread. -/
def State.setTb (s : State) (t : TbReg) (ws : List (BitVec 32)) : State :=
  s.modMe fun th =>
    let put := fun (m : List (Nat × BitVec 32)) (w : BitVec 32 × Nat) => mapPut 0 m (t.toNat * 264 + w.2) w.1
    { th with tb := ws.zipIdx.foldl put th.tb }.clearErr .tb t.toNat

/-- `TBLD`, R206. -/
def execTbld (tb : TbReg) (a : XReg) (imm : Word) (s : State) : Host.Outcome State Fault Refusal :=
  finishCtl 16 (guardRegs (xsrc [a]) s fun s =>
    let va := s.ea a imm
    if !alignedTo 32 va then .trap { cause := .datafault, tval := va } s
    else
      match s.readRange (s.ctxOf s.cur) .vls va 1056 with
      | (s, .error x) => .trap (accTrap x) s
      | (s, .ok bs) =>
        .done (s.setTb tb ((List.range 264).map fun i => BitVec.ofNat 32 (leNat ((bs.drop (4 * i)).take 4)))))

/-- `TBST`, R206. -/
def execTbst (tb : TbReg) (a : XReg) (imm : Word) (s : State) : Host.Outcome State Fault Refusal :=
  finishCtl 16 (guardRegs ({ kind := .tb, num := tb.toNat } :: xsrc [a]) s fun s =>
    let va := s.ea a imm
    if !alignedTo 32 va then .trap { cause := .datafault, tval := va } s
    else
      let bs := (List.range 264).flatMap fun i => wholeBytes 4 (s.me.tbWord tb i).toNat
      match s.writeRangeAt (s.ctxOf s.cur) .write .vls none false va bs with
      | (s, some x) => .trap (accTrap x) s
      | (s, none) => .done s)

/-! ## The functions of R207 -/

/-- A value of a function of R207: undefined, infinite, or (−1)^neg × num ÷ den × 2^exp. -/
inductive RVal where
  | undef
  | inf (neg : Bool)
  | rat (neg : Bool) (num den : Nat) (exp : Int)
  deriving DecidableEq, Repr

/-- Fraction bits of the fixed-point evaluation. -/
def fxBits : Nat := 384
/-- 1 in fixed point. -/
def fxOne : Nat := 2 ^ fxBits

/-- Σ y^k ÷ k! in fixed point, from the term t of index k on. -/
def expTerms (y : Nat) : Nat → Nat → Nat → Nat
  | 0, _, _ => 0
  | f + 1, k, t => t + expTerms y f (k + 1) (t * y / fxOne / (k + 1))

/-- Squares a fixed-point number n times. -/
def sqrTimes : Nat → Nat → Nat
  | 0, x => x
  | n + 1, x => sqrTimes n (x * x / fxOne)

/-- e^(num ÷ den) in fixed point, for num ÷ den from 0 to 512. -/
def fxExp (num den : Nat) : Nat := sqrTimes 10 (expTerms (num * fxOne / (den * 1024)) 60 0 fxOne)

/-- arctan(1 ÷ n) in fixed point: terms of alternating sign. -/
def atanTerms (n : Nat) : Nat → Nat → Int → Int
  | 0, _, _ => 0
  | f + 1, k, t => t / (2 * k + 1) + atanTerms n f (k + 1) (-t / (n * n))

/-- π in fixed point, by Machin's formula. -/
def fxPi : Nat := (16 * atanTerms 5 200 0 (fxOne / 5) - 4 * atanTerms 239 200 0 (fxOne / 239)).toNat

/-- Σ a^(2k+1) ÷ (1·3·5…(2k+1)) in fixed point, a² given. -/
def gaussTerms (a2 : Nat) : Nat → Nat → Nat → Nat
  | 0, _, _ => 0
  | f + 1, k, t => if t = 0 then 0 else t + gaussTerms a2 f (k + 1) (t * a2 / fxOne / (2 * k + 3))

/-- The normal integral from 0 to a = num ÷ den, in fixed point. -/
def fxNormal (num den : Nat) : Nat :=
  let a := num * fxOne / den
  let series := gaussTerms (num * num * fxOne / (den * den)) 3000 0 a
  let root := isqrt (2 * fxPi * fxOne)
  series * fxOne / fxExp (num * num) (2 * den * den) * fxOne / root

/-- Binary fraction digits of log2 of a fixed-point number from 1 to 2, by repeated squaring. -/
def logDigits : Nat → Nat → Nat → Nat
  | 0, _, r => r
  | f + 1, m, r =>
    let q := m * m / fxOne
    if 2 * fxOne ≤ q then logDigits f (q / 2) (2 * r + 1) else logDigits f q (2 * r)

/-- A root that is no fraction lies strictly above its floor s: the fraction halfway to the next step. -/
def above (s : Nat) (exp : Int) : RVal := .rat false (2 * s + 1) 1 (exp - 1)

/-- log2 of num ÷ 1, num above 0. -/
def rLog2 (n : Nat) : RVal :=
  let e := n.log2
  if n = 2 ^ e then .rat false e 1 0
  else above (e * 2 ^ 128 + logDigits 128 (n * fxOne / 2 ^ e) 0) (-128)

/-- 2^(num ÷ 4): the fourth root of an odd quarter is no fraction. -/
def rExp2 (q : Int) : RVal :=
  let r := (q % 4).toNat
  if r = 0 then .rat false 1 1 (q / 4)
  else above (isqrt (isqrt (2 ^ r * 2 ^ 512))) (q / 4 - 128)

/-- 1 ÷ √(num ÷ den), num above 0. -/
def rRsqrt (num den : Nat) : RVal :=
  let a := isqrt num
  let b := isqrt den
  if a * a = num ∧ b * b = den then .rat false b a 0
  else above (isqrt (den * 2 ^ 512 / num)) (-256)

/-- f of R207 at x = n ÷ d; the arguments of log2 and exp2 are whole and quarters. -/
def fnAt (fn : Nat) (n : Int) (d : Nat) : RVal :=
  let neg := decide (n < 0)
  let a := n.natAbs
  let e := fxExp a d
  match fn with
  | 0 => .rat neg a d 0
  | 1 => .rat neg (if a = 0 then 0 else 1) 1 0
  | 2 => if neg then .rat false 0 1 0 else if 6 * d < a then .rat false 6 1 0 else .rat false a d 0
  | 3 => rExp2 (n * 4 / d)
  | 4 => if neg then .undef else if a = 0 then .inf true else rLog2 (a / d)
  | 5 => if a = 0 then .inf false else .rat neg d a 0
  | 6 => if neg then .undef else if a = 0 then .inf false else rRsqrt a d
  | 7 => .rat false (if neg then fxOne else e) (fxOne + e) 0
  | 8 =>
    let e2 := fxExp (2 * a) d
    .rat neg (e2 - fxOne) (e2 + fxOne) 0
  | 9 =>
    let h := fxNormal a d
    .rat neg (a * (if neg then fxOne / 2 - h else fxOne / 2 + h)) (d * fxOne) 0
  | _ => .rat neg (a * (if neg then fxOne else e)) (d * (fxOne + e)) 0

/-- Knot i of a function: lo + i × (hi − lo) ÷ 255 as a fraction, R207. -/
def knotArg (fn i : Nat) : Int × Nat :=
  match fn with
  | 0 => ((i : Int) - 128, 1)
  | 1 => (2 * (i : Int) - 255, 255)
  | 2 => ((i : Int) - 32, 32)
  | 3 => ((i : Int) - 128, 4)
  | 4 => (i, 1)
  | 6 => (i, 4)
  | 7 => ((i : Int) - 128, 8)
  | 10 => ((i : Int) - 128, 8)
  | _ => ((i : Int) - 128, 16)

/-- lo, hi, below and above of R207 as binary32 patterns. -/
def tbHeader (fn : Nat) : List (BitVec 32) :=
  match fn with
  | 0 => [0xC3000000, 0x42FE0000, 0xFF800000, 0x7F800000]
  | 1 => [0xBF800000, 0x3F800000, 0xBF800000, 0x3F800000]
  | 2 => [0xBF800000, 0x40DF0000, 0x00000000, 0x40C00000]
  | 3 => [0xC2000000, 0x41FE0000, 0x00000000, 0x7F800000]
  | 4 => [0x00000000, 0x437F0000, 0x7FC00000, 0x7F800000]
  | 5 => [0xC1000000, 0x40FE0000, 0x80000000, 0x00000000]
  | 6 => [0x00000000, 0x427F0000, 0x7FC00000, 0x00000000]
  | 7 => [0xC1800000, 0x417E0000, 0x00000000, 0x3F800000]
  | 8 => [0xC1000000, 0x40FE0000, 0xBF800000, 0x3F800000]
  | 9 => [0xC1000000, 0x40FE0000, 0x80000000, 0x7F800000]
  | _ => [0xC1800000, 0x417E0000, 0x80000000, 0x7F800000]

/-- A knot in the plaintext form: rounded once into binary32 under RNE (R207). -/
def knotWord (v : RVal) : BitVec 32 :=
  match v with
  | .undef => 0x7FC00000
  | .inf neg => if neg then 0xFF800000 else 0x7F800000
  | .rat neg num den exp => BitVec.ofNat 32 (if num = 0 then 0 else (roundIEEE .f32 .rne neg num den exp).1)

/-- Entry i of the torus form, R207. -/
def torusWord (fn p i : Nat) : BitVec 32 :=
  if 2 ^ p ≤ i then 0
  else
    let h : Int := 2 ^ (p - 1)
    let x : Int := if (i : Int) < h then i else (i : Int) - 2 ^ p
    let m : Int := match fnAt fn x 1 with
      | .undef => 0
      | .inf neg => if neg then -h else h - 1
      | .rat neg num den exp => (roundInt .rne neg num den exp).1
    BitVec.ofNat 32 (wrapI p (min (max m (-h)) (h - 1)) * 2 ^ (31 - p))

/-- The 264 words that `TBSET` writes, R207. -/
def tbWords (fn : Nat) (torus : Bool) (p : Nat) : List (BitVec 32) :=
  tbHeader fn ++ [0x3F800000, 0, 0x3F800000, if torus then BitVec.ofNat 32 p else 0]
    ++ (List.range 256).map fun i =>
      if torus then torusWord fn p i else let a := knotArg fn i; knotWord (fnAt fn a.1 a.2)

/-- `TBSET`, R207. -/
def execTbset (tb : TbReg) (torus : Bool) (fn : BitVec 8) (p : BitVec 3) (s : State) :
    Host.Outcome State Fault Refusal :=
  finishCtl 16 (.done (s.setTb tb (tbWords fn.toNat torus p.toNat)))

end Sys2Proof.Machine
end

