-- ==== Sys2Proof/Machine/Dispatch.lean ====
section
/-!
DEFINITION. The meaning of every instruction and event: one arm for each constructor of `Instr`, in the table's order.
-/
namespace Sys2Proof.Machine

def exec (i : Instr) (s : State) : Host.Outcome State Fault Refusal :=
  match i with
  | .nop => Sys2Proof.Machine.execNop s
  | .br off => Sys2Proof.Machine.execBr off s
  | .bcc cc a b off => Sys2Proof.Machine.execBcc cc a b off s
  | .bz a off => Sys2Proof.Machine.execBz a off s
  | .bnz a off => Sys2Proof.Machine.execBnz a off s
  | .call off => Sys2Proof.Machine.execCall off s
  | .callr a => Sys2Proof.Machine.execCallr a s
  | .ret => Sys2Proof.Machine.execRet s
  | .jmpr a => Sys2Proof.Machine.execJmpr a s
  | .jtab a b c off => Sys2Proof.Machine.execJtab a b c off s
  | .setvl d a => Sys2Proof.Machine.execSetvl d a s
  | .endTask => Sys2Proof.Machine.execEndTask s
  | .yieldTurn => Sys2Proof.Machine.execYieldTurn s
  | .brk imm => Sys2Proof.Machine.execBrk imm s
  | .trap imm => Sys2Proof.Machine.execTrap imm s
  | .add d a b => Sys2Proof.Machine.execAdd d a b s
  | .sub d a b => Sys2Proof.Machine.execSub d a b s
  | .addi d a imm => Sys2Proof.Machine.execAddi d a imm s
  | .mul d a b => Sys2Proof.Machine.execMul d a b s
  | .mulh d a b => Sys2Proof.Machine.execMulh d a b s
  | .mulhn d a b => Sys2Proof.Machine.execMulhn d a b s
  | .div d a b => Sys2Proof.Machine.execDiv d a b s
  | .divn d a b => Sys2Proof.Machine.execDivn d a b s
  | .rem d a b => Sys2Proof.Machine.execRem d a b s
  | .remn d a b => Sys2Proof.Machine.execRemn d a b s
  | .and d a b => Sys2Proof.Machine.execAnd d a b s
  | .or d a b => Sys2Proof.Machine.execOr d a b s
  | .xor d a b => Sys2Proof.Machine.execXor d a b s
  | .andn d a b => Sys2Proof.Machine.execAndn d a b s
  | .shl d a b imm => Sys2Proof.Machine.execShl d a b imm s
  | .shr d a b imm => Sys2Proof.Machine.execShr d a b imm s
  | .sra d a b imm => Sys2Proof.Machine.execSra d a b imm s
  | .rot d a b imm => Sys2Proof.Machine.execRot d a b imm s
  | .min d a b => Sys2Proof.Machine.execMin d a b s
  | .max d a b => Sys2Proof.Machine.execMax d a b s
  | .minn d a b => Sys2Proof.Machine.execMinn d a b s
  | .maxn d a b => Sys2Proof.Machine.execMaxn d a b s
  | .clz d a => Sys2Proof.Machine.execClz d a s
  | .ctz d a => Sys2Proof.Machine.execCtz d a s
  | .popc d a => Sys2Proof.Machine.execPopc d a s
  | .sel d a b c => Sys2Proof.Machine.execSel d a b c s
  | .setcc cc d a b => Sys2Proof.Machine.execSetcc cc d a b s
  | .lea d a b sh imm => Sys2Proof.Machine.execLea d a b sh imm s
  | .bfx d a pos len => Sys2Proof.Machine.execBfx d a pos len s
  | .bfi d a pos len => Sys2Proof.Machine.execBfi d a pos len s
  | .li d imm => Sys2Proof.Machine.execLi d imm s
  | .slhash d a imm => Sys2Proof.Machine.execSlhash d a imm s
  | .fadd ty d a b => Sys2Proof.Machine.execFadd ty d a b s
  | .fsub ty d a b => Sys2Proof.Machine.execFsub ty d a b s
  | .fmul ty d a b => Sys2Proof.Machine.execFmul ty d a b s
  | .fma ty d a b c => Sys2Proof.Machine.execFma ty d a b c s
  | .fdiv ty d a b => Sys2Proof.Machine.execFdiv ty d a b s
  | .fsqrt ty d a => Sys2Proof.Machine.execFsqrt ty d a s
  | .fmin ty d a b => Sys2Proof.Machine.execFmin ty d a b s
  | .fmax ty d a b => Sys2Proof.Machine.execFmax ty d a b s
  | .fcvt src dst d a => Sys2Proof.Machine.execFcvt src dst d a s
  | .fcmp cc ty d a b => Sys2Proof.Machine.execFcmp cc ty d a b s
  | .ld ty ord sc d a imm => Sys2Proof.Machine.execLd ty ord sc d a imm s
  | .st ty ord sc d a imm => Sys2Proof.Machine.execSt ty ord sc d a imm s
  | .amo op ty ord sc d a b imm => Sys2Proof.Machine.execAmo op ty ord sc d a b imm s
  | .cas ty ord sc d a b c imm => Sys2Proof.Machine.execCas ty ord sc d a b c imm s
  | .pref a imm lvl => Sys2Proof.Machine.execPref a imm lvl s
  | .vld ty ord vd a imm mk => Sys2Proof.Machine.execVld ty ord vd a imm mk s
  | .vlds ty ord vd a b imm mk => Sys2Proof.Machine.execVlds ty ord vd a b imm mk s
  | .vldx ty ord vd a vb sh iw imm mk => Sys2Proof.Machine.execVldx ty ord vd a vb sh iw imm mk s
  | .vldff ty ord vd a imm mk => Sys2Proof.Machine.execVldff ty ord vd a imm mk s
  | .vst ty ord vd a imm mk => Sys2Proof.Machine.execVst ty ord vd a imm mk s
  | .vsts ty ord vd a b imm mk => Sys2Proof.Machine.execVsts ty ord vd a b imm mk s
  | .vstx ty ord vd a vb sh iw imm mk => Sys2Proof.Machine.execVstx ty ord vd a vb sh iw imm mk s
  | .vamo op ty ord sc vd a vb iw imm mk => Sys2Proof.Machine.execVamo op ty ord sc vd a vb iw imm mk s
  | .vldm ord md a imm => Sys2Proof.Machine.execVldm ord md a imm s
  | .vstm ord md a imm => Sys2Proof.Machine.execVstm ord md a imm s
  | .vspill ord vd a imm => Sys2Proof.Machine.execVspill ord vd a imm s
  | .vfill ty ord vd a imm => Sys2Proof.Machine.execVfill ty ord vd a imm s
  | .vf off => Sys2Proof.Machine.execVf off s
  | .vsett d a imm => Sys2Proof.Machine.execVsett d a imm s
  | .vmvl d => Sys2Proof.Machine.execVmvl d s
  | .vmpop d m mk => Sys2Proof.Machine.execVmpop d m mk s
  | .vmfirst d m mk => Sys2Proof.Machine.execVmfirst d m mk s
  | .vgetx d va b imm => Sys2Proof.Machine.execVgetx d va b imm s
  | .vputx vd a b imm => Sys2Proof.Machine.execVputx vd a b imm s
  | .vssave a imm => Sys2Proof.Machine.execVssave a imm s
  | .vsload a imm => Sys2Proof.Machine.execVsload a imm s
  | .tlw wb a imm => Sys2Proof.Machine.execTlw wb a imm s
  | .tzero acc mode => Sys2Proof.Machine.execTzero acc mode s
  | .tscale acc a imm grp => Sys2Proof.Machine.execTscale acc a imm grp s
  | .tmma assoc ff acc a b c wb rb n imm => Sys2Proof.Machine.execTmma assoc ff acc a b c wb rb n imm s
  | .tstat d acc sel col => Sys2Proof.Machine.execTstat d acc sel col s
  | .tdrain acc a b imm mk row0 rows fn tb h => Sys2Proof.Machine.execTdrain acc a b imm mk row0 rows fn tb h s
  | .tdrainx acc a vb imm mk row0 rows fn tb h => Sys2Proof.Machine.execTdrainx acc a vb imm mk row0 rows fn tb h s
  | .bgemv d a b c k n bv astr ostr => Sys2Proof.Machine.execBgemv d a b c k n bv astr ostr s
  | .bwait a => Sys2Proof.Machine.execBwait a s
  | .kset ks a imm => Sys2Proof.Machine.execKset ks a imm s
  | .cld cd a imm => Sys2Proof.Machine.execCld cd a imm s
  | .cst cs a imm => Sys2Proof.Machine.execCst cs a imm s
  | .czero cd ks => Sys2Proof.Machine.execCzero cd ks s
  | .cmov cd cs => Sys2Proof.Machine.execCmov cd cs s
  | .cadd cd ca cb => Sys2Proof.Machine.execCadd cd ca cb s
  | .csub cd ca cb => Sys2Proof.Machine.execCsub cd ca cb s
  | .cneg cd cs => Sys2Proof.Machine.execCneg cd cs s
  | .cmulk cd cs b imm => Sys2Proof.Machine.execCmulk cd cs b imm s
  | .caddk cd cs b imm => Sys2Proof.Machine.execCaddk cd cs b imm s
  | .cnoise d cs => Sys2Proof.Machine.execCnoise d cs s
  | .cnraise cd b => Sys2Proof.Machine.execCnraise cd b s
  | .cref cd cs tb ks => Sys2Proof.Machine.execCref cd cs tb ks s
  | .drove ks count => Sys2Proof.Machine.execDrove ks count s
  | .tbld tb a imm => Sys2Proof.Machine.execTbld tb a imm s
  | .tbst tb a imm => Sys2Proof.Machine.execTbst tb a imm s
  | .tbset tb torus fn p => Sys2Proof.Machine.execTbset tb torus fn p s
  | .rlopen a g => Sys2Proof.Machine.execRlopen a g s
  | .claim md va b mk => Sys2Proof.Machine.execClaim md va b mk s
  | .claimdone => Sys2Proof.Machine.execClaimdone s
  | .rlclose => Sys2Proof.Machine.execRlclose s
  | .rpush q a imm => Sys2Proof.Machine.execRpush q a imm s
  | .rpop q ci => Sys2Proof.Machine.execRpop q ci s
  | .rpeek d q ci seq => Sys2Proof.Machine.execRpeek d q ci seq s
  | .bar sc a id => Sys2Proof.Machine.execBar sc a id s
  | .fence ord sc => Sys2Proof.Machine.execFence ord sc s
  | .hedge src dst => Sys2Proof.Machine.execHedge src dst s
  | .waitm cc d a b imm => Sys2Proof.Machine.execWaitm cc d a b imm s
  | .tfork d a off => Sys2Proof.Machine.execTfork d a off s
  | .tjoin a => Sys2Proof.Machine.execTjoin a s
  | .cpy h ring d a b c => Sys2Proof.Machine.execCpy h ring d a b c s
  | .cpy2d h ring d a b c len dstr sstr => Sys2Proof.Machine.execCpy2d h ring d a b c len dstr sstr s
  | .cpyg h ring d a b c size xi w64 => Sys2Proof.Machine.execCpyg h ring d a b c size xi w64 s
  | .gnode h d a => Sys2Proof.Machine.execGnode h d a s
  | .glink a b => Sys2Proof.Machine.execGlink a b s
  | .gwait a => Sys2Proof.Machine.execGwait a s
  | .spawn d a b => Sys2Proof.Machine.execSpawn d a b s
  | .eret => Sys2Proof.Machine.execEret s
  | .mfs d num => Sys2Proof.Machine.execMfs d num s
  | .mts num a => Sys2Proof.Machine.execMts num a s
  | .tlbinv sc a b one => Sys2Proof.Machine.execTlbinv sc a b one s
  | .cflush sc a imm b => Sys2Proof.Machine.execCflush sc a imm b s
  | .cpin a imm => Sys2Proof.Machine.execCpin a imm s
  | .cunpin a imm => Sys2Proof.Machine.execCunpin a imm s
  | .bankcfg a => Sys2Proof.Machine.execBankcfg a s
  | .halt => Sys2Proof.Machine.execHalt s
  | .strip d p0 p1 p2 p3 s0 s1 s2 s3 off => Sys2Proof.Machine.execStrip d p0 p1 p2 p3 s0 s1 s2 s3 off s
  | .vnop e => Sys2Proof.Machine.execVnop e s
  | .vstop e => Sys2Proof.Machine.execVstop e s
  | .vpfetchDirect e => Sys2Proof.Machine.execVpfetchDirect e s
  | .vpfetchIndirect e => Sys2Proof.Machine.execVpfetchIndirect e s
  | .vadd e => Sys2Proof.Machine.execVadd e s
  | .vsub e => Sys2Proof.Machine.execVsub e s
  | .vrsub e => Sys2Proof.Machine.execVrsub e s
  | .vmul e => Sys2Proof.Machine.execVmul e s
  | .vmulh e => Sys2Proof.Machine.execVmulh e s
  | .vmadd e => Sys2Proof.Machine.execVmadd e s
  | .vmsub e => Sys2Proof.Machine.execVmsub e s
  | .vsadd e => Sys2Proof.Machine.execVsadd e s
  | .vssub e => Sys2Proof.Machine.execVssub e s
  | .vmin e => Sys2Proof.Machine.execVmin e s
  | .vmax e => Sys2Proof.Machine.execVmax e s
  | .vabs e => Sys2Proof.Machine.execVabs e s
  | .vneg e => Sys2Proof.Machine.execVneg e s
  | .vavg e => Sys2Proof.Machine.execVavg e s
  | .vand e => Sys2Proof.Machine.execVand e s
  | .vor e => Sys2Proof.Machine.execVor e s
  | .vxor e => Sys2Proof.Machine.execVxor e s
  | .vnot e => Sys2Proof.Machine.execVnot e s
  | .vshl e => Sys2Proof.Machine.execVshl e s
  | .vshr e => Sys2Proof.Machine.execVshr e s
  | .vsra e => Sys2Proof.Machine.execVsra e s
  | .vclz e => Sys2Proof.Machine.execVclz e s
  | .vpopc e => Sys2Proof.Machine.execVpopc e s
  | .vwadd e => Sys2Proof.Machine.execVwadd e s
  | .vwmul e => Sys2Proof.Machine.execVwmul e s
  | .vnarrow e => Sys2Proof.Machine.execVnarrow e s
  | .vcvt e => Sys2Proof.Machine.execVcvt e s
  | .vfadd e => Sys2Proof.Machine.execVfadd e s
  | .vfsub e => Sys2Proof.Machine.execVfsub e s
  | .vfmul e => Sys2Proof.Machine.execVfmul e s
  | .vfma e => Sys2Proof.Machine.execVfma e s
  | .vfms e => Sys2Proof.Machine.execVfms e s
  | .vfdiv e => Sys2Proof.Machine.execVfdiv e s
  | .vfsqrt e => Sys2Proof.Machine.execVfsqrt e s
  | .vfmin e => Sys2Proof.Machine.execVfmin e s
  | .vfmax e => Sys2Proof.Machine.execVfmax e s
  | .vfabs e => Sys2Proof.Machine.execVfabs e s
  | .vfneg e => Sys2Proof.Machine.execVfneg e s
  | .vcmp e => Sys2Proof.Machine.execVcmp e s
  | .vfcmp e => Sys2Proof.Machine.execVfcmp e s
  | .mand e => Sys2Proof.Machine.execMand e s
  | .mor e => Sys2Proof.Machine.execMor e s
  | .mxor e => Sys2Proof.Machine.execMxor e s
  | .mnot e => Sys2Proof.Machine.execMnot e s
  | .vsel e => Sys2Proof.Machine.execVsel e s
  | .vid e => Sys2Proof.Machine.execVid e s
  | .viota e => Sys2Proof.Machine.execViota e s
  | .vbcast e => Sys2Proof.Machine.execVbcast e s
  | .vcompress e => Sys2Proof.Machine.execVcompress e s
  | .vexpand e => Sys2Proof.Machine.execVexpand e s
  | .vslideup e => Sys2Proof.Machine.execVslideup e s
  | .vslidedn e => Sys2Proof.Machine.execVslidedn e s
  | .vperm e => Sys2Proof.Machine.execVperm e s
  | .vredsum e => Sys2Proof.Machine.execVredsum e s
  | .vredmax e => Sys2Proof.Machine.execVredmax e s
  | .vredmin e => Sys2Proof.Machine.execVredmin e s
  | .vredand e => Sys2Proof.Machine.execVredand e s
  | .vredor e => Sys2Proof.Machine.execVredor e s
  | .vmeanvar e => Sys2Proof.Machine.execVmeanvar e s
  | .vfn e => Sys2Proof.Machine.execVfn e s
  | .vbscale e => Sys2Proof.Machine.execVbscale e s
  | .vbquant e => Sys2Proof.Machine.execVbquant e s
  | .vtpack e => Sys2Proof.Machine.execVtpack e s
  | .vtunpk e => Sys2Proof.Machine.execVtunpk e s
  | .watchdog tid el => Sys2Proof.Machine.execWatchdog tid el s
  | .endTakesEffect tid => Sys2Proof.Machine.execEndTakesEffect tid s
  | .packetConsume die idx => Sys2Proof.Machine.execPacketConsume die idx s
  | .taskPlacement die => Sys2Proof.Machine.execTaskPlacement die s
  | .loopNestIteration clu => Sys2Proof.Machine.execLoopNestIteration clu s
  | .deadlineMiss die uid => Sys2Proof.Machine.execDeadlineMiss die uid s
  | .packetCompletion die uid => Sys2Proof.Machine.execPacketCompletion die uid s
  | .vectorSequencerTurn core ready => Sys2Proof.Machine.execVectorSequencerTurn core ready s
  | .turnIdleEnd tid => Sys2Proof.Machine.execTurnIdleEnd tid s
  | .floorWindowEnd core => Sys2Proof.Machine.execFloorWindowEnd core s
  | .pendingGrantReform tid => Sys2Proof.Machine.execPendingGrantReform tid s
  | .droveWindowExpiry clu ks => Sys2Proof.Machine.execDroveWindowExpiry clu ks s
  | .coppicePassRun clu => Sys2Proof.Machine.execCoppicePassRun clu s
  | .coppicePassEnd clu => Sys2Proof.Machine.execCoppicePassEnd clu s
  | .waveAnswer clu => Sys2Proof.Machine.execWaveAnswer clu s
  | .copyNodeLaunch core ord => Sys2Proof.Machine.execCopyNodeLaunch core ord s
  | .copyNodeFinish core ord => Sys2Proof.Machine.execCopyNodeFinish core ord s
  | .bgemvCompletion tid ticket => Sys2Proof.Machine.execBgemvCompletion tid ticket s
  | .memorySideCacheReturn die slice => Sys2Proof.Machine.execMemorySideCacheReturn die slice s
  | .waitmReread tid => Sys2Proof.Machine.execWaitmReread tid s
  | .hotPageEpochEnd die => Sys2Proof.Machine.execHotPageEpochEnd die s
  | .perBankRefresh die ch bank busy => Sys2Proof.Machine.execPerBankRefresh die ch bank busy s
  | .activation die ch bank row => Sys2Proof.Machine.execActivation die ch bank row s
  | .trackerClear die ch bank => Sys2Proof.Machine.execTrackerClear die ch bank s
  | .activationCountAlert die ch bank => Sys2Proof.Machine.execActivationCountAlert die ch bank s
  | .alertRelease die ch bank => Sys2Proof.Machine.execAlertRelease die ch bank s
  | .channelConfigWrite m die ch v => Sys2Proof.Machine.execChannelConfigWrite m die ch v s
  | .remoteRead stack reader addr len old => Sys2Proof.Machine.execRemoteRead stack reader addr len old s
  | .accessControlEntryWrite m die stack entry hi v => Sys2Proof.Machine.execAccessControlEntryWrite m die stack entry hi v s
  | .cxlMemRead addr len => Sys2Proof.Machine.execCxlMemRead addr len s
  | .cxlMemWrite addr bytes => Sys2Proof.Machine.execCxlMemWrite addr bytes s
  | .peerRead node addr len => Sys2Proof.Machine.execPeerRead node addr len s
  | .peerWrite node addr bytes => Sys2Proof.Machine.execPeerWrite node addr bytes s
  | .peerAtomic node addr cas op ty x y => Sys2Proof.Machine.execPeerAtomic node addr cas op ty x y s
  | .holtLinkDown link => Sys2Proof.Machine.execHoltLinkDown link s
  | .reductionGroupEnable m g v => Sys2Proof.Machine.execReductionGroupEnable m g v s
  | .reductionCombine g => Sys2Proof.Machine.execReductionCombine g s
  | .regionTableWrite m die ix v => Sys2Proof.Machine.execRegionTableWrite m die ix v s
  | .rangeTableWrite m die entry hi v => Sys2Proof.Machine.execRangeTableWrite m die entry hi v s
  | .partitionTableWrite m die p word v => Sys2Proof.Machine.execPartitionTableWrite m die p word v s
  | .swapOut m die v => Sys2Proof.Machine.execSwapOut m die v s
  | .partitionSave die => Sys2Proof.Machine.execPartitionSave die s
  | .swapIn die => Sys2Proof.Machine.execSwapIn die s
  | .ownclaim m v => Sys2Proof.Machine.execOwnclaim m v s
  | .heartbeat m v => Sys2Proof.Machine.execHeartbeat m v s
  | .successor m v => Sys2Proof.Machine.execSuccessor m v s
  | .ownershipExpiry => Sys2Proof.Machine.execOwnershipExpiry s
  | .reset boot => Sys2Proof.Machine.execReset boot s
  | .wipeComplete failed dur unread => Sys2Proof.Machine.execWipeComplete failed dur unread s
  | .recoveryImage m img => Sys2Proof.Machine.execRecoveryImage m img s
  | .provision m signed => Sys2Proof.Machine.execProvision m signed s
  | .deploy m => Sys2Proof.Machine.execDeploy m s
  | .decommission m => Sys2Proof.Machine.execDecommission m s
  | .getVersion => Sys2Proof.Machine.execGetVersion s
  | .getCapabilities => Sys2Proof.Machine.execGetCapabilities s
  | .negotiateAlgorithms => Sys2Proof.Machine.execNegotiateAlgorithms s
  | .getDigests => Sys2Proof.Machine.execGetDigests s
  | .getCertificate off len => Sys2Proof.Machine.execGetCertificate off len s
  | .challenge nonce => Sys2Proof.Machine.execChallenge nonce s
  | .getMeasurements index => Sys2Proof.Machine.execGetMeasurements index s
  | .unsupportedRequest code => Sys2Proof.Machine.execUnsupportedRequest code s
  | .slotVerify m v => Sys2Proof.Machine.execSlotVerify m v s
  | .slotVerifyDone img => Sys2Proof.Machine.execSlotVerifyDone img s
  | .minimumVersionRaise m v slotA => Sys2Proof.Machine.execMinimumVersionRaise m v slotA s
  | .retireAdd m v => Sys2Proof.Machine.execRetireAdd m v s
  | .retireClear m v => Sys2Proof.Machine.execRetireClear m v s
  | .powerCapComparison power temps pwrs => Sys2Proof.Machine.execPowerCapComparison power temps pwrs s
  | .cirosStartContext tid addr args rcb => Sys2Proof.Machine.execCirosStartContext tid addr args rcb s
  | .cirosReleaseContext tid => Sys2Proof.Machine.execCirosReleaseContext tid s
  | .threadRestart tid => Sys2Proof.Machine.execThreadRestart tid s
  | .registerWrite m addr size v => Sys2Proof.Machine.execRegisterWrite m addr size v s
  | .holtLinkUp link => Sys2Proof.Machine.execHoltLinkUp link s
  | .firmwareStageStart img => Sys2Proof.Machine.execFirmwareStageStart img s
  | .firmwareMeasurementRequest img => Sys2Proof.Machine.execFirmwareMeasurementRequest img s
  | .readyPoint => Sys2Proof.Machine.execReadyPoint s
  | .registerError tid loc => Sys2Proof.Machine.execRegisterError tid loc s
  | .memoryError addr uncorr => Sys2Proof.Machine.execMemoryError addr uncorr s

end Sys2Proof.Machine
end

