-- ==== Sys2Proof/Machine/Order.lean ====
section
/-!
DEFINITION. What stands around the meaning of an instruction when a thread issues it: the accesses that a `HEDGE` holds
back (R233), the turn at the vector sequencer (R330), and loads whose values may be taken later than the accesses that
follow them (R224, R229, R231).
-/
namespace Sys2Proof.Machine

/-- Vector entries that occupy the thread's lanes, R330: the vector memory instructions, the moves, and `VF`. -/
def Instr.usesLanes : Instr → Bool
  | .vld .. | .vlds .. | .vldx .. | .vldff .. | .vst .. | .vsts .. | .vstx .. | .vamo .. | .vldm .. | .vstm ..
  | .vspill .. | .vfill .. | .tdrain .. | .tdrainx .. | .vf .. | .vmpop .. | .vmfirst .. | .vgetx .. | .vputx .. => true
  | _ => false

/-! ## HEDGE -/

/-- What a `HEDGE` waits for has not all happened yet, R233. -/
def State.hedgeLive (s : State) (tid : Nat) (h : Hedge) : Bool :=
  (h.nodes.any fun o => ((mapFind (s.core (coreOf tid)).nodes o).map (·.live)).getD false)
    || (h.passes.any fun c => (s.thread tid).cPend.contains c)
    || (s.thread tid).bg.any fun o => h.tickets.contains o.ticket && o.failed.isNone

/-- Forgets the `HEDGE`s whose accesses have completed. -/
def State.pruneHedges (s : State) (tid : Nat) : State :=
  if (s.thread tid).hedges.isEmpty then s
  else s.modThread tid fun th => { th with hedges := th.hedges.filter (s.hedgeLive tid) }

/-- The path classes that a record names. -/
def Trace.paths (t : Trace) : List Path := (t.got.map (·.path) ++ t.puts.map (·.1)).eraseDups

/-- A class, and EXT where some access of it lies outside the package (R225). -/
def withExt (p : Path) (outside : Bool) : List Path := if outside then [p, .ext] else [p]

/-- The path classes of the engine commands that an instruction of thread tid has created, as the states before and after it
show: copy nodes and `GNODE`s, `CREF`s, and `BGEMV`s (R225). -/
def State.commandPaths (s t : State) (tid : Nat) : List Path :=
  let k := coreOf tid
  let nodes := (t.core k).nodes.filter fun n => (s.core k).nextOrd ≤ n.2.seq
  (nodes.flatMap fun n => withExt .cpy (t.nodeOutside n.2))
    ++ (((t.thread tid).cPend.drop (s.thread tid).cPend.length).flatMap fun c =>
      withExt .cop (t.outsidePasses.contains c))
    ++ ((t.thread tid).bg.drop (s.thread tid).bg.length).flatMap fun o => withExt .bnk (t.bgOutside o)

/-- The path classes on which the issuing thread's instruction, or the engine command it creates, would access memory (R225). -/
def State.pathsOf (s : State) (i : Instr) : List Path :=
  if (Instr.classes i).isEmpty then []
  else
    match exec i { s with trace := some {} } with
    | .next t => ((t.trace.map Trace.paths).getD []) ++ s.commandPaths t s.cur
    | _ => []

/-- A `HEDGE` holds the issuing thread's instruction back: it makes an access on a to-class while the `HEDGE` waits. -/
def State.heldBy (s : State) (i : Instr) : Bool :=
  !s.me.hedges.isEmpty && (s.pathsOf i).any fun p => s.me.hedges.any fun h => maskHas h.dst p

/-! ## Turns at the vector sequencer -/

/-- The thread's entry asks the sequencer for its lanes: it and the threads that wait are considered in the order of
R330. The thread goes on when its turn has begun. -/
def State.seekTurn (s : State) (tid : Nat) : State :=
  let k := coreOf tid
  if (s.core k).turn.contains tid then s
  else
    let ready := (tid :: (s.core k).want.filter (· ≠ tid)).filter fun t => (s.thread t).run = .ready
    let s := (ready.foldr s.insertTurn []).foldl (fun s t => s.startTurn t) s
    s.modCore k fun c => { c with want := ready.filter fun t => !c.turn.contains t }

/-- It is the thread's turn. -/
def State.hasTurn (s : State) (tid : Nat) : Bool := (s.core (coreOf tid)).turn.contains tid

/-! ## The registers that an instruction names -/

/-- A range of registers: kind, first, count. Kind `acc` counts the tiles 0 to 3 of a core and, from 4, its two weight
buffers; from 256 on, kind `special` counts the keyset slots of a cluster. -/
abbrev RegRange := RegKind × Nat × Nat

/-- Two ranges have a register in common. -/
def RegRange.meets (a b : RegRange) : Bool := a.1 = b.1 && a.2.1 < b.2.1 + b.2.2 && b.2.1 < a.2.1 + a.2.2

/-- x-registers. -/
def xRegs (l : List XReg) : List RegRange := (l.filter (· ≠ 0)).map fun r => (.x, r.toNat, 1)
/-- Vector registers, each with the rest of the largest group that may begin there (R27). -/
def vRegs (l : List VReg) : List RegRange := l.map fun r => (.v, r.toNat, 8)
/-- Mask registers. -/
def mRegs (l : List MReg) : List RegRange := l.map fun r => (.m, r.toNat, 1)
/-- Ciphertext registers. -/
def cRegs (l : List CReg) : List RegRange := l.map fun r => (.c, r.toNat, 1)
/-- Table registers. -/
def tRegs (l : List TbReg) : List RegRange := l.map fun r => (.tb, r.toNat, 1)

/-- The registers that an E-word may name: its vector groups, and what its numbers mean as masks and table registers. -/
def eRegs (e : EOp) : List RegRange :=
  let l := [e.vd, e.va, e.vb, e.vc]
  vRegs l ++ mRegs (l.map low3 ++ e.mask.toList) ++ tRegs (l.map low3) ++ (if e.xb then xRegs [bcastX e] else [])

/-- The registers that an instruction reads or writes, its tile, buffer and keyset slot apart. None stands for every one: a
`STRIP` or `SETVL` may move the registers of a grant, and the instructions of the system see the whole context. -/
def Instr.regs : Instr → Option (List RegRange)
  | .nop | .br .. | .vf .. | .yieldTurn | .fence .. | .hedge .. | .drove .. | .claimdone | .rlclose | .rpop ..
  | .tzero .. => some []
  | .bcc _ a b _ | .glink a b => some (xRegs [a, b])
  | .bz a _ | .bnz a _ | .jmpr a | .pref a _ _ | .cpin a _ | .cunpin a _ | .bankcfg a | .bwait a | .gwait a
  | .rlopen a _ | .rpush _ a _ | .bar _ a _ | .tlw _ a _ | .tscale _ a _ _ | .kset _ a _ => some (xRegs [a])
  | .call _ => some (xRegs [1, 2])
  | .callr a => some (xRegs [1, 2, a])
  | .ret => some (xRegs [1, 2])
  | .jtab a b c _ => some (xRegs [a, b, c])
  | .add d a b | .sub d a b | .mul d a b | .mulh d a b | .mulhn d a b | .div d a b | .divn d a b | .rem d a b
  | .remn d a b | .and d a b | .or d a b | .xor d a b | .andn d a b | .shl d a b _ | .shr d a b _ | .sra d a b _
  | .rot d a b _ | .min d a b | .max d a b | .minn d a b | .maxn d a b | .setcc _ d a b | .lea d a b _ _
  | .fadd _ d a b | .fsub _ d a b | .fmul _ d a b | .fdiv _ d a b | .fmin _ d a b | .fmax _ d a b | .fcmp _ _ d a b
  | .amo _ _ _ _ d a b _ | .waitm _ d a b _ | .spawn d a b => some (xRegs [d, a, b])
  | .addi d a _ | .clz d a | .ctz d a | .popc d a | .bfx d a _ _ | .bfi d a _ _ | .slhash d a _ | .fsqrt _ d a
  | .fcvt _ _ d a | .ld _ _ _ d a _ | .st _ _ _ d a _ | .vsett d a _ | .gnode _ d a => some (xRegs [d, a])
  | .li d _ | .vmvl d | .rpeek d _ _ _ | .tstat d _ _ _ => some (xRegs [d])
  | .sel d a b c | .fma _ d a b c | .cas _ _ _ d a b c _ | .bgemv d a b c _ _ _ _ _ | .cpy _ _ d a b c
  | .cpy2d _ _ d a b c _ _ _ => some (xRegs [d, a, b, c])
  | .cpyg _ _ d a b c _ xi _ => some (xRegs [d, a, b, c, xi])
  | .cflush _ a _ b => some (xRegs [a, b])
  | .tmma _ _ _ a b c _ _ n _ => some (xRegs [a, b, c, n])
  | .vld _ _ vd a _ mk | .vldff _ _ vd a _ mk | .vst _ _ vd a _ mk => some (vRegs [vd] ++ xRegs [a] ++ mRegs mk.toList)
  | .vlds _ _ vd a b _ mk | .vsts _ _ vd a b _ mk => some (vRegs [vd] ++ xRegs [a, b] ++ mRegs mk.toList)
  | .vldx _ _ vd a vb _ _ _ mk | .vstx _ _ vd a vb _ _ _ mk | .vamo _ _ _ _ vd a vb _ _ mk =>
    some (vRegs [vd, vb] ++ xRegs [a] ++ mRegs mk.toList)
  | .vldm _ md a _ | .vstm _ md a _ => some (mRegs [md] ++ xRegs [a])
  | .vspill _ vd a _ | .vfill _ _ vd a _ => some (vRegs [vd] ++ xRegs [a])
  | .vmpop d m mk | .vmfirst d m mk => some (xRegs [d] ++ mRegs (m :: mk.toList))
  | .vgetx d va b _ => some (vRegs [va] ++ xRegs [d, b])
  | .vputx vd a b _ => some (vRegs [vd] ++ xRegs [a, b])
  | .tdrain _ a b _ mk _ _ _ tb h => some (xRegs [a, b, h] ++ mRegs mk.toList ++ tRegs [tb])
  | .tdrainx _ a vb _ mk _ _ _ tb h => some (vRegs [vb] ++ xRegs [a, h] ++ mRegs mk.toList ++ tRegs [tb])
  | .cld c a _ | .cst c a _ | .cnraise c a | .cnoise a c => some (cRegs [c] ++ xRegs [a])
  | .czero c _ => some (cRegs [c])
  | .cmov d c | .cneg d c => some (cRegs [d, c])
  | .cadd d a b | .csub d a b => some (cRegs [d, a, b])
  | .cmulk d c b _ | .caddk d c b _ => some (cRegs [d, c] ++ xRegs [b])
  | .cref d c tb _ => some (cRegs [d, c] ++ tRegs [tb])
  | .tbld tb a _ | .tbst tb a _ => some (tRegs [tb] ++ xRegs [a])
  | .tbset tb _ _ _ => some (tRegs [tb])
  | .claim md va b mk => some (vRegs [va] ++ mRegs (md :: mk.toList) ++ xRegs [b])
  | .vnop e | .vstop e | .vpfetchDirect e | .vpfetchIndirect e | .vadd e | .vsub e | .vrsub e | .vmul e | .vmulh e
  | .vmadd e | .vmsub e | .vsadd e | .vssub e | .vmin e | .vmax e | .vabs e | .vneg e | .vavg e | .vand e | .vor e
  | .vxor e | .vnot e | .vshl e | .vshr e | .vsra e | .vclz e | .vpopc e | .vwadd e | .vwmul e | .vnarrow e | .vcvt e
  | .vfadd e | .vfsub e | .vfmul e | .vfma e | .vfms e | .vfdiv e | .vfsqrt e | .vfmin e | .vfmax e | .vfabs e
  | .vfneg e | .vcmp e | .vfcmp e | .mand e | .mor e | .mxor e | .mnot e | .vsel e | .vid e | .viota e | .vbcast e
  | .vcompress e | .vexpand e | .vslideup e | .vslidedn e | .vperm e | .vredsum e | .vredmax e | .vredmin e
  | .vredand e | .vredor e | .vmeanvar e | .vfn e | .vbscale e | .vbquant e | .vtpack e | .vtunpk e => some (eRegs e)
  | _ => none

/-- The registers that an instruction of a thread may read or write, the default mask among them (R32). -/
def Thread.named (th : Thread) (i : Instr) : Option (List RegRange) :=
  (Instr.regs i).map fun l => if th.dme then (.m, th.dmi.toNat, 1) :: l else l

/-! ## The array's queue and the keyset slots -/

/-- What an instruction asks of the array: a `TMMA` on a tile with a buffer, another entry that sets a tile, a `TLW`, a
drain, or the end of every earlier entry of the thread (R192, R264, R266). -/
inductive ArrayOp where
  | pass (tile : AccReg) (wb : Bool)
  | set (tile : AccReg)
  | load (wb : Bool)
  | drain (tile : AccReg)
  | stat
  deriving DecidableEq, Repr

/-- The array entry of an instruction. -/
def Instr.arrayOp : Instr → Option ArrayOp
  | .tmma _ _ acc _ _ _ wb _ _ _ => some (.pass acc wb)
  | .tzero acc _ | .tscale acc _ _ _ => some (.set acc)
  | .tlw wb _ _ => some (.load wb)
  | .tdrain acc .. | .tdrainx acc .. => some (.drain acc)
  | .tstat .. => some .stat
  | _ => none

/-- An array entry begins only when an earlier one of the core has taken its values (R192, R264, R266). -/
def ArrayOp.after (i l : ArrayOp) : Bool :=
  match i, l with
  | .pass .., .pass .. | .pass .., .set _ | .set _, .pass .. | .set _, .set _ | .load _, .load _ | .stat, _ => true
  | .pass _ b, .load c => b == c
  | .load b, .pass _ c => b == c
  | .drain n, .pass m _ => n == m
  | .drain n, .set m => n == m
  | _, _ => false

/-- Before an array entry: the late entries of the core that must have taken their values (R264). -/
def State.bindArray (s : State) (tid : Nat) (i : Instr) : State :=
  match Instr.arrayOp i with
  | none => s
  | some a =>
    (List.range 4).foldl (fun s k =>
      s.bindIn (fun l => (Instr.arrayOp l.instr).any a.after) (4 * coreOf tid + k)) s

/-- Instructions that read or write a keyset slot. -/
def Instr.usesKeys : Instr → Bool
  | .kset .. | .czero .. | .cadd .. | .csub .. | .cmulk .. | .cnraise .. | .cref .. | .drove .. | .tdrain ..
  | .tdrainx .. => true
  | _ => false

/-- Before an instruction that uses a keyset slot: the late `KSET`s of the cluster have taken their values. -/
def State.bindKeys (s : State) (tid : Nat) (i : Instr) : State :=
  if !Instr.usesKeys i then s
  else
    (List.range 32).foldl (fun s k =>
      s.bindIn (fun l => l.dst.any fun d => d.1 = .special) (32 * cluOf tid + k)) s

/-- Before an instruction of a thread: the late loads that write a register it names are bound, and those that the array or
a keyset slot puts before it. -/
def State.bindFor (s : State) (tid : Nat) (i : Instr) : State :=
  let s := match (s.thread tid).named i with
    | none => s.modThread tid Thread.bindAll
    | some l => s.bindIn (fun x => x.dst.any fun d => l.any (RegRange.meets d)) tid
  (s.bindArray tid i).bindKeys tid i

/-! ## Late loads -/

/-- Loads whose values may be taken late: the plain and acquiring scalar ones, and those of VLS, ARR and COP that complete
without a fault; `VLDFF`, which the values of a fault shorten, is none (log 8). -/
def Instr.readsLate : Instr → Bool
  | .ld _ ord sc .. => ord != .sc || sc = .thr
  | .vld .. | .vlds .. | .vldx .. | .vldm .. | .vfill .. | .tbld .. | .tlw .. | .tscale .. | .tmma .. | .cld ..
  | .kset .. => true
  | _ => false

/-- What a late load writes, as its thread stands (R27, R180, R182, R184, R195, R196). -/
def Thread.lateDst (th : Thread) : Instr → List RegRange
  | .ld _ _ _ d _ _ => xRegs [d]
  | .vld _ _ vd .. | .vlds _ _ vd .. | .vldx _ _ vd .. | .vfill _ _ vd .. => [(.v, vd.toNat, th.grpOf th.ew)]
  | .vldm _ md .. => mRegs [md]
  | .tbld tb .. => tRegs [tb]
  | .cld c .. => cRegs [c]
  | .tlw wb .. => [(.acc, if wb then 5 else 4, 1)]
  | .tscale acc .. | .tmma _ _ acc .. => [(.acc, acc.toNat, 1)]
  | .kset ks .. => [(.special, 256 + ks.toNat, 1)]
  | _ => []

/-- The tile of an array entry that is a load. -/
def Instr.tileOf : Instr → Option AccReg
  | .tmma _ _ acc .. | .tscale acc .. => some acc
  | _ => none

/-- An acquire puts its read before every later CT and VLS access (R232). -/
def Instr.acquires : Instr → Bool
  | .ld _ ord sc .. => ord = .acq && sc ≠ .thr
  | _ => false

/-- The instruction completes every earlier CT and VLS read of its thread: a release, or a load under `.sc` (R232). -/
def Instr.completes : Instr → Bool
  | .st _ ord sc .. => releases ord sc
  | .ld _ ord sc .. => ord = .sc && sc ≠ .thr
  | .amo _ _ ord sc .. => releases ord sc
  | .cas _ ord sc .. => releases ord sc
  | _ => false

/-- The instruction at a thread's pc has completed without a trap, as the states before and after it show. -/
def completed (s t : State) (tid size : Nat) : Bool :=
  let a := s.thread tid
  let b := t.thread tid
  b.run = .ready && b.halt = a.halt && b.pc == a.pc + wordN size && b.sup == a.sup && b.uh == a.uh
    && !(a.sup && a.svec == a.pc + wordN size)

/-- Bytes of the word of a late load. -/
def Instr.lateSize : Instr → Nat
  | .tmma .. => 32
  | _ => 16

/-- The five flags of fcsr, R46. -/
def flagMask : BitVec 7 := 0x1F

/-- A late load as it is executed again: a `TMMA.ff` has its grant for request (R184, R268). -/
def Instr.again : Instr → Instr
  | .tmma assoc _ acc a b c wb rb n imm => .tmma assoc false acc a b c wb rb n imm
  | i => i

/-- The registers that a late load reads again: those before it, with the grant of a `TMMA` as its request. -/
def Thread.lateX (th u : Thread) : Instr → List (Nat × Word)
  | .tmma _ ff _ _ _ c .. => if ff then (th.wx c (u.rx c)).x else th.x
  | _ => th.x

/-- The late load that an instruction which has completed leaves, as the states before and after it show. -/
def State.lateOf (s t : State) (tid : Nat) (i : Instr) (parts : List Taken) : Late :=
  let th := s.thread tid
  let u := t.thread tid
  let acq := fun (q : Taken) => if Instr.acquires i then { q with joined := true } else q
  { instr := Instr.again i, parts := parts.map acq, pc := th.pc, vstart := th.vstart, vl := th.vl, vtype := th.vtype,
    dme := th.dme, dmi := th.dmi, x := th.lateX u i, v := th.v, m := th.m, dst := th.lateDst i,
    flags := u.fcsr &&& flagMask,
    tile := (Instr.tileOf i).map fun a => (a.toNat, (s.core (coreOf tid)).tile a.toNat), tmmaPart := th.tmmaPart }

/-- The record is kept while a load may be taken late: this one or an earlier one. -/
def State.traced (s : State) (i : Instr) : State :=
  if Instr.readsLate i || !s.me.late.isEmpty then
    { s with trace := some {} }.modMe fun th => { th with fcsr := th.fcsr &&& ~~~flagMask }
  else s

/-- After an instruction whose accesses were recorded: the earlier late reads that it fixes, namely those of bytes that it
has written on their class, or read there for good (R228), those that a `HEDGE`, an acquire or a `FENCE` has put before one
of its accesses (R229, R232, R233), and every CT and VLS read under a release; then the load itself becomes late. -/
def State.afterIssue (s t : State) (tid : Nat) (i : Instr) : State :=
  match t.trace with
  | none => t
  | some r =>
    let th := s.thread tid
    let keep := Instr.readsLate i && completed s t tid (Instr.lateSize i) && !(th.lateDst i).isEmpty && !r.got.isEmpty
    let ps := r.paths
    let fixes := fun (q : Taken) =>
      (ps.any fun p => maskHas q.hedged p) || (q.joined && ps.any fencedPath)
        || (Instr.completes i && fencedPath q.path) || (r.puts.any fun w => q.meets w.1 w.2)
        || (!keep && r.got.any fun g => q.meets g.path (g.bytes.map (·.1)))
    { t with trace := none }.modThread tid fun u =>
      let u := u.fixWhere fixes
      if keep then { u with fcsr := th.fcsr, late := u.late ++ [s.lateOf t tid i r.got] }
      else { u with fcsr := u.fcsr ||| (th.fcsr &&& flagMask) }

/-! ## Values that are taken later -/

/-- Which parts of a late load take their values again: those that `pick` names, and those of a byte that an earlier load
takes again on the same class (R228). -/
def Late.choose (l : Late) (hits : List Taken) (pick : Nat → Bool) : List Bool :=
  l.parts.zipIdx.map fun q =>
    (pick q.2 && !q.1.fixed) || hits.any fun h => h.meets q.1.path (q.1.bytes.map (·.1))

/-- The chosen parts. -/
def Late.chosen (l : Late) (bs : List Bool) : List Taken := ((l.parts.zip bs).filter (·.2)).map (·.1)

/-- The parts that take their values again, load by load; none where one of them is fixed. -/
def planLate (pick : Nat → Bool) : List Taken → List Late → Option (List (Late × List Bool))
  | _, [] => some []
  | hits, l :: ls =>
    let bs := l.choose hits pick
    if (l.chosen bs).any (·.fixed) then none
    else (planLate (fun _ => false) (hits ++ l.chosen bs) ls).map ((l, bs) :: ·)

/-- A part with the bytes that its thread would read now. -/
def State.takeNow (s : State) (tid : Nat) (q : Taken) : Taken :=
  { q with bytes := q.bytes.map fun b => (b.1, s.seeByte tid q.path b.1 q.direct) }

/-- The state in which a late load is executed again on given values: its thread as it stood when the load issued. -/
def State.lateState (s : State) (tid : Nat) (l : Late) (parts : List Taken) : State :=
  let s := { s with cur := tid, poison := [], trace := some { given := parts.map fun (q : Taken) => q.bytes.map fun (b : Nat × Byte) => b.2 } }
  let s := s.modThread tid fun th =>
    { th with pc := l.pc, vstart := l.vstart, vl := l.vl, vtype := l.vtype, dme := l.dme, dmi := l.dmi, x := l.x,
              v := l.v, m := l.m, tmmaPart := l.tmmaPart, stop := none, halt := .none, regErr := [], vErr := [],
              vPoison := [], late := [], fcsr := th.fcsr &&& ~~~flagMask }
  s.modCore (coreOf tid) fun c =>
    { c with accErr := [], tiles := (l.tile.map fun (x : Nat × Tile) => mapSet c.tiles x.1 x.2).getD c.tiles }

/-- The entries of a map from lo up to hi taken from another. -/
def mapCopy {β : Type} (m new : List (Nat × β)) (lo hi : Nat) : List (Nat × β) :=
  m.filter (·.1 < lo) ++ mapRange new lo hi ++ m.filter (hi ≤ ·.1)

/-- Takes a range of registers from another context. -/
def Thread.copyRegs (th u : Thread) (d : RegRange) : Thread :=
  let hi := d.2.1 + d.2.2
  match d.1 with
  | .x => { th with x := mapCopy th.x u.x d.2.1 hi }
  | .v => { th with v := mapCopy th.v u.v (d.2.1 * 128) (hi * 128) }
  | .m => { th with m := mapCopy th.m u.m (d.2.1 * 8192) (hi * 8192) }
  | .c => { th with c := mapCopy th.c u.c d.2.1 hi }
  | .tb => { th with tb := mapCopy th.tb u.tb (d.2.1 * 264) (hi * 264) }
  | .acc | .special => th

/-- Takes a tile or a weight buffer from another core. -/
def CoreState.copyRegs (c k : CoreState) (d : RegRange) : CoreState :=
  if d.1 ≠ .acc then c
  else if d.2.1 < 4 then { c with tiles := mapCopy c.tiles k.tiles d.2.1 (d.2.1 + 1) }
  else
    let b := d.2.1 - 4
    { c with wb := mapCopy c.wb k.wb (b * 13312) (b * 13312 + 13312), wbAddr := mapCopy c.wbAddr k.wbAddr b (b + 1),
             wbBad := mapCopy c.wbBad k.wbBad b (b + 1) }

/-- Takes a keyset slot from another cluster. -/
def Cluster.copyRegs (c k : Cluster) (d : RegRange) : Cluster :=
  if d.1 = .special then { c with keys := mapCopy c.keys k.keys (d.2.1 - 256) (d.2.1 - 255) } else c

/-- What a late load writes when it takes its values now: its destinations, and of a `TMMA` the cycles that `TSTAT` reports
and the cluster counts (R187, R394). -/
def State.takeLate (s t : State) (tid : Nat) (l : Late) : State :=
  let k := coreOf tid
  let old := (s.thread tid).lastTmma
  let new := if (Instr.tileOf l.instr).isSome then (t.thread tid).lastTmma else old
  let s := { s with freeIx := t.freeIx }.modThread tid fun th =>
    { l.dst.foldl (fun (th : Thread) d => th.copyRegs (t.thread tid) d) th with lastTmma := new }
  let s := s.modCore k fun c => l.dst.foldl (fun (c : CoreState) d => c.copyRegs (t.core k) d) c
  let s := s.modCluster (cluOf tid) fun c => l.dst.foldl (fun (c : Cluster) d => c.copyRegs (t.cluster (cluOf tid)) d) c
  if new = old then s else s.count (cluOf tid) 2 (2 ^ 64 + new.1 - old.1)

/-- A late load of a thread takes the values of some of its parts now, where none of them is poisoned and it still completes
with the same accesses (R229, R231). -/
def State.replay (s : State) (tid : Nat) (l : Late) (bs : List Bool) : Option (State × Late) :=
  if bs.all (!·) then some (s, l)
  else if (l.chosen bs).any fun q => q.bytes.any fun b => s.poisonSeen tid q.path b.1 then none
  else
    let parts := (l.parts.zip bs).map fun q => if q.2 then s.takeNow tid q.1 else q.1
    let s0 := s.lateState tid l parts
    match exec l.instr s0 with
    | .next t =>
      let places := fun (l : List Taken) => l.map fun q => q.bytes.map (·.1)
      let same := (t.trace.map fun (r : Trace) => places r.got).getD [] == places parts
      if completed s0 t tid (Instr.lateSize l.instr) && same then
        some (s.takeLate t tid l, { l with parts := parts, flags := (t.thread tid).fcsr &&& flagMask })
      else none
    | _ => none

/-- Late loads take their values, in order; none where one cannot. -/
def State.replayAll (s : State) (tid : Nat) : List (Late × List Bool) → Option (State × List Late)
  | [] => some (s, [])
  | p :: ps =>
    match s.replay tid p.1 p.2 with
    | none => none
    | some (s, l) => (s.replayAll tid ps).map fun r => (r.1, l :: r.2)

/-- The parts of the n-th late load that the bits of `els` name take their values now, and with them the later reads of the
same bytes on the same class; nothing happens where that cannot be (R228, R229, R231). -/
def State.rebind (s : State) (tid n els : Nat) : State :=
  let th := s.thread tid
  if th.run ≠ .ready ∨ th.late.length ≤ n then s
  else
    match planLate els.testBit [] (th.late.drop n) with
    | none => s
    | some plan =>
      match s.replayAll tid plan with
      | none => s
      | some (t, ls) => t.modThread tid fun u => { u with late := th.late.take n ++ ls }

/-! ## Issue -/

/-- The current thread issues a decoded instruction: held back by a `HEDGE` (R233), waiting for its lanes (R330), or
executed, with the loads before it bound as the orders ask and its own values possibly taken late (R229). -/
def State.issueInstr (s : State) (i : Instr) : Host.Outcome State Fault Refusal :=
  let tid := s.cur
  let s := s.pruneHedges tid
  if s.heldBy i then .next (s.settledHalt tid)
  else
    let s := if Instr.usesLanes i then s.seekTurn tid else s
    if Instr.usesLanes i && !s.hasTurn tid then .next (s.settled tid)
    else
      let s := if Instr.usesLanes i || s.me.blk.isSome then
          s.modMe fun th => { th with entryAt := (s.cluster (cluOf tid)).cycle } else s
      let s := if s.me.entering then s.modMe fun th => { th with entering := false } else s
      let s := s.bindFor tid i
      match exec i (s.traced i) with
      | .next t => .next (s.afterIssue t tid i)
      | .fault f => .fault f
      | .refused r => .refused r

end Sys2Proof.Machine
end

