-- ==== Sys2Proof/Machine/Step.lean ====
section
/-!
DEFINITION. One step of the machine. The turns of the state say who moves next (log 1): a thread, which issues one
word; an engine, a controller or an outside party, whose event runs; a write that is performed; a clock that advances.
With no turn left the current thread issues.
-/
namespace Sys2Proof.Machine

/-- The first word of the supervisor's handler failed to fetch after a delivery: the thread stops as under `HALT`, and
Ciros logs it (R335). -/
def State.handlerStops (s : State) (t : Trap) : Bool := s.me.entering && t.cause != .illegal

/-- A trap of the fetch or the decoding of a control word, R77 and R335. -/
def State.fetchTrap (s : State) (t : Trap) : State :=
  if s.handlerStops t then
    (s.modMe fun th => { th with run := .halted }).logRas 0x0A 3 (dieNo (dieOf (cluOf s.cur))) s.cur s.me.svec
  else s.takeTrap s.cur s.me.pc false t

/-- A trap of the fetch or the decoding of an E-word, R75, R146 and R152. -/
def State.blockTrap (s : State) (b : Block) (t : Trap) : State :=
  s.takeTrap s.cur b.vf false t

/-- The current thread issues one word: the next E-word of its block, or the word at its pc. -/
def State.issueWord (s : State) : Host.Outcome State Fault Refusal :=
  match s.me.blk with
  | some b =>
    match s.fetchBlk b with
    | (s, .instr i) => s.issueInstr i
    | (s, .trap t) => .next (s.blockTrap b t)
  | none =>
    match s.fetchCtl with
    | (s, .instr i) => s.issueInstr i
    | (s, .trap t) => .next (s.fetchTrap t)

/-- The current thread may issue: its cluster runs, or its partition is being halted and it has not yet taken its forced
save (R341, R345). -/
def State.mayIssue (s : State) : Bool :=
  s.cur < 512 && (s.cluRuns (cluOf s.cur) || (s.me.halt == .asked && !s.hub.recovery))

/-- The current thread moves: it issues a word when it is ready, and an `END` that has issued takes effect. -/
def State.runThread (s : State) : Host.Outcome State Fault Refusal :=
  if !s.mayIssue then .next s
  else
    match s.me.run with
    | .ready => s.issueWord
    | .ending => exec (.endTakesEffect s.cur) s
    | _ => .next s

/-- A clock advances. The copy engines and the slices move with theirs (R299), and the cycles of a cluster count for the
tasks placed on it while it runs (R23, R327, R396). -/
def State.tick (s : State) (c : Clock) (n : Nat) : State :=
  match c with
  | .time => { s with time := s.time + wordN n }
  | .clu k =>
    let s := s.modCluster k fun x => { x with cycle := x.cycle + n }
    if s.cluRuns k then
      { s with threads := s.threads.map fun t =>
          (t.1, if cluOf t.1 = k ∧ t.2.placed then { t.2 with used := t.2.used + n } else t.2) }
    else s
  | .die d => s.modDie d fun x => { x with cycle := x.cycle + n }
  | .fab => s.fabCycles n

/-- A cached translation leaves a cluster and its cores, R354. -/
def State.evictTlb (s : State) (clu asid page : Nat) : State :=
  let keep := fun (l : List TlbEntry) => l.filter fun t => !(t.asid == asid && t.page == page)
  { s with
    cores := s.cores.map fun c => (c.1, if c.1 / 8 = clu then { c.2 with tlb := keep c.2.tlb } else c.2),
    clusters := s.clusters.map fun c => (c.1, if c.1 = clu then { c.2 with tlb := keep c.2.tlb } else c.2) }

/-- An event has no word (R78, R79 give none). -/
def Instr.isEvent (i : Instr) : Bool := (encode i).isNone

/-- Host memory or a peer's, R360. -/
def State.outsideRow (s : State) (pa : Nat) : Bool := s.physRow pa = .host || s.physRow pa = .peer

/-- A turn. An outside party writes outside memory only (R360), Ciros sets the threshold of the hot-page tracker (R296), and
someone writes the boot slots (R362, R397). -/
def State.runTurn (s : State) (t : Turn) : Host.Outcome State Fault Refusal :=
  match t with
  | .thread tid old early => State.runThread { s with cur := tid, fetchOld := old, early := early }
  | .late tid n els => .next (s.rebind tid n els)
  | .event i => if Instr.isEvent i then exec i s else .fault .badTurn
  | .perform tid n => .next (s.performNth tid n)
  | .copyWrite core ord n => .next (s.copyWrite core ord n)
  | .tick c n => .next (s.tick c n)
  | .evict clu asid page => .next (s.evictTlb clu asid page)
  | .outside addr bytes =>
    .next (s.performBytes .outside ((listWrite addr bytes).filter fun b => s.outsideRow b.1))
  | .peerGrant node windows => .next { s with peers := mapSet s.peers node windows }
  | .ownership l => .next (s.ownershipCycle l)
  | .hostRead m addr size => .next (s.hostRead m addr size)
  | .hotThreshold die n => .next (s.modDie die fun d => { d with hotThr := n })
  | .target b => .next (s.modHub fun h => { h with target := b })

/-- One step: the first turn, or the current thread where no turn stands. -/
def step (s : State) : Host.Outcome State Fault Refusal :=
  match s.turns with
  | [] => s.runThread
  | t :: r => State.runTurn { s with turns := r } t

/-! ## Placing a word for the next step -/

/-- Physical and virtual address of the placed word. -/
def placeAt : Nat := 0x200000
/-- Root table of the placed word's address space. -/
def placeRoot : Nat := 0x100000
/-- The level-2 table of that address space. -/
def placeTable : Nat := 0x300000

/-- The region of the context that runs the placed word. -/
def placeRegion : Region := { root := placeRoot }

/-- The context that runs the placed word: a control word at its pc, or an E-word of a running block. -/
def placeThread (block : Bool) : Thread :=
  if block then
    { run := .ready, pc := wordN placeAt, region := some placeRegion, vl := 1,
      blk := some { vf := wordN placeAt, epc := wordN placeAt, start := wordN placeAt, group := [0] } }
  else { run := .ready, pc := wordN placeAt, region := some placeRegion }

/-- Stores a number in memory. -/
def State.poke (s : State) (pa n x : Nat) : State :=
  (numWrite pa n x).foldl (fun s b => s.putByte b.1 b.2.1 b.2.2) s

/-- The state with an instruction where the next step fetches: context 0 of core 0 runs in an address space that maps
the first 1 GiB onto itself, and its word lies at `placeAt` (log 2). -/
def State.withFetchWord (s : State) (nbits w : Nat) : State :=
  let block : Bool := nbits ≤ 64
  let s := { s with turns := [], cur := 0, fetchOld := [], poison := [], old := [], trace := none,
                    dieA := { s.dieA with parts := [] }, hub := { s.hub with recovery := false, stk := 0xFF } }
  let s := (s.modCore 0 fun c => { c with tlb := [] }).modCluster 0 fun c => { c with tlb := [] }
  let s := ((s.poke placeRoot 8 (placeTable + 1)).poke placeTable 8 0x3F).poke placeAt (if block then 8 else 32) w
  s.setThread 0 (placeThread block)

end Sys2Proof.Machine
end

