-- ==== Sys2Proof/Safety.lean ====
section
/-!
DEFINITION. The terms in which the obligations speak: when nothing diverts a thread, what a step leaves as it was, and
the spec's tables of results, written here from the rules as arithmetic on integers and natural numbers.
-/
namespace Sys2Proof.Machine

/-! ## What a step leaves as it was -/

/-- Nothing diverts the thread from an instruction's own effect: no register error is stored (R36 to R40), no forced save
is requested (R341), and no earlier write or load is one that a `HEDGE` puts before a later access or whose value is still
open (R229, R233). -/
def Thread.clean (th : Thread) : Bool :=
  th.regErr.isEmpty && th.vErr.isEmpty && th.vPoison.isEmpty && th.stop.isNone && th.halt == .none
    && (th.pend.all fun w => w.hedged == 0) && th.late.isEmpty

/-- No value of an access is prescribed: the running instruction is not one that is executed again (R229, log 8). -/
def State.ownValues (s : State) : Prop := ∀ t, s.trace = some t → t.given = []

/-- The thread may use its vector state, R34. -/
def Thread.hasVector (th : Thread) : Bool := !th.va || th.sup

/-- The thread issues from the control stream: no block runs. -/
def Thread.inStream (th : Thread) : Bool := th.blk.isNone

/-- Every byte of memory reads as before. -/
def SameBytes (s t : State) : Prop := ∀ a, t.byte a = s.byte a

/-- Only the issuing thread has changed: not memory, no core, cluster, die or hub, and no other thread. -/
def OnlyMe (s t : State) : Prop :=
  { t with threads := s.threads } = s ∧ ∀ k, k ≠ s.cur → t.thread k = s.thread k

/-- Memory and every other thread are as before; translation caches, cluster caches and counters may have changed. -/
def MachineKept (s t : State) : Prop :=
  SameBytes s t ∧ t.poison = s.poison ∧ t.cur = s.cur ∧ t.turns = s.turns ∧ t.time = s.time
    ∧ ∀ k, k ≠ s.cur → t.thread k = s.thread k

/-- The issuing thread as a register instruction leaves it: one x-register has a new value (x0 keeps zero, R20), the
flags are accumulated, the pc has moved, and nothing else has changed. -/
def RegisterResult (th u : Thread) (size : Nat) (d : XReg) (v : Word) (fl : Flags) : Prop :=
  (∀ r, u.rx r = if r = d ∧ d ≠ 0 then v else th.rx r) ∧ u.pc = th.pc + wordN size ∧ u.fcsr = th.fcsr ||| fl
    ∧ { u with x := th.x, pc := th.pc, fcsr := th.fcsr } = th

/-- The issuing thread goes on to an address, and nothing else has changed. -/
def JumpTo (s t : State) (pc : Word) : Prop := OnlyMe s t ∧ t.me = { s.me with pc := pc }

/-! ## Translation, R350 to R353 -/

/-- Index of a virtual address in the table of a level, R352. -/
def walkIndex (va lvl : Nat) : Nat :=
  if lvl = 3 then va / 2 ^ 39 % 2 ^ 17 else if lvl = 2 then va / 2 ^ 30 % 2 ^ 9
  else if lvl = 1 then va / 2 ^ 21 % 2 ^ 9 else va / 2 ^ 16 % 2 ^ 5

/-- Address field of an entry, R351. -/
def entryAddr (e : Nat) : Nat := e / 2 ^ 8 % 2 ^ 44 * 2 ^ 8

/-- log2 of the page of a leaf, R352. -/
def leafLog (lvl : Nat) : Nat := if lvl = 2 then 30 else if lvl = 1 then 21 else 16

/-- A valid entry is malformed, R352: a reserved bit or memory type, a leaf at level 3, none at level 0, and an address that
is not aligned to its page or to its next table. -/
def entryBad (e lvl : Nat) : Prop :=
  e / 2 ^ 60 % 2 ^ 4 ≠ 0 ∨ e / 2 ^ 52 % 2 ^ 6 ≠ 0 ∨ 2 ≤ e / 2 ^ 6 % 4
    ∨ (e.testBit 5 = true ∧ (lvl = 3 ∨ entryAddr e % 2 ^ leafLog lvl ≠ 0))
    ∨ (e.testBit 5 = false ∧ (lvl = 0 ∨ entryAddr e % (if lvl = 1 then 256 else 4096) ≠ 0))

/-- Every cached translation of an address space that a thread would use is what a walk finds: no page-table entry has
changed under it (R354). -/
def tlbFresh (s : State) (ctx : Ctx) : Prop :=
  ∀ x ∈ (s.core (coreOf ctx.tid)).tlb ++ (s.cluster (cluOf ctx.tid)).tlb, x.asid = ctx.asid →
    ∀ va, va / 2 ^ x.log = x.page → s.walk va 3 ctx.root = .leaf x.entry.toNat x.log

/-- A leaf lets an access pass, R353. -/
def leafAllows (e log : Nat) (acc : Acc) (user : Bool) : Prop :=
  (match acc with
    | .fetch => e.testBit 3 = true
    | .read => e.testBit 1 = true
    | .write => e.testBit 2 = true
    | .rmw => e.testBit 1 = true ∧ e.testBit 2 = true)
    ∧ (user = true → e.testBit 4 = true) ∧ ¬ (log = 16 ∧ e.testBit 58 = true)

/-! ## Taking a trap, as R335 and R337 describe it -/

/-- The register words that a trap writes: tstatus, and the trap registers of one bank, whose words are even in the user bank
and odd in the supervisor bank (R40, R334, R335). -/
def trapWrites (bank : Nat) (e : RegKind × Nat × Nat) : Prop :=
  e.1 = .special ∧ (e.2.1 = 0x20 ∨ e.2.1 ∈ [0x21, 0x22, 0x23, 0x24] ∧ e.2.2 % 2 = bank)

/-- What delivery to the supervisor leaves of a thread (R335): bank, PM, mode and pc, and nothing else of the spec's state.
A running block, a waiting `WAITM`, a held wait and a kept resume address end; every pending write has been performed and
every late load bound, its flags in fcsr (R337); the registers that the trap has written hold no error (R40). -/
def SuperTrap (th u : Thread) (tpc : Word) (vr : Bool) (t : Trap) : Prop :=
  u.super = { tpc := tpc, tcause := wordN (t.cause.code + if t.late then 256 else 0), tval := t.tval, telem := t.telem }
    ∧ u.sup = true ∧ u.pc = th.svec ∧ u.tstatus.getLsbD 2 = th.sup ∧ u.vr = vr
    ∧ u.va = th.va ∧ u.uh = th.uh ∧ u.ub = th.ub
    ∧ u.pend = [] ∧ u.blk = none ∧ u.waitm = none ∧ u.holds = .nothing ∧ u.late = [] ∧ u.resume = none ∧ u.dogAt = none
    ∧ u.fcsr = th.fcsr ||| lateFlags th.late
    ∧ (∀ e, e ∈ u.regErr ↔ e ∈ th.regErr ∧ ¬ trapWrites 1 e)
    ∧ { u with super := th.super, sup := th.sup, pc := th.pc, tstatus := th.tstatus, pend := th.pend, blk := th.blk,
               waitm := th.waitm, holds := th.holds, stop := th.stop, late := th.late, dogged := th.dogged,
               entering := th.entering, resume := th.resume, dogAt := th.dogAt, fcsr := th.fcsr,
               regErr := th.regErr } = th

/-! ## The table of R112 -/

/-- Number of bits of a natural number, the position after its highest one bit. -/
def bitLength (x : Nat) : Nat := if x = 0 then 0 else x.log2 + 1

/-- Destination and value of an integer instruction, R112 and R113. -/
def intResult (th : Thread) : Instr → Option (XReg × Word)
  | .add d a b => some (d, wordN ((th.rx a).toNat + (th.rx b).toNat))
  | .sub d a b => some (d, wordI (((th.rx a).toNat : Int) - (th.rx b).toNat))
  | .addi d a imm => some (d, wordN ((th.rx a).toNat + imm.toNat))
  | .mul d a b => some (d, wordN ((th.rx a).toNat * (th.rx b).toNat))
  | .mulh d a b => some (d, wordI (sval (th.rx a) * sval (th.rx b) / 2 ^ 64))
  | .mulhn d a b => some (d, wordN ((th.rx a).toNat * (th.rx b).toNat / 2 ^ 64))
  | .div d a b => some (d, if th.rx b = 0 then wordN (2 ^ 64 - 1) else wordI (Int.tdiv (sval (th.rx a)) (sval (th.rx b))))
  | .divn d a b => some (d, if th.rx b = 0 then wordN (2 ^ 64 - 1) else wordN ((th.rx a).toNat / (th.rx b).toNat))
  | .rem d a b => some (d, if th.rx b = 0 then th.rx a else wordI (Int.tmod (sval (th.rx a)) (sval (th.rx b))))
  | .remn d a b => some (d, if th.rx b = 0 then th.rx a else wordN ((th.rx a).toNat % (th.rx b).toNat))
  | .and d a b => some (d, wordN ((th.rx a).toNat &&& (th.rx b).toNat))
  | .or d a b => some (d, wordN ((th.rx a).toNat ||| (th.rx b).toNat))
  | .xor d a b => some (d, wordN ((th.rx a).toNat ^^^ (th.rx b).toNat))
  | .andn d a b => some (d, wordN ((th.rx a).toNat &&& (2 ^ 64 - 1 - (th.rx b).toNat)))
  | .shl d a b imm => some (d, wordN ((th.rx a).toNat * 2 ^ ((th.rx b + imm).toNat % 64)))
  | .shr d a b imm => some (d, wordN ((th.rx a).toNat / 2 ^ ((th.rx b + imm).toNat % 64)))
  | .sra d a b imm => some (d, wordI (sval (th.rx a) / 2 ^ ((th.rx b + imm).toNat % 64)))
  | .rot d a b imm =>
    let n := (th.rx b + imm).toNat % 64
    some (d, wordN ((th.rx a).toNat * 2 ^ n + (th.rx a).toNat / 2 ^ (64 - n)))
  | .min d a b => some (d, wordI (min (sval (th.rx a)) (sval (th.rx b))))
  | .max d a b => some (d, wordI (max (sval (th.rx a)) (sval (th.rx b))))
  | .minn d a b => some (d, wordN (min (th.rx a).toNat (th.rx b).toNat))
  | .maxn d a b => some (d, wordN (max (th.rx a).toNat (th.rx b).toNat))
  | .clz d a => some (d, wordN (64 - bitLength (th.rx a).toNat))
  | .ctz d a => some (d, wordN (((List.range 64).find? fun i => (th.rx a).toNat.testBit i).getD 64))
  | .popc d a => some (d, wordN ((List.range 64).filter fun i => (th.rx a).toNat.testBit i).length)
  | .sel d a b c => some (d, if th.rx c = 0 then th.rx b else th.rx a)
  | .setcc cc d a b => some (d, if condX cc (th.rx a) (th.rx b) then 1 else 0)
  | .lea d a b sh imm => some (d, wordN ((th.rx a).toNat + (th.rx b).toNat * 2 ^ sh.toNat + imm.toNat))
  | .bfx d a pos len => some (d, wordN ((th.rx a).toNat / 2 ^ pos.toNat % 2 ^ len.toNat))
  | .bfi d a pos len =>
    let x := (th.rx d).toNat
    some (d, wordN (x - x / 2 ^ pos.toNat % 2 ^ len.toNat * 2 ^ pos.toNat
      + (th.rx a).toNat % 2 ^ len.toNat * 2 ^ pos.toNat))
  | .li d imm => some (d, imm)
  | _ => none

/-- Destination, pattern and flags of a scalar float instruction, R115 to R117: the operands are the low bits of the
registers, and the rounding mode is fcsr.frm. -/
def floatResult (th : Thread) : Instr → Option (XReg × Nat × Flags)
  | .fadd t d a b => some (d, fAdd t th.frm ((th.rx a).toNat % 2 ^ t.width) ((th.rx b).toNat % 2 ^ t.width))
  | .fsub t d a b => some (d, fSub t th.frm ((th.rx a).toNat % 2 ^ t.width) ((th.rx b).toNat % 2 ^ t.width))
  | .fmul t d a b => some (d, fMul t th.frm ((th.rx a).toNat % 2 ^ t.width) ((th.rx b).toNat % 2 ^ t.width))
  | .fma t d a b c => some (d, fFma t th.frm ((th.rx a).toNat % 2 ^ t.width) ((th.rx b).toNat % 2 ^ t.width)
      ((th.rx c).toNat % 2 ^ t.width))
  | .fdiv t d a b => some (d, fDiv t th.frm ((th.rx a).toNat % 2 ^ t.width) ((th.rx b).toNat % 2 ^ t.width))
  | .fsqrt t d a => some (d, fSqrt t th.frm ((th.rx a).toNat % 2 ^ t.width))
  | .fmin t d a b => some (d, fMinMax t false ((th.rx a).toNat % 2 ^ t.width) ((th.rx b).toNat % 2 ^ t.width))
  | .fmax t d a b => some (d, fMinMax t true ((th.rx a).toNat % 2 ^ t.width) ((th.rx b).toNat % 2 ^ t.width))
  | .fcvt src dst d a =>
    let r := convert src dst th.frm ((th.rx a).toNat % 2 ^ src.width)
    some (d, (extTy dst r.1).toNat, r.2)
  | .fcmp cc t d a b =>
    let r := fCond cc t ((th.rx a).toNat % 2 ^ t.width) ((th.rx b).toNat % 2 ^ t.width)
    some (d, if r.1 then 1 else 0, r.2)
  | _ => none

/-! ## Correct rounding, R45 to R59 -/

/-- An integer as a value. -/
def intOf (i : Int) : FVal := .fin (decide (i < 0)) i.natAbs 0

/-- A signed power of two. -/
def powOf (neg : Bool) (e : Int) : FVal := .fin neg 1 e

/-- Signed significand of a value over 2^q. -/
def sigOver (v : FVal) (q : Int) : Int :=
  match v with
  | .fin n a e => sigAt n a e q
  | _ => 0

/-- Exponent of a value's significand. -/
def expOf (v : FVal) : Int :=
  match v with
  | .fin _ _ e => e
  | _ => 0

/-- The value halfway between two. -/
def midOf (v w : FVal) : FVal :=
  let q := min (expOf v) (expOf w)
  let s := sigOver v q + sigOver w q
  .fin (decide (s < 0)) s.natAbs (q - 1)

/-- w is the value, among those of a format, that a rounding mode gives for an exact value v (R48). `cmp y` has the sign of
y − v; `even` says that the encoding of w has bit 0 clear. -/
def RoundsTo (rm : Rm) (cmp : FVal → Int) (isVal : FVal → Prop) (w : FVal) (even : Prop) : Prop :=
  (∀ y, isVal y → (cmp y = 0 → cmp w = 0) ∧ ¬ (cmpVal y w < 0 ∧ 0 < cmp y) ∧ ¬ (cmpVal w y < 0 ∧ cmp y < 0)
      ∧ (rm = .rne → (cmpVal w y < 0 → 0 ≤ cmp (midOf w y) ∧ (cmp (midOf w y) = 0 → even))
          ∧ (cmpVal y w < 0 → cmp (midOf w y) ≤ 0 ∧ (cmp (midOf w y) = 0 → even))))
    ∧ (rm = .rtz → (cmp (intOf 0) < 0 → cmp w ≤ 0) ∧ (0 < cmp (intOf 0) → 0 ≤ cmp w))
    ∧ (rm = .rdn → cmp w ≤ 0) ∧ (rm = .rup → 0 ≤ cmp w)

/-- Exponent of the power of two above the largest value of an IEEE format, and that of its smallest normal value. -/
def topExp : Ty → Int
  | .h16 => 16
  | .f32 => 128
  | _ => 1024
/-- The exponent of the smallest normal value. -/
def minExp : Ty → Int
  | .h16 => -14
  | .f32 => -126
  | _ => -1022

/-- The value of a pattern that is no NaN; an infinity has its place as the next power of two. -/
def placed (t : Ty) (x : Nat) : Option FVal :=
  match decodeVal t x with
  | .fin n a e => some (.fin n a e)
  | .inf n => some (powOf n (topExp t))
  | .nan _ => none

/-- A result is the correctly rounded one, and NX says whether it is inexact (R45, R46, R48). -/
def Rounded (t : Ty) (rm : Rm) (cmp : FVal → Int) (r : Nat × Flags) : Prop :=
  ∃ w, placed t r.1 = some w ∧ RoundsTo rm cmp (fun y => ∃ x, placed t x = some y) w (r.1 % 2 = 0)
    ∧ (r.2.getLsbD 0 = true ↔ cmp w ≠ 0)

/-- An IEEE result below the format's next power of two: correctly rounded, OF with an infinity, UF for a tiny inexact
result, no other flag (R45, R46). At or beyond it: OF and NX, and an infinity or the largest finite value by the mode. -/
def RoundedIEEE (t : Ty) (rm : Rm) (cmp : FVal → Int) (r : Nat × Flags) : Prop :=
  let inf := fun n => (2 ^ Ty.expBits t - 1) * 2 ^ Ty.fracBits t + (if n then 2 ^ (t.width - 1) else 0)
  (0 < cmp (powOf false (topExp t)) ∧ cmp (powOf true (topExp t)) < 0 →
    Rounded t rm cmp r ∧ (r.2.getLsbD 2 = true ↔ ∃ n, decodeVal t r.1 = .inf n) ∧ r.2.getLsbD 3 = false
      ∧ r.2.getLsbD 4 = false
      ∧ (r.2.getLsbD 1 = true → r.2.getLsbD 0 = true ∧ 0 < cmp (powOf false (minExp t)) ∧ cmp (powOf true (minExp t)) < 0)
      ∧ ∀ w, placed t r.1 = some w → r.2.getLsbD 0 = true → cmpVal w (powOf false (minExp t)) < 0 →
          0 < cmpVal w (powOf true (minExp t)) → r.2.getLsbD 1 = true)
  ∧ (cmp (powOf false (topExp t)) ≤ 0 → r = (if rm = .rne ∨ rm = .rup then inf false else inf false - 1, 5))
  ∧ (0 ≤ cmp (powOf true (topExp t)) → r = (if rm = .rne ∨ rm = .rdn then inf true else inf true - 1, 5))

/-! ## Branches, R101 -/

/-- Condition and offset of a branch. -/
def branchOf (th : Thread) : Instr → Option (Bool × Word)
  | .br off => some (true, off)
  | .bcc cc a b off => some (condX cc (th.rx a) (th.rx b), off)
  | .bz a off => some (decide (th.rx a = 0), off)
  | .bnz a off => some (decide (th.rx a ≠ 0), off)
  | _ => none

/-! ## Instructions of R34 -/

/-- The instructions that R34 and R306 name: vector memory and vector control with `VF`, `STRIP`, `SETVL`, `TMMA`,
`TDRAIN`, `TDRAINX`, `CALL`, `CALLR`, `RET` and `CLAIM`, and the special registers 0x000 to 0x007 where R24 lets user
mode reach them. -/
def needsVector : Instr → Bool
  | .vf .. | .vld .. | .vlds .. | .vldx .. | .vldff .. | .vst .. | .vsts .. | .vstx .. | .vamo .. | .vldm .. | .vstm ..
  | .vspill .. | .vfill .. | .vsett .. | .vmvl .. | .vmpop .. | .vmfirst .. | .vgetx .. | .vputx .. | .vssave ..
  | .vsload .. | .strip .. | .setvl .. | .tmma .. | .tdrain .. | .tdrainx .. | .call .. | .callr .. | .ret
  | .claim .. => true
  | .mfs _ num => decide (num.toNat ≤ 7)
  | .mts num _ => decide (num.toNat ≤ 3 ∨ num.toNat = 7)
  | _ => false

/-- The type that `VAMO` takes for an operation, R127. -/
def atomicTakes (op : AmoOp) (t : Ty) : Bool :=
  decide (t ∈ [Ty.s32, .s64, .n32, .n64]) || (decide (t = .t32) && decide (op ∉ [AmoOp.min, .max]))
    || (decide (t ∈ [Ty.f32, .f64]) && decide (op ∉ [AmoOp.and, .or, .xor]))

/-- The type that a word names is one that its form takes (R122, R127): a check on the word alone, which comes before
VABSENT (R77). -/
def typeTaken : Instr → Bool
  | .vlds (some t) .. | .vldx (some t) .. | .vsts (some t) .. | .vstx (some t) .. => decide (t ∉ [Ty.s2, .s4, .g6])
  | .vamo op (some t) .. => atomicTakes op t
  | _ => true

/-! ## Element-wise E-words -/

/-- What an element-wise E-word does: destination register and width, source groups, whether it moves elements between
positions or changes their width ("cross", R141), its own checks, the destination elements that it writes, and the value
and flags of each. -/
structure ERow where
  vd : VReg
  u : Nat
  srcs : List (VReg × Nat)
  cross : Bool := false
  ok : Bool
  act : List Nat
  val : Nat → Nat × Flags

/-- An E-word is legal: its own checks, groups aligned and of at most 8 registers (R27, R140), and for a cross entry a
destination that meets no source (R141). -/
def ERow.legal (r : ERow) (th : Thread) : Bool :=
  r.ok && (r.srcs ++ [(r.vd, r.u)]).all (fun o => th.regOk o.1 o.2)
    && (!r.cross || r.srcs.all fun o => !th.meet r.vd r.u o.1 o.2)

/-- The issuing thread after an element-wise E-word: the new elements, vdirty (R33), fcsr (R47), the next E-word; its
virtual time is charged, and nothing else has changed. -/
def ERow.result (r : ERow) (th : Thread) (vt : Nat) : Thread :=
  (((({ th with vt := vt } : Thread).setElems r.vd r.u (r.act.map fun k => (k, (r.val k).1))).dirty r.vd r.u).orFlags
    (r.act.foldl (fun f k => f ||| (r.val k).2) 0)).advanceBlk

/-- A row whose operands have the width of vtype's elements: any operand under the broadcast flag, the second one in the
immediate form where `imm` says so. -/
def rowW (th : Thread) (b : Block) (e : EOp) (accepts : Ty → Bool) (srcs : Nat → List (VReg × Nat))
    (f : Ty → Nat → Nat → Nat × Flags) : ERow :=
  let ty := th.eTy e
  { vd := e.vd, u := ty.width, srcs := srcs ty.width, ok := accepts ty && decide (ty.width = th.ew), act := eAct th b e,
    val := fun k => f ty ty.width k }

/-- Two operands, the second may be an immediate. -/
def rowI (th : Thread) (b : Block) (e : EOp) (accepts : Ty → Bool) (f : Ty → Nat → Nat → Nat × Flags) : ERow :=
  rowW th b e accepts (fun w => srcA e w ++ srcB e w) fun t w k => f t (opA th e w k) (opB th e w k)
/-- Two register operands. -/
def rowR (th : Thread) (b : Block) (e : EOp) (accepts : Ty → Bool) (f : Ty → Nat → Nat → Nat × Flags) : ERow :=
  rowW th b e accepts (fun w => srcA e w ++ [(e.vb, w)]) fun t w k => f t (opA th e w k) (th.elem e.vb w k)
/-- Three register operands. -/
def row3 (th : Thread) (b : Block) (e : EOp) (accepts : Ty → Bool) (f : Ty → Nat → Nat → Nat → Nat × Flags) : ERow :=
  rowW th b e accepts (fun w => srcA e w ++ [(e.vb, w), (e.vc, w)])
    fun t w k => f t (opA th e w k) (th.elem e.vb w k) (th.elem e.vc w k)
/-- One operand. -/
def row1 (th : Thread) (b : Block) (e : EOp) (accepts : Ty → Bool) (f : Ty → Nat → Nat × Flags) : ERow :=
  rowW th b e accepts (fun w => srcA e w) fun t w k => f t (opA th e w k)

/-- S of R139. -/
def isS (t : Ty) : Bool := t ∈ [Ty.s2, .s4, .s8, .s16, .s32, .s64]
/-- S and N of R139. -/
def isSN (t : Ty) : Bool := t ∈ [Ty.s2, .s4, .s8, .s16, .s32, .s64, .n8, .n16, .n32, .n64]
/-- S, N and T of R139. -/
def isSNT (t : Ty) : Bool := isSN t || decide (t = .t32)
/-- F of R139. -/
def isF (t : Ty) : Bool := t ∈ [Ty.h16, .f32, .f64]
/-- The value of an integer pattern in a format, R43 and R44. -/
def val (t : Ty) (x : Nat) : Int := if isS t then sx t.width x else (x % 2 ^ t.width : Nat)
/-- A product's second factor: in t32 a signed 32-bit integer (R154). -/
def mulBy (t : Ty) (x : Nat) : Int := if t = .t32 then sx 32 x else val t x
/-- wrap of R138. -/
def wrapTo (t : Ty) (i : Int) : Nat × Flags := ((i % 2 ^ t.width).toNat, 0)
/-- sat of R138: a clamp to the limits of R43 sets OF. -/
def satTo (t : Ty) (i : Int) : Nat × Flags :=
  let lo : Int := if isS t then -2 ^ (t.width - 1) else 0
  let hi : Int := if isS t then 2 ^ (t.width - 1) - 1 else 2 ^ t.width - 1
  (((max lo (min hi i)) % 2 ^ t.width).toNat, if i < lo ∨ hi < i then fOF else 0)
/-- A pattern without flags, of which a g6 container keeps six bits (R56). -/
def bitsTo (t : Ty) (x : Nat) : Nat × Flags := (if t = .g6 then x % 64 else x, 0)

/-- The integer E-words of R153 and R154. -/
def integerRow (th : Thread) (b : Block) : Instr → Option ERow
  | .vadd e => some (rowI th b e isSNT fun t x y => wrapTo t (val t x + val t y))
  | .vsub e => some (rowI th b e isSNT fun t x y => wrapTo t (val t x - val t y))
  | .vrsub e => some (rowI th b e isSNT fun t x y => wrapTo t (val t y - val t x))
  | .vmul e => some (rowI th b e isSNT fun t x y => wrapTo t (val t x * mulBy t y))
  | .vmulh e => some (rowR th b e isSN fun t x y => wrapTo t (val t x * val t y / 2 ^ t.width))
  | .vmadd e => some (row3 th b e isSNT fun t x y z => wrapTo t (val t x * mulBy t y + val t z))
  | .vmsub e => some (row3 th b e isSNT fun t x y z => wrapTo t (val t z - val t x * mulBy t y))
  | .vsadd e => some (rowI th b e isSN fun t x y => satTo t (val t x + val t y))
  | .vssub e => some (rowI th b e isSN fun t x y => satTo t (val t x - val t y))
  | .vmin e => some (rowI th b e isSN fun t x y => wrapTo t (min (val t x) (val t y)))
  | .vmax e => some (rowI th b e isSN fun t x y => wrapTo t (max (val t x) (val t y)))
  | .vabs e => some (row1 th b e isS fun t x => wrapTo t (max (val t x) (-val t x)))
  | .vneg e => some (row1 th b e isSNT fun t x => wrapTo t (-val t x))
  | .vavg e => some (rowR th b e isSN fun t x y => wrapTo t ((val t x + val t y + 1) / 2))
  | _ => none

/-- The logic and shift E-words of R155. -/
def logicRow (th : Thread) (b : Block) : Instr → Option ERow
  | .vand e => some (rowI th b e (fun _ => true) fun t x y => bitsTo t (x &&& y))
  | .vor e => some (rowI th b e (fun _ => true) fun t x y => bitsTo t (x ||| y))
  | .vxor e => some (rowI th b e (fun _ => true) fun t x y => bitsTo t (x ^^^ y))
  | .vnot e => some (row1 th b e (fun _ => true) fun t x => bitsTo t (2 ^ t.width - 1 - x))
  | .vshl e => some (rowI th b e isSNT fun t x y => (x * 2 ^ (y % t.width) % 2 ^ t.width, 0))
  | .vshr e => some (rowI th b e isSNT fun t x y => (x / 2 ^ (y % t.width), 0))
  | .vsra e => some (rowI th b e isSNT fun t x y => wrapTo t (sx t.width x / 2 ^ (y % t.width)))
  | .vclz e => some (row1 th b e isSNT fun t x => (t.width - bitLength x, 0))
  | .vpopc e => some (row1 th b e isSNT fun t x => (((List.range t.width).filter fun i => x.testBit i).length, 0))
  | _ => none

/-- The float E-words of R159 and R160: one rounding in the mode of R48. -/
def floatRow (th : Thread) (b : Block) : Instr → Option ERow
  | .vfadd e => some (rowR th b e isF fun t x y => fAdd t (th.eRm e) x y)
  | .vfsub e => some (rowR th b e isF fun t x y => fSub t (th.eRm e) x y)
  | .vfmul e => some (rowR th b e isF fun t x y => fMul t (th.eRm e) x y)
  | .vfma e => some (row3 th b e isF fun t x y z => fFma t (th.eRm e) x y z)
  | .vfms e => some (row3 th b e isF fun t x y z => fFms t (th.eRm e) x y z)
  | .vfdiv e => some (rowR th b e isF fun t x y => fDiv t (th.eRm e) x y)
  | .vfsqrt e => some (row1 th b e isF fun t x => fSqrt t (th.eRm e) x)
  | .vfmin e => some (rowR th b e isF fun t x y => fMinMax t false x y)
  | .vfmax e => some (rowR th b e isF fun t x y => fMinMax t true x y)
  | .vfabs e => some (row1 th b e isF fun t x => fSign t false x)
  | .vfneg e => some (row1 th b e isF fun t x => fSign t true x)
  | _ => none

/-- The type of twice the width and the same kind, R156. -/
def doubled : Ty → Option Ty
  | .s2 => some .s4
  | .s4 => some .s8
  | .s8 => some .s16
  | .s16 => some .s32
  | .s32 => some .s64
  | .n8 => some .n16
  | .n16 => some .n32
  | .n32 => some .n64
  | .h16 => some .f32
  | .f32 => some .f64
  | _ => none

/-- A row that changes the width of elements, R140: one of the widths is vtype's. -/
def rowC (th : Thread) (b : Block) (e : EOp) (ok : Bool) (srcs : List (VReg × Nat)) (widths : List Nat) (u : Nat)
    (f : Nat → Nat × Flags) : ERow :=
  { vd := e.vd, u := u, srcs := srcs, cross := true, ok := ok && widths.any (fun w => w == th.ew), act := eAct th b e,
    val := f }

/-- Width changes and conversion, R156 to R158. -/
def widthRow (th : Thread) (b : Block) : Instr → Option ERow
  | .vwadd e =>
    let t := th.eTy e
    let w := t.width
    let t2 := (doubled t).getD .f64
    some (rowC th b e (doubled t).isSome (srcA e w ++ [(e.vb, w)]) [w, 2 * w] (2 * w) fun k =>
      let x := opA th e w k
      let y := th.elem e.vb w k
      if isF t then finish t2 (th.eRm e) (addVal (th.eRm e) (decodeVal t x) (decodeVal t y))
      else wrapTo t2 (val t x + val t y))
  | .vwmul e =>
    let t := th.eTy e
    let w := t.width
    let t2 := (doubled t).getD .f64
    some (rowC th b e (doubled t).isSome (srcA e w ++ [(e.vb, w)]) [w, 2 * w] (2 * w) fun k =>
      let x := opA th e w k
      let y := th.elem e.vb w k
      let u := decodeVal t x
      let v := decodeVal t y
      if isF t then finish t2 (th.eRm e) ((mulVal u v).1, if sNaN u || sNaN v then fNV else 0)
      else wrapTo t2 (val t x * val t y))
  | .vnarrow e =>
    let t := th.eTy e
    let w := t.width
    let sh := e.imm.toNat
    some (rowC th b e (isSN t && decide (w ≤ 32) && decide (sh < 2 * w)) [(e.va, 2 * w)] [w, 2 * w] w fun k =>
      let x := th.elem e.va (2 * w) k
      let v : Int := if isS t then sx (2 * w) x else x
      let v := (if e.f.getLsbD 1 ∧ 0 < sh then v + 2 ^ (sh - 1) else v) / 2 ^ sh
      if e.f.getLsbD 0 then satTo t v else wrapTo t v)
  | .vcvt e =>
    let t := th.eTy e
    let t2 := (Ty.ofCode (e.f.extractLsb' 0 5)).getD .tr
    let r := rowC th b e (decide (t ≠ .tr) && decide (t2 ≠ .tr)) [(e.va, t.width)] [t.width, t2.width] t2.width fun k =>
      convert t t2 (th.eRm e) (th.elem e.va t.width k)
    some { r with cross := t.width != t2.width }
  | _ => none

/-- Indexes, select and broadcasts of a register or an immediate, R163 and R164. -/
def indexRow (th : Thread) (b : Block) : Instr → Option ERow
  | .vid e => some (rowW th b e isSNT (fun _ => []) fun t _ k => wrapTo t (sx 16 e.imm.toNat + k))
  | .viota e => some (rowW th b e isSNT (fun _ => []) fun t _ k =>
      (((List.range k).filter fun j => th.mbit (low3 e.va) j).length % 2 ^ t.width, 0))
  | .vsel e => some (rowW th b e (fun _ => true) (fun w => srcA e w ++ [(e.vb, w)]) fun t w k =>
      bitsTo t (if th.mbit (low3 e.vc) k then opA th e w k else th.elem e.vb w k))
  | .vbcast e =>
    if e.xb then some (rowW th b e (fun _ => true) (fun _ => []) fun t w k => bitsTo t (opA th e w k))
    else some { rowW th b e (fun _ => true) (fun w => [(e.va, w)]) (fun t w _ =>
      bitsTo t (if e.imm.toNat < th.vl then th.elem e.va w e.imm.toNat else 0)) with cross := true }
  | _ => none

/-- The elements below vl whose bit of a mask is set, in order. -/
def bitsSet (th : Thread) (m : MReg) : List Nat := (List.range th.vl).filter fun k => th.mbit m k

/-- A row that moves elements of va: a destination k that `src` gives none for is kept. -/
def rowM (th : Thread) (b : Block) (e : EOp) (ok : Bool) (extra : List (VReg × Nat)) (keep : Nat → Bool)
    (f : Nat → Nat → Nat) : ERow :=
  let w := (th.eTy e).width
  { vd := e.vd, u := w, srcs := (e.va, w) :: extra, cross := true, ok := ok && decide (w = th.ew),
    act := (eAct th b e).filter fun k => !keep k, val := fun k => bitsTo (th.eTy e) (f w k) }

/-- Compress, expand, slides and permute, R165 to R167. -/
def moveRow (th : Thread) (b : Block) : Instr → Option ERow
  | .vcompress e =>
    let l := bitsSet th (low3 e.vc)
    some (rowM th b e true [] (fun k => decide (l.length ≤ k)) fun w k => th.elem e.va w (l.getD k 0))
  | .vexpand e =>
    let l := bitsSet th (low3 e.vc)
    some (rowM th b e true [] (fun k => !l.contains k) fun w k => th.elem e.va w (l.idxOf k))
  | .vslideup e =>
    let w := (th.eTy e).width
    let n := if e.immForm then e.imm.toNat else th.elem e.vb w 0
    some (rowM th b e true (srcB e w) (fun k => decide (k < n)) fun w k => th.elem e.va w (k - n))
  | .vslidedn e =>
    let w := (th.eTy e).width
    let n := if e.immForm then e.imm.toNat else th.elem e.vb w 0
    some (rowM th b e true (srcB e w) (fun _ => false) fun w k => if k + n < th.vl then th.elem e.va w (k + n) else 0)
  | .vperm e =>
    let iw := indexWidth (th.eTy e).width (e.f.extractLsb' 3 2)
    let u := iw.getD 64
    some (rowM th b e iw.isSome [(e.vb, u)] (fun _ => false) fun w k =>
      let j := th.elem e.vb u k
      if j < th.vl then th.elem e.va w j else 0)
  | _ => none

/-- Table function, block scale, ternary pack and unpack, R172, R174, R176 and R177. -/
def tableRow (th : Thread) (b : Block) : Instr → Option ERow
  | .vfn e => some (rowW th b e (fun t => decide (t = .h16 ∨ t = .f32)) (fun w => [(e.va, w)]) fun t w k =>
      let y := vfnAt (th.fnTable (low3 e.vb)) (e.f.getLsbD 0) (th.eRm e) (decodeVal t (th.elem e.va w k))
      let r := encodeVal t (th.eRm e) (decodeVal .f32 y.1)
      (r.1, r.2 ||| y.2))
  | .vbscale e =>
    let t := th.eTy e
    let bl := vtBlk th.vtype
    some (rowC th b e (decide (t ∈ [Ty.s2, .s4, .s8, .g8, .g6]) && decide (bl ≠ 0)) [(e.va, t.width), (e.vb, 8)]
      [t.width] 32 fun k =>
        let v := scaledVal t (th.elem e.va t.width k) (th.elem e.vb 8 (k / bl))
        let r := encodeVal .f32 (th.eRm e) v
        match v with
        | .fin neg _ _ => if r.2.getLsbD 2 then (if neg then 0xFF800000 else 0x7F800000, r.2) else r
        | _ => r)
  | .vtpack e =>
    let t := th.eTy e
    let trit := fun k => val t (th.elem e.va t.width k)
    let digit := fun k => if th.vl ≤ k then 0 else if 0 < trit k then 1 else if trit k < 0 then 2 else 0
    let r := rowC th b e (decide (t = .s2 ∨ t = .s8)) [(e.va, t.width)] [t.width] 8 fun j =>
      (digit (5 * j) + 3 * digit (5 * j + 1) + 9 * digit (5 * j + 2) + 27 * digit (5 * j + 3) + 81 * digit (5 * j + 4),
        if (List.range 5).any fun i => decide (5 * j + i < th.vl ∧ (1 < trit (5 * j + i) ∨ trit (5 * j + i) < -1)) then fOF
        else 0)
    some { r with act := r.act.filter fun j => decide (5 * j < th.vl) }
  | .vtunpk e =>
    let t := th.eTy e
    let r := rowC th b e (decide (t = .s2 ∨ t = .s8)) [(e.va, 8)] [t.width] t.width fun k =>
      let d := th.elem e.va 8 (k / 5) / 3 ^ (k % 5) % 3
      wrapTo t (if d = 2 then -1 else d)
    some r
  | _ => none

/-- The lowest illegal ternary byte that holds an active trit of a `vtunpk`, R177. -/
def badTrit (th : Thread) (b : Block) : Instr → Option Nat
  | .vtunpk e => ((eAct th b e).map (· / 5)).eraseDups.find? fun j => decide (243 ≤ th.elem e.va 8 j)
  | _ => none

/-- The row of an element-wise E-word. -/
def eRow (th : Thread) (b : Block) (i : Instr) : Option ERow :=
  integerRow th b i <|> logicRow th b i <|> floatRow th b i <|> widthRow th b i <|> indexRow th b i <|> moveRow th b i
    <|> tableRow th b i

/-! ## E-words that write masks, reductions -/

/-- A mask E-word: destination, legality, source groups, value and flags of each active bit (R161, R162). -/
structure MRow where
  md : MReg
  ok : Bool
  srcs : List (VReg × Nat) := []
  mask : EOp
  val : Nat → Bool × Flags

/-- Compares and mask logic, R161 and R162. lt and ge compare as signed, ltn and gen as natural, in every format. -/
def maskRow (th : Thread) : Instr → Option MRow
  | .vcmp e =>
    let w := (th.eTy e).width
    some { md := e.vd.setWidth 3, ok := isSNT (th.eTy e) && decide (w = th.ew), srcs := srcA e w ++ srcB e w, mask := e,
           val := fun k =>
             let x := opA th e w k
             let y := opB th e w k
             (match bitsN e.f.toNat 2 0 with
               | 0 => decide (x = y)
               | 1 => decide (x ≠ y)
               | 2 => decide (sx w x < sx w y)
               | 3 => decide (sx w y ≤ sx w x)
               | 4 => decide (x < y)
               | _ => decide (y ≤ x), 0) }
  | .vfcmp e =>
    let t := th.eTy e
    let w := t.width
    some { md := e.vd.setWidth 3, ok := isF t && decide (w = th.ew), srcs := srcA e w ++ [(e.vb, w)], mask := e,
           val := fun k => fCond (fccOf (bitsN e.f.toNat 2 0)) t (opA th e w k) (th.elem e.vb w k) }
  | .mand e => some { md := e.vd.setWidth 3, ok := true, mask := e, val := fun k => (th.mbit (low3 e.va) k && th.mbit (low3 e.vb) k, 0) }
  | .mor e => some { md := e.vd.setWidth 3, ok := true, mask := e, val := fun k => (th.mbit (low3 e.va) k || th.mbit (low3 e.vb) k, 0) }
  | .mxor e => some { md := e.vd.setWidth 3, ok := true, mask := e, val := fun k => (th.mbit (low3 e.va) k != th.mbit (low3 e.vb) k, 0) }
  | .mnot e => some { md := e.vd.setWidth 3, ok := true, mask := e, val := fun k => (!th.mbit (low3 e.va) k, 0) }
  | _ => none

/-- A mask E-word is legal: its own checks and aligned groups. -/
def MRow.legal (r : MRow) (th : Thread) : Bool := r.ok && r.srcs.all fun o => th.regOk o.1 o.2

/-- A reduction: its operand fields, the types it takes, its step, and for an integer format the value of a whole list
of members (R168, R169). -/
structure RRow where
  e : EOp
  ok : Bool
  step : Nat × Flags → Nat × Flags → Nat × Flags
  whole : Nat → List Nat → Nat

/-- The reductions of R169: sums wrap, a float step rounds in the mode of R48 and gathers flags. -/
def reduceRow (th : Thread) : Instr → Option RRow
  | .vredsum e =>
    let t := th.eTy e
    some { e := e, ok := (isSNT t || isF t) && decide (t.width = th.ew), step := redAdd t (th.eRm e),
           whole := fun x0 xs => (((x0 :: xs).map (val t)).foldl (· + ·) 0 % 2 ^ t.width).toNat }
  | .vredmax e =>
    let t := th.eTy e
    some { e := e, ok := (isSN t || isF t) && decide (t.width = th.ew), step := redPick true t (th.eRm e),
           whole := fun x0 xs => ((xs.map (val t)).foldl max (val t x0) % 2 ^ t.width).toNat }
  | .vredmin e =>
    let t := th.eTy e
    some { e := e, ok := (isSN t || isF t) && decide (t.width = th.ew), step := redPick false t (th.eRm e),
           whole := fun x0 xs => ((xs.map (val t)).foldl min (val t x0) % 2 ^ t.width).toNat }
  | .vredand e =>
    let t := th.eTy e
    some { e := e, ok := isSNT t && decide (t.width = th.ew), step := fun a x => (a.1 &&& x.1, 0),
           whole := fun x0 xs => xs.foldl (· &&& ·) x0 }
  | .vredor e =>
    let t := th.eTy e
    some { e := e, ok := isSNT t && decide (t.width = th.ew), step := fun a x => (a.1 ||| x.1, 0),
           whole := fun x0 xs => xs.foldl (· ||| ·) x0 }
  | _ => none

/-- The members of a reduction and its start: under `.o` a restart takes the elements from vstart on and the partial
result in vrstate (R64). -/
def RRow.members (r : RRow) (th : Thread) (b : Block) : Nat × List Nat :=
  let w := (th.eTy r.e).width
  let act := eAct th b r.e
  if r.e.f = 1 then
    (if th.vstart = 0 then th.elem r.e.vb w 0 else th.vrstate.toNat % 2 ^ w, act.filter fun k => th.vstart.toNat ≤ k)
  else (th.elem r.e.vb w 0, act)

/-- The result: for an integer format the whole list's value in both orders; for a float one the fold in element order
under `.o`, and under `.t` the tree of R65 over the element positions, combined once with the start value. -/
def RRow.value (r : RRow) (th : Thread) (b : Block) : Nat × Flags :=
  let t := th.eTy r.e
  let m := r.members th b
  let x := fun k => th.elem r.e.va t.width k
  if !isF t then (r.whole m.1 (m.2.map x), 0)
  else if r.e.f = 1 then m.2.foldl (fun a k => r.step a (x k, 0)) (m.1, 0)
  else
    match treeOf r.step 14 ((List.range th.vl).map fun k => if m.2.contains k then some (x k, (0 : Flags)) else none) with
    | some y => r.step (m.1, 0) y
    | none => (m.1, 0)

/-! ## Vector memory forms, R121 and R122 -/

/-- An element access: format, register group, mask, and address and bit offset of each element. -/
structure VForm where
  t : Ty
  vd : VReg
  gov : Option MReg
  addr : ElemAddr

/-- The forms whose type has vtype's width and whose group is aligned; the sub-byte formats and g6 only where the unit
form allows them. -/
def vform (th : Thread) (ty : Option Ty) (vd : VReg) (mk : Option MReg) (isUnit : Bool) (addr : Ty → ElemAddr) :
    Option VForm :=
  let t := ty.getD th.vTy
  if t.width = th.ew ∧ th.regOk vd th.ew = true ∧ (isUnit = true ∨ t ∉ [Ty.s2, .s4, .g6]) then
    some { t := t, vd := vd, gov := mk, addr := addr t }
  else none

/-- Width of an index, R122. -/
def idxWidth (t : Ty) (iw : BitVec 2) : Nat :=
  if iw = 0 then t.width else if iw = 1 then 16 else if iw = 2 then 32 else 64

/-- Loads: unit, strided, indexed. -/
def loadForm (s : State) : Instr → Option VForm
  | .vld ty _ vd a imm mk => vform s.me ty vd mk true fun t e =>
      (s.me.rx a + imm + wordN (t.memWidth * e / 8), t.memWidth * e % 8)
  | .vlds ty _ vd a b imm mk => vform s.me ty vd mk false fun _ e => (s.me.rx a + imm + wordN e * s.me.rx b, 0)
  | .vldx ty _ vd a vb sh iw imm mk =>
    (vform s.me ty vd mk false fun t e =>
      (s.me.rx a + imm + (wordI (sx (idxWidth t iw) (s.me.elem vb (idxWidth t iw) e)) <<< sh.toNat), 0)).filter fun r =>
        s.me.regOk vb (idxWidth r.t iw) && !s.me.meet vd s.me.ew vb (idxWidth r.t iw)
  | _ => none

/-- Stores: unit, strided, indexed, each with its order. -/
def storeForm (s : State) : Instr → Option (VForm × VOrder)
  | .vst ty ord vd a imm mk => (vform s.me ty vd mk true fun t e =>
      (s.me.rx a + imm + wordN (t.memWidth * e / 8), t.memWidth * e % 8)).map (·, ord)
  | .vsts ty ord vd a b imm mk =>
    (vform s.me ty vd mk false fun _ e => (s.me.rx a + imm + wordN e * s.me.rx b, 0)).map (·, ord)
  | .vstx ty ord vd a vb sh iw imm mk =>
    ((vform s.me ty vd mk false fun t e =>
      (s.me.rx a + imm + (wordI (sx (idxWidth t iw) (s.me.elem vb (idxWidth t iw) e)) <<< sh.toNat), 0)).filter fun r =>
        s.me.regOk vb (idxWidth r.t iw)).map (·, ord)
  | _ => none

/-- What the legality of a vector memory instruction depends on (R75, R121, R122, R127, R131, R132): a type of vtype's
width that the form takes, aligned groups of at most 8 registers, and a destination that meets no index. -/
def memLegal (th : Thread) : Instr → Option Bool
  | .vld ty _ vd .. | .vldff ty _ vd .. | .vst ty _ vd .. => some (vform th ty vd none true fun _ _ => (0, 0)).isSome
  | .vlds ty _ vd .. | .vsts ty _ vd .. => some (vform th ty vd none false fun _ _ => (0, 0)).isSome
  | .vldx ty _ vd _ vb _ iw .. => some ((vform th ty vd none false fun _ _ => (0, 0)).any fun f =>
      th.regOk vb (idxWidth f.t iw) && !th.meet vd th.ew vb (idxWidth f.t iw))
  | .vstx ty _ vd _ vb _ iw .. =>
    some ((vform th ty vd none false fun _ _ => (0, 0)).any fun f => th.regOk vb (idxWidth f.t iw))
  | .vamo op ty _ _ vd _ vb iw .. =>
    some ((vform th ty vd none false fun _ _ => (0, 0)).any fun f =>
      atomicTakes op f.t && th.regOk vb (idxWidth f.t iw))
  | .vspill _ vd .. => some (th.regOk vd th.ew)
  | .vfill ty _ vd .. => some (decide ((ty.getD th.vTy).width = th.ew) && th.regOk vd th.ew)
  | _ => none

/-- What the legality of an E-word that writes a mask, reduces, writes two results or gathers targets depends on (R27,
R139 to R141, R152, R161, R168 to R170, R175). -/
def otherLegal (th : Thread) (i : Instr) : Option Bool :=
  let groups := fun (l : List (VReg × Nat)) => l.all fun o => th.regOk o.1 o.2
  match i with
  | .vmeanvar e => some (isF th.vTy && groups [(e.va, th.vTy.width), (e.vd, th.vTy.width), (e.vc, th.vTy.width)])
  | .vbquant e =>
    let t := th.eTy e
    some (decide (t ∈ [Ty.s2, .s4, .s8, .g8, .g6]) && decide (vtBlk th.vtype ≠ 0) && decide (t.width = th.ew)
      && groups [(e.va, 32), (e.vd, t.width), (e.vc, 8)] && !th.meet e.vd t.width e.vc 8
      && !th.meet e.vd t.width e.va 32 && !th.meet e.vc 8 e.va 32)
  | .vpfetchIndirect e => some (th.regOk e.va 64)
  | i =>
    match maskRow th i, reduceRow th i with
    | some r, _ => some (r.legal th)
    | none, some r =>
      let w := (th.eTy r.e).width
      some (r.ok && groups [(r.e.va, w), (r.e.vb, w), (r.e.vd, w)])
    | none, none => none

/-- The elements that a vector memory instruction performs, in order: active, from vstart on (R123). -/
def performed (th : Thread) (mk : Option MReg) : List Nat :=
  (List.range th.vl).filter fun e => decide (th.vstart.toNat ≤ e) && th.active mk e

/-- One element of a load (R122, R123): misaligned, else read on path VLS and written to the register; only the bits of
the format are taken. -/
def loadOne (f : VForm) (s : State) (e : Nat) : State × Option (Cause × Word) :=
  let a := f.addr e
  if 8 ≤ f.t.memWidth ∧ a.1.toNat % (f.t.memWidth / 8) ≠ 0 then (s, some (.datafault, a.1))
  else
    let r := s.load .vls a.1 ((a.2 + f.t.memWidth + 7) / 8)
    match r.2 with
    | .ok x => (r.1.modMe fun th => th.setElem f.vd f.t.width e (x / 2 ^ a.2 % 2 ^ f.t.memWidth), none)
    | .error c => (r.1, some c)

/-- The elements of the unit form are contiguous: those of one line form one write (R226). -/
def unitStore : Instr → Bool
  | .vst .. => true
  | _ => false

/-- One element of a store (R42, R123): misaligned, else the format's bits written on path VLS under their bit mask; `op`
stamps the elements that form one write with their neighbours (R226, log 10). -/
def storeOne (f : VForm) (o : Option Nat) (op : Nat) (s : State) (e : Nat) : State × Option (Cause × Word) :=
  let a := f.addr e
  let n := (a.2 + f.t.memWidth + 7) / 8
  if 8 ≤ f.t.memWidth ∧ a.1.toNat % (f.t.memWidth / 8) ≠ 0 then (s, some (.datafault, a.1))
  else
    s.writeRangeAt (s.ctxOf s.cur) .write .vls o false a.1
      ((leBytes n (s.me.elem f.vd f.t.width e % 2 ^ f.t.memWidth * 2 ^ a.2)).zip
        (leBytes n ((2 ^ f.t.memWidth - 1) * 2 ^ a.2))) op

/-- The bits of byte b of a mask that `VLDM` and `VSTM` move: from vstart up to vl (R128). -/
def maskBits (th : Thread) (b : Nat) : List Nat :=
  ((List.range 8).map fun i => 8 * b + i).filter fun e => decide (th.vstart.toNat ≤ e ∧ e < th.vl)

/-- The bytes of a mask that hold such a bit. -/
def maskSpan (th : Thread) : List Nat :=
  (List.range ((th.vl + 7) / 8)).filter fun b => decide (th.vstart.toNat < min th.vl (8 * b + 8))

/-- A thread whose grant lies within the 16 lanes of a core, R29. -/
def Thread.grantOk (th : Thread) : Bool := decide (grantBase th.grant + grantLanes th.grant ≤ 16)

/-- Elements of a spill frame, R129. -/
def frameForm (th : Thread) (vd : VReg) (base : Word) : VForm :=
  let t := if th.vTy = .g6 then .n8 else th.vTy
  { t := t, vd := vd, gov := none, addr := fun e => (base + 16 + wordN (t.width * e / 8), t.width * e % 8) }

/-- One element of a fill under type t: as `loadOne` of the frame's form, with bits [7:6] of a g6 container zero (R56,
log 18). -/
def fillOne (t : Ty) (f : VForm) (s : State) (e : Nat) : State × Option (Cause × Word) :=
  let a := f.addr e
  if 8 ≤ f.t.memWidth ∧ a.1.toNat % (f.t.memWidth / 8) ≠ 0 then (s, some (.datafault, a.1))
  else
    let r := s.load .vls a.1 ((a.2 + f.t.memWidth + 7) / 8)
    match r.2 with
    | .ok x => (r.1.modMe fun th => th.setElem f.vd f.t.width e (x / 2 ^ a.2 % 2 ^ t.memWidth), none)
    | .error c => (r.1, some c)

end Sys2Proof.Machine
end

