-- ==== Sys2Proof/Certificates/Slice0/Obligations.lean ====
section
/-!
DEFINITION. The statements about this machine. Each docstring names the rules of spec/ that the statement formalises;
where a clause rests on the model's own choice, the docstring says so and names the log entry.
-/
open Sys2Proof Sys2Proof.Machine

/-! ## Encoding and stepping -/

/-- Every instruction that the encoder gives words for, and whose fields keep the limits of its entry, is read back
from its words with every operand (R68 to R87). -/
def Obligations.EncodeDecode : Prop :=
  ∀ i c, i.wf = true → encode i = some c → decode c = .ok i

/-- The decoder accepts no other word: what it accepts is well formed and is the encoding of the instruction that it
answers. A reserved code or a nonzero unused field is therefore refused (R71 to R76). -/
def Obligations.DecodeEncode : Prop :=
  (∀ w i, decodeC w = .ok i → isDOp (w.setWidth 8) = false → i.wf = true ∧ encode i = some (.c w))
    ∧ (∀ w i, decodeD w = .ok i → isDOp (w.setWidth 8) = true → i.wf = true ∧ encode i = some (.d w))
    ∧ ∀ w i, decodeE w = .ok i → i.wf = true ∧ encode i = some (.e w)

/-- Words written out from the spec's examples and encodings decode to the instruction they stand for: `eret` (R336),
`rlopen x20, 4`, `claim m1, v4, x21 ?m2`, `claimdone` (R306), and the `STRIP` of R108. -/
def Obligations.WrittenWords : Prop :=
  decode (.c 0x00000000000000A0) = .ok .eret
    ∧ decode (.c 0x00000000000000040000000000050084) = .ok (.rlopen 20 4)
    ∧ decode (.c 0x0000000089510185) = .ok (.claim 1 4 21 (some 2))
    ∧ decode (.c 0x0000000000000086) = .ok .claimdone
    ∧ decode (.d 0x00000000000000000000040400000908FFFFFFFFFFFFFFC000000000000005C0)
      = .ok (.strip 5 8 9 0 0 4 4 0 0 (wordI (-64)))

/-- The state in which an issued instruction executes: a vector entry and an E-word note their cycle (R330), the first
instruction after a delivery has been fetched (R335), and the late loads that write a register which the instruction names,
or that the array or a keyset slot puts before it, are bound (R264; log 8). No register but the flags of those loads and no
byte changes. -/
def issueState (s : State) (i : Instr) : State :=
  let s := if Instr.usesLanes i || s.me.blk.isSome then
      s.modMe fun th => { th with entryAt := (s.cluster (cluOf s.cur)).cycle } else s
  let s := if s.me.entering then s.modMe fun th => { th with entering := false } else s
  s.bindFor s.cur i

/-- What issuing adds around an instruction's own effect. A vector entry first seeks its turn, which it has once no other
turn and no other waiting thread holds its lanes (R330), and waits without it, the pc where it is: that the thread does not
go on past a queued entry is the model's reading (log 34). The instruction then executes in `issueState`. While a load may
be taken late its accesses are recorded with the flags set aside, and what it leaves differs from its own effect in the
late loads alone (R224, R229; log 8): the flags come back, or stand in the new late load. Without a late load, and for an
instruction that is none, nothing is added. -/
def Stmt.IssueRuns : Prop :=
  ∀ (s : State) i, s.me.hedges = [] →
    let u := if Instr.usesLanes i then s.seekTurn s.cur else s
    { u with cores := s.cores } = s
    ∧ (Instr.usesLanes i = true → s.me.run = .ready →
        (∀ k ∈ (s.core (coreOf s.cur)).turn ++ (s.core (coreOf s.cur)).want, k ≠ s.cur →
          grantsMeet (s.thread k).grant s.me.grant = false) → u.hasTurn s.cur = true)
    ∧ ((Instr.usesLanes i = true → u.hasTurn s.cur = true) →
      let v := issueState u i
      let w := v.traced i
      (Instr.readsLate i = false → v.me.late = [] → w = v)
        ∧ { w with trace := v.trace, threads := v.threads } = v ∧ (∀ k, k ≠ s.cur → w.thread k = v.thread k)
        ∧ { w.me with fcsr := v.me.fcsr } = v.me ∧ w.me.fcsr ||| (v.me.fcsr &&& 0x1F) = v.me.fcsr
        ∧ ∀ t, exec i w = .next t → ∃ t', s.issueInstr i = .next t' ∧ (t.trace = none → t' = t)
          ∧ (t.trace ≠ none → t'.trace = none ∧ { t' with trace := t.trace, threads := t.threads } = t
              ∧ (∀ k, k ≠ s.cur → t'.thread k = t.thread k)
              ∧ { t'.thread s.cur with late := (t.thread s.cur).late, fcsr := (t.thread s.cur).fcsr } = t.thread s.cur
              ∧ ∃ old, (old.map fun x => (x.instr, x.dst, x.flags))
                    = ((t.thread s.cur).late.map fun x => (x.instr, x.dst, x.flags))
                  ∧ (((t'.thread s.cur).late = old
                      ∧ (t'.thread s.cur).fcsr = (t.thread s.cur).fcsr ||| (v.me.fcsr &&& 0x1F))
                    ∨ ∃ l, (t'.thread s.cur).late = old ++ [l] ∧ l.instr = Instr.again i ∧ Instr.readsLate i = true
                      ∧ (t'.thread s.cur).fcsr = v.me.fcsr ∧ l.flags = (t.thread s.cur).fcsr &&& 0x1F)))
    ∧ (Instr.usesLanes i = true → (∃ k ∈ (s.core (coreOf s.cur)).turn, k ≠ s.cur ∧
          grantsMeet (s.thread k).grant s.me.grant = true) → s.hasTurn s.cur = false → s.me.stop = none →
        s.me.halt = .none → ∃ t, s.issueInstr i = .next t ∧ t.threads = s.threads ∧ SameBytes s t)

/-- An access on a to-class of a `HEDGE` that still waits for a copy node, a pass or a `BGEMV` is not made (R233): the
instruction waits, the pc where it is. The classes are those of R225 for the accesses that the instruction would make: of a
load of the package's memory CT, of one outside it EXT. -/
def Stmt.IssueHeld : Prop :=
  ∀ (s : State) i h p, h ∈ s.me.hedges → s.hedgeLive s.cur h = true → maskHas h.dst p = true → s.me.halt = .none →
    let waits := ∃ t, s.issueInstr i = .next t ∧ SameBytes s t ∧ (∀ k, k ≠ s.cur → t.thread k = s.thread k)
        ∧ { t.me with hedges := s.me.hedges } = s.me ∧ h ∈ t.me.hedges
    (p ∈ (s.pruneHedges s.cur).pathsOf i → waits)
    ∧ ∀ ty sc d a imm q, i = .ld ty .plain sc d a imm → s.me.clean = true → s.poison = [] → Ty.ldOk ty = true →
        (s.me.rx a + imm).toNat % (ty.width / 8) = 0 → s.xlate (s.ctxOf s.cur) .read (s.me.rx a + imm) = .ok q →
        p = (match s.physRow q.pa with | .hbm | .sram => .ct | _ => .ext) → waits

/-- A turn of a thread is a step of that thread; with no turn the current thread moves (log 1). A thread that issues from
the control stream runs the instruction that the word at its pc decodes to, in the state after the fetch, and one whose
block runs the E-word at the block's next address; the fetch changes no register and no byte (R18, R68, R73, R74, R77). -/
def Stmt.StepIssues : Prop :=
  (∀ (s : State) tid old early r, s.turns = .thread tid old early :: r →
      step s = State.runThread { s with turns := r, cur := tid, fetchOld := old, early := early })
    ∧ (∀ (s : State), s.turns = [] → step s = s.runThread)
    ∧ (∀ (s : State) i, s.mayIssue = true → s.me.run = .ready → s.me.blk = none → s.fetchCtl.2 = .instr i →
      s.runThread = s.fetchCtl.1.issueInstr i ∧ s.fetchCtl.1.threads = s.threads ∧ s.fetchCtl.1.cur = s.cur
        ∧ SameBytes s s.fetchCtl.1)
    ∧ ∀ (s : State) i b, s.mayIssue = true → s.me.run = .ready → s.me.blk = some b → (s.fetchBlk b).2 = .instr i →
      s.runThread = (s.fetchBlk b).1.issueInstr i ∧ (s.fetchBlk b).1.threads = s.threads ∧ (s.fetchBlk b).1.cur = s.cur
        ∧ SameBytes s (s.fetchBlk b).1

/-- What a fetch reads: a C-word of 16 bytes, or a D-word of 32 that lies within a fetch line, at a 16-byte-aligned pc
whose page may be fetched from; an E-word of 8 bytes at an 8-byte-aligned address of a block. A word that no instruction
encodes, and a D-word across a fetch line, raise ILLEGAL with the low 64 bits; so does the 257th E-word of a block, with
its address; inside a block telem is the group's lowest VP (R68, R69, R71, R73 to R75, R77). No old value of R90 stands
for these bytes; where some do, each aligned 8-byte part of a fetch is the current value or one that a store replaced after
which every store to the part is still open to the thread. -/
def Stmt.FetchReadsWord : Prop :=
  (∀ (s : State) tid part k, s.fetchPart tid part k = s.bytesPhys (8 * part) 8
    ∨ ∃ pre o post, mapGet [] s.old part = pre ++ o :: post
        ∧ (∀ x ∈ o :: post, s.fetchesOld tid x = true) ∧ s.fetchPart tid part k = leBytes 8 o.old.toNat)
  ∧ ∀ (s : State), s.poison = [] → s.old = [] →
    (∀ p, aligned16 s.me.pc = true → s.xlate (s.ctxOf s.cur) .fetch s.me.pc = .ok p → p.pa % 8 = 0 →
      s.physRow p.pa ≠ .reg →
      let bad := Fetched.trap { cause := .illegal, tval := wordN (s.readPhys p.pa 8) }
      (isDOp (s.byte p.pa) = false → s.fetchCtl.2 = match decodeC (BitVec.ofNat 128 (s.readPhys p.pa 16)) with
        | .ok i => .instr i
        | .error _ => bad)
      ∧ (isDOp (s.byte p.pa) = true → s.me.pc.toNat % 128 = 112 → s.fetchCtl.2 = bad)
      ∧ (isDOp (s.byte p.pa) = true → s.me.pc.toNat % 128 ≠ 112 →
          s.fetchCtl.2 = match decodeD (BitVec.ofNat 256 (s.readPhys p.pa 32)) with
            | .ok i => .instr i
            | .error _ => bad))
    ∧ ∀ b p, b.epc.toNat % 8 = 0 → s.xlate (s.ctxOf s.cur) .fetch b.epc = .ok p → p.pa % 8 = 0 → s.physRow p.pa ≠ .reg →
      ((b.epc - b.start).toNat < 2048 → (s.fetchBlk b).2 = match decodeE (BitVec.ofNat 64 (s.readPhys p.pa 8)) with
        | .ok i => .instr i
        | .error _ => .trap { cause := .illegal, tval := wordN (s.readPhys p.pa 8), telem := wordN (b.group.headD 0) })
      ∧ (2048 ≤ (b.epc - b.start).toNat →
        (s.fetchBlk b).2 = .trap { cause := .illegal, tval := b.epc, telem := wordN (b.group.headD 0) })

/-- Faults of a fetch: a misaligned pc raises FETCHFAULT with the pc; an address without a translation, or outside the
map, FETCHFAULT, and one whose page the mode may not fetch from PROT, with that address; a byte with an uncorrectable
error MEMUE with its address (R75, R152, R352, R353, R355; log 46). The trap of a control word is taken at the pc, and
that of an E-word at the `VF`, not resumable, and nothing else of the instruction happens. A fetch of a control word from a
register block reads zero, and the hub logs it (R361). -/
def Stmt.FetchFaults : Prop :=
  ∀ (s : State),
    (aligned16 s.me.pc = false → s.fetchCtl.2 = .trap { cause := .fetchfault, tval := s.me.pc })
    ∧ (∀ c, aligned16 s.me.pc = true → s.xlate (s.ctxOf s.cur) .fetch s.me.pc = .error c →
        s.fetchCtl.2 = .trap { cause := c, tval := s.me.pc })
    ∧ (∀ p k, aligned16 s.me.pc = true → s.xlate (s.ctxOf s.cur) .fetch s.me.pc = .ok p → s.physRow p.pa ≠ .reg → k < 16 →
        s.poisoned (p.pa + k) = true → (∀ j < k, s.poisoned (p.pa + j) = false) →
        s.fetchCtl.2 = .trap { cause := .memue, tval := s.me.pc + wordN k })
    ∧ (∀ b, b.epc.toNat % 8 = 0 →
        (∀ c, s.xlate (s.ctxOf s.cur) .fetch b.epc = .error c →
          (s.fetchBlk b).2 = .trap { cause := c, tval := b.epc, telem := wordN (b.group.headD 0) })
        ∧ ∀ p k, s.xlate (s.ctxOf s.cur) .fetch b.epc = .ok p → s.physRow p.pa ≠ .reg → k < 8 → s.poisoned (p.pa + k) = true →
          (∀ j < k, s.poisoned (p.pa + j) = false) →
          (s.fetchBlk b).2 = .trap { cause := .memue, tval := b.epc + wordN k, telem := wordN (b.group.headD 0) })
    ∧ (∀ p, aligned16 s.me.pc = true → s.xlate (s.ctxOf s.cur) .fetch s.me.pc = .ok p → s.physRow p.pa = .reg →
        s.fetchCtl.2 = (match decodeC 0 with
          | .ok i => .instr i
          | .error _ => .trap { cause := .illegal, tval := 0 })
          ∧ s.fetchCtl.1.hub.rasCount = (s.noteXlate (s.ctxOf s.cur) s.me.pc).hub.rasCount + 1)
    ∧ (s.mayIssue = true → s.me.run = .ready →
        (∀ t, s.me.blk = none → s.fetchCtl.2 = .trap t → s.me.entering = false →
          s.runThread = .next (s.fetchCtl.1.takeTrap s.cur s.me.pc false t))
        ∧ ∀ b t, s.me.blk = some b → (s.fetchBlk b).2 = .trap t →
          s.runThread = .next ((s.fetchBlk b).1.takeTrap s.cur b.vf false t))

/-- A step runs the decoded instruction: in the control stream, in a block, and as the fetch reads it, or takes the trap
of the fetch (R18, R68, R69, R71, R73 to R77). -/
def Obligations.StepRuns : Prop :=
  Stmt.StepIssues ∧ Stmt.IssueRuns ∧ Stmt.IssueHeld ∧ Stmt.FetchReadsWord ∧ Stmt.FetchFaults

/-! ## Reset and the form of memory -/

/-- What reset leaves, as the spec gives it: every context free, no region, partition or ring, every bank a cache way
and every byte of HBM4 and SRAM zero, no owner and epoch 0, no RAS record, measurement registers zero, no special
register set, and the wipe in progress (R23, R279, R313, R348, R365, R368, R371). That the memory of the package reads
zero is R279 and R368; the general registers' zeros are the model's choice (log 3) and are not stated here. -/
def Obligations.ResetState : Prop :=
  (∀ tid, (State.reset.thread tid).run = .free) ∧ (∀ tid, (State.reset.thread tid).vtype = 0x0024)
    ∧ (∀ tid, (State.reset.thread tid).tstatus = 0 ∧ (State.reset.thread tid).fcsr = 0 ∧ (State.reset.thread tid).vl = 0)
    ∧ (∀ d, (State.reset.die d).regions = [] ∧ (State.reset.die d).parts = [] ∧ (State.reset.die d).range = [])
    ∧ (∀ k, (State.reset.cluster k).rings = [] ∧ ∀ b, (State.reset.cluster k).mode b = .cache)
    ∧ (∀ a, a < 2 ^ 39 ∨ 2 ^ 52 ≤ a → State.reset.byte a = 0)
    ∧ State.reset.hub.valid = false ∧ State.reset.hub.epoch = 0 ∧ State.reset.hub.ras = []
    ∧ (∀ i, State.reset.hub.measReg i = List.replicate 48 0) ∧ State.reset.hub.wiping = true

/-- The memory of every reachable state keeps its canonical form: whatever turn a state takes, a step keeps rising
addresses and no entry that equals what an unlisted address reads as. Equal memories are therefore equal lists (the
model's form of memory, log 5). -/
def Obligations.StepKeepsMemoryForm : Prop :=
  ∀ (s : State) t, Memory.wf s.mem = true → step s = .next t → Memory.wf t.mem = true

/-- The memory of the reset state has the canonical form. -/
def Obligations.ResetMemoryForm : Prop := Memory.wf State.reset.mem = true

/-- Memory read after write (R4, R42): a byte written under a mask takes the mask's bits and no other byte changes; the
bytes of a number lie lowest address first, and a multi-byte write reads back. -/
def Stmt.MemoryWrite : Prop :=
  (∀ (s : State) (pa : Nat) (b m : Byte), (s.putByte pa b m).byte pa = (s.byte pa &&& ~~~m) ||| (b &&& m)
      ∧ ∀ a, a ≠ pa → (s.putByte pa b m).byte a = s.byte a)
    ∧ ∀ (s : State) (w : Party) (pa n x : Nat),
      (s.performBytes w (numWrite pa n x)).readPhys pa n = x % 256 ^ n
        ∧ ∀ a, a < pa ∨ pa + n ≤ a → (s.performBytes w (numWrite pa n x)).byte a = s.byte a

/-! ## Scalar instructions -/

/-- Integer instructions (R112, R113): the value of the table in the destination register, a write to x0 discarded
(R20), the pc 16 further, and nothing else changed: no flag, no other register, no byte of memory. -/
def Obligations.IntegerResult : Prop :=
  ∀ (s : State) i d v, s.me.clean = true → i.wf = true → intResult s.me i = some (d, v) →
    ∃ t, exec i s = .next t ∧ OnlyMe s t ∧ RegisterResult s.me t.me 16 d v 0

/-- Division never traps, with the special cases of R113: a divisor of zero gives all ones and the dividend, and
−2^63 ÷ −1 gives −2^63 and 0. -/
def Obligations.DivisionCorners : Prop :=
  ∀ (s : State) d a b, s.me.clean = true → d ≠ 0 →
    (∃ t, exec (.div d a b) s = .next t ∧ OnlyMe s t ∧ t.me.pc = s.me.pc + 16
      ∧ (s.me.rx b = 0 → t.me.rx d = 0xFFFFFFFFFFFFFFFF)
      ∧ (s.me.rx a = 0x8000000000000000 → s.me.rx b = 0xFFFFFFFFFFFFFFFF → t.me.rx d = 0x8000000000000000))
    ∧ (∃ t, exec (.divn d a b) s = .next t ∧ OnlyMe s t ∧ t.me.pc = s.me.pc + 16
      ∧ (s.me.rx b = 0 → t.me.rx d = 0xFFFFFFFFFFFFFFFF))
    ∧ (∃ t, exec (.rem d a b) s = .next t ∧ OnlyMe s t ∧ t.me.pc = s.me.pc + 16
      ∧ (s.me.rx b = 0 → t.me.rx d = s.me.rx a)
      ∧ (s.me.rx a = 0x8000000000000000 → s.me.rx b = 0xFFFFFFFFFFFFFFFF → t.me.rx d = 0))
    ∧ ∃ t, exec (.remn d a b) s = .next t ∧ OnlyMe s t ∧ t.me.pc = s.me.pc + 16
      ∧ (s.me.rx b = 0 → t.me.rx d = s.me.rx a)

/-- Scalar float instructions (R115 to R117): the result in the destination register, zero-extended, the flags ORed
into fcsr (R47), the pc 16 further, and nothing else changed. They never trap. -/
def Stmt.FloatResult : Prop :=
  ∀ (s : State) i d x fl, s.me.clean = true → floatResult s.me i = some (d, x, fl) →
    ∃ t, exec i s = .next t ∧ OnlyMe s t ∧ RegisterResult s.me t.me 16 d (wordN x) fl

/-- The layout of a row of R53: regime value, first magnitude code, number of codes, exponent bits present, fraction
bits. -/
def g8Rows : List (Int × Nat × Nat × Nat × Nat) :=
  [(6, 127, 1, 0, 0), (5, 126, 1, 0, 0), (4, 124, 2, 1, 0), (3, 120, 4, 2, 0), (2, 112, 8, 2, 1), (1, 96, 16, 2, 2),
   (0, 64, 32, 2, 3), (-1, 32, 32, 2, 3), (-2, 16, 16, 2, 2), (-3, 8, 8, 2, 1), (-4, 4, 4, 2, 0), (-5, 2, 2, 1, 0),
   (-6, 1, 1, 0, 0)]
/-- The rows of g6. -/
def g6Rows : List (Int × Nat × Nat × Nat × Nat) :=
  [(4, 31, 1, 0, 0), (3, 30, 1, 0, 0), (2, 28, 2, 1, 0), (1, 24, 4, 1, 1), (0, 16, 8, 1, 2), (-1, 8, 8, 1, 2),
   (-2, 4, 4, 1, 1), (-3, 2, 2, 1, 0), (-4, 1, 1, 0, 0)]

/-- What patterns stand for: IEEE 754 binary16, 32 and 64 by their fields (R45), g8 and g6 by the tables of R52 and R53
with their sign bit, encoding 0 and the NaN, bits [7:6] of a g6 container ignored (R56), integers (R43), and t32 as w ÷
2^32 (R51). -/
def Stmt.PatternValues : Prop :=
  (∀ p ∈ [(Ty.h16, (5 : Nat), (10 : Nat), (-24 : Int)), (.f32, 8, 23, -149), (.f64, 11, 52, -1074)],
    ∀ (n : Bool) (e f : Nat),
    let x := (if n then 2 ^ (p.2.1 + p.2.2.1) else 0) + e * 2 ^ p.2.2.1 + f
    e < 2 ^ p.2.1 → f < 2 ^ p.2.2.1 →
      decodeVal p.1 x =
        if e = 2 ^ p.2.1 - 1 then (if f = 0 then .inf n else .nan (decide (f < 2 ^ (p.2.2.1 - 1))))
        else if e = 0 then .fin n f p.2.2.2
        else .fin n (2 ^ p.2.2.1 + f) (p.2.2.2 + (e - 1)))
  ∧ (∀ p ∈ [(Ty.g8, 128, 2, g8Rows), (.g6, 32, 1, g6Rows)],
      decodeVal p.1 0 = .fin false 0 0 ∧ decodeVal p.1 p.2.1 = .nan false
      ∧ ∀ r ∈ p.2.2.2, ∀ j < r.2.2.1, ∀ n : Bool,
        let fb := r.2.2.2.2
        cmpVal (decodeVal p.1 (r.2.1 + j + if n then p.2.1 else 0))
          (.fin n (2 ^ fb + j % 2 ^ fb) (r.1 * 2 ^ p.2.2.1 + (j / 2 ^ fb * 2 ^ (p.2.2.1 - r.2.2.2.1) : Nat) - fb)) = 0)
  ∧ (∀ x k, x < 64 → decodeVal .g6 (x + 64 * k) = decodeVal .g6 x)
  ∧ (∀ t x, isSN t = true → cmpVal (decodeVal t x) (intOf (val t x)) = 0)
  ∧ ∀ x, x < 2 ^ 32 → decodeVal .t32 x = .fin false x (-32)

/-- Results that no rounding decides (R45, R46, R48, R115): the one NaN of a format with NV for a signalling operand and for
an invalid operation; infinities; a division by zero with DZ; and the sign of an exact zero. -/
def Stmt.FloatSpecials : Prop :=
  ∀ (t : Ty) (rm : Rm) a b c, isF t = true →
    let x := decodeVal t a
    let y := decodeVal t b
    let z := decodeVal t c
    let isNaN := fun v => v = FVal.nan true ∨ v = FVal.nan false
    let nan := fun (nv : Prop) [Decidable nv] => ((match t with | .h16 => 0x7E00 | .f32 => 0x7FC00000 | _ => 0x7FF8000000000000),
      (if nv then 16 else 0 : Flags))
    let inf := fun (n : Bool) => (2 ^ Ty.expBits t - 1) * 2 ^ Ty.fracBits t + (if n then 2 ^ (t.width - 1) else 0)
    let zero := fun (n : Bool) => ((if n then 2 ^ (t.width - 1) else 0), (0 : Flags))
    (isNaN x ∨ isNaN y → ∀ r ∈ [fAdd t rm a b, fSub t rm a b, fMul t rm a b, fDiv t rm a b],
      r = nan (x = .nan true ∨ y = .nan true))
    ∧ (isNaN x → fSqrt t rm a = nan (x = .nan true))
    ∧ (isNaN x ∨ isNaN y ∨ isNaN z → (¬ ∃ n m e, (x = .inf n ∧ y = .fin m 0 e) ∨ (y = .inf n ∧ x = .fin m 0 e)) →
        fFma t rm a b c = nan (x = .nan true ∨ y = .nan true ∨ z = .nan true))
    ∧ (∀ n m, x = .inf n → y = .inf m →
        fAdd t rm a b = (if n = m then (inf n, 0) else nan True) ∧ fMul t rm a b = (inf (n != m), 0)
          ∧ fDiv t rm a b = nan True)
    ∧ (∀ n m k e, x = .inf n → y = .fin m k e →
        fAdd t rm a b = (inf n, 0) ∧ fMul t rm a b = (if k = 0 then nan True else (inf (n != m), 0))
          ∧ fDiv t rm a b = (inf (n != m), 0) ∧ fDiv t rm b a = zero (n != m))
    ∧ (∀ n m k e f, x = .fin n k e → y = .fin m 0 f →
        fDiv t rm a b = (if k = 0 then nan True else (inf (n != m), 8)) ∧ fMul t rm a b = zero (n != m))
    ∧ (∀ n k e m j f, x = .fin n k e → y = .fin m j f → sigAt n k e (min e f) + sigAt m j f (min e f) = 0 →
        fAdd t rm a b = zero (if k = 0 ∧ j = 0 ∧ n = m then n else decide (rm = .rdn)))
    ∧ (∀ n k e, x = .fin n k e → (k = 0 → fSqrt t rm a = zero n) ∧ (k ≠ 0 → n = true → fSqrt t rm a = nan True))
    ∧ (x = .inf false → fSqrt t rm a = (inf false, 0)) ∧ (x = .inf true → fSqrt t rm a = nan True)

/-- Conversions (R44, R49 to R51): between integer formats, and of NaN, infinities and finite values into an integer format,
with the limits of R43 and NV where they change the value; between t32 and the integer formats, modulo the width and
without a flag; of every value, a t32 word's included, into a float or tapered format, by one rounding of its exact value
(`encodeVal`, which `CorrectRounding` pins down for finite values), with NaN, infinities and zeros; of every finite value
into t32, by one rounding of its fractional part; and the examples of R51, R54 and R55. -/
def Stmt.Conversions : Prop :=
  (∀ src dst rm x, isSN src = true → isSN dst = true →
      let v := val src (x % 2 ^ src.width)
      let lo : Int := if isS dst then -2 ^ (dst.width - 1) else 0
      let hi : Int := if isS dst then 2 ^ (dst.width - 1) - 1 else 2 ^ dst.width - 1
      convert src dst rm x = (((max lo (min hi v)) % 2 ^ dst.width).toNat, if v < lo ∨ hi < v then 16 else 0))
  ∧ (∀ src dst rm x, src ∈ [Ty.h16, .f32, .f64, .g8, .g6] → isSN dst = true → x < 2 ^ src.width →
      let lo : Int := if isS dst then -2 ^ (dst.width - 1) else 0
      let hi : Int := if isS dst then 2 ^ (dst.width - 1) - 1 else 2 ^ dst.width - 1
      let r := convert src dst rm x
      match decodeVal src x with
      | .nan _ => r = (0, 16)
      | .inf n => r = (((if n then lo else hi) % 2 ^ dst.width).toNat, 16)
      | .fin n k e => ∃ i : Int,
          RoundsTo rm (fun y => cmpVal y (.fin n k e)) (fun y => ∃ j : Int, y = intOf j) (intOf i) (i % 2 = 0)
            ∧ r.1 = ((max lo (min hi i)) % 2 ^ dst.width).toNat
            ∧ (r.2.getLsbD 0 = true ↔ cmpVal (intOf i) (.fin n k e) ≠ 0) ∧ (r.2.getLsbD 4 = true ↔ i < lo ∨ hi < i)
            ∧ r.2.getLsbD 1 = false ∧ r.2.getLsbD 2 = false ∧ r.2.getLsbD 3 = false)
  ∧ (∀ t rm, t ∈ [Ty.h16, .f32, .f64, .g8, .g6] → ∀ x, x < 2 ^ t.width →
      (∀ q, decodeVal t x = .nan q → convert t .t32 rm x = (0, 16))
        ∧ (∀ n, decodeVal t x = .inf n → convert t .t32 rm x = (0, 16)))
  ∧ (∀ t rm x, isSN t = true →
      convert t .t32 rm x = ((val t x % 2 ^ 32).toNat, 0)
        ∧ convert .t32 t rm x = (((if isS t then sx 32 x else (x % 2 ^ 32 : Nat)) % 2 ^ t.width).toNat, 0))
  ∧ (∀ src dst rm x, dst ∈ [Ty.h16, .f32, .f64, .g8, .g6] → src ≠ dst →
      let r := convert src dst rm x
      let v := decodeVal src (x % 2 ^ src.width)
      r = encodeVal dst rm v
        ∧ (isF dst = true →
            (∀ q, v = .nan q → r = ((match dst with | .h16 => 0x7E00 | .f32 => 0x7FC00000 | _ => 0x7FF8000000000000),
                if q then 16 else 0))
            ∧ (∀ n, v = .inf n → r = ((2 ^ Ty.expBits dst - 1) * 2 ^ Ty.fracBits dst + (if n then 2 ^ (dst.width - 1) else 0), 0))
            ∧ ∀ n e, v = .fin n 0 e → r = ((if n then 2 ^ (dst.width - 1) else 0), 0)))
  ∧ (∀ t rm x n k e, t ∈ [Ty.h16, .f32, .f64, .g8, .g6] → x < 2 ^ t.width → decodeVal t x = .fin n k e →
      let r := convert t .t32 rm x
      let f := FVal.fin false (((if n then - (k : Int) else k) % (2 ^ (-e).toNat : Nat)).toNat) (e + 32)
      ∃ i : Int, RoundsTo rm (fun y => cmpVal y f) (fun y => ∃ j : Int, y = intOf j) (intOf i) (i % 2 = 0)
        ∧ r = ((i % 2 ^ 32).toNat, if cmpVal (intOf i) f = 0 then 0 else 1))
  ∧ convert .f32 .t32 .rne 0xBE800000 = (0xC0000000, 0) ∧ convert .t32 .f32 .rne 1 = (0x2F800000, 0)
  ∧ (∀ p ∈ [(0x5B, 0x41300000), (0x9A, 0xBCC00000), (0x7E, 0x49800000), (0, 0), (0x80, 0x7FC00000)],
      convert .g8 .f32 .rne p.1 = (p.2, 0))
  ∧ (∀ p ∈ [(0x0B, 0x3EE00000), (0x30, 0xBF800000)], convert .g6 .f32 .rne p.1 = (p.2, 0))
  ∧ convert .f32 .g8 .rne 0x42C80000 = (0x6A, 1) ∧ convert .f32 .g8 .rup 0x42C80000 = (0x6B, 1)
  ∧ convert .s32 .g8 .rne 30000000 = (0x7F, 5) ∧ convert .f32 .g8 .rne 0x32800000 = (0, 3)
  ∧ convert .f32 .g8 .rne 0x33000000 = (1, 1)

/-- Scalar float instructions, the values of patterns, the results that no rounding decides, and conversions (R43 to R56,
R115 to R117). -/
def Obligations.FloatResult : Prop :=
  Stmt.FloatResult ∧ Stmt.PatternValues ∧ Stmt.FloatSpecials ∧ Stmt.Conversions

/-- Correct rounding (R45, R46, R48, R49, R55): add, subtract, multiply, FMA, divide and square root of finite operands in
binary16, 32 and 64 give the exact result rounded once in the mode, with its flags; writing an exact value into an IEEE
format rounds it so too; and into g8 or g6 from minpos to maxpos, with the steps of R55 outside that range. -/
def Obligations.CorrectRounding : Prop :=
  (∀ (t : Ty) (rm : Rm) a b c n1 k1 e1 n2 k2 e2 n3 k3 e3, isF t = true →
    decodeVal t a = .fin n1 k1 e1 → decodeVal t b = .fin n2 k2 e2 → decodeVal t c = .fin n3 k3 e3 →
    let sum := fun (y : FVal) (p : FVal) (m : FVal) (neg : Bool) =>
      let q := min (expOf y) (min (expOf p) (expOf m))
      sigOver y q - (sigOver p q + if neg then - sigOver m q else sigOver m q)
    let x := FVal.fin n1 k1 e1
    let prod := FVal.fin (n1 != n2) (k1 * k2) (e1 + e2)
    RoundedIEEE t rm (fun y => sum y x (.fin n2 k2 e2) false) (fAdd t rm a b)
      ∧ RoundedIEEE t rm (fun y => sum y x (.fin n2 k2 e2) true) (fSub t rm a b)
      ∧ RoundedIEEE t rm (fun y => cmpVal y prod) (fMul t rm a b)
      ∧ RoundedIEEE t rm (fun y => sum y prod (.fin n3 k3 e3) false) (fFma t rm a b c)
      ∧ (k2 ≠ 0 → RoundedIEEE t rm (fun y =>
          match y with
          | .fin m j f => cmpVal (.fin (m != n2) (j * k2) (f + e2)) x * (if n2 then -1 else 1)
          | _ => 0) (fDiv t rm a b))
      ∧ (n1 = false → RoundedIEEE t rm (fun y =>
          match y with
          | .fin m j f => if m = true ∧ j ≠ 0 then -1 else cmpVal (.fin false (j * j) (f + f)) x
          | _ => 0) (fSqrt t rm a)))
  ∧ (∀ (t : Ty) (rm : Rm) n k e, isF t = true →
      RoundedIEEE t rm (fun y => cmpVal y (.fin n k e)) (encodeVal t rm (.fin n k e)))
  ∧ ∀ p ∈ [(Ty.g8, 128, (24 : Int)), (.g6, 32, 8)], ∀ (rm : Rm) n k e,
      let s := fun c => c + if n then p.2.1 else 0
      let v := FVal.fin false k e
      let r := encodeVal p.1 rm (.fin n k e)
      (∀ m, encodeVal p.1 rm (.inf m) = (p.2.1 - 1 + if m then p.2.1 else 0, 5))
        ∧ (∀ q, encodeVal p.1 rm (.nan q) = (p.2.1, if q then 16 else 0))
        ∧ (k = 0 → r = (0, 0))
        ∧ (cmpVal (powOf false p.2.2) v < 0 → r = (s (p.2.1 - 1), 5))
        ∧ (k ≠ 0 → cmpVal v (powOf false (-p.2.2 - 1)) < 0 → r = (0, 3))
        ∧ (0 ≤ cmpVal v (powOf false (-p.2.2 - 1)) → cmpVal v (powOf false (-p.2.2)) < 0 → r = (s 1, 1))
        ∧ (0 ≤ cmpVal v (powOf false (-p.2.2)) → cmpVal v (powOf false p.2.2) ≤ 0 →
          Rounded p.1 rm (fun y => cmpVal y (.fin n k e)) r)

/-- The home slice of an address of HBM4 (R285, R286, R288): by the lowest-numbered enabled entry of its home die's range
table that matches it, plain, XOR-folded or lane-matched; without one, by the default fold over all 128 slices. -/
def Stmt.HomeSlice : Prop :=
  ∀ (s : State) a, a < 2 ^ 39 →
    let x := s.die (if a < 2 ^ 38 then .a else .b)
    let w1 := fun e => (x.rangeWord e 1).toNat
    let base := fun e => (x.rangeWord e 0).toNat / 2 ^ 16 % 2 ^ 36 * 2 ^ 16
    let hit := fun e => 2 ^ 63 ≤ w1 e ∧ base e ≤ a ∧ a < base e + w1 e % 2 ^ 32 * 65536
    let first := fun e => w1 e / 2 ^ 32 % 256
    let count := fun e => w1 e / 2 ^ 40 % 256
    let stride := fun e => 128 * 2 ^ (w1 e / 2 ^ 48 % 16)
    let mode := fun e => w1 e / 2 ^ 60 % 4
    let four := fun j => a / 2 ^ (7 + 4 * j) % 16
    let seven := fun j => a / 2 ^ (7 + 7 * j) % 128
    (∀ e, e < 64 → hit e → (∀ j, j < e → ¬ hit j) →
      (mode e = 0 → s.homeSlice a = (first e + a / stride e % count e, some e))
      ∧ (mode e = 1 → s.homeSlice a = (first e + (four 0 ^^^ four 1 ^^^ four 2 ^^^ four 3 ^^^ four 4 ^^^ four 5 ^^^ four 6
          ^^^ four 7) % count e, some e))
      ∧ (mode e = 2 → s.homeSlice a
          = (first e + 2 * (a / (2 * stride e) % (count e / 2)) + a / stride e % 2, some e)))
    ∧ ((∀ e, e < 64 → ¬ hit e) → s.homeSlice a
        = (seven 0 ^^^ seven 1 ^^^ seven 2 ^^^ seven 3 ^^^ seven 4 ^^^ seven 5 ^^^ seven 6, none))

/-- `SLHASH` (R114): an address in the cluster-local window, and a translated address outside HBM4, give 0x8000; a
translated address of HBM4 gives slice, die and entry; one without a translation raises DATAFAULT. No byte and no other
register changes. -/
def Stmt.Slhash : Prop :=
  ∀ (s : State) d a imm, s.me.clean = true →
    let va := s.me.rx a + imm
    (inWindow va.toNat = true →
      ∃ t, exec (.slhash d a imm) s = .next t ∧ OnlyMe s t ∧ RegisterResult s.me t.me 16 d 0x8000 0)
    ∧ (inWindow va.toNat = false → (2 ^ 56 ≤ va.toNat ∨ ∀ e log, s.lookup (s.ctxOf s.cur) va.toNat ≠ .leaf e log) →
      ∃ u, MachineKept s u ∧ u.me = s.me
        ∧ exec (.slhash d a imm) s = .next (u.takeTrap s.cur s.me.pc false { cause := .datafault, tval := va }))
    ∧ ∀ e log, inWindow va.toNat = false → va.toNat < 2 ^ 56 → s.lookup (s.ctxOf s.cur) va.toNat = .leaf e log →
      ∃ t, exec (.slhash d a imm) s = .next t ∧ MachineKept s t
        ∧ RegisterResult s.me t.me 16 d
          (let pa := bitsN e 51 8 * 256 + va.toNat % 2 ^ log
           if s.physRow pa = .hbm then
             wordN ((s.homeSlice pa).1 % 128 + (if pa < 2 ^ 38 then 0 else 128)
               + match (s.homeSlice pa).2 with | some k => 256 * k | none => 16384)
           else 0x8000) 0

/-- `SLHASH`, and the home slice that it answers (R114, R285 to R288). -/
def Obligations.SlhashResult : Prop := Stmt.HomeSlice ∧ Stmt.Slhash

/-! ## Scalar memory -/

/-- The state in which a `LD` of an order and scope reads: `.sc` first waits until the thread's earlier CT and VLS
writes are performed (R232; that a scope of the thread alone waits for nothing is the model's reading, log 12). -/
def ldBefore (s : State) (ord : Order) (sc : Scope) : State :=
  if ord = .sc ∧ sc ≠ .thr then s.drain s.cur fencedPath else s

/-- `LD` (R118) of an aligned, readable address: the loaded element, extended by its type, in the destination register
(none for x0), the pc 16 further, no other register changed, and no byte of memory changed by the load. -/
def Stmt.LoadResult : Prop :=
  ∀ (s : State) ty ord sc d a imm x, s.me.clean = true → Ty.ldOk ty = true →
    (s.me.rx a + imm).toNat % (ty.width / 8) = 0 →
    ((ldBefore s ord sc).load .ct (s.me.rx a + imm) (ty.width / 8)).2 = .ok x →
      ∃ t, exec (.ld ty ord sc d a imm) s = .next t ∧ MachineKept (ldBefore s ord sc) t
        ∧ RegisterResult (ldBefore s ord sc).me t.me 16 d (extTy ty x) 0

/-- A supervisor's `LD` from a register block (R361): an aligned access of 8 bytes reads the register; any other reads zero,
and the hub logs a RAS event. -/
def Stmt.RegisterRead : Prop :=
  ∀ (s : State) ty sc d a imm p, s.me.clean = true → s.ownValues → Ty.ldOk ty = true → s.me.sup = true →
    let va := s.me.rx a + imm
    let n := ty.width / 8
    let s1 := s.noteXlate (s.ctxOf s.cur) va
    va.toNat % n = 0 → s.xlate (s.ctxOf s.cur) .read va = .ok p → s.physRow p.pa = .reg → s.poison = [] →
      p.pa % n = 0 →
      (n = 8 → ∃ t, exec (.ld ty .plain sc d a imm) s = .next t ∧ MachineKept s t
        ∧ RegisterResult s.me t.me 16 d (s1.readReg p.pa) 0)
      ∧ (n < 8 → ∃ t r, exec (.ld ty .plain sc d a imm) s = .next t ∧ MachineKept s t ∧ RegisterResult s.me t.me 16 d 0 0
        ∧ t.hub.rasCount = s1.hub.rasCount + 1 ∧ mapFind t.hub.ras (s1.hub.rasCount % 4096) = some r ∧ r.code = 9)

/-- `LD`, from memory and from the register blocks. -/
def Obligations.LoadResult : Prop := Stmt.LoadResult ∧ Stmt.RegisterRead

/-- `ST` (R118) of any order, to an aligned, writable address of the package's memory: the thread itself reads the stored
bytes of xd at exactly the n bytes of the translated address and every other byte as before on path CT (R228); no byte has
changed yet for any other party (R230), no register changes, and the pc is 16 further. A release toward another party cannot
be performed while an earlier CT or VLS write of the thread is not (R232). -/
def Obligations.StoreResult : Prop :=
  ∀ (s : State) ty ord sc d a imm p, s.me.clean = true → Ty.ldOk ty = true → (s.me.rx a + imm).toNat % (ty.width / 8) = 0 →
    s.xlate (s.ctxOf s.cur) .write (s.me.rx a + imm) = .ok p → (s.physRow p.pa = .hbm ∨ s.physRow p.pa = .sram) →
      ∃ t, exec (.st ty ord sc d a imm) s = .next t ∧ MachineKept s t
        ∧ (∀ k, t.seeByte s.cur .ct k =
            if p.pa ≤ k ∧ k < p.pa + ty.width / 8 then BitVec.ofNat 8 ((s.me.rx d).toNat / 256 ^ (k - p.pa))
            else s.seeByte s.cur .ct k)
        ∧ { t.me with pc := s.me.pc, pend := s.me.pend } = s.me ∧ t.me.pc = s.me.pc + 16
        ∧ ((ord = .rel ∨ ord = .sc) → sc ≠ .thr → (∃ w ∈ s.me.pend, w.path = .ct ∨ w.path = .vls) →
            t.performNth s.cur s.me.pend.length = t)

/-- A store of the thread on any path within one 64 KiB page of the package's memory (mem_write of R99, under a bit mask
for each byte, R42): it does not fail, the thread itself reads the new bits at exactly the translated bytes on that path
and every other bit as before, and no register, no other thread and no byte that another party reads has changed (R228,
R230). Scalar, vector, mask and spill stores are all made of such stores. -/
def Stmt.RangeStore : Prop :=
  ∀ (s : State) path ordered rel (va : Word) (bs : List (Byte × Byte)) p, bs ≠ [] →
    va.toNat % 65536 + bs.length ≤ 65536 → s.xlate (s.ctxOf s.cur) .write va = .ok p →
    (s.physRow p.pa = .hbm ∨ s.physRow p.pa = .sram) →
      let r := s.writeRangeAt (s.ctxOf s.cur) .write path ordered rel va bs
      r.2 = none ∧ MachineKept s r.1 ∧ { r.1.me with pend := s.me.pend } = s.me
        ∧ ∀ k, r.1.seeByte s.cur path k =
            match (if p.pa ≤ k then bs[k - p.pa]? else none) with
            | some b => (s.seeByte s.cur path k &&& ~~~b.2) ||| (b.1 &&& b.2)
            | none => s.seeByte s.cur path k

/-- A pending write that nothing holds back, once performed, leaves its bytes in memory for every party and changes no
other byte (R230); it is then no longer pending. -/
def Stmt.PerformWrite : Prop :=
  ∀ (s : State) (tid n : Nat) (w : PendW), (s.thread tid).pend[n]? = some w → ((s.thread tid).pend.take n).any (fun p => p.blocks w) = false →
    (∀ k, (s.performNth tid n).byte k = overlay w.bytes k (s.byte k))
      ∧ ((s.performNth tid n).thread tid).pend = (s.thread tid).pend.eraseIdx n
      ∧ (∀ k, (∀ b ∈ w.bytes, b.1 ≠ k) → (s.performNth tid n).byte k = s.byte k)

/-- Writes of memory, pending and performed (R4, R42, R99, R228, R230). -/
def Obligations.MemoryWrites : Prop := Stmt.MemoryWrite ∧ Stmt.RangeStore ∧ Stmt.PerformWrite

/-- The new value of `AMO` (R119) as arithmetic: wrapped sum, bitwise operations, the signed or natural minimum and
maximum by the type, and the exchange. -/
def amoSpec (op : AmoOp) (ty : Ty) (old x : Nat) : Nat :=
  match op with
  | .add => (old + x) % 2 ^ ty.width
  | .and => old &&& x
  | .or => old ||| x
  | .xor => old ^^^ x
  | .min => if ty.isS then wrapI ty.width (min (sx ty.width old) (sx ty.width x)) else min old x
  | .max => if ty.isS then wrapI ty.width (max (sx ty.width old) (sx ty.width x)) else max old x
  | .swap => x

/-- `AMO` and `CAS` (R119) of a thread with no pending write, at an aligned address of the package's memory that may be
read and written: the old value, as path CT finds it (R228, R289; past the slices for a page of memory type 1, R353), extended, in xd; the new value at the n bytes of the
translated address, for every party at once; every other byte as before; a failed comparison writes the old value. -/
def Obligations.AtomicResult : Prop :=
  ∀ (s : State) ty ord sc d a b c imm p op, s.me.clean = true → s.me.pend = [] → s.poison = [] → Ty.amoOk ty = true →
    AmoOp.tyOk op ty = true → (s.me.rx a + imm).toNat % (ty.width / 8) = 0 →
    s.xlate (s.ctxOf s.cur) .rmw (s.me.rx a + imm) = .ok p → (s.physRow p.pa = .hbm ∨ s.physRow p.pa = .sram) →
      let n := ty.width / 8
      let old := leNat (s.seeBytes s.cur .ct p.pa n (!p.cached))
      (∃ t, exec (.amo op ty ord sc d a b imm) s = .next t
        ∧ t.readPhys p.pa n = amoSpec op ty old ((s.me.rx b).toNat % 2 ^ ty.width)
        ∧ (∀ k, k < p.pa ∨ p.pa + n ≤ k → t.byte k = s.byte k) ∧ (∀ k, k ≠ s.cur → t.thread k = s.thread k)
        ∧ RegisterResult s.me t.me 16 d (extTy ty old) 0)
      ∧ ∃ t, exec (.cas ty ord sc d a b c imm) s = .next t
        ∧ t.readPhys p.pa n
          = (if old = (s.me.rx b).toNat % 2 ^ ty.width then (s.me.rx c).toNat % 2 ^ ty.width else old)
        ∧ (∀ k, k < p.pa ∨ p.pa + n ≤ k → t.byte k = s.byte k) ∧ (∀ k, k ≠ s.cur → t.thread k = s.thread k)
        ∧ RegisterResult s.me t.me 16 d (extTy ty old) 0

/-- An address that is not a multiple of the element's bytes raises DATAFAULT with the address in tval, in `LD`, `ST`,
`AMO` and `CAS` (R118, R119), and the instruction has no effect. -/
def Stmt.MisalignedScalar : Prop :=
  ∀ (s : State) ty ord sc d a b c imm op, s.me.clean = true → (s.me.rx a + imm).toNat % (ty.width / 8) ≠ 0 →
    ∀ i ∈ [Instr.ld ty ord sc d a imm, .st ty ord sc d a imm, .amo op ty ord sc d a b imm,
        .cas ty ord sc d a b c imm],
      exec i s = .next (s.takeTrap s.cur s.me.pc false { cause := .datafault, tval := s.me.rx a + imm })

/-- A walk, one level at a time (R351, R352), and where a translation is looked up: a cached one of the address space
first, then a walk from the root at level 3 (R354). An entry that lies outside every row of R360, in a register block or in
a peer that refuses reads as zero: that is the model's reading (log 29). -/
def Stmt.Walks : Prop :=
  (∀ (s : State) va lvl t, lvl ≤ 3 →
    let pa := t + 8 * walkIndex va lvl
    let e := s.readAt pa 8
    e = (match s.physRow pa with
        | .hbm | .host => s.readPhys pa 8
        | .peer => if s.hub.linksUp ≠ [] ∧ s.peerAllows .read pa = true then s.readPhys pa 8 else 0
        | _ => 0)
    ∧ (e % 2 = 0 → s.walk va lvl t = .fault)
    ∧ (e % 2 = 1 → entryBad e lvl → s.walk va lvl t = .malformed pa)
    ∧ (e % 2 = 1 → ¬ entryBad e lvl → e.testBit 5 = true → s.walk va lvl t = .leaf e (leafLog lvl))
    ∧ (e % 2 = 1 → ¬ entryBad e lvl → e.testBit 5 = false →
        ∃ l, lvl = l + 1 ∧ s.walk va lvl t = s.walk va l (entryAddr e)))
  ∧ ∀ (s : State) ctx va,
    let cached := (s.core (coreOf ctx.tid)).tlb ++ (s.cluster (cluOf ctx.tid)).tlb
    (∀ x ∈ cached, x.asid = ctx.asid → va / 2 ^ x.log ≠ x.page) → s.lookup ctx va = s.walk va 3 ctx.root

/-- Translation of one address (R278, R350, R352, R353, R360, R361, R377): an address of 2^56 or more, one without a valid
entry and one outside the map fail as a missing translation does; a page refuses with PROT; the cluster-local window goes by
the mode of its bank; register blocks are the supervisor's; a peer's memory needs a window and a link, without which every
access to it raises DATAFAULT, as R377 says of those in flight: that reading is the model's (log 29). -/
def Stmt.Translation : Prop :=
  ∀ (s : State) ctx acc (va : Word),
    let a := va.toNat
    let r := s.xlate ctx acc va
    let lost := if acc = .fetch then Cause.fetchfault else .datafault
    let win := 0x00FFFF0000000000
    let inWin := win ≤ a ∧ a < win + 2 ^ 22
    (2 ^ 56 ≤ a → r = .error lost)
    ∧ (inWin → r = match (s.cluster (cluOf ctx.tid)).mode ((a - win) / 2 ^ 17) with
        | .cache => .error lost
        | .scratch => .ok { pa := sramBase + cluOf ctx.tid * 2 ^ 22 + (a - win) }
        | .fifo => if acc = .write ∨ acc = .rmw then .error .prot
          else .ok { pa := sramBase + cluOf ctx.tid * 2 ^ 22 + (a - win) })
    ∧ (a < 2 ^ 56 → ¬ inWin → (∀ e log, s.lookup ctx a ≠ .leaf e log) → r = .error lost)
    ∧ ∀ e log, a < 2 ^ 56 → ¬ inWin → s.lookup ctx a = .leaf e log →
      let pa := entryAddr e + a % 2 ^ log
      (¬ leafAllows e log acc ctx.user → r = .error .prot)
      ∧ (leafAllows e log acc ctx.user → pa < 2 ^ 52 → r = match s.physRow pa with
          | .hbm | .host => .ok { pa := pa, cached := !e.testBit 6, tern := e.testBit 58, pd := e.testBit 59, log := log }
          | .reg => if ctx.user = true then .error .prot else .ok { pa := pa, log := log }
          | .peer => if s.hub.linksUp = [] then .error .datafault
            else if s.peerAllows acc pa then .ok { pa := pa, log := log } else .error .prot
          | _ => .error lost)

/-- The rows of the physical map (R360, R390): a stack in service up to its capacity, host memory, the peers' lower halves,
and the three register blocks; everything else is a hole. -/
def Stmt.PhysicalMap : Prop :=
  ∀ (s : State) pa, pa < 2 ^ 52 →
    let reg := 0x000FFFF000000000
    s.physRow pa =
      if pa < 2 ^ 39 ∧ s.hub.stk.getLsbD (pa / 2 ^ 36) = true ∧ pa % 2 ^ 36 < s.stackCap (pa / 2 ^ 36) then .hbm
      else if 2 ^ 50 ≤ pa ∧ pa < 2 ^ 51 then .host
      else if reg ≤ pa ∧ pa < reg + 3 * 2 ^ 24 then .reg
      else if 2 ^ 51 ≤ pa ∧ pa < reg ∧ (pa - 2 ^ 51) % 2 ^ 40 < 2 ^ 39 then .peer
      else .hole

/-- An aligned `LD`, `ST`, `AMO` or `CAS` whose address has no translation, or whose page refuses it, traps with the cause
and the address (R118, R119, R350, R352, R353, R360); a walk that meets a malformed entry has logged it (R352). A byte with
an uncorrectable error raises MEMUE with its address in the forms that read (R355). Nothing else happens. -/
def Stmt.AccessFaults : Prop :=
  ∀ (s : State) ty ord sc d a b c imm op, s.me.clean = true → Ty.ldOk ty = true →
    let n := ty.width / 8
    let va := s.me.rx a + imm
    va.toNat % n = 0 →
    ∀ p ∈ [(Instr.ld ty ord sc d a imm, Acc.read, ldBefore s ord sc), (.st ty ord sc d a imm, .write, s),
        (.amo op ty ord sc d a b imm, .rmw, s), (.cas ty ord sc d a b c imm, .rmw, s)],
      let s1 := p.2.2
      (∀ e, s1.xlate (s1.ctxOf s1.cur) p.2.1 va = .error e →
        ∃ u, exec p.1 s = .next (u.takeTrap s.cur s.me.pc false { cause := e, tval := va }) ∧ MachineKept s1 u
          ∧ u.me = s1.me
          ∧ ∀ pa, va.toNat < 2 ^ 56 → inWindow va.toNat = false →
            s1.lookup (s1.ctxOf s1.cur) va.toNat = .malformed pa → u.hub.rasCount = s1.hub.rasCount + 1
              ∧ mapFind u.hub.ras (s1.hub.rasCount % 4096)
                = some ⟨s1.time, 5, 2, dieNo (dieOf (cluOf s1.cur)), s1.cur, wordN pa⟩)
      ∧ ∀ q k, s.me.pend = [] → p.2.1 ≠ .write → s.xlate (s.ctxOf s.cur) p.2.1 va = .ok q → k < n →
        s.poisoned (q.pa + k) = true → (∀ j < k, s.poisoned (q.pa + j) = false) →
          ∃ u, exec p.1 s = .next (u.takeTrap s.cur s.me.pc false { cause := .memue, tval := va + wordN k })
            ∧ MachineKept s u ∧ u.me = s.me

/-- Address translation and its faults (R278, R350 to R355, R360, R361, R377). -/
def Obligations.TranslationResult : Prop := Stmt.Walks ∧ Stmt.Translation ∧ Stmt.PhysicalMap ∧ Stmt.AccessFaults

/-! ## Flow control -/

/-- The branches (R101): the pc moves by the offset where the condition holds, and to the next word otherwise; they
have no other effect. -/
def Obligations.BranchResult : Prop :=
  ∀ (s : State) i taken off, s.me.clean = true → branchOf s.me i = some (taken, off) →
    ∃ t, exec i s = .next t ∧ JumpTo s t (if taken then s.me.pc + off else s.me.pc + 16)

/-- Instructions without an architectural effect: `NOP` (R102), the hints `PREF`, `CPIN` and `CUNPIN`, which never fault
(R120, R223, R283), and `YIELD`, which gives up the thread's turn at the vector sequencer (R110). The pc moves by 16; no
register, no byte of memory and no other thread changes. -/
def Stmt.NoEffect : Prop :=
  ∀ (s : State) a imm lvl, s.me.clean = true →
    (∃ t, exec .nop s = .next t ∧ JumpTo s t (s.me.pc + 16))
    ∧ (∃ t, exec .yieldTurn s = .next t ∧ MachineKept s t ∧ t.me = { s.me with pc := s.me.pc + 16 }
      ∧ s.cur ∉ (t.core (coreOf s.cur)).turn)
    ∧ ∀ i ∈ [Instr.pref a imm lvl, .cpin a imm, .cunpin a imm],
      ∃ t, exec i s = .next t ∧ MachineKept s t ∧ t.me = { s.me with pc := s.me.pc + 16 }

/-- The pins (R283, R284): `CPIN` of a line of HBM4 pins it where it is, or brings it into a way of its set that holds no
pinned line, and has no effect where there is none; `CUNPIN` drops the pin and keeps the line; neither drops the pin of
another line. Where the address has no such place, or its translation fails, with PROT too, they leave every line: that
PROT counts as a missing translation does is the model's reading (log 28). -/
def Stmt.Pins : Prop :=
  ∀ (s : State) a imm, s.me.clean = true →
    let va := s.me.rx a + imm
    let place := s.xlate (s.ctxOf s.cur) .read va
    let c := s.cluster (cluOf s.cur)
    (inWindow va.toNat = true ∨ (∀ p, place = .ok p → 2 ^ 39 ≤ p.pa) → ∀ i ∈ [Instr.cpin a imm, .cunpin a imm],
      ∃ t, exec i s = .next t ∧ (t.cluster (cluOf s.cur)).lines = c.lines)
    ∧ ∀ p, inWindow va.toNat = false → place = .ok p → p.pa < 2 ^ 39 →
      let line := p.pa / 128
      (∃ t, exec (.cunpin a imm) s = .next t
        ∧ (t.cluster (cluOf s.cur)).lines = c.lines.map fun l => { l with pinned := l.pinned && l.line != line })
      ∧ (∃ t, exec (.cpin a imm) s = .next t
        ∧ let ls := (t.cluster (cluOf s.cur)).lines
          (∀ l ∈ c.lines, l.pinned = true → l.line ≠ line → l ∈ ls)
          ∧ ((∃ l ∈ c.lines, l.line = line) → (∃ l ∈ ls, l.line = line ∧ l.pinned = true)
            ∧ ∀ l, l.line ≠ line → (l ∈ ls ↔ l ∈ c.lines))
          ∧ ((∀ l ∈ c.lines, l.line ≠ line) →
            ((∃ w ∈ c.ways, ∀ l ∈ c.lines, l.way = w → l.line % 1024 = line % 1024 → l.pinned = false) →
              ∃ l ∈ ls, l.line = line ∧ l.pinned = true)
            ∧ ((∀ l ∈ c.lines, l.line % 1024 = line % 1024 → l.pinned = true) →
              (∀ w ∈ c.ways, ∃ l ∈ c.lines, l.way = w ∧ l.line % 1024 = line % 1024) → ls = c.lines)))

/-- Instructions that change no register but the pc, and what the hints do to the cluster cache (R102, R110, R120, R223,
R283, R284). -/
def Obligations.NoEffect : Prop := Stmt.NoEffect ∧ Stmt.Pins

/-- `JMPR` (R105) sets pc := xa. It raises FETCHFAULT with tval := xa when bits [3:0] of xa are not zero, and then has
no effect. -/
def Obligations.JumpRegister : Prop :=
  ∀ (s : State) a, s.me.clean = true →
    (s.me.rx a &&& 0xF = 0 → ∃ t, exec (.jmpr a) s = .next t ∧ JumpTo s t (s.me.rx a))
    ∧ (s.me.rx a &&& 0xF ≠ 0 →
      exec (.jmpr a) s = .next (s.takeTrap s.cur s.me.pc false { cause := .fetchfault, tval := s.me.rx a }))

/-- `JTAB` (R106): an index at or above the length jumps to the default target without an access; below it, the thread
jumps to the table's entry; a misaligned or unreadable entry traps with tval the entry's address, and a misaligned
target raises FETCHFAULT. -/
def Stmt.TableJump : Prop :=
  ∀ (s : State) a b c off, s.me.clean = true →
    let ea := s.me.rx b + 8 * s.me.rx a
    ((s.me.rx c).toNat ≤ (s.me.rx a).toNat → ∃ t, exec (.jtab a b c off) s = .next t ∧ JumpTo s t (s.me.pc + off))
    ∧ ((s.me.rx a).toNat < (s.me.rx c).toNat → ea.toNat % 8 ≠ 0 →
      exec (.jtab a b c off) s = .next (s.takeTrap s.cur s.me.pc false { cause := .datafault, tval := ea }))
    ∧ (∀ e, (s.me.rx a).toNat < (s.me.rx c).toNat → ea.toNat % 8 = 0 → (s.load .ct ea 8).2 = .error e →
      exec (.jtab a b c off) s = .next (((s.load .ct ea 8).1).takeTrap s.cur s.me.pc false
        { cause := e.1, tval := ea }))
    ∧ ∀ x, (s.me.rx a).toNat < (s.me.rx c).toNat → ea.toNat % 8 = 0 → (s.load .ct ea 8).2 = .ok x →
      (aligned16 (wordN x) = true →
        ∃ t, exec (.jtab a b c off) s = .next t ∧ MachineKept s t ∧ t.me = { s.me with pc := wordN x })
      ∧ (aligned16 (wordN x) = false →
        exec (.jtab a b c off) s = .next (((s.load .ct ea 8).1).takeTrap s.cur s.me.pc false
          { cause := .fetchfault, tval := wordN x }))

/-- `CALL` and `CALLR` (R103) of an aligned target with an aligned stack that takes both writes: the return address is
stored at x2 − 16 and vsw at x2 − 8, x1 and x2 are updated, the pc is the target, and nothing else changes. -/
def Stmt.CallResult : Prop :=
  ∀ (s : State) i target, s.me.clean = true → s.me.hasVector = true →
    ((∃ off, i = .call off ∧ target = s.me.pc + off) ∨ ∃ a, i = .callr a ∧ target = s.me.rx a) →
    aligned16 target = true → aligned16 (s.me.rx 2) = true →
    let sp := s.me.rx 2 - 16
    let r1 := s.store .ct false sp 8 (s.me.pc + 16).toNat
    let r2 := r1.1.store .ct false (sp + 8) 8 s.me.vsw.toNat
    r1.2 = none → r2.2 = none → r2.1.me.clean = true →
      ∃ t, exec i s = .next t ∧ OnlyMe r2.1 t ∧ t.me.pc = target
        ∧ (∀ r, t.me.rx r = if r = 1 then s.me.pc + 16 else if r = 2 then sp else r2.1.me.rx r)
        ∧ { t.me with pc := r2.1.me.pc, x := r2.1.me.x } = r2.1.me

/-- `RET` (R104) of a readable frame with an aligned return address and a legal vsw: vsw with the effects of R25, x2 +
16, and the pc from the frame; x1 is not read, no other register and no byte changes. A misaligned return address
raises FETCHFAULT and an illegal vsw ILLEGAL with the popped word, and change no register. -/
def Stmt.ReturnResult : Prop :=
  ∀ (s : State) ra v, s.me.clean = true → s.me.hasVector = true → aligned16 (s.me.rx 2) = true →
    (s.load .ct (s.me.rx 2) 8).2 = .ok ra → ((s.load .ct (s.me.rx 2) 8).1.load .ct (s.me.rx 2 + 8) 8).2 = .ok v →
      let s' := ((s.load .ct (s.me.rx 2) 8).1.load .ct (s.me.rx 2 + 8) 8).1
      (aligned16 (wordN ra) = true → legalVsw (wordN v) = true →
        ∃ t, exec .ret s = .next t ∧ MachineKept s t ∧ t.me.pc = wordN ra
          ∧ (∀ r, t.me.rx r = if r = 2 then s.me.rx 2 + 16 else s.me.rx r)
          ∧ { t.me with pc := s.me.pc, x := s.me.x } = s.me.setVsw (wordN v))
      ∧ (aligned16 (wordN ra) = false → exec .ret s = .next (s'.takeTrap s.cur s.me.pc false
          { cause := .fetchfault, tval := wordN ra }))
      ∧ (aligned16 (wordN ra) = true → legalVsw (wordN v) = false → exec .ret s = .next (s'.takeTrap s.cur s.me.pc
          false { cause := .illegal, tval := wordN v }))

/-- Where `CALL`, `CALLR` and `RET` trap (R103, R104): FETCHFAULT with a misaligned target, DATAFAULT with x2 − 16, or with
x2 for `RET`, where x2 is no multiple of 16, and the fault of the first access to the frame that fails. None of them has
changed a register of the thread; where the first store fails, no byte either. -/
def Stmt.FrameFaults : Prop :=
  ∀ (s : State), s.me.clean = true → s.me.hasVector = true →
    let trap := fun (u : State) (t : Trap) => Host.Outcome.next (u.takeTrap s.cur s.me.pc false t)
    let x2 := s.me.rx 2
    (∀ i target, ((∃ off, i = .call off ∧ target = s.me.pc + off) ∨ ∃ a, i = .callr a ∧ target = s.me.rx a) →
      (aligned16 target = false → exec i s = trap s { cause := .fetchfault, tval := target })
      ∧ (aligned16 target = true → aligned16 x2 = false → exec i s = trap s { cause := .datafault, tval := x2 - 16 })
      ∧ (aligned16 target = true → aligned16 x2 = true →
        let r1 := s.store .ct false (x2 - 16) 8 (s.me.pc + 16).toNat
        let r2 := r1.1.store .ct false (x2 - 16 + 8) 8 s.me.vsw.toNat
        (∀ e, r1.2 = some e → MachineKept s r1.1 ∧ r1.1.me = s.me)
        ∧ ∀ e u, (r1.2 = some e ∧ u = r1.1
            ∨ r1.2 = none ∧ r1.1.me = { s.me with pend := r1.1.me.pend } ∧ r1.1.cur = s.cur ∧ r2.2 = some e ∧ u = r2.1) →
          exec i s = trap u { cause := e.1, tval := e.2 }))
    ∧ (aligned16 x2 = false → exec .ret s = trap s { cause := .datafault, tval := x2 })
    ∧ (aligned16 x2 = true →
      let r1 := s.load .ct x2 8
      let r2 := r1.1.load .ct (x2 + 8) 8
      (∀ e, r1.2 = .error e → MachineKept s r1.1 ∧ r1.1.me = s.me ∧ exec .ret s = trap r1.1 { cause := e.1, tval := e.2 })
      ∧ ∀ x e, r1.2 = .ok x → r2.2 = .error e →
        MachineKept s r2.1 ∧ r2.1.me = s.me ∧ exec .ret s = trap r2.1 { cause := e.1, tval := e.2 })

/-- Transfers through a table, calls and returns, and where they trap (R25, R103, R104, R106). -/
def Obligations.IndirectFlow : Prop := Stmt.TableJump ∧ Stmt.CallResult ∧ Stmt.ReturnResult ∧ Stmt.FrameFaults

/-! ## Vector control and vector memory -/

/-- The issuing thread once a pending grant is taken (R11, R12): `Relayout` says what it holds. -/
def granted (s : State) : Thread :=
  match s.me.pendGrant with
  | some g => (s.regrant s.cur g).me
  | none => s.me

/-- A change of grant (R12): every element below both maximum vector lengths, of every register group of the vtype in
force, keeps its value; the elements that the new grant adds read zero; storage that holds no element holds a word of the
thread's own registers. No other register, no other thread and no byte changes. -/
def Stmt.Relayout : Prop :=
  ∀ (s : State) tid h, let th := s.thread tid
    mapWf 0 th.v = true → th.vErr = [] → th.vPoison = [] → th.regErr = [] → vtOk th.vtype = true → th.grantOk = true →
    grantBase h + grantLanes h ≤ 16 → th.grant ≠ h →
      let t := s.regrant tid h
      let u := t.thread tid
      u.grant = h ∧ u.pendGrant = none ∧ u.mvl = mvlOf h th.vtype
        ∧ (∀ (r : VReg) e, th.regOk r th.ew = true → e < th.mvl → e < u.mvl → u.elem r th.ew e = th.elem r th.ew e)
        ∧ (∀ (r : VReg) e, th.regOk r th.ew = true → th.mvl ≤ e → e < u.mvl → u.elem r th.ew e = 0)
        ∧ (∀ k, grantBase h ≤ k % 128 / 8 → k % 128 / 8 < grantBase h + grantLanes h →
            mapGet 0 u.v k = 0 ∨ ∃ j, grantBase th.grant ≤ j % 128 / 8
              ∧ j % 128 / 8 < grantBase th.grant + grantLanes th.grant ∧ mapGet 0 u.v k = mapGet 0 th.v j)
        ∧ { u with v := th.v, grant := th.grant, pendGrant := th.pendGrant } = th
        ∧ SameBytes s t ∧ ∀ k, k ≠ tid → t.thread k = s.thread k

/-- `SETVL` (R107) takes a pending grant first (R11), then sets vl := grant(xa) under R60, with xa as a natural number and
mvl of the grant taken, and xd := vl. It ends the thread's turn; no byte of memory and no other x-register changes. -/
def Stmt.SetvlResult : Prop :=
  ∀ (s : State) d a, s.me.clean = true → s.me.hasVector = true →
    let th := granted s
    let n := (s.me.rx a).toNat
    let bl := vtBlk th.vtype
    let vl := if th.mvl ≤ n then th.mvl else if bl = 0 ∨ n < bl then n else bl * (n / bl)
    ∃ t, exec (.setvl d a) s = .next t ∧ MachineKept s t
      ∧ t.me.vl = vl ∧ RegisterResult { th with vl := vl } t.me 16 d (wordN vl) 0
      ∧ s.cur ∉ (t.core (coreOf s.cur)).turn

/-- `STRIP` (R108): xd loses vl, each named pointer moves by vl times its signed scale, in order; while xd stays
positive a pending grant is taken (R11), the next vl is granted and the thread branches back, and otherwise it goes on,
without taking a grant (the model's reading of R331, log 13); no byte of memory and no other register changes. -/
def Stmt.StripResult : Prop :=
  ∀ (s : State) d p0 p1 p2 p3 s0 s1 s2 s3 off, s.me.clean = true → s.me.hasVector = true →
    let step := fun (th : Thread) (p : XReg) (c : BitVec 8) => th.wx p (th.rx p + wordI (s.me.vl * c.toInt))
    let x := s.me.rx d - wordN s.me.vl
    let th := step (step (step (step (s.me.wx d x) p0 s0) p1 s1) p2 s2) p3 s3
    ∃ t, exec (.strip d p0 p1 p2 p3 s0 s1 s2 s3 off) s = .next t ∧ MachineKept s t
      ∧ (0 < sval x → t.me = { granted s with
          x := th.x, pc := s.me.pc + off, vl := grantVl (granted s).mvl (vtBlk s.me.vtype) x.toNat })
      ∧ (sval x ≤ 0 → t.me = { th with pc := s.me.pc + 32 })
      ∧ s.cur ∉ (t.core (coreOf s.cur)).turn

/-- The vector length, the strip loop and the relayout of a change of grant (R11, R12, R60, R107, R108). -/
def Obligations.VectorLength : Prop := Stmt.SetvlResult ∧ Stmt.StripResult ∧ Stmt.Relayout

/-- `VMVL` (R130) sets xd := 16 + 16 × ceil(mvl × ew ÷ 128), and changes nothing else. -/
def Stmt.VmvlResult : Prop :=
  ∀ (s : State) d, s.me.clean = true → s.me.hasVector = true →
    ∃ t, exec (.vmvl d) s = .next t ∧ OnlyMe s t
      ∧ RegisterResult s.me t.me 16 d (wordN (16 + 16 * ((s.me.mvl * s.me.ew + 127) / 128))) 0

/-- `VSETT` (R134), `VMPOP` and `VMFIRST` (R135), `VGETX` and `VPUTX` (R136): the type with mvl in xd and vl clamped, or
ILLEGAL for a type that R27 does not list; the count of the active set bits, the lowest one or all ones; the element
extended, zero from vl on; the register's low bits in the element, nothing from vl on. Nothing else changes but the
charge of the last four (R16). A misaligned group of `VGETX` or `VPUTX` raises ILLEGAL. -/
def Stmt.VectorControlResult : Prop :=
  ∀ (s : State), s.me.clean = true → s.me.hasVector = true →
    (∀ d a imm, let vt : BitVec 16 := if a = 0 then imm else (s.me.rx a).setWidth 16
      (vtOk vt = true → ∃ t, exec (.vsett d a imm) s = .next t ∧ OnlyMe s t
        ∧ RegisterResult { s.me with vtype := vt, vl := min s.me.vl (mvlOf s.me.grant vt) } t.me 16 d
          (wordN (mvlOf s.me.grant vt)) 0)
      ∧ (vtOk vt = false → exec (.vsett d a imm) s = .next (s.takeTrap s.cur s.me.pc false
          { cause := .illegal, tval := vt.setWidth 64 })))
    ∧ (∀ d m mk, let hits := (List.range s.me.vl).filter fun e => s.me.active mk e && s.me.mbit m e
      (∃ t, exec (.vmpop d m mk) s = .next t ∧ MachineKept s t
        ∧ RegisterResult { s.me with vt := t.me.vt } t.me 16 d (wordN hits.length) 0)
      ∧ ∃ t, exec (.vmfirst d m mk) s = .next t ∧ MachineKept s t
        ∧ RegisterResult { s.me with vt := t.me.vt } t.me 16 d ((hits.head?.map wordN).getD 0xFFFFFFFFFFFFFFFF) 0)
    ∧ (∀ d va b imm, s.me.regOk va s.me.ew = true →
      let k := (s.me.rx b + imm).toNat
      let x := s.me.elem va s.me.ew k
      ∃ t, exec (.vgetx d va b imm) s = .next t ∧ MachineKept s t
        ∧ RegisterResult { s.me with vt := t.me.vt } t.me 16 d
          (if s.me.vl ≤ k then 0 else if s.me.vTy = .g6 then wordN (x % 64) else extTy s.me.vTy x) 0)
    ∧ (∀ vd a b imm, s.me.regOk vd s.me.ew = true →
      let k := (s.me.rx b + imm).toNat
      ∃ t, exec (.vputx vd a b imm) s = .next t ∧ MachineKept s t
        ∧ let th := ({ s.me with vt := t.me.vt } : Thread).dirty vd s.me.ew
          t.me = { (if s.me.vl ≤ k then th else th.setElem vd s.me.ew k ((s.me.rx a).toNat % 2 ^ s.me.vTy.memWidth))
            with pc := s.me.pc + 16 })
    ∧ ∀ r a b d imm, s.me.regOk r s.me.ew = false → ∀ i ∈ [Instr.vgetx d r b imm, .vputx r a b imm],
      exec i s = .next (s.takeTrap s.cur s.me.pc false { cause := .illegal, tval := i.low64 })

/-- The vector-state record (R137): `VSSAVE` stores vsw, vstart, vrstate, vdirty, grant, fcsr and 16 zero bytes at a
64-byte-aligned address and changes no register; `VSLOAD` restores vsw with the effects of R25, vstart, vrstate, fcsr,
and vdirty in supervisor mode only. A misaligned address raises DATAFAULT and an illegal vsw ILLEGAL. -/
def Stmt.VectorRecordResult : Prop :=
  ∀ (s : State) a imm, s.me.clean = true → s.me.hasVector = true →
    let va := s.me.rx a + imm
    let th := s.me
    let words : List Word := [th.vsw, th.vstart, th.vrstate, th.vdirty.setWidth 64, th.grant.setWidth 64, th.fcsr.setWidth 64, 0, 0]
    let r := s.writeRangeAt (s.ctxOf s.cur) .write .ct none false va
      ((words.flatMap fun w => leBytes 8 w.toNat).map fun b => (b, 0xFF))
    (va.toNat % 64 = 0 → r.2 = none → r.1.me.clean = true →
      ∃ t, exec (.vssave a imm) s = .next t ∧ OnlyMe r.1 t ∧ t.me = { r.1.me with pc := r.1.me.pc + 16 })
    ∧ (∀ bs, va.toNat % 64 = 0 → (s.readRange (s.ctxOf s.cur) .ct va 64).2 = .ok bs →
      let w := fun i => wordN (leNat ((bs.drop (8 * i)).take 8))
      (legalVsw (w 0) = true → ∃ t, exec (.vsload a imm) s = .next t ∧ MachineKept s t
        ∧ t.me = { s.me.setVsw (w 0) with
            vstart := w 1, vrstate := w 2, fcsr := (w 5).setWidth 7, pc := s.me.pc + 16,
            vdirty := if s.me.sup then (w 3).setWidth 32 else s.me.vdirty })
      ∧ (legalVsw (w 0) = false → exec (.vsload a imm) s = .next
          ((s.readRange (s.ctxOf s.cur) .ct va 64).1.takeTrap s.cur s.me.pc false { cause := .illegal, tval := w 0 })))
    ∧ (va.toNat % 64 ≠ 0 → ∀ i ∈ [Instr.vssave a imm, .vsload a imm],
      exec i s = .next (s.takeTrap s.cur s.me.pc false { cause := .datafault, tval := va }))

/-- Vector type, masks, elements and the vector-state record (R134 to R137). -/
def Obligations.VectorControl : Prop := Stmt.VmvlResult ∧ Stmt.VectorControlResult ∧ Stmt.VectorRecordResult

/-- The block that a `VF` at the thread's pc enters: every VP below vl in one running group (R18). -/
def blockAt (th : Thread) (epc start : Word) : Block :=
  { vf := th.pc, epc := epc, start := start, group := List.range th.vl }

/-- `VF` (R133, R18, R147, R149): every VP below vl forms the running group at the block's first E-word, with vstart := 0;
a block resume begins at the E-word that tval names, or the one that the context holds after a halt (R148), and clears VR;
after a WATCHDOG, whose tval is the limit (R327), at the one that the core has kept, as long as tval stands (log 45);
at vl = 0 no E-word executes. The pc stays at the `VF` while its block runs, and nothing else changes. -/
def Stmt.VectorFetchResult : Prop :=
  ∀ (s : State) off, s.me.clean = true → s.me.hasVector = true →
    (s.me.vl = 0 → s.me.resume = none → (s.me.vr = false ∨ s.me.super.tpc ≠ s.me.pc) →
      ∃ t, exec (.vf off) s = .next t ∧ OnlyMe s t
        ∧ t.me = { s.me with vstart := 0, resume := none, dogAt := none, pc := s.me.pc + 16 })
    ∧ (0 < s.me.vl → s.me.resume = none → (s.me.vr = false ∨ s.me.super.tpc ≠ s.me.pc) →
      ∃ t, exec (.vf off) s = .next t ∧ OnlyMe s t
        ∧ t.me = { s.me with
            vstart := 0, resume := none, dogAt := none, blk := some (blockAt s.me (s.me.pc + off) (s.me.pc + off)) })
    ∧ ∀ w, (s.me.resume = some w ∨ s.me.resume = none ∧ s.me.vr = true ∧ s.me.super.tpc = s.me.pc
          ∧ ((s.me.dogAt = none ∧ w = s.me.super.tval) ∨ ∃ vf x e, s.me.dogAt = some (vf, x, e)
            ∧ w = if vf = s.me.pc ∧ x = s.me.super.tval then e else s.me.super.tval)) →
      ∃ t, exec (.vf off) s = .next t ∧ OnlyMe s t
        ∧ t.me = { s.me with
            tstatus := s.me.tstatus &&& 0x1D, resume := none, dogAt := none, blk := if s.me.vl = 0 then s.me.blk
              else some (blockAt s.me w (s.me.pc + off)), pc := if s.me.vl = 0 then s.me.pc + 16 else s.me.pc }

/-- Elements of a vector register (R8 to R10): an element written under a grant that lies within the core's lanes reads
back, no other element of the group changes, and no lane word outside the group's registers or the grant's lanes
changes. -/
def Stmt.ElementWrite : Prop :=
  ∀ (th : Thread) (r : VReg) (u e x : Nat), u ∈ [2, 4, 8, 16, 32, 64] → th.grantOk = true → th.vPoison = [] → th.vErr = [] →
    e < th.mvl →
    (th.setElem r u e x).elem r u e = x % 2 ^ u
      ∧ (∀ k, k < th.mvl → k ≠ e → (th.setElem r u e x).elem r u k = th.elem r u k)
      ∧ (∀ k, (k % 128 / 8 < grantBase th.grant ∨ grantBase th.grant + grantLanes th.grant ≤ k % 128 / 8
          ∨ k / 128 < r.toNat ∨ r.toNat + th.grpOf u ≤ k / 128) →
        mapGet 0 (th.setElem r u e x).v k = mapGet 0 th.v k)
      ∧ { th.setElem r u e x with v := th.v } = th

/-- Under `.u`, the elements above a failing one that the turn lets be performed before the trap (R123, R235). -/
def laterOnes (ord : VOrder) (f : State → Nat → State × Option (Cause × Word)) (early k : Nat) (l : List Nat) (s : State) :
    State :=
  if ord = .u then
    (l.filter fun e => decide (k < e) && early.testBit e).foldl (fun s e => if (f s e).2 = none then (f s e).1 else s) s
  else s

/-- Order code of a vector memory instruction. -/
def orderCode : Instr → VOrder
  | .vld _ ord .. | .vlds _ ord .. | .vldx _ ord .. => ord
  | _ => .o

/-- The vector loads `VLD`, `VLDS` and `VLDX` (R121 to R123, R30, R33): the active elements from vstart on are read on
path VLS and written to the register in order; then vstart is zero and the pc 16 further; vdirty is set for the group, no
other register and no byte of memory changes. A fault at element k traps with k in telem and vstart and the elements
below k performed; under `.u` elements above k may have been performed too. -/
def Stmt.VectorLoadResult : Prop :=
  ∀ (s : State) i f, s.me.clean = true → s.me.hasVector = true → loadForm s i = some f →
    let r := runElems (loadOne f) (performed s.me f.gov) ((s.modMe fun th => th.dirty f.vd th.ew).chargeVec s.me.ew)
    (r.2 = none → ∃ t, exec i s = .next t ∧ MachineKept s t
      ∧ t.me = { s.me with v := r.1.me.v, vdirty := (s.me.dirty f.vd s.me.ew).vdirty, vt := t.me.vt, vstart := 0,
                           pc := s.me.pc + 16 })
    ∧ ∀ k c a, r.2 = some (k, c, a) →
      exec i s = .next (((laterOnes (orderCode i) (loadOne f) s.early k (performed s.me f.gov) r.1).modMe fun th =>
        { th with vstart := wordN k }).takeTrap s.cur s.me.pc false { cause := c, tval := a, telem := wordN k })

/-- The vector stores `VST`, `VSTS` and `VSTX` (R121 to R125): the active elements from vstart on are stored on path VLS,
under `.o` as one ordered group (R234), those of a `VST` in one line as one write (R226, log 10); then vstart is zero and the pc 16 further. A fault at element k traps with k in
telem and vstart; under `.u` elements above k may have been performed too. What one element's store changes is the statement of `writeRangeAt`; where all of them stay within the
package's memory no register, no other thread and no byte that another party reads changes. -/
def Stmt.VectorStoreResult : Prop :=
  ∀ (s : State) i f ord, s.me.clean = true → s.me.hasVector = true → storeForm s i = some (f, ord) →
    let o := if ord = .u then none else some s.stamp
    let s1 := ({ s with stamp := s.stamp + 1 } : State).chargeVec s.me.ew
    let op := if unitStore i then s.stamp + 1 else 0
    let r := runElems (storeOne f o op) (performed s.me f.gov) s1
    (r.2 = none → r.1.me.clean = true → ∃ t, exec i s = .next t ∧ OnlyMe r.1 t ∧ t.me = { r.1.me with vstart := 0, pc := r.1.me.pc + 16 }
      ∧ ((∀ l e p, l ++ [e] <+: performed s.me f.gov →
            let s' := (runElems (storeOne f o op) l s1).1
            s'.xlate (s'.ctxOf s'.cur) .write (f.addr e).1 = .ok p →
              (f.addr e).1.toNat % 65536 + ((f.addr e).2 + f.t.memWidth + 7) / 8 ≤ 65536
                ∧ (s'.physRow p.pa = .hbm ∨ s'.physRow p.pa = .sram)) →
          MachineKept s t
            ∧ t.me = { s.me with pend := t.me.pend, vt := t.me.vt, vstart := 0, pc := s.me.pc + 16 }))
    ∧ ∀ k c a, r.2 = some (k, c, a) →
      let u := laterOnes ord (storeOne f o op) r.1.early k (performed s.me f.gov) r.1
      exec i s = .next ((u.setVstart k).takeTrap u.cur u.me.pc false { cause := c, tval := a, telem := wordN k })

/-- Elements in registers and their stores (R8 to R10, R121 to R123). -/
def Obligations.VectorStores : Prop := Stmt.ElementWrite ∧ Stmt.VectorStoreResult

/-- `VLDFF` (R126): with no faulting element it loads as `VLD`; a fault at the first active element traps there and
performs nothing; a fault at a later element k performs the elements below k, leaves the rest of the register, and sets
vl := k and vstart := 0. -/
def Stmt.FirstFaultLoad : Prop :=
  ∀ (s : State) ty ord vd a imm mk f, s.me.clean = true → s.me.hasVector = true →
    loadForm s (.vld ty ord vd a imm mk) = some f →
    let s1 := (s.modMe fun th => th.dirty vd th.ew).chargeVec s.me.ew
    let els := performed s.me mk
    let bad := fun e =>
      let p := f.addr e
      if 8 ≤ f.t.memWidth ∧ p.1.toNat % (f.t.memWidth / 8) ≠ 0 then some (Cause.datafault, p.1)
      else (s1.pieces (s1.ctxOf s1.cur) .read p.1 ((p.2 + f.t.memWidth + 7) / 8)).2
    ((∀ e ∈ els, bad e = none) → (runElems (loadOne f) els s1).2 = none →
      ∃ t, exec (.vldff ty ord vd a imm mk) s = .next t ∧ MachineKept s t
        ∧ t.me = { s.me with v := (runElems (loadOne f) els s1).1.me.v, vdirty := (s.me.dirty vd s.me.ew).vdirty,
                             vt := t.me.vt, vstart := 0, pc := s.me.pc + 16 })
    ∧ (∀ k l x, els = k :: l → bad k = some x →
      exec (.vldff ty ord vd a imm mk) s = .next (((s1.noteXlate (s1.ctxOf s1.cur) x.2).modMe fun th =>
        { th with vstart := wordN k }).takeTrap s.cur s.me.pc false { cause := x.1, tval := x.2, telem := wordN k }))
    ∧ ∀ k l l', els = l ++ k :: l' → l ≠ [] → (∀ e ∈ l, bad e = none) → (bad k).isSome = true →
      (runElems (loadOne f) l s1).2 = none →
      ∃ t, exec (.vldff ty ord vd a imm mk) s = .next t ∧ MachineKept s t
        ∧ t.me = { s.me with v := (runElems (loadOne f) l s1).1.me.v, vdirty := (s.me.dirty vd s.me.ew).vdirty,
                             vt := t.me.vt, vl := k, vstart := 0, pc := s.me.pc + 16 }

/-- Vector loads, the fault-first one included (R30, R33, R121 to R124). -/
def Obligations.VectorLoads : Prop := Stmt.VectorLoadResult ∧ Stmt.FirstFaultLoad

/-- `VAMO` (R127) of a thread with no pending write, on the package's memory: with every active element translated, each
distinct address takes the contributions of the elements that name it in ascending order, in an integer format as the
table of R119 has them (a page of memory type 1 is read past the slices, R353); every other byte is as before, vstart is zero, and only fcsr may gain flags, in a float format. A
fault at element k performs nothing and leaves vstart. -/
def Obligations.VectorAtomicResult : Prop :=
  ∀ (s : State) op ty ord sc vd a vb iw imm mk f, s.me.clean = true → s.me.hasVector = true → s.me.pend = [] →
    s.poison = [] → vform s.me ty vd mk false (fun t e =>
      (s.me.rx a + imm + wordI (sx (idxWidth t iw) (s.me.elem vb (idxWidth t iw) e)) * wordN (t.width / 8), 0)) = some f →
    s.me.regOk vb (idxWidth f.t iw) = true → vamoOk op f.t = true →
    let n := f.t.width / 8
    let els := performed s.me mk
    (∀ ps, vamoPlaces s f.t f.addr els = .ok ps → (∀ p ∈ ps, s.physRow p.2.place.pa = .hbm ∨ s.physRow p.2.place.pa = .sram) →
      ∃ t, exec (.vamo op ty ord sc vd a vb iw imm mk) s = .next t
        ∧ (∀ p ∈ ps, let pa := p.2.place.pa
            let cs := (ps.filter fun q => q.2.place.pa == pa).map fun q => (q.1, s.me.elem vd f.t.width q.1)
            let past := (ps.find? fun q => q.2.place.pa == pa).any fun q => !q.2.place.cached
            let old := leNat (s.seeBytes s.cur .vls pa n past)
            t.readPhys pa n = if isF f.t then (vamoValue op f.t ord (vtRm s.me.vtype) s.me.vl old cs).1
              else cs.foldl (fun m c => amoSpec op f.t m c.2) old)
        ∧ (∀ k, (∀ p ∈ ps, k < p.2.place.pa ∨ p.2.place.pa + n ≤ k) → t.byte k = s.byte k)
        ∧ (∀ k, k ≠ s.cur → t.thread k = s.thread k)
        ∧ t.me = { s.me with fcsr := t.me.fcsr, vt := t.me.vt, vstart := 0, pc := s.me.pc + 16 }
        ∧ (isF f.t = false → t.me.fcsr = s.me.fcsr))
    ∧ ∀ k c x, vamoPlaces s f.t f.addr els = .error (k, c, x) →
      ∃ u, exec (.vamo op ty ord sc vd a vb iw imm mk) s
          = .next (u.takeTrap s.cur s.me.pc false { cause := c, tval := x, telem := wordN k })
        ∧ MachineKept s u ∧ u.me = { s.me with vt := u.me.vt }

/-- `VLDM` and `VSTM` (R128): the bits from vstart up to vl of a mask register, byte by byte on path VLS; the other bits of
the register and of the last byte are kept; then vstart is zero. Under every order code of R83; `.u` makes the store's
bytes unordered (R234). A fault at a byte traps with telem its first element and vstart there, or where it was inside that
byte, and the bytes below are moved (R123); under `.u` bytes above may have been moved too. -/
def Stmt.MaskMemoryResult : Prop :=
  ∀ (s : State) ord md a imm, s.me.clean = true → s.me.hasVector = true →
    let base := s.me.rx a + imm
    let o := if ord = .u then none else some s.stamp
    let get := fun (s' : State) b =>
      let r := s'.load .vls (base + wordN b) 1
      match r.2 with
      | .ok x => (r.1.modMe fun th => th.setMbits md ((maskBits s.me b).map fun e => (e, x.testBit (e % 8))), none)
      | .error c => (r.1, some c)
    let put := fun (s' : State) b => s'.writeRangeAt (s'.ctxOf s'.cur) .write .vls o false (base + wordN b)
      [s'.me.maskByte md b s.me.vl] s'.stamp
    let r := runElems get (maskSpan s.me) (s.chargeVec 1)
    let w := runElems put (maskSpan s.me) (({ s with stamp := s.stamp + 1 } : State).chargeVec 1)
    (r.2 = none → ∃ t, exec (.vldm ord md a imm) s = .next t ∧ MachineKept s t
      ∧ t.me = { s.me with m := r.1.me.m, vt := t.me.vt, vstart := 0, pc := s.me.pc + 16 })
    ∧ (w.2 = none → w.1.me = { s.me with pend := w.1.me.pend, vt := w.1.me.vt } →
      ∃ t, exec (.vstm ord md a imm) s = .next t ∧ OnlyMe w.1 t
        ∧ t.me = { s.me with pend := w.1.me.pend, vt := w.1.me.vt, vstart := 0, pc := s.me.pc + 16 })
    ∧ (∀ b c x, r.2 = some (b, c, x) →
      let u := laterOnes ord get r.1.early b (maskSpan s.me) r.1
      exec (.vldm ord md a imm) s = .next ((u.setVstart (max (8 * b) s.me.vstart.toNat)).takeTrap s.cur s.me.pc false
        { cause := c, tval := x, telem := wordN (8 * b) }))
    ∧ ∀ b c x, w.2 = some (b, c, x) →
      let u := laterOnes ord put w.1.early b (maskSpan s.me) w.1
      exec (.vstm ord md a imm) s = .next ((u.setVstart (max (8 * b) u.me.vstart.toNat)).takeTrap u.cur u.me.pc false
        { cause := c, tval := x, telem := wordN (8 * b) })

/-- `VSPILL` (R129, R131): the header with vsw, the elements from vstart to min(vl, mvl), the zero padding of the last
word, whatever the masks, under every order code of R83; then vstart is zero. `VFILL` (R132): elements 0 to E − 1 of a frame whose header fits vtype, vl
:= E, vtype and every other register kept, and no byte of memory changed, under a type of vtype's width (R121), a g6
container with bits [7:6] zero (R56, log 18); elements from E on are not stated, because
the spec leaves them undefined (log 6). A header that does not fit raises ILLEGAL. A fault at element k traps with k in
telem and vstart, the elements below k moved and vl unchanged (R123, R132); a misaligned base and a fault of the header
trap with telem 0 and leave vstart (log 18). -/
def Stmt.SpillFillResult : Prop :=
  ∀ (s : State) ord vd a imm, s.me.clean = true → s.me.hasVector = true → s.me.regOk vd s.me.ew = true →
    (aligned16 (s.me.rx a + imm) = false → ∀ ty, (ty.getD s.me.vTy).width = s.me.ew →
      ∀ i ∈ [Instr.vspill ord vd a imm, .vfill ty ord vd a imm],
        exec i s = .next (s.takeTrap s.cur s.me.pc false { cause := .datafault, tval := s.me.rx a + imm }))
    ∧ (aligned16 (s.me.rx a + imm) = true →
    let base := s.me.rx a + imm
    let f := frameForm s.me vd base
    let o := if ord = .u then none else some s.stamp
    let n := min s.me.vl s.me.mvl
    let op := s.stamp + 1
    let put := fun (s' : State) va bs => s'.writeRangeAt (s.ctxOf s.cur) .write .vls o false va bs op
    let h := put (({ s with stamp := s.stamp + 1 } : State).chargeVec s.me.ew) base
      ((leBytes 8 s.me.vsw.toNat ++ leBytes 8 0).map fun b => (b, 0xFF))
    let els := (List.range n).filter fun e => decide (s.me.vstart.toNat ≤ e)
    let r := runElems (storeOne f o op) els h.1
    let z := put r.1 (base + 16 + wordN (n * f.t.width / 8)) (framePad n f.t.width)
    (h.2 = none → r.2 = none → h.1.me = { s.me with pend := h.1.me.pend, vt := h.1.me.vt } →
      z.1.me = { s.me with pend := z.1.me.pend, vt := z.1.me.vt } →
      ∃ t, exec (.vspill ord vd a imm) s = .next t ∧ OnlyMe z.1 t
        ∧ t.me = { s.me with pend := z.1.me.pend, vt := z.1.me.vt, vstart := 0, pc := s.me.pc + 16 })
    ∧ (∀ x, h.2 = some x → exec (.vspill ord vd a imm) s
        = .next (h.1.takeTrap s.cur s.me.pc false { cause := x.1, tval := x.2 }))
    ∧ (∀ k c x, h.2 = none → h.1.me = { s.me with pend := h.1.me.pend, vt := h.1.me.vt } → r.2 = some (k, c, x) →
      let u := laterOnes ord (storeOne f o op) r.1.early k els r.1
      exec (.vspill ord vd a imm) s = .next ((u.setVstart k).takeTrap u.cur u.me.pc false
        { cause := c, tval := x, telem := wordN k }))
    ∧ (∀ x ty, (ty.getD s.me.vTy).width = s.me.ew → (s.load .vls base 8).2 = .error x →
      exec (.vfill ty ord vd a imm) s
        = .next ((s.load .vls base 8).1.takeTrap s.cur s.me.pc false { cause := x.1, tval := x.2 }))
    ∧ ∀ v ty, (ty.getD s.me.vTy).width = s.me.ew → (s.load .vls base 8).2 = .ok v →
      let s1 := (s.load .vls base 8).1
      let vt : BitVec 16 := (wordN v).extractLsb' 24 16
      let fits := legalVsw (wordN v) && vtEwCode vt == vtEwCode s.me.vtype && vtFmt vt == vtFmt s.me.vtype
        && vtGrp vt == vtGrp s.me.vtype
      let m := min (bitsN (wordN v).toNat 16 0) s.me.mvl
      let fills := (List.range m).filter fun e => decide (s.me.vstart.toNat ≤ e)
      let q := runElems (fillOne (ty.getD s.me.vTy) f) fills
        ((s1.modMe fun th => th.dirty vd th.ew).chargeVec s.me.ew)
      (fits = true → q.2 = none → s.me.grantOk = true →
        ∃ t, exec (.vfill ty ord vd a imm) s = .next t ∧ MachineKept s t
          ∧ (∀ k, k < m → t.me.elem vd s.me.ew k = q.1.me.elem vd s.me.ew k)
          ∧ t.me = { s.me with v := t.me.v, vdirty := (s.me.dirty vd s.me.ew).vdirty, vt := t.me.vt, vl := m, vstart := 0,
                               pc := s.me.pc + 16 })
      ∧ (∀ k c x, fits = true → q.2 = some (k, c, x) →
        exec (.vfill ty ord vd a imm) s = .next
          (((laterOnes ord (fillOne (ty.getD s.me.vTy) f) q.1.early k fills q.1).setVstart k).takeTrap s.cur s.me.pc false
            { cause := c, tval := x, telem := wordN k }))
      ∧ (fits = false → exec (.vfill ty ord vd a imm) s = .next (s1.takeTrap s.cur s.me.pc false
          { cause := .illegal, tval := wordN v })))

/-- Mask registers and vector registers in memory. -/
def Obligations.MaskAndSpill : Prop := Stmt.MaskMemoryResult ∧ Stmt.SpillFillResult

/-! ## Block instructions -/

/-- The element-wise E-words: integer (R153, R154), logic and shift (R155), float (R159, R160), width changes and
conversion (R156 to R158), select and indexes (R163, R164), moves (R165 to R167), table function (R172), block scale
(R174), ternary pack and unpack (R176, R177). A legal one writes the value of its table row to each active element of the
running group, keeps every other element (R31), sets vdirty (R33) and its flags (R47), and goes on to the next E-word;
no x-register, no mask, no byte of memory and no other thread changes. -/
def Obligations.EwordResult : Prop :=
  ∀ (s : State) i b r, s.me.clean = true → s.me.blk = some b → eRow s.me b i = some r → r.legal s.me = true →
    badTrit s.me b i = none →
      ∃ t, exec i s = .next t ∧ MachineKept s t ∧ t.me = r.result s.me t.me.vt

/-- Where an element-wise E-word traps: ILLEGAL for a type that its entry does not take, a misaligned or too long group,
or a cross destination that meets a source, with the word in tval, the lowest VP in telem and the address of the `VF` in
tpc (R75, R139 to R141); TERNBYTE of a `vtunpk` at the lowest illegal byte that holds an active trit, with the E-word's
address in tval, resumable when no `vpfetch` has executed (R146, R147, R177). Nothing is written. -/
def Stmt.EwordTraps : Prop :=
  ∀ (s : State) i b r, s.me.clean = true → s.me.blk = some b → eRow s.me b i = some r →
    (r.legal s.me = false → exec i s = .next (s.takeTrap s.cur b.vf false
      { cause := .illegal, tval := i.low64, telem := wordN (b.group.headD 0) }))
    ∧ ∀ j, r.legal s.me = true → badTrit s.me b i = some j →
      ∃ u, MachineKept s u ∧ u.me = { s.me with vt := u.me.vt }
        ∧ exec i s = .next (u.takeTrap s.cur b.vf (!b.diverged) { cause := .ternbyte, tval := b.epc, telem := wordN j })

/-- Compares and mask logic (R161, R162): bit e of the destination mask for each active e, every other bit kept, the
flags of a float compare; no vector register, no x-register and no byte of memory changes. -/
def Stmt.EwordMaskResult : Prop :=
  ∀ (s : State) i b r, s.me.clean = true → s.me.blk = some b → maskRow s.me i = some r → r.legal s.me = true →
    let act := eAct s.me b r.mask
    ∃ t, exec i s = .next t ∧ MachineKept s t
      ∧ t.me = ((({ s.me with vt := t.me.vt } : Thread).setMbits r.md (act.map fun k => (k, (r.val k).1))).orFlags
          (act.foldl (fun f k => f ||| (r.val k).2) 0)).advanceBlk

/-- The reductions (R64, R65, R168, R169): the result, in an integer format the same in both orders, goes to element 0 of
vd when element 0 is active, and no other element changes; under `.o` vstart is zero afterwards; a float reduction sets
the flags of its steps. -/
def Stmt.EwordReduceResult : Prop :=
  ∀ (s : State) i b r, s.me.clean = true → s.me.blk = some b → reduceRow s.me i = some r → r.ok = true → s.me.vl ≤ 8192 →
    let w := (s.me.eTy r.e).width
    ([r.e.va, r.e.vb, r.e.vd].all fun v => s.me.regOk v w) = true →
    let x := r.value s.me b
    ∃ t, exec i s = .next t ∧ MachineKept s t
      ∧ t.me = (((({ s.me with vt := t.me.vt, vstart := if r.e.f = 1 then 0 else s.me.vstart } : Thread).setElems r.e.vd w
          (if (eAct s.me b r.e).contains 0 then [(0, x.1)] else [])).dirty r.e.vd w).orFlags x.2).advanceBlk

/-- `vmeanvar` (R170) and `vbquant` (R175), the E-words with two destinations: mean and variance of the active elements
in binary64 to element 0 of vd and vc when element 0 is active; the block's scale code to each element of vc whose block
has an active member, and each active element quantised under it. No other element and no byte of memory changes. -/
def Stmt.EwordPairResult : Prop :=
  ∀ (s : State) b e, s.me.clean = true → s.me.blk = some b →
    (let t := s.me.vTy
     let w := t.width
     let act := eAct s.me b e
     let xs := (List.range s.me.vl).map fun k =>
       if act.contains k then some (decodeVal t (s.me.elem e.va w k)) else none
     let out := fun x => if act = [] then (Ty.nanPat t, fNV) else encodeVal t .rne (decodeVal .f64 x)
     let m := out (meanVar xs).1
     let v := out (meanVar xs).2
     isF t = true → ([e.va, e.vd, e.vc].all fun r => s.me.regOk r w) = true →
      ∃ u, exec (.vmeanvar e) s = .next u ∧ MachineKept s u
        ∧ u.me = (((((({ s.me with vt := u.me.vt } : Thread).setElems e.vd w (if act.contains 0 then [(0, m.1)] else [])).setElems
            e.vc w (if act.contains 0 then [(0, v.1)] else [])).dirty e.vd w).dirty e.vc w).orFlags
              ((if act = [] ∨ 0 ∈ act then m.2 ||| v.2 else 0) ||| (if act.any (fun k => sNaN (decodeVal t (s.me.elem e.va w k))) then fNV else 0))).advanceBlk)
    ∧ (let t := s.me.eTy e
       let w := t.width
       let bl := vtBlk s.me.vtype
       let act := eAct s.me b e
       let x := fun k => decodeVal .f32 (s.me.elem e.va 32 k)
       let code := fun j => quantScale t ((act.filter fun k => k / bl == j).map x)
       let q := fun k => quantElem t (s.me.eRm e) (code (k / bl)) (x k)
       t ∈ [Ty.s2, .s4, .s8, .g8, .g6] → bl ≠ 0 → w = s.me.ew → s.me.regOk e.va 32 = true → s.me.regOk e.vd w = true →
       s.me.regOk e.vc 8 = true → s.me.meet e.vd w e.vc 8 = false → s.me.meet e.vd w e.va 32 = false →
       s.me.meet e.vc 8 e.va 32 = false →
        ∃ u, exec (.vbquant e) s = .next u ∧ MachineKept s u
          ∧ u.me = (((((({ s.me with vt := u.me.vt } : Thread).setElems e.vc 8
              (((act.map (· / bl)).eraseDups).map fun j => (j, code j))).dirty e.vc 8).setElems e.vd w
              (act.map fun k => (k, (q k).1))).dirty e.vd w).orFlags
                (act.foldl (fun f k => f ||| (q k).2) 0)).advanceBlk)

/-- E-words that write a mask, reduce, or write two results. -/
def Obligations.BlockReductions : Prop := Stmt.EwordMaskResult ∧ Stmt.EwordReduceResult ∧ Stmt.EwordPairResult

/-- Block control (R18, R19, R151, R152): `vnop` goes on; `vstop` ends the running group, after which the pending group of
the lowest address runs, or with none the `VF` has completed; `vpfetch` takes the active VPs out of the running group and
adds them to the pending groups of their targets; when all leave, the pending group of the lowest address runs. A target
that is not a multiple of 16 raises FETCHFAULT with the lowest such VP in telem. -/
def Stmt.BlockControlResult : Prop :=
  ∀ (s : State) b e, s.me.clean = true → s.me.blk = some b →
    (b.group ≠ [] → ∃ t, exec (.vnop e) s = .next t ∧ OnlyMe s t
      ∧ t.me = { s.me with blk := some { b with epc := b.epc + 8 } })
    ∧ (∃ t, exec (.vstop e) s = .next t ∧ OnlyMe s t
      ∧ t.me = match b.pending with
        | [] => { s.me with blk := none, pc := b.vf + 16 }
        | (a, g) :: r => { s.me with blk := some { b with epc := wordN a, start := wordN a, group := g, pending := r } })
    ∧ ∀ i ∈ [Instr.vpfetchDirect e, .vpfetchIndirect e],
      let target := fun k => if i = .vpfetchDirect e then b.epc - (b.epc &&& 0xF) + wordI (sx 16 e.imm.toNat * 16)
        else wordN (s.me.elem e.va 64 k)
      let act := eAct s.me b e
      (i = .vpfetchIndirect e → s.me.regOk e.va 64 = true) →
      ((∀ k ∈ act, aligned16 (target k) = true) → act ≠ b.group →
        ∃ t b', exec i s = .next t ∧ MachineKept s t ∧ t.me = { s.me with vt := t.me.vt, blk := some b' }
          ∧ b'.group = b.group.filter (fun k => !act.contains k) ∧ b'.epc = b.epc + 8 ∧ b'.diverged = true
          ∧ b'.vf = b.vf ∧ b'.start = b.start
          ∧ ∀ a k, k ∈ mapGet [] b'.pending a ↔
              k ∈ mapGet [] b.pending a ∧ (k < s.me.vl ∨ ∀ j ∈ act, (target j).toNat ≠ a) ∨ k ∈ act ∧ (target k).toNat = a)
      ∧ ((∀ k ∈ act, aligned16 (target k) = true) → act = b.group → keysRise none b.pending = true →
        ∃ t p, exec i s = .next t ∧ MachineKept s t ∧ keysRise none p = true
          ∧ (∀ a k, k ∈ mapGet [] p a ↔
              k ∈ mapGet [] b.pending a ∧ (k < s.me.vl ∨ ∀ j ∈ act, (target j).toNat ≠ a) ∨ k ∈ act ∧ (target k).toNat = a)
          ∧ t.me = match p with
            | [] => { s.me with vt := t.me.vt, blk := none, pc := b.vf + 16 }
            | (a, g) :: r => { s.me with
                vt := t.me.vt, blk := some { vf := b.vf, epc := wordN a, start := wordN a, group := g, pending := r, diverged := true } })
      ∧ ∀ l k l', act = l ++ k :: l' → (∀ j ∈ l, aligned16 (target j) = true) → aligned16 (target k) = false →
        ∃ u, MachineKept s u ∧ u.me = { s.me with vt := u.me.vt }
          ∧ exec i s = .next (u.takeTrap s.cur b.vf false { cause := .fetchfault, tval := target k, telem := wordN k })

/-- Vector-fetch blocks: their start, their end and what they hint (R18, R19, R133, R147 to R149). -/
def Obligations.BlockFlow : Prop := Stmt.VectorFetchResult ∧ Stmt.BlockControlResult

/-! ## Traps, return, privilege -/

/-- `BRK` and `TRAP` (R111): each raises its cause with tval := imm and tpc := pc and has no other effect; the cause goes
to the supervisor through svec, whatever tvec holds and in either mode. -/
def Obligations.BreakAndTrap : Prop :=
  ∀ (s : State) imm, ∀ p ∈ [(Instr.brk imm, Cause.brk), (.trap imm, .trap)],
    exec p.1 s = .next (s.takeTrap s.cur s.me.pc false { cause := p.2, tval := imm })
    ∧ (aligned16 s.me.svec = true → ∃ t, exec p.1 s = .next t ∧ OnlyMe (s.drainAll s.cur) t
      ∧ SuperTrap s.me t.me s.me.pc false { cause := p.2, tval := imm })

/-- Delivery of a trap (R335, R337): NOISE and KEYTAG of a user thread with a tvec and no running handler go to the user
bank with UH := 1 and pc := tvec, or to svec as FETCHFAULT with tval := tvec where tvec is misaligned; every other trap
goes to the supervisor bank with PM := mode, supervisor mode and pc := svec; with a misaligned svec the thread stops as
under `HALT` and the RAS log names it. Every earlier write of the thread is performed and every late load bound, with its
flags in fcsr (R47, R337), block-resume is as the trap says (R147), the registers that the trap writes hold no error (R40),
and nothing else changes: no other register of the thread, no other thread, no core, cluster, die or register of the hub. -/
def Obligations.TrapDelivery : Prop :=
  ∀ (s : State) tid tpc vr t, let th := s.thread tid
    let d := s.drainAll tid
    let u := s.takeTrap tid tpc vr t
    let toUser := (t.cause = .noise ∨ t.cause = .keytag) ∧ th.tvec ≠ 0 ∧ th.sup = false ∧ th.uh = false
    let v := u.thread tid
    let rec0 : Ras := ⟨s.time, 0x0A, 3, dieNo (dieOf (cluOf tid)), tid, th.svec⟩
    let toSuper := fun (t : Trap) =>
      (aligned16 th.svec = true → { u with threads := s.threads } = { d with threads := s.threads }
        ∧ SuperTrap th v tpc vr t)
      ∧ (aligned16 th.svec = false → v.run = .halted ∧ SuperTrap th { v with run := th.run } tpc vr t
        ∧ { u with threads := s.threads, hub := d.hub } = { d with threads := s.threads }
        ∧ u.hub.rasCount = d.hub.rasCount + 1 ∧ mapFind u.hub.ras (d.hub.rasCount % 4096) = some rec0
        ∧ u.hub.fatal = (d.hub.fatal ++ [rec0]).drop (d.hub.fatal.length - 63)
        ∧ (∀ j, j ≠ d.hub.rasCount % 4096 → mapFind u.hub.ras j = mapFind d.hub.ras j)
        ∧ { u.hub with ras := d.hub.ras, rasCount := d.hub.rasCount, fatal := d.hub.fatal } = d.hub)
    SameBytes d u ∧ (∀ k, k ≠ tid → u.thread k = s.thread k)
      ∧ (toUser → aligned16 th.tvec = true → { u with threads := s.threads } = { d with threads := s.threads }
        ∧ v = { th with
            user := ⟨tpc, wordN (t.cause.code + if t.late then 256 else 0), t.tval, t.telem⟩, pc := th.tvec,
            tstatus := (th.tstatus &&& 0x15) ||| (if vr then 2 else 0) ||| 8, fcsr := th.fcsr ||| lateFlags th.late,
            pend := [], blk := none, waitm := none, holds := .nothing, late := [], resume := none, dogAt := none,
            regErr := v.regErr }
        ∧ ∀ e, e ∈ v.regErr ↔ e ∈ th.regErr ∧ ¬ trapWrites 0 e)
      ∧ (toUser → aligned16 th.tvec = false → toSuper { cause := .fetchfault, tval := th.tvec })
      ∧ (¬ toUser → toSuper t)

/-- `ERET` (R336): in supervisor mode, mode := PM and pc := supervisor.tpc; in a user-level handler, UH := 0 and pc :=
user.tpc; otherwise PROT with tval := pc. Nothing else changes, but that the return to user mode
after a WATCHDOG has been delivered restarts the task's cycle count (R327). -/
def Obligations.EretResult : Prop :=
  ∀ (s : State), s.me.clean = true →
    (s.me.sup = true → ∃ t, exec .eret s = .next t ∧ OnlyMe s t
      ∧ let restart := s.me.dogged && !s.me.tstatus.getLsbD 2
        t.me = { s.me with sup := s.me.tstatus.getLsbD 2, pc := s.me.super.tpc,
                           used := if restart then 0 else s.me.used, dogged := s.me.dogged && !restart })
    ∧ (s.me.sup = false → s.me.uh = true → ∃ t, exec .eret s = .next t ∧ OnlyMe s t
      ∧ t.me = { s.me with tstatus := s.me.tstatus &&& 0x17, pc := s.me.user.tpc })
    ∧ (s.me.sup = false → s.me.uh = false →
      exec .eret s = .next (s.takeTrap s.cur s.me.pc false { cause := .prot, tval := s.me.pc }))

/-- VABSENT (R34, R306): while tstatus.VA is 1 and the thread is in user mode, every instruction of the vector state
raises VABSENT with tval 0 before it has any effect. A type that the word names and its form does not take raises
ILLEGAL first, whatever the state (R77). -/
def Stmt.VabsentRaised : Prop :=
  ∀ (s : State) i,
    (s.me.va = true → s.me.sup = false → needsVector i = true → typeTaken i = true →
      exec i s = .next (s.takeTrap s.cur s.me.pc false { cause := .vabsent }))
    ∧ (typeTaken i = false → exec i s = .next (s.takeTrap s.cur s.me.pc false { cause := .illegal, tval := i.low64 }))

/-- ILLEGAL of vector instructions, with the low 64 bits of the word, before any effect: a vector memory instruction of a
wrong type, width or group (R75, R121, R122, R127, R131, R132), and an E-word that writes a mask, reduces, writes two
results or gathers targets, at the `VF`, with the group's lowest VP in telem (R27, R139 to R141, R161, R168 to R170,
R175). -/
def Stmt.VectorIllegal : Prop :=
  (∀ (s : State) i, s.me.hasVector = true → memLegal s.me i = some false →
    exec i s = .next (s.takeTrap s.cur s.me.pc false { cause := .illegal, tval := i.low64 }))
  ∧ ∀ (s : State) i b, s.me.blk = some b → otherLegal s.me i = some false →
    exec i s = .next (s.takeTrap s.cur b.vf false { cause := .illegal, tval := i.low64, telem := wordN (b.group.headD 0) })

/-- Where instructions trap instead of completing: misaligned scalar accesses, E-words, and vector instructions that are
illegal or without vector state (R34, R75, R77, R118, R119, R121, R122, R127, R139 to R141). -/
def Obligations.InstructionTraps : Prop :=
  Stmt.MisalignedScalar ∧ Stmt.EwordTraps ∧ Stmt.VabsentRaised ∧ Stmt.VectorIllegal

/-- The following uses of `MFS` and `MTS` fail and write nothing (R24): a number that the table of R23 does not list, and
`MTS` to a read-only register, raise ILLEGAL; an access from user mode to a supervisor register, and `MTS` from user mode
to a register that user mode only reads, raise PROT. tval is the word. -/
def Obligations.SpecialAccessFails : Prop :=
  ∀ (s : State) d a (num : BitVec 12),
    let n := num.toNat
    let fails := fun (i : Instr) (c : Cause) =>
      exec i s = .next (s.takeTrap s.cur s.me.pc false { cause := c, tval := i.low64 })
    (n ∉ [0, 1, 2, 3, 4, 5, 6, 7, 0x10, 0x20, 0x21, 0x22, 0x23, 0x24, 0x25, 0x26, 0x30, 0x31, 0x32, 0x33, 0x40, 0x50] →
      fails (.mfs d num) .illegal ∧ fails (.mts num a) .illegal)
    ∧ (n ∈ [5, 6, 0x30, 0x31, 0x32, 0x33, 0x40, 0x50] → fails (.mts num a) .illegal)
    ∧ (s.me.sup = false → n ∈ [0x20, 0x26] → fails (.mfs d num) .prot ∧ fails (.mts num a) .prot)
    ∧ (s.me.sup = false → n ∈ [4, 0x21, 0x22, 0x23, 0x24] → fails (.mts num a) .prot)

/-- The value of a special register (R23, R28, R208, R334). -/
def specialValue (s : State) (n : Nat) : Option Word :=
  let bank := if s.me.sup = true ∧ s.me.ub = false then s.me.super else s.me.user
  match n with
  | 0x00 => some (wordN s.me.vl)
  | 0x01 => some (s.me.vtype.setWidth 64)
  | 0x02 => some s.me.vstart
  | 0x03 => some s.me.vrstate
  | 0x04 => some (s.me.vdirty.setWidth 64)
  | 0x05 => some (s.me.grant.setWidth 64)
  | 0x06 => some (wordN s.me.mvl)
  | 0x07 => some (wordN (s.me.vl % 2 ^ 17 + s.me.vtype.toNat * 2 ^ 24 + s.me.dmi.toNat * 2 ^ 40
      + if s.me.dme then 2 ^ 43 else 0))
  | 0x10 => some (s.me.fcsr.setWidth 64)
  | 0x20 => some (s.me.tstatus.setWidth 64)
  | 0x21 => some bank.tcause
  | 0x22 => some bank.tval
  | 0x23 => some bank.tpc
  | 0x24 => some bank.telem
  | 0x25 => some s.me.tvec
  | 0x26 => some s.me.svec
  | 0x30 => some (wordN (s.cluster (s.cur / 32)).cycle)
  | 0x31 => some s.time
  | 0x32 => some (wordN s.cur)
  | 0x33 => some (wordN (s.cur / 4))
  | 0x40 => some s.me.rl.word
  | 0x50 => some (wordN ((s.me.region.map fun r => r.id.toNat).getD 0))
  | _ => none

/-- What a write of a special register leaves of the thread (R23, R25, R334). -/
def specialWrite (th : Thread) (n : Nat) (v : Word) : Option Thread :=
  let toSuper : Bool := th.sup && !th.ub
  let bank := fun (f : TrapBank → TrapBank) =>
    if toSuper then { th with super := f th.super } else { th with user := f th.user }
  match n with
  | 0x00 => some { th with vl := min v.toNat th.mvl }
  | 0x01 => if vtOk (v.setWidth 16) then
      some { th with vtype := v.setWidth 16, vl := min th.vl (mvlOf th.grant (v.setWidth 16)) }
    else none
  | 0x02 => some { th with vstart := v }
  | 0x03 => some { th with vrstate := v }
  | 0x04 => some { th with vdirty := v.setWidth 32 }
  | 0x07 =>
    let vt : BitVec 16 := v.extractLsb' 24 16
    if v.toNat / 2 ^ 44 = 0 ∧ v.toNat / 2 ^ 17 % 2 ^ 7 = 0 ∧ vtOk vt = true then
      some { th with vtype := vt, vl := min (v.toNat % 2 ^ 17) (mvlOf th.grant vt), dmi := v.extractLsb' 40 3,
                     dme := v.getLsbD 43 }
    else none
  | 0x10 => some { th with fcsr := v.setWidth 7 }
  | 0x20 => some { th with tstatus := v.setWidth 5 }
  | 0x21 => some (bank fun b => { b with tcause := v &&& 0x1FF })
  | 0x22 => some (bank fun b => { b with tval := v })
  | 0x23 => some (bank fun b => { b with tpc := v })
  | 0x24 => some (bank fun b => { b with telem := v })
  | 0x25 => some { th with tvec := v }
  | 0x26 => some { th with svec := v }
  | _ => none

/-- `MFS` and `MTS` where R24 and R34 let them: `MFS` reads the table's register into xd; `MTS` writes the defined fields
of one register with the effects of R25 on the vector state, and changes no other; a vtype or vsw that R25 refuses raises
ILLEGAL with the value and changes nothing. That a write of vtype takes bits [15:0] and ignores the others is the model's
reading (log 28). -/
def Obligations.SpecialRegisterResult : Prop :=
  ∀ (s : State) d a (num : BitVec 12), s.me.clean = true → (num.toNat ≤ 7 → s.me.hasVector = true) →
    let n := num.toNat
    let th := s.me
    (∀ v, specialValue s n = some v → (th.sup = true ∨ n ∉ [0x20, 0x26]) →
      ∃ t, exec (.mfs d num) s = .next t ∧ OnlyMe s t ∧ RegisterResult th t.me 16 d v 0)
    ∧ (∀ u, specialWrite th n (th.rx a) = some u → (th.sup = true ∨ n ∉ [4, 0x20, 0x21, 0x22, 0x23, 0x24, 0x26]) →
      ∃ t, exec (.mts num a) s = .next t ∧ OnlyMe s t ∧ t.me = { u with pc := th.pc + 16 })
    ∧ (n ∈ [1, 7] → specialWrite th n (th.rx a) = none →
      exec (.mts num a) s = .next (s.takeTrap s.cur th.pc false { cause := .illegal, tval := th.rx a }))

/-- `HALT`, `TLBINV` and `CFLUSH` (R223, R354, R358): `HALT` and `TLBINV` in user mode raise PROT with the word. In
supervisor mode `HALT` waits for the thread's bank operations and passes, performs its writes and stops the thread, and
answers for a context that Ciros started; `TLBINV` performs its CT writes, completes in every thread of the scope the
accesses that used a named translation, cached still or not, and drops from the core and cluster caches of the scope every
translation, or those of one page of one address space, and no other. `CFLUSH` of a
readable range performs its CT writes, takes the range's lines out of the cluster caches of its scope, and leaves every
other line and every byte. No register changes. That `CFLUSH` performs the thread's CT writes first and that `TLBINV` takes
bits [15:0] of xb are the model's readings (log 28). -/
def Obligations.CacheAndHaltResult : Prop :=
  ∀ (s : State) sc a b one imm, s.me.clean = true →
    let coreIn := fun k => match sc with
      | Scope.thr | .core => k = coreOf s.cur
      | .clu => k / 8 = cluOf s.cur
      | .die => dieOf (k / 8) = dieOf (cluOf s.cur)
      | _ => True
    let cluIn := fun k => match sc with
      | Scope.thr | .core | .clu => k = cluOf s.cur
      | .die => dieOf k = dieOf (cluOf s.cur)
      | _ => True
    let ct := s.drain s.cur (· == .ct)
    (s.me.sup = false → ∀ i ∈ [Instr.halt, .tlbinv sc a b one],
      exec i s = .next (s.takeTrap s.cur s.me.pc false { cause := .prot, tval := i.low64 }))
    ∧ (s.me.sup = true → (∀ o ∈ s.me.bg, o.failed.isSome = true) → s.me.cPend = [] →
      ∃ t, exec .halt s = .next t ∧ MachineKept (s.drainAll s.cur) t
        ∧ t.me = { s.me with pend := [], run := .halted, pc := s.me.pc + 16 }
        ∧ t.out = if s.me.ciros then s.out ++ [.halted s.cur] else s.out)
    ∧ (s.me.sup = true → ((∃ o ∈ s.me.bg, o.failed = none) ∨ s.me.cPend ≠ []) → exec .halt s = .next s)
    ∧ (s.me.sup = true → ∃ t, exec (.tlbinv sc a b one) s = .next t
      ∧ (∀ k, { t.thread k with pend := (s.thread k).pend, late := (s.thread k).late } =
          if k = s.cur then { s.me with pc := s.me.pc + 16 } else s.thread k)
      ∧ (∀ w ∈ t.me.pend, w.path ≠ .ct)
      ∧ let hit := fun (e : TlbEntry) => one = false
          ∨ e.asid = (s.me.rx b).toNat % 65536 ∧ e.page = (s.me.rx a).toNat / 2 ^ e.log
        let used := fun (p : Nat × Nat × Nat) => one = false
          ∨ p.1 = (s.me.rx b).toNat % 65536 ∧ p.2.1 = (s.me.rx a).toNat / 2 ^ p.2.2
        (∀ q, coreIn (coreOf q) → (∀ w ∈ (t.thread q).pend, ∀ p ∈ w.pages, ¬ used p)
            ∧ ∀ l ∈ (t.thread q).late, ∀ x ∈ l.parts, (∃ p ∈ x.pages, used p) → x.fixed = true)
          ∧ (∀ k, coreIn k → ∀ e, e ∈ (t.core k).tlb ↔ e ∈ (s.core k).tlb ∧ ¬ hit e)
          ∧ (∀ k, ¬ coreIn k → t.core k = s.core k)
          ∧ (∀ k, sc ≠ .core → cluIn k → ∀ e, e ∈ (t.cluster k).tlb ↔ e ∈ (s.cluster k).tlb ∧ ¬ hit e))
    ∧ (let va := s.me.rx a + imm
       let n := (s.me.rx b).toNat
       let s1 := ct.noteSpan (s.ctxOf s.cur) .read va n
       let ps := (s1.pieces (s.ctxOf s.cur) .read va n).1
       (s1.pieces (s.ctxOf s.cur) .read va n).2 = none →
        ∃ t, exec (.cflush sc a imm b) s = .next t ∧ MachineKept ct t ∧ t.me = { ct.me with pc := s.me.pc + 16 }
          ∧ ∀ k l, l ∈ (t.cluster k).lines ↔ l ∈ (s.cluster k).lines
              ∧ ¬ (cluIn k ∧ ∃ p ∈ ps, ∃ j < p.len, l.line = (p.place.pa + j) / 128))

/-! ## The ternary array and the bank units -/

/-- The issuing thread's core keeps every tile but one, both weight buffers and everything else but its translations and
its counts of vector work. -/
def TileOnly (s t : State) (acc : AccReg) : Prop :=
  MachineKept s t ∧ (t.core (coreOf s.cur)).wb = (s.core (coreOf s.cur)).wb
    ∧ ∀ k, k ≠ acc.toNat → (t.core (coreOf s.cur)).tile k = (s.core (coreOf s.cur)).tile k

/-- `TLW`, `TZERO` and `TSCALE` (R179 to R182): 13,312 bytes, each below 243, into a weight buffer, with the other buffer
kept; a zeroed tile in its mode with scales of one; the scales of a tile's column groups. No register and no byte of
memory changes. A thread without the tile takes ACCGRANT, an illegal weight byte TERNBYTE with its offset, a torus scale
outside −128 to 127 ILLEGAL, and then nothing is written. -/
def Stmt.ArraySetup : Prop :=
  ∀ (s : State) wb acc mode a imm grp, s.me.clean = true →
    let core := coreOf s.cur
    let b := if wb then 1 else 0
    let va := s.me.rx a + imm
    let held := s.me.tiles.contains acc.toNat
    let trap := fun (u : State) (t : Trap) => Host.Outcome.next (u.takeTrap s.cur s.me.pc false t)
    (s.me.tiles = [] → exec (.tlw wb a imm) s = trap s { cause := .accgrant, tval := 0xFFFFFFFFFFFFFFFF })
    ∧ (∀ bs, s.me.tiles ≠ [] → (s.readRange (s.ctxOf s.cur) .arr va 13312).2 = .ok bs → (∀ x ∈ bs, x.toNat < 243) →
      ∃ t, exec (.tlw wb a imm) s = .next t ∧ MachineKept s t ∧ t.me = { s.me with pc := s.me.pc + 16 }
        ∧ (∀ k, k < 13312 → mapGet 0 (t.core core).wb (b * 13312 + k) = bs.getD k 0)
        ∧ (∀ k, k < 13312 → mapGet 0 (t.core core).wb ((1 - b) * 13312 + k)
            = mapGet 0 (s.core core).wb ((1 - b) * 13312 + k)))
    ∧ (∀ l x l', s.me.tiles ≠ [] → (s.readRange (s.ctxOf s.cur) .arr va 13312).2 = .ok (l ++ x :: l') →
      (∀ y ∈ l, y.toNat < 243) → 243 ≤ x.toNat →
      ∃ u, MachineKept s u ∧ u.me = s.me
        ∧ exec (.tlw wb a imm) s = trap u { cause := .ternbyte, tval := wordN l.length })
    ∧ (held = false → (∀ i ∈ [Instr.tzero acc mode, .tscale acc a imm grp],
      exec i s = trap s { cause := .accgrant, tval := acc.setWidth 64 }))
    ∧ (held = true → ∃ t, exec (.tzero acc mode) s = .next t ∧ TileOnly s t acc
      ∧ t.me = { s.me with pc := s.me.pc + 16 }
      ∧ t.tile acc = { mode := mode, lastRegion := (s.tile acc).lastRegion,
                       scales := let one := if mode = .torus then 1 else 0x3F800000; [one, one, one, one] })
    ∧ ∀ bs, held = true → va.toNat % 4 = 0 →
      let n := 256 / (8 * 2 ^ grp.toNat)
      (s.readRange (s.ctxOf s.cur) .arr va (4 * n)).2 = .ok bs →
      let ws := (List.range n).map fun j => BitVec.ofNat 32 (leNat ((bs.drop (4 * j)).take 4))
      let wide := fun (w : BitVec 32) => w.toInt < -128 ∨ 127 < w.toInt
      (((s.tile acc).mode = .torus → ∀ w ∈ ws, ¬ wide w) →
        ∃ t, exec (.tscale acc a imm grp) s = .next t ∧ TileOnly s t acc ∧ t.me = { s.me with pc := s.me.pc + 16 }
          ∧ t.tile acc = { s.tile acc with group := 8 * 2 ^ grp.toNat, scales := ws })
      ∧ ((s.tile acc).mode = .torus → ∀ w, ws.find? (fun w => decide (wide w)) = some w →
        ∃ u, MachineKept s u ∧ u.me = s.me
          ∧ exec (.tscale acc a imm grp) s = trap u { cause := .illegal, tval := w.setWidth 64 })

/-- One row of activations added to one row of accumulators in the integer and torus modes (R185): each column gains the
sum of its 256 products of a trit and an activation, modulo 2^32; the other rows and the tile's other fields are kept. -/
def Obligations.ArrayRow : Prop :=
  ∀ (t : Tile) ty assoc bs r xs, t.mode ≠ .float →
    let u := t.addRow ty assoc bs r xs
    (∀ n, n < 256 → (((u.1.row r)[n]! : Nat) : Int)
      = (((t.row r)[n]! : Nat) + ((List.range 256).map fun k => wtAt bs k n * Ty.intVal ty xs[k]!).sum) % 2 ^ 32)
      ∧ (∀ q, q ≠ r → u.1.row q = t.row q) ∧ u.2 = 0 ∧ { u.1 with acc := t.acc } = t

/-- `TMMA` (R183 to R187): with the tile held, its mode matching vtype, at most 64 − row0 rows and every row readable, the
granted rows are added block by block into the tile; xc takes the granted count under `.ff`; `TSTAT`'s counts are those of
all M-blocks, with the ones before a restart that this `TMMA` had counted when it was stopped; vstart is zero, and no other
register, no other tile and no byte of memory changes. A row whose bytes hold an uncorrectable error stops it at its
M-block, with the counts so far kept (R184, R187); that the counts go on over a stop, kept by the address of the `TMMA`, is
the model's reading (log 24). A tile not held raises ACCGRANT, a mode that vtype does not select ILLEGAL with vtype in tval,
more than 64 − row0 rows ILLEGAL with xc, a failing row without `.ff`, or the first one, its cause with the row in telem, a
byte that a restore found illegal in the buffer TERNBYTE (R346), and a tag that differs from the tile's KEYTAG with the tag
(R186); then no tile and no register has changed. -/
def Stmt.TmmaResult : Prop :=
  ∀ (s : State) assoc ff acc a b c wb rb n imm, s.me.clean = true → s.me.hasVector = true →
    (s.core (coreOf s.cur)).accErr = [] →
    let i : Instr := .tmma assoc ff acc a b c wb rb n imm
    let ty := s.me.vTy
    let m := (s.me.rx c).toNat
    let row0 := 16 * rb.toNat
    let addr := fun i => s.me.rx a + imm + wordN i * s.me.rx b
    let i0 := 16 * (s.me.vstart.toNat / 16)
    let held := s.me.tiles.contains acc.toNat
    let fits := actMode ty = some (s.tile acc).mode ∧ ((s.tile acc).mode = .torus ↔ n ≠ 0)
    (held = false → exec i s = .next (s.takeTrap s.cur s.me.pc false { cause := .accgrant, tval := acc.setWidth 64 }))
    ∧ (held = true → ¬ fits → exec i s = .next (s.takeTrap s.cur s.me.pc false
        { cause := .illegal, tval := s.me.vtype.setWidth 64 }))
    ∧ (held = true → fits → 64 - row0 < m → exec i s = .next (s.takeTrap s.cur s.me.pc false
        { cause := .illegal, tval := s.me.rx c }))
    ∧ (∀ k x va, held = true → fits → m ≤ 64 - row0 → s.rowFault ty addr i0 m = some (k, x, va) → (ff = false ∨ k = i0) →
      ∃ u, MachineKept s u ∧ u.me = s.me ∧ (u.core (coreOf s.cur)).tiles = (s.core (coreOf s.cur)).tiles
        ∧ exec i s = .next (u.takeTrap s.cur s.me.pc false { cause := x, tval := va, telem := wordN k }))
    ∧ ∀ g, held = true → fits → m ≤ 64 - row0 → row0 ≤ 64 →
      (s.rowFault ty addr i0 m = none ∧ g = m ∨ ff = true ∧ ∃ k x, s.rowFault ty addr i0 m = some (k, x) ∧ i0 < k ∧ g = k) →
      let buf := if wb then 1 else 0
      let bs := (s.core (coreOf s.cur)).wbBytes buf
      let tag : BitVec 4 := (s.me.rx n).extractLsb' 32 4
      let stops := fun (t : Trap) => ∃ u, MachineKept s u ∧ u.me = s.me
        ∧ (u.core (coreOf s.cur)).tiles = (s.core (coreOf s.cur)).tiles ∧ exec i s = .next (u.takeTrap s.cur s.me.pc false t)
      (∀ o, mapFind (s.core (coreOf s.cur)).wbBad buf = some o → stops { cause := .ternbyte, tval := wordN o })
      ∧ (mapFind (s.core (coreOf s.cur)).wbBad buf = none → (s.tile acc).mode = .torus → (s.tile acc).tagValid = true →
        (s.tile acc).tag ≠ tag → stops { cause := .keytag, tval := tag.setWidth 64 })
      ∧ (mapFind (s.core (coreOf s.cur)).wbBad buf = none →
      ((s.tile acc).mode = .torus → (s.tile acc).tagValid = true → (s.tile acc).tag = tag) →
      let s0 := match s.rowFault ty addr i0 m with
        | some f => s.noteXlate (s.ctxOf s.cur) f.2.2
        | none => s
      let s1 := if (s.tile acc).mode = .torus ∧ 0 < g then s0.setTile acc ((s.tile acc).torusNote bs (s.me.rx n)) else s0
      let s2 := if ff then s1.setX c (wordN g) else s1
      let run := tmmaBlocks acc ty assoc bs (wzWord bs) row0 addr g
        ((List.range ((g + 15) / 16)).drop (i0 / 16)) (if i0 = 0 then (0, 0) else s.me.tmmaSoFar (i0 / 16)) s2
      (run.2.1 = none →
        ∃ t, exec i s = .next t ∧ TileOnly s t acc ∧ t.tile acc = run.1.tile acc
          ∧ t.me = { s.me with x := s2.me.x, fcsr := run.1.me.fcsr, vstart := 0, pc := s.me.pc + 32,
                               lastTmma := (12 + run.2.2.1, run.2.2.2, g),
                               tmmaPart := mapErase s.me.tmmaPart s.me.pc.toNat })
      ∧ ∀ b k x va, run.2.1 = some (b, k, x, va) →
        exec i s = .next (((run.1.setVstart (16 * b)).modMe fun th => { th with
          tmmaPart := mapSet th.tmmaPart th.pc.toNat (b, run.2.2) }).takeTrap s.cur s.me.pc false
            { cause := x, tval := va, telem := wordN k }))

/-- A `TMMA` completes (R183 to R186) when the thread holds the tile, its mode matches vtype, xc is at most 64 − row0, every
row from vstart on is aligned and readable, no byte holds an uncorrectable error, and in torus mode the tags agree. The
cached translations are those of the page tables, so that a row stays readable whatever the caches drop (R354). -/
def Stmt.TmmaCompletes : Prop :=
  ∀ (s : State) assoc ff acc a b c wb rb n imm, s.me.clean = true → s.me.hasVector = true →
    (s.core (coreOf s.cur)).accErr = [] → s.poison = [] → s.me.tiles.contains acc.toNat = true →
    tlbFresh s (s.ctxOf s.cur) →
    let ty := s.me.vTy
    let addr := fun (k : Nat) => s.me.rx a + imm + wordN k * s.me.rx b
    actMode ty = some (s.tile acc).mode → ((s.tile acc).mode = .torus ↔ n ≠ 0) →
    16 * rb.toNat + (s.me.rx c).toNat ≤ 64 →
    mapFind (s.core (coreOf s.cur)).wbBad (if wb then 1 else 0) = none →
    ((s.tile acc).mode = .torus → (s.tile acc).tagValid = true → (s.tile acc).tag = (s.me.rx n).extractLsb' 32 4) →
    (∀ k, 16 * (s.me.vstart.toNat / 16) ≤ k → k < (s.me.rx c).toNat → (addr k).toNat % rowAlign ty = 0
      ∧ (s.pieces (s.ctxOf s.cur) .read (addr k) (32 * ty.memWidth)).2 = none) →
      ∃ t, exec (.tmma assoc ff acc a b c wb rb n imm) s = .next t ∧ TileOnly s t acc ∧ t.me.pc = s.me.pc + 32
        ∧ t.me.vstart = 0 ∧ t.me.lastTmma.2.2 = (s.me.rx c).toNat
        ∧ (∀ r, t.me.rx r = if ff = true ∧ r = c ∧ c ≠ 0 then s.me.rx c else s.me.rx r)

/-- The matrix instruction: its result and where it completes (R183 to R187). -/
def Obligations.TmmaResult : Prop := Stmt.TmmaResult ∧ Stmt.TmmaCompletes

/-- `TSTAT` (R192): the selected word in xd, and nothing else changed; the words of a tile need the tile. -/
def Stmt.TstatResult : Prop :=
  ∀ (s : State) d acc sel col, s.me.clean = true →
    let t := s.tile acc
    let core := s.core (coreOf s.cur)
    let v := match sel.toNat with
      | 0 => s.me.lastTmma.1
      | 1 => s.me.lastTmma.2.1
      | 2 => s.me.lastTmma.2.2
      | 3 => Machine.TileMode.code t.mode + (if t.tagValid then 4 else 0) + t.tag.toNat * 16 + t.nu * 2 ^ 32
      | 4 => min (mapGet 0 t.cnt col.toNat * t.nu) (2 ^ 32 - 1)
      | _ => wzWord (core.wbBytes 0) + wzWord (core.wbBytes 1) * 2 ^ 16
    ((sel ≠ 3 ∧ sel ≠ 4) ∨ s.me.tiles.contains acc.toNat = true →
      ∃ u, exec (.tstat d acc sel col) s = .next u ∧ OnlyMe s u ∧ RegisterResult s.me u.me 16 d (wordN v) 0)
    ∧ ((sel = 3 ∨ sel = 4) → s.me.tiles.contains acc.toNat = false →
      exec (.tstat d acc sel col) s = .next (s.takeTrap s.cur s.me.pc false
        { cause := .accgrant, tval := acc.setWidth 64 }))

/-- Setting the array up and reading its state. -/
def Obligations.ArrayControl : Prop := Stmt.ArraySetup ∧ Stmt.TstatResult

/-- The value of a drained element outside torus mode (R190): the exact product of the accumulator, binary32 or a signed
32-bit integer, and the scale of its column's group, rounded once to binary32; the table function when one is applied;
one conversion to the destination; and the flags of the three. -/
def Stmt.DrainedValue : Prop :=
  ∀ (t : Tile) tab fn rm dst a c, t.mode ≠ .torus → drainTy dst = true → a < 2 ^ 32 →
    let sc := (t.scales.getD (c / t.group) 0).toNat
    ∃ y : Nat × Flags,
      (t.mode = .float → y = fMul .f32 rm a sc)
      ∧ (t.mode = .int →
        (∀ n k e, decodeVal .f32 sc = .fin n k e →
          RoundedIEEE .f32 rm (fun v => cmpVal v (.fin (decide (sx 32 a < 0) != n) ((sx 32 a).natAbs * k) e)) y)
        ∧ (∀ q, decodeVal .f32 sc = .nan q → y = (0x7FC00000, if q then 16 else 0))
        ∧ ∀ n, decodeVal .f32 sc = .inf n → y = if sx 32 a = 0 then (0x7FC00000, 16)
            else (0x7F800000 + (if decide (sx 32 a < 0) != n then 2 ^ 31 else 0), 0))
      ∧ let z := if fn = 0 then (y.1, (0 : Flags)) else vfnAt tab (decide (fn = 2)) rm (decodeVal .f32 y.1)
        let r := convert .f32 dst rm z.1
        t.drained tab fn rm dst a c = (r.1, r.2 ||| z.2 ||| y.2)

/-- One drained element (R190): accumulator (row, column) through scale, table and conversion, stored on path VLS; the
elements of a row that lie in one line form one write (R226). -/
def drainOne (s0 : State) (acc : AccReg) (row0 : Nat) (fn : Nat) (tb : TbReg) (rowA : Nat → Word) (s : State) (k : Nat) :
    State × Option (Cause × Word) :=
  let n := s0.me.vTy.width / 8
  let va := rowA (k / 256) + wordN (k % 256 * n)
  let y := (s0.tile acc).drained (s0.me.fnTable tb) fn (vtRm s0.me.vtype) s0.me.vTy
    (mapGet 0 (s0.tile acc).acc ((row0 + k / 256) * 256 + k % 256)).toNat (k % 256)
  if va.toNat % n ≠ 0 then (s, some (.datafault, va))
  else
    let r := s.writeRangeAt (s.ctxOf s.cur) .write .vls (some s0.stamp) false va ((leBytes n y.1).map fun b => (b, 0xFF))
      (s0.stamp + 2 + k / 256)
    if r.2 = none then (r.1.modMe fun th => { th with fcsr := th.fcsr ||| y.2 }, none) else r

/-- `TDRAIN` and `TDRAINX` of a tile outside torus mode (R189, R190): the rows' active columns from vstart on, in order,
each stored at its address; then vstart is zero. A fault at element k traps with k in telem and vstart. What the stores
leave as it was is the statement `DrainCompletes`. -/
def Stmt.DrainResult : Prop :=
  ∀ (s : State) acc a b vb imm mk (row0 : BitVec 6) (rows : BitVec 7) fn tb, s.me.clean = true → s.me.hasVector = true →
    s.me.tiles.contains acc.toNat = true → (s.core (coreOf s.cur)).accErr = [] → (s.tile acc).mode ≠ .torus →
    drainTy s.me.vTy = true →
    let base := s.me.rx a + imm
    ∀ p ∈ [(Instr.tdrain acc a b imm mk row0 rows fn tb 0, fun i => base + wordN i * s.me.rx b),
        (.tdrainx acc a vb imm mk row0 rows fn tb 0, fun i => base + wordI (sx 32 (s.me.elem vb 32 i)))],
      (p.1 = .tdrainx acc a vb imm mk row0 rows fn tb 0 → s.me.regOk vb 32 = true ∧ rows.toNat ≤ s.me.mvl) →
      let els := (List.range (rows.toNat * 256)).filter fun k =>
        decide (s.me.vstart.toNat ≤ k) && s.me.active mk (k % 256)
      let r := runElems (drainOne s acc row0.toNat fn.toNat tb p.2) els { s with stamp := s.stamp + 1 + rows.toNat }
      (r.2 = none → r.1.me.clean = true → ∃ t, exec p.1 s = .next t ∧ OnlyMe r.1 t
        ∧ t.me = { r.1.me with vstart := 0, pc := r.1.me.pc + 32 })
      ∧ ∀ k c x, r.2 = some (k, c, x) → exec p.1 s = .next ((r.1.setVstart k).takeTrap
          r.1.cur r.1.me.pc false { cause := c, tval := x, telem := wordN k })

/-- The noise vector of a torus drain (R191) and the drained words (R190): entered at vstart 0, it raises KEYTAG when the
tile's slot is unbound and NOISE with the largest noise and its first column when a ceiling is passed; otherwise it
stores one noise word for each active column at xh + 4c and then the words, accumulator times scale modulo 2^32. -/
def Stmt.TorusDrainResult : Prop :=
  ∀ (s : State) acc a b imm mk (row0 : BitVec 6) (rows : BitVec 7) tb h, s.me.clean = true → s.me.hasVector = true →
    s.me.tiles.contains acc.toNat = true → (s.core (coreOf s.cur)).accErr = [] → (s.tile acc).mode = .torus →
    s.me.vTy = .t32 → h ≠ 0 → s.me.vstart = 0 →
    let i : Instr := .tdrain acc a b imm mk row0 rows 0 tb h
    let t := s.tile acc
    let cols := (List.range 256).filter fun c => s.me.active mk c
    let top := (cols.map t.noiseOf).foldl max 0
    let slot := mapFind (s.cluster (cluOf s.cur)).keys t.tag.toNat
    let s1 : State := { s with stamp := s.stamp + 1 + rows.toNat }
    let trap := fun (u : State) (t : Trap) => Host.Outcome.next (u.takeTrap s.cur s.me.pc false t)
    let put := fun (s' : State) (va : Word) (x : Nat) => if va.toNat % 4 ≠ 0 then (s', some (Cause.datafault, va))
      else s'.writeRangeAt (s'.ctxOf s'.cur) .write .vls (some s.stamp) false va ((leBytes 4 x).map fun b => (b, 0xFF))
        (s.stamp + 1)
    (∀ tab rm x c, t.drained tab 0 rm .t32 x c = (x * wrapI 32 (t.scale c).toInt % 2 ^ 32, 0))
    ∧ (t.tagValid = true → slot = none → exec i s = trap s { cause := .keytag, tval := t.tag.setWidth 64 })
    ∧ (∀ k, t.tagValid = true → slot = some k → k.ceil.toNat < top → exec i s = trap s1
        { cause := .noise, tval := wordN top,
          telem := wordN ((cols.find? fun c => decide (t.noiseOf c = top)).getD 0) })
    ∧ ((t.tagValid = true → ∃ k, slot = some k ∧ top ≤ k.ceil.toNat) →
      let r := runElems (fun s' c => put s' (s.me.rx h + wordN (4 * c)) (t.noiseOf c)) cols s1
      let q := runElems (drainOne s acc row0.toNat 0 tb fun i => s.me.rx a + imm + wordN i * s.me.rx b)
        ((List.range (rows.toNat * 256)).filter fun k => s.me.active mk (k % 256)) r.1
      r.2 = none → q.2 = none → MachineKept s r.1 → { r.1.me with pend := s.me.pend } = s.me →
        MachineKept s q.1 → { q.1.me with pend := s.me.pend } = s.me →
        ∃ u, exec i s = .next u ∧ OnlyMe q.1 u ∧ u.me = { q.1.me with vstart := 0, pc := s.me.pc + 32 })

/-- A write of n bytes reaches the package's memory and nothing else. -/
def storable (s : State) (va : Word) (n : Nat) : Prop :=
  (s.pieces (s.ctxOf s.cur) .write va n).2 = none
    ∧ ∀ p ∈ (s.pieces (s.ctxOf s.cur) .write va n).1, s.physRow p.place.pa = .hbm ∨ s.physRow p.place.pa = .sram

/-- `TDRAIN` and `TDRAINX` complete (R189 to R191) when every active element from vstart on has an aligned place in the
package's memory and, in torus mode entered at vstart 0, the tile's slot is bound, no ceiling is passed and the noise words
have their places. They keep every tile and weight buffer, every register but vstart and, outside torus mode, the flags,
and every byte that another party reads. The cached translations are those of the page tables (R354). -/
def Stmt.DrainCompletes : Prop :=
  ∀ (s : State) acc a b vb imm mk (row0 : BitVec 6) (rows : BitVec 7) (fn : BitVec 2) tb h, s.me.clean = true →
    s.me.hasVector = true → s.me.tiles.contains acc.toNat = true → (s.core (coreOf s.cur)).accErr = [] →
    tlbFresh s (s.ctxOf s.cur) →
    let t := s.tile acc
    let torus := t.mode = .torus
    let n := s.me.vTy.width / 8
    let base := s.me.rx a + imm
    let cols := (List.range 256).filter fun c => s.me.active mk c
    (if torus then s.me.vTy = .t32 ∧ fn = 0 ∧ h ≠ 0 else drainTy s.me.vTy = true ∧ h = 0) →
    (torus → s.me.vstart = 0 → (t.tagValid = true → ∃ k, mapFind (s.cluster (cluOf s.cur)).keys t.tag.toNat = some k
        ∧ ∀ c ∈ cols, t.noiseOf c ≤ k.ceil.toNat)
      ∧ ∀ c ∈ cols, (s.me.rx h + wordN (4 * c)).toNat % 4 = 0 ∧ storable s (s.me.rx h + wordN (4 * c)) 4) →
    ∀ p ∈ [(Instr.tdrain acc a b imm mk row0 rows fn tb h, fun i => base + wordN i * s.me.rx b),
        (.tdrainx acc a vb imm mk row0 rows fn tb h, fun i => base + wordI (sx 32 (s.me.elem vb 32 i)))],
      (p.1 = .tdrainx acc a vb imm mk row0 rows fn tb h → s.me.regOk vb 32 = true ∧ rows.toNat ≤ s.me.mvl) →
      (∀ i c, i < rows.toNat → c ∈ cols → s.me.vstart.toNat ≤ 256 * i + c →
        (p.2 i + wordN (c * n)).toNat % n = 0 ∧ storable s (p.2 i + wordN (c * n)) n) →
        ∃ u, exec p.1 s = .next u ∧ MachineKept s u ∧ (u.core (coreOf s.cur)).tiles = (s.core (coreOf s.cur)).tiles
          ∧ (u.core (coreOf s.cur)).wb = (s.core (coreOf s.cur)).wb
          ∧ { u.me with pend := s.me.pend, fcsr := s.me.fcsr } = { s.me with vstart := 0, pc := s.me.pc + 32 }
          ∧ (torus → u.me.fcsr = s.me.fcsr)

/-- Draining the array, plain and in the torus, what a drain writes, and where it completes. -/
def Obligations.Drains : Prop := Stmt.DrainedValue ∧ Stmt.DrainResult ∧ Stmt.TorusDrainResult ∧ Stmt.DrainCompletes

/-- The operation that a `BGEMV` starts, R193. -/
def bgemvOp (s : State) (a b c : XReg) (k n : BitVec 16) (bv : BitVec 4) (astr ostr : BitVec 32) : BgOp :=
  { ticket := s.me.tickets + 1, w := s.me.rx a, x := s.me.rx b, y := s.me.rx c, k := k.toNat, n := n.toNat, b := bv.toNat,
    astr := astr.toNat, ostr := ostr.toNat, ctx := s.ctxOf s.cur }

/-- The product of a `BGEMV` (R193, R292): output n of vector j is the sum over k of the weight's trit times the s8
activation, modulo 2^32, where the trit of row k and column n is digit n mod 5 of its byte in the 52-byte row k of tile n
div 256; vector after vector is written at xc + j × os, four bytes an output. Of one vector whose outputs lie in one page of
HBM4 the bytes stand in memory afterwards and no other byte has changed. The operation runs at its completion (log 20). -/
def Stmt.BankProduct : Prop :=
  ∀ (s : State) (o : BgOp) bs,
    let r := s.readPrefix o.ctx .bnk o.w o.wBytes
    r.2.1 = bs → r.2.2 = none → r.1.notTern o = none → (∀ x ∈ bs, x.toNat < 243) →
    let sum := fun (x : Nat → Nat) n => ((List.range o.k).map fun k =>
      tritOf (bs.getD (52 * (n / 256 * o.k + k) + n % 256 / 5) 0).toNat (n % 256 % 5) * sx 8 (x k)).sum
    (∀ u xs, r.1.readActs o (List.range o.b) = (u, .ok xs) →
      ∃ outs, s.runBg o = u.writeOuts o outs ∧ outs.length = xs.length
        ∧ ∀ j, j < xs.length → (outs.getD j (0, [])).1 = j ∧ (outs.getD j (0, [])).2.length = 4 * o.n
          ∧ ∀ n, n < o.n → ((leNat (((outs.getD j (0, [])).2.drop (4 * n)).take 4) : Nat) : Int)
            = sum (fun k => (xs.getD j #[])[k]!) n % 2 ^ 32)
    ∧ ∀ u x p, o.b = 1 → r.1.readRange o.ctx .bnk o.x o.k = (u, .ok x) → 0 < o.n → o.y.toNat % 65536 + 4 * o.n ≤ 65536 →
      u.xlate o.ctx .write o.y = .ok p → u.physRow p.pa = .hbm →
      (s.runBg o).2 = none
        ∧ (∀ n, n < o.n → (((s.runBg o).1.readPhys (p.pa + 4 * n) 4 : Nat) : Int)
            = sum (fun k => (x.getD k 0).toNat) n % 2 ^ 32)
        ∧ ∀ a, a < p.pa ∨ p.pa + 4 * o.n ≤ a → (s.runBg o).1.byte a = u.byte a

/-- `BGEMV`, its completion and `BWAIT` (R193, R194, R278): the operation is issued with the next ticket in xd, unless an
operand range meets the cluster-local window (PROT with its first byte there), the output is misaligned or a first byte
faults. That a misaligned output is DATAFAULT at issue is log 27, and that the three ranges at xa, xb and xc are the ones
translated there log 48. A completing operation leaves the thread's list, or stays in it as failed; what its accesses leave is their own
(log 20); one that meets an illegal weight byte writes nothing (R62). `BWAIT` goes on when no covered operation is left, waits while one is in flight, and reports the first failed
one once, late, with its ticket in telem. -/
def Stmt.BankCommands : Prop :=
  ∀ (s : State) d a b c k n bv astr ostr, s.me.clean = true →
    let o := bgemvOp s a b c k n bv astr ostr
    let i : Instr := .bgemv d a b c k n bv astr ostr
    let last := if s.me.rx a = 0 then s.me.tickets else (s.me.rx a).toNat
    let ops := s.me.bg.filter fun o => o.ticket ≤ last
    (∀ r l l', o.ranges = l ++ r :: l' → (∀ q ∈ l, meetsWindow q.1 q.2 = none) → ∀ w, meetsWindow r.1 r.2 = some w →
      exec i s = .next (s.takeTrap s.cur s.me.pc false { cause := .prot, tval := w }))
    ∧ ((∀ q ∈ o.ranges, meetsWindow q.1 q.2 = none) →
      (o.y.toNat % 4 ≠ 0 → exec i s = .next (s.takeTrap s.cur s.me.pc false { cause := .datafault, tval := o.y }))
      ∧ (o.y.toNat % 4 = 0 → (s.pieces o.ctx .read o.w 1).2 = none → (s.pieces o.ctx .read o.x 1).2 = none →
        (s.pieces o.ctx .write o.y 1).2 = none → ∃ t, exec i s = .next t ∧ MachineKept s t
          ∧ t.me = { s.me.wx d (wordN o.ticket) with tickets := o.ticket, bg := s.me.bg ++ [o], pc := s.me.pc + 32 }))
    ∧ (∀ tid p, (s.thread tid).bg.find? (fun q => q.ticket == p.ticket && q.failed.isNone) = some p →
      ((s.runBg p).2 = none → ∃ t, exec (.bgemvCompletion tid p.ticket) s = .next t
        ∧ { t with threads := (s.runBg p).1.threads } = (s.runBg p).1
        ∧ t.thread tid = { (s.runBg p).1.thread tid with
            bg := ((s.runBg p).1.thread tid).bg.filter fun q => decide (q.ticket ≠ p.ticket) })
      ∧ ∀ x, (s.runBg p).2 = some x → ∃ t, exec (.bgemvCompletion tid p.ticket) s = .next t
        ∧ (∀ q ∈ (t.thread tid).bg, q.ticket = p.ticket → q.failed = some x)
        ∧ (x.1 = .ternbyte → SameBytes (s.runBg p).1 t))
    ∧ (ops = [] → ∃ t, exec (.bwait a) s = .next t ∧ JumpTo s t (s.me.pc + 16))
    ∧ ((∃ o ∈ ops, o.failed = none) → exec (.bwait a) s = .next s)
    ∧ ∀ p l x, ops = p :: l → (∀ q ∈ ops, q.failed ≠ none) → p.failed = some x →
      exec (.bwait a) s = .next ((s.modMe fun th => { th with bg := th.bg.filter fun q => decide (q.ticket ≠ p.ticket) }).takeTrap
        s.cur s.me.pc false { cause := x.1, tval := x.2, telem := wordN p.ticket, late := true })

/-- The bank units: what a `BGEMV` computes, and its issue, completion and wait (R62, R193, R194, R278, R292). -/
def Obligations.BankUnitResult : Prop := Stmt.BankProduct ∧ Stmt.BankCommands

/-! ## Ciphertexts, keysets, tables, the Coppice -/

/-- None of the registers is pending or holds the fault of a failed pass (R198, R205). -/
def cipherFree (th : Thread) (rs : List CReg) : Prop :=
  ∀ r ∈ rs, r.toNat ∉ th.cPend ∧ ∀ f ∈ th.cFail, f.1 ≠ r.toNat

/-- The ciphertext instructions of R197: registers read or written, destination, and the result or the trap. KEYTAG names
the tags or the slot; NOISE names the word that would pass the ceiling of the bound slot. -/
def cipherRow (s : State) : Instr → Option (List CReg × CReg × Except Trap Cipher)
  | .czero cd ks => some ([cd], cd, match s.slot ks.toNat with
      | none => .error { cause := .keytag, tval := ks.setWidth 64 }
      | some k => .ok { words := List.replicate (k.n + 1) 0, noise := 0, tag := ks, dim := BitVec.ofNat 10 k.n })
  | .cmov cd cs => some ([cd, cs], cd, .ok (s.me.cipher cs))
  | .cadd cd ca cb => some ([cd, ca, cb], cd, sum ca cb (· + ·))
  | .csub cd ca cb => some ([cd, ca, cb], cd, sum ca cb (· - ·))
  | .cneg cd cs => some ([cd, cs], cd, .ok { s.me.cipher cs with words := (s.me.cipher cs).words.map fun w => 0 - w })
  | .cmulk cd cs b imm =>
    let k : BitVec 32 := (s.me.rx b + imm).setWidth 32
    let x := s.me.cipher cs
    some ([cd, cs], cd, check { x with words := x.words.map fun w => k * w }
      (min (x.noise.toNat * (k.toInt * k.toInt).toNat) (2 ^ 32 - 1)))
  | .caddk cd cs b imm =>
    let x := s.me.cipher cs
    let k : BitVec 32 := (s.me.rx b + imm).setWidth 32
    some ([cd, cs], cd, .ok { x with words := x.words.dropLast ++ (x.words.getLast?.map (· + k)).toList })
  | .cnraise cd b => some ([cd], cd, check (s.me.cipher cd)
      (max (s.me.cipher cd).noise.toNat ((s.me.rx b).toNat % 2 ^ 32)))
  | _ => none
where
  /-- The slot of the result's tag is bound and its noise keeps the ceiling. -/
  check (c : Cipher) (noise : Nat) : Except Trap Cipher :=
    match s.slot c.tag.toNat with
    | none => .error { cause := .keytag, tval := c.tag.setWidth 64 }
    | some k =>
      if k.ceil.toNat < noise then .error { cause := .noise, tval := wordN noise }
      else .ok { c with noise := BitVec.ofNat 32 noise }
  /-- Sum or difference of two ciphertexts of one tag and dimension. -/
  sum (ca cb : CReg) (f : BitVec 32 → BitVec 32 → BitVec 32) : Except Trap Cipher :=
    let x := s.me.cipher ca
    let y := s.me.cipher cb
    if x.tag = y.tag ∧ x.dim = y.dim then
      check { x with words := List.zipWith f x.words y.words } (min (x.noise.toNat + y.noise.toNat) (2 ^ 32 - 1))
    else .error { cause := .keytag, tval := wordN (x.tag.toNat * 16 + y.tag.toNat) }

/-- The ciphertext instructions (R197, R198): the result in its register, or the trap with nothing written; no other
register, no memory and no other thread changes. One that names a pending register waits; `CNOISE` writes noise, tag and
dimension into xd. -/
def Obligations.CipherResult : Prop :=
  ∀ (s : State), s.me.clean = true →
    (∀ i rs cd r, cipherRow s i = some (rs, cd, r) →
      (cipherFree s.me rs → match r with
        | .ok c => ∃ t, exec i s = .next t ∧ OnlyMe s t ∧ (∀ q, t.me.cipher q = if q = cd then c else s.me.cipher q)
            ∧ { t.me with c := s.me.c } = { s.me with pc := s.me.pc + 16 }
        | .error x => exec i s = .next (s.takeTrap s.cur s.me.pc false x))
      ∧ ((∃ r ∈ rs, r.toNat ∈ s.me.cPend) → exec i s = .next s))
    ∧ ∀ d cs, cipherFree s.me [cs] → ∃ t, exec (.cnoise d cs) s = .next t ∧ OnlyMe s t
      ∧ RegisterResult s.me t.me 16 d (wordN ((s.me.cipher cs).noise.toNat + (s.me.cipher cs).tag.toNat * 2 ^ 32
          + (s.me.cipher cs).dim.toNat * 2 ^ 36)) 0

/-- A descriptor passes every check of R195. -/
def descriptorOk (f : Nat → Nat → Nat) (zero : Bool) : Prop :=
  f 0 8 ≠ 0 ∧ f 0 8 % 64 = 0 ∧ f 8 8 ≠ 0 ∧ f 8 8 % 64 = 0 ∧ f 28 2 = 768 ∧ f 30 2 = 2048 ∧ f 32 1 = 1 ∧ zero = true
    ∧ f 20 4 ≠ 0 ∧ f 16 4 ≤ f 20 4

/-- `KSET` (R195, R278): it waits while a drove is on the slot; DATAFAULT for an address that is no multiple of 64; PROT
for a descriptor or a key in the cluster-local window, with the first byte there; a fault of the descriptor's read;
ILLEGAL with the address for a descriptor that fails a check; otherwise the slot holds the descriptor's values. -/
def Stmt.KeysetResult : Prop :=
  ∀ (s : State) ks a imm, s.me.clean = true →
    let va := s.me.rx a + imm
    let ctx := s.ctxOf s.cur
    let r := s.readRange ctx .cop va 256
    let free := (s.cluster (cluOf s.cur)).slotBusy ks.toNat = false
    let trap := fun (u : State) (t : Trap) => exec (.kset ks a imm) s = .next (u.takeTrap s.cur s.me.pc false t)
    ((s.cluster (cluOf s.cur)).slotBusy ks.toNat = true → exec (.kset ks a imm) s = .next s)
    ∧ (free → va.toNat % 64 ≠ 0 → trap s { cause := .datafault, tval := va })
    ∧ (free → va.toNat % 64 = 0 → ∀ w, meetsWindow va 256 = some w → trap s { cause := .prot, tval := w })
    ∧ (free → va.toNat % 64 = 0 → meetsWindow va 256 = none →
      (∀ x, r.2 = .error x → trap r.1 { cause := x.1, tval := x.2 })
      ∧ ∀ bs, r.2 = .ok bs →
        let f := fun off n => leNat ((bs.drop off).take n)
        let ok := descriptorOk f ((bs.drop 33).all fun x => x == 0)
        let bk := wordN (f 0 8)
        let ksk := wordN (f 8 8)
        (¬ ok → trap r.1 { cause := .illegal, tval := va })
        ∧ (ok → ∀ w, meetsWindow bk 150994944 = some w → trap r.1 { cause := .prot, tval := w })
        ∧ (ok → meetsWindow bk 150994944 = none → ∀ w, meetsWindow ksk 75595776 = some w →
          trap r.1 { cause := .prot, tval := w })
        ∧ (ok → meetsWindow bk 150994944 = none → meetsWindow ksk 75595776 = none →
          ∃ t, exec (.kset ks a imm) s = .next t ∧ MachineKept s t ∧ t.me = { s.me with pc := s.me.pc + 16 }
            ∧ (t.cluster (cluOf s.cur)).keys = mapSet (s.cluster (cluOf s.cur)).keys ks.toNat
              { bk := bk, ksk := ksk, fresh := BitVec.ofNat 32 (f 16 4), ceil := BitVec.ofNat 32 (f 20 4), n := 768,
                ctx := ctx }))

/-- `CLD` and `CST` (R196, R278): a load takes header and words of an image into the register, a store writes the image
and changes no register. DATAFAULT for an address that is no multiple of 16, PROT for an image in the cluster-local
window, a fault of a byte, and for a load ILLEGAL with the first 8 header bytes where a reserved bit is set, leave the
registers as they were. -/
def Stmt.CipherImages : Prop :=
  ∀ (s : State) cr a imm, s.me.clean = true → cipherFree s.me [cr] →
    let va := s.me.rx a + imm
    let ctx := s.ctxOf s.cur
    let trap := fun (i : Instr) (u : State) (t : Trap) => exec i s = .next (u.takeTrap s.cur s.me.pc false t)
    let cld : Instr := .cld cr a imm
    let cst : Instr := .cst cr a imm
    let h := s.readRange ctx .cop va 16
    let x := s.me.cipher cr
    let image := leBytes 2 x.dim.toNat ++ leBytes 2 x.tag.toNat ++ leBytes 4 x.noise.toNat ++ leBytes 8 0
      ++ x.words.flatMap fun w => leBytes 4 w.toNat
    let r := s.writeRangeAt ctx .write .cop none false va (image.map fun b => (b, 0xFF))
    (va.toNat % 16 ≠ 0 → trap cld s { cause := .datafault, tval := va } ∧ trap cst s { cause := .datafault, tval := va })
    ∧ (va.toNat % 16 = 0 →
      (∀ w, meetsWindow va 16 = some w → trap cld s { cause := .prot, tval := w })
      ∧ (∀ w, meetsWindow va image.length = some w → trap cst s { cause := .prot, tval := w })
      ∧ (meetsWindow va 16 = none → ∀ e, h.2 = .error e → trap cld h.1 { cause := e.1, tval := e.2 })
      ∧ (∀ hb, meetsWindow va 16 = none → h.2 = .ok hb →
        let bad := leNat hb / 2 ^ 10 % 2 ^ 6 ≠ 0 ∨ leNat hb / 2 ^ 20 % 2 ^ 12 ≠ 0 ∨ leNat hb / 2 ^ 64 % 2 ^ 64 ≠ 0
        let n := leNat hb % 1024
        let ws := h.1.readRange ctx .cop (va + 16) (4 * (n + 1))
        (bad → trap cld h.1 { cause := .illegal, tval := wordN (leNat hb) })
        ∧ (¬ bad → ∀ w, meetsWindow va (16 + 4 * (n + 1)) = some w → trap cld h.1 { cause := .prot, tval := w })
        ∧ (¬ bad → meetsWindow va (16 + 4 * (n + 1)) = none →
          (∀ e, ws.2 = .error e → trap cld ws.1 { cause := e.1, tval := e.2 })
          ∧ ∀ bs, ws.2 = .ok bs → ∃ t, exec cld s = .next t ∧ MachineKept s t
            ∧ { t.me with c := s.me.c } = { s.me with pc := s.me.pc + 16 }
            ∧ ∀ q, t.me.cipher q = if q = cr then
                { words := (List.range (n + 1)).map fun i => BitVec.ofNat 32 (leNat ((bs.drop (4 * i)).take 4)),
                  noise := BitVec.ofNat 32 (leNat hb / 2 ^ 32), tag := BitVec.ofNat 4 (leNat hb / 2 ^ 16),
                  dim := BitVec.ofNat 10 n } else s.me.cipher q))
      ∧ (meetsWindow va image.length = none → (∀ e, r.2 = some e → trap cst r.1 { cause := e.1, tval := e.2 })
        ∧ (r.2 = none → r.1.me.clean = true →
          ∃ t, exec cst s = .next t ∧ OnlyMe r.1 t ∧ t.me = { r.1.me with pc := r.1.me.pc + 16 })))

/-- The header that `TBSET` writes for a function: lo, hi, below and above of R207 as binary32. -/
def tableHeads : List (BitVec 32 × BitVec 32 × BitVec 32 × BitVec 32) := [
  (0xC3000000, 0x42FE0000, 0xFF800000, 0x7F800000), (0xBF800000, 0x3F800000, 0xBF800000, 0x3F800000),
  (0xBF800000, 0x40DF0000, 0x00000000, 0x40C00000), (0xC2000000, 0x41FE0000, 0x00000000, 0x7F800000),
  (0x00000000, 0x437F0000, 0x7FC00000, 0x7F800000), (0xC1000000, 0x40FE0000, 0x80000000, 0x00000000),
  (0x00000000, 0x427F0000, 0x7FC00000, 0x00000000), (0xC1800000, 0x417E0000, 0x00000000, 0x3F800000),
  (0xC1000000, 0x40FE0000, 0xBF800000, 0x3F800000), (0xC1000000, 0x40FE0000, 0x80000000, 0x7F800000),
  (0xC1800000, 0x417E0000, 0x80000000, 0x7F800000)]

/-- m of R207 before its clamp, for a whole x, with h = 2^(p−1) above the clamp in place of +∞ and −h of −∞: f(x) of each
function rounded to the nearest integer, ties to even. -/
def tableMessage (fn : Nat) (h x : Int) : Int :=
  match fn with
  | 0 => x
  | 1 | 8 => if x < 0 then -1 else if x = 0 then 0 else 1
  | 2 => min (max x 0) 6
  | 3 => if x < 0 then 0 else 2 ^ x.toNat
  | 4 => if x < 0 then 0 else if x = 0 then -h else (Nat.log2 (2 * x.natAbs * x.natAbs) / 2 : Nat)
  | 5 => if x = 0 then h else if x.natAbs = 1 then x else 0
  | 6 => if x < 0 then 0 else if x = 0 then h else if x ≤ 3 then 1 else 0
  | 7 => if 0 < x then 1 else 0
  | _ => max x 0

/-- `TBLD`, `TBST` and `TBSET` (R206, R207): a load fills the 264 words of the table, a store writes them; a misaligned
address or a faulting byte raises its cause with the tables unchanged. `TBSET` writes the header, the scales 1, 0 and 1 and
word 7; in the torus form the clamped messages at their place below the padding bit; in the plaintext form the knots, of
which identity, sign and crelu are exact, recip is rounded once to nearest, and 2^x, log2 x and 1/√x have the values given
here where these are exact or infinite. The other knots of 3, 4 and 6 to 10 are the model's `fnAt`, not stated. -/
def Stmt.TableMoves : Prop :=
  ∀ (s : State) tb torus fn p a imm, s.me.clean = true →
    let va := s.me.rx a + imm
    let ld := s.readRange (s.ctxOf s.cur) .vls va 1056
    let st := s.writeRangeAt (s.ctxOf s.cur) .write .vls none false va
      (((List.range 264).flatMap fun i => leBytes 4 (s.me.tbWord tb i).toNat).map fun b => (b, 0xFF))
    let trap := fun (i : Instr) (u : State) (t : Trap) => exec i s = .next (u.takeTrap s.cur s.me.pc false t)
    let others := fun (t : State) => (∀ q i, q ≠ tb → i < 264 → t.me.tbWord q i = s.me.tbWord q i)
      ∧ { t.me with tb := s.me.tb } = { s.me with pc := s.me.pc + 16 }
    (va.toNat % 32 ≠ 0 → trap (.tbld tb a imm) s { cause := .datafault, tval := va }
      ∧ trap (.tbst tb a imm) s { cause := .datafault, tval := va })
    ∧ (va.toNat % 32 = 0 →
      (∀ e, ld.2 = .error e → trap (.tbld tb a imm) ld.1 { cause := e.1, tval := e.2 })
      ∧ (∀ bs, ld.2 = .ok bs → ∃ t, exec (.tbld tb a imm) s = .next t ∧ MachineKept s t ∧ others t
        ∧ ∀ i, i < 264 → t.me.tbWord tb i = BitVec.ofNat 32 (leNat ((bs.drop (4 * i)).take 4)))
      ∧ (∀ e, st.2 = some e → trap (.tbst tb a imm) st.1 { cause := e.1, tval := e.2 })
      ∧ (st.2 = none → st.1.me.clean = true →
        ∃ t, exec (.tbst tb a imm) s = .next t ∧ OnlyMe st.1 t ∧ t.me = { st.1.me with pc := st.1.me.pc + 16 }))
    ∧ ∃ t, exec (.tbset tb torus fn p) s = .next t ∧ OnlyMe s t ∧ others t
      ∧ let w := fun i => t.me.tbWord tb i
        let is := fun (i : Nat) (v : FVal) => ∃ x, placed .f32 (w (8 + i)).toNat = some x ∧ cmpVal x v = 0
        let q := p.toNat
        let h : Int := 2 ^ (q - 1)
        (∀ k, tableHeads[fn.toNat]? = some k → (w 0, w 1, w 2, w 3) = k)
        ∧ w 4 = 0x3F800000 ∧ w 5 = 0 ∧ w 6 = 0x3F800000 ∧ w 7 = (if torus then BitVec.ofNat 32 q else 0)
        ∧ (torus = true → fn.toNat ≤ 10 → 1 ≤ q → q ≤ 6 → ∀ i : Nat, i < 256 → w (8 + i) = if 2 ^ q ≤ i then 0
            else BitVec.ofInt 32 (min (max (tableMessage fn.toNat h (if (i : Int) < h then i else i - 2 ^ q)) (-h)) (h - 1)
              % 2 ^ q * 2 ^ (31 - q)))
        ∧ (torus = false → ∀ i : Nat, i < 256 →
          (fn = 0 → is i (intOf ((i : Int) - 128)))
          ∧ (fn = 1 → is i (intOf (if i < 128 then -1 else 1)))
          ∧ (fn = 2 → is i (.fin false (min (i - 32) 192) (-5)))
          ∧ (fn = 3 → i % 4 = 0 → is i (powOf false ((i : Int) / 4 - 32)))
          ∧ (fn = 4 → (i = 0 → w 8 = 0xFF800000) ∧ ∀ e : Nat, i = 2 ^ e → is i (intOf e))
          ∧ (fn = 5 → (i = 128 → w 136 = 0x7F800000) ∧ (i ≠ 128 → ∃ v, placed .f32 (w (8 + i)).toNat = some v
              ∧ RoundsTo .rne (fun y => match y with
                  | .fin m j f => cmpVal (.fin (m != decide (i < 128)) (j * ((i : Int) - 128).natAbs) f) (intOf 16)
                      * (if i < 128 then -1 else 1)
                  | _ => 0) (fun y => ∃ x, placed .f32 x = some y) v ((w (8 + i)).toNat % 2 = 0)))
          ∧ (fn = 6 → (i = 0 → w 8 = 0x7F800000) ∧ ∀ e : Nat, i = 4 ^ e → is i (powOf false (1 - (e : Int)))))

/-- The moves of keysets, ciphertexts and tables (R195, R196, R206, R207, R278). -/
def Obligations.KeyAndTableMoves : Prop := Stmt.KeysetResult ∧ Stmt.CipherImages ∧ Stmt.TableMoves

/-- Droves (R200, R202, R203, R272): `CREF` checks tag, slot, dimension and table, and joins the open drove on its slot, or
one of its own, with what it reads now; a full drove starts. `DROVE` opens a drove on a free slot, waits for one that is
open, and with a count of 0 discards the open drove of its slot when that has no member, and keeps every other. The
window's end starts a drove 3,500 cycles after its first member. -/
def Stmt.DroveResult : Prop :=
  ∀ (s : State),
    let clu := cluOf s.cur
    let trap := fun (t : Trap) => Host.Outcome.next (s.takeTrap s.cur s.me.pc false t)
    (∀ cd cs tb ks, s.me.clean = true → cipherFree s.me [cd, cs] →
      let x := s.me.cipher cs
      let w7 := (s.me.tbWord tb 7).toNat
      let i : Instr := .cref cd cs tb ks
      let m : Member := { tid := s.cur, cd := cd.toNat, src := x, p := w7 % 8,
                          entries := (List.range 256).map fun j => s.me.tbWord tb (8 + j) }
      (x.tag ≠ ks → exec i s = trap { cause := .keytag, tval := wordN (x.tag.toNat * 16 + ks.toNat) })
      ∧ (x.tag = ks → s.slot ks.toNat = none → exec i s = trap { cause := .keytag, tval := ks.setWidth 64 })
      ∧ (∀ k, x.tag = ks → s.slot ks.toNat = some k → x.dim.toNat ≠ k.n →
        exec i s = trap { cause := .keytag, tval := wordN (x.tag.toNat * 16 + ks.toNat) })
      ∧ (∀ k, x.tag = ks → s.slot ks.toNat = some k → x.dim.toNat = k.n → (w7 < 1 ∨ 6 < w7) →
        exec i s = trap { cause := .illegal, tval := (s.me.tbWord tb 7).setWidth 64 })
      ∧ ∀ k, x.tag = ks → s.slot ks.toNat = some k → x.dim.toNat = k.n → 1 ≤ w7 → w7 ≤ 6 →
        ∃ t, exec i s = .next t ∧ MachineKept s t
          ∧ t.me = { s.me with cPend := s.me.cPend ++ [cd.toNat], pc := s.me.pc + 16 }
          ∧ t.cluster clu = (s.cluster clu).join ks.toNat m)
    ∧ (∀ ks count, s.me.clean = true →
      let d := (s.cluster clu).droves.find? fun d => d.slot == ks.toNat
      (count ≠ 0 → d = none → ∃ t, exec (.drove ks count) s = .next t ∧ MachineKept s t
        ∧ t.me = { s.me with pc := s.me.pc + 16 }
        ∧ (t.cluster clu).droves = (s.cluster clu).droves
            ++ [{ slot := ks.toNat, count := count.toNat, opener := s.me.region.map fun r => r.rcb }])
      ∧ (count ≠ 0 → d ≠ none → exec (.drove ks count) s = .next s)
      ∧ ∃ t, exec (.drove ks 0) s = .next t ∧ MachineKept s t ∧ t.me = { s.me with pc := s.me.pc + 16 }
        ∧ (t.cluster clu).droves = (match d with
          | some x => if x.members = [] then (s.cluster clu).droves.filter fun e => e.slot != ks.toNat
              else (s.cluster clu).droves
          | none => (s.cluster clu).droves))
    ∧ (∀ k ks d f, (s.cluster k).droves.find? (fun d => d.slot == ks.toNat) = some d → d.first = some f →
      (f + 3500 ≤ (s.cluster k).cycle → exec (.droveWindowExpiry k ks) s = .next (s.setCluster k ((s.cluster k).startDrove ks.toNat)))
      ∧ ((s.cluster k).cycle < f + 3500 → exec (.droveWindowExpiry k ks) s = .next s))

/-- T(b) for b below 2,048 and −T(b − 2,048) from there on: the body that R201 gives a ciphertext without mask, with T of
R200 for p message bits and the table's entries, and b the phase of its body. -/
def tableBody (m : Member) : BitVec 32 :=
  let box := 2048 / 2 ^ m.p
  let half := box / 2
  let T := fun i => if i < 2048 - half then m.entries.getD ((i + half) / box) 0 else -(m.entries.getD 0 0)
  let b := ((m.src.words.getD 768 0).toNat * 2 ^ 12 + 2 ^ 31) / 2 ^ 32 % 4096
  if b < 2048 then T b else -T (b - 2048)

/-- A pass (R200, R201, R203 to R205, R276): it begins when none runs in the cluster and the die admits its key stream. It
ends after its cycles and leaves the refreshed words, the slot's fresh noise and the source's tag in each member's register;
of a member whose mask words are all zero these are zero mask words and the body T(b), whatever the keys hold (R201). Keys
that changed while it ran leave the words of the others open (R195), and a fault on a key line fails every member, whose
register stays as it was (R205). That the key bytes and the faults are those found at the end of the pass, in one event, is
log 20 and log 25. The cached translations are those of the page tables, and no write of a member's thread is hedged. -/
def Stmt.PassResult : Prop :=
  ∀ (s : State),
    (∀ k d r, (s.cluster k).running = none → (s.cluster k).started = d :: r →
      (s.admits k d.2 = true →
        ∃ t, exec (.coppicePassRun k) s = .next t ∧ t.mem = s.mem ∧ t.threads = s.threads
          ∧ (t.cluster k).running = some (d.1, d.2, (s.cluster k).cycle) ∧ (t.cluster k).started = r
          ∧ ∀ j, j ≠ k → t.cluster j = s.cluster j)
      ∧ (s.admits k d.2 = false → exec (.coppicePassRun k) s = .next s))
    ∧ (∀ k d ks start, (s.cluster k).running = some (d, ks, start) →
      (s.cluster k).cycle < start + max 131250 (10775 * d.members.length) → exec (.coppicePassEnd k) s = .next s)
    ∧ ∀ k d ks start, (s.cluster k).running = some (d, ks, start) →
      start + max 131250 (10775 * d.members.length) ≤ (s.cluster k).cycle →
      (d.members.map fun m => (m.tid, m.cd)).Nodup → tlbFresh s ks.ctx →
      (∀ m ∈ d.members, (∀ w ∈ (s.thread m.tid).pend, w.hedged = 0) ∧ (s.thread m.tid).late = []) →
      let bad := (s.rangeFaults ks.ctx ks.bk 150994944 ++ s.rangeFaults ks.ctx ks.ksk 75595776).map (·.2)
      ∃ t, exec (.coppicePassEnd k) s = .next t ∧ t.mem = s.mem ∧ (t.cluster k).running = none
        ∧ (bad = [] → ∀ m ∈ d.members, m.cd < 8 →
            let c := (t.thread m.tid).cipher (BitVec.ofNat 3 m.cd)
            c.noise = ks.fresh ∧ c.tag = m.src.tag ∧ c.dim = m.src.dim ∧ m.cd ∉ (t.thread m.tid).cPend
              ∧ (k ∉ s.keyHit → c.words = refresh (bkAt (s.keyBytes ks).1) (kskAt (s.keyBytes ks).2) m)
              ∧ (m.src.dim = 768 → (∀ i, i < 768 → m.src.words[i]? = some 0) →
                c.words = List.replicate 768 0 ++ [tableBody m]))
        ∧ (bad ≠ [] → ∀ m ∈ d.members, (t.thread m.tid).c = (s.thread m.tid).c ∧ m.cd ∉ (t.thread m.tid).cPend
            ∧ ∃ x ∈ bad, (m.cd, x) ∈ (t.thread m.tid).cFail)
        ∧ ∀ j, (∀ m ∈ d.members, m.tid ≠ j) → t.thread j = s.thread j

/-- Droves, passes and what a refresh computes without a mask (R200 to R205, R272, R276). -/
def Obligations.CoppiceResult : Prop := Stmt.DroveResult ∧ Stmt.PassResult

/-! ## Reserving loops -/

/-- What the order of R210 admits: claims are taken in ascending item, then tid, then element, and claim j, for j below n,
is admitted exactly when no admitted earlier one has its signature; from n on none is. No two admitted claims share a
signature, so none share a granule (R210, R211). -/
def Stmt.AdmissionOrder : Prop :=
  (∀ ps : List Post, (sortPosts ps).Perm ps
      ∧ (sortPosts ps).Pairwise fun p q => p.item.toNat < q.item.toNat
          ∨ p.item = q.item ∧ (p.tid < q.tid ∨ p.tid = q.tid ∧ p.elem ≤ q.elem))
    ∧ ∀ n (l : List Post), let adm := admitPosts n [] l
      adm.Sublist (l.take n) ∧ (adm.map fun p => p.sig).Nodup
        ∧ ∀ p, admitPosts n [] (l ++ [p]) = adm ++ (if l.length < n ∧ ∀ q ∈ adm, q.sig ≠ p.sig then [p] else [])

/-- `RLOPEN`, `CLAIM`, `CLAIMDONE`, `RLCLOSE` and the wave's answer (R208 to R212, R309): joining or opening a loop; posting
a claim, after which `CLAIM` waits, and writing a held answer into the active posted bits of md; performing the CT and VLS
writes and clearing posted; leaving the loop. A `CLAIMDONE` without posted, an `RLCLOSE` or `CLAIM` outside a loop raise
CLAIMSEQ with rlstate in tval. No byte of memory changes but by performing the thread's own writes. That a new loop starts
at wave number 0, and that rlstate is zero after `RLCLOSE`, is log 33. -/
def Stmt.ReservingLoop : Prop :=
  ∀ (s : State), s.me.clean = true →
    let clu := cluOf s.cur
    let f := (s.cluster clu).fold
    let seq := fun (i : Instr) => exec i s = .next (s.takeTrap s.cur s.me.pc false
      { cause := .claimseq, tval := s.me.rl.word })
    let d := s.drain s.cur fencedPath
    (∀ a g, let c := s.me.rx a
      (c = 0 ∨ 32 < c.toNat ∨ s.me.rl.isOpen = true → exec (.rlopen a g) s = .next (s.takeTrap s.cur s.me.pc false
        { cause := .illegal, tval := c }))
      ∧ (1 ≤ c.toNat → c.toNat ≤ 32 → s.me.rl.isOpen = false → 2 ≤ g.toNat → g.toNat ≤ 12 →
        (f.isOpen = false → ∃ t, exec (.rlopen a g) s = .next t ∧ MachineKept s t
          ∧ t.me = { s.me with rl := ⟨true, false, g.toNat, c.toNat, 0⟩, pc := s.me.pc + 16 }
          ∧ (t.cluster clu).fold = { isOpen := true, c := c.toNat, g := g.toNat, joined := [s.cur] })
        ∧ (f.isOpen = true → f.joined.length < f.c → f.c = c.toNat → f.g = g.toNat →
          ∃ t, exec (.rlopen a g) s = .next t ∧ MachineKept s t
            ∧ t.me = { s.me with rl := ⟨true, false, g.toNat, c.toNat, f.wave⟩, pc := s.me.pc + 16 }
            ∧ (t.cluster clu).fold.joined = f.joined ++ [s.cur])
        ∧ (f.isOpen = true → f.joined.length < f.c → (f.c ≠ c.toNat ∨ f.g ≠ g.toNat) → seq (.rlopen a g))
        ∧ (f.isOpen = true → f.c ≤ f.joined.length → exec (.rlopen a g) s = .next s)))
    ∧ (∀ md va b mk, s.me.hasVector = true → s.me.regOk va 64 = true →
      let es := (List.range s.me.vl).filter fun e => s.me.active mk e
      (s.me.rl.isOpen = false → seq (.claim md va b mk))
      ∧ (∀ ans, s.me.rl.isOpen = true → mapFind f.answers s.cur = some ans →
        ∃ t, exec (.claim md va b mk) s = .next t ∧ MachineKept s t
          ∧ (∀ m e, e < 8192 → t.me.mbit m e = if m = md ∧ e ∈ es ∧ e ∈ ans.posted then decide (e ∈ ans.admitted)
              else s.me.mbit m e)
          ∧ { t.me with m := s.me.m } = { s.me with pc := s.me.pc + 16 }
          ∧ mapFind (t.cluster clu).fold.answers s.cur = none)
      ∧ (s.me.rl.isOpen = true → mapFind f.answers s.cur = none → s.cur ∉ f.posted → s.me.rl.posted = false →
        (∀ e ∈ es, s.me.elem va 64 e < 2 ^ 56) →
        ∃ t, exec (.claim md va b mk) s = .next t ∧ MachineKept s t ∧ t.me = s.me
          ∧ (t.cluster clu).fold.posted = f.posted ++ [s.cur]
          ∧ (t.cluster clu).fold.posts = f.posts ++ es.map fun e =>
              { item := s.me.rx b + wordN e, tid := s.cur, elem := e, sig := sig (wordN (s.me.elem va 64 e)) s.me.rl.g }))
    ∧ (s.me.rl.posted = true → mapFind f.answers s.cur = none → ∃ t, exec .claimdone s = .next t ∧ MachineKept d t
      ∧ t.me = { d.me with rl := { s.me.rl with posted := false }, pc := s.me.pc + 16 })
    ∧ (s.me.rl.posted = false ∨ mapFind f.answers s.cur ≠ none → seq .claimdone)
    ∧ (s.me.rl.isOpen = false → seq .rlclose)
    ∧ (s.me.rl.isOpen = true → s.me.rl.posted = false → ∃ t, exec .rlclose s = .next t ∧ MachineKept s t
      ∧ t.me = { s.me with rl := {}, pc := s.me.pc + 16 } ∧ s.cur ∉ (t.cluster clu).fold.posted)
    ∧ (s.me.rl.isOpen = true → s.me.rl.posted = true → mapFind f.answers s.cur = none →
      ∃ t, exec .rlclose s = .next t ∧ MachineKept d t ∧ t.me = { d.me with rl := {}, pc := s.me.pc + 16 })
    ∧ ∀ k w, (s.cluster k).fold.due = some w →
      (w ≤ (s.cluster k).cycle → ∃ t, exec (.waveAnswer k) s = .next t ∧ t.mem = s.mem
        ∧ (t.cluster k).fold.wave = ((s.cluster k).fold.wave + 1) % 2 ^ 32
        ∧ (t.cluster k).fold.posts = [] ∧ (t.cluster k).fold.due = none
        ∧ (∀ j ∈ (s.cluster k).fold.active, (t.thread j).rl.posted = true
          ∧ mapFind (t.cluster k).fold.answers j
            = some (answerOf (s.cluster k).fold.posts (admitPosts 4096 [] (sortPosts (s.cluster k).fold.posts)) j))
        ∧ ∀ j, j ∉ (s.cluster k).fold.active → t.thread j = s.thread j)
      ∧ ((s.cluster k).cycle < w → exec (.waveAnswer k) s = .next s)

/-- Reserving loops and what their waves admit (R208 to R212, R309). -/
def Obligations.ReservingLoops : Prop := Stmt.AdmissionOrder ∧ Stmt.ReservingLoop

/-! ## Synchronisation and threads -/

/-- `FENCE` (R215, R227, R229, R232): one of scope thr orders the thread's CT and VLS accesses as the thread sees them, and
performs none of them; one of a wider scope puts the outstanding ones before the later ones toward every party too, and
with `.sc` performs them at once. That the orders acq and rel order no less than both ways, and that a wider scope reaches
every party, is log 8. No register changes. -/
def Stmt.FenceResult : Prop :=
  ∀ (s : State) ord sc, s.me.clean = true →
    let d := s.drain s.cur fencedPath
    ∃ t, exec (.fence ord sc) s = .next t
      ∧ (sc = .thr → SameBytes s t ∧ (∀ k, k ≠ s.cur → t.thread k = s.thread k)
        ∧ t.me = { s.me with
            pc := s.me.pc + 16, fences := t.me.fences,
            pend := s.me.pend.map fun w => if fencedPath w.path then { w with joined := true } else w }
        ∧ (∀ p, t.before s.cur p = t)
        ∧ ∀ w ∈ t.me.pend, fencedPath w.path = true → ∀ q : PendW, fencedPath q.path = true →
            w.seenOn q.path = true ∧ (w.meets q = true → w.blocks q = true))
      ∧ (sc ≠ .thr → ord ≠ .sc → OnlyMe s t
        ∧ t.me = { s.me with
            pc := s.me.pc + 16,
            pend := s.me.pend.map fun w => if fencedPath w.path then { w with hedged := w.hedged ||| 3 } else w }
        ∧ ∀ p, fencedPath p = true → (∀ w ∈ (t.before s.cur p).me.pend, fencedPath w.path = false)
          ∧ ∀ w ∈ t.me.pend, fencedPath w.path = true → ∀ q : PendW, q.path = p → w.blocks q = true)
      ∧ (sc ≠ .thr → ord = .sc → MachineKept d t
        ∧ t.me = { d.me with pc := s.me.pc + 16, fences := t.me.fences }
        ∧ ∀ w ∈ t.me.pend, fencedPath w.path = false)

/-- `HEDGE` (R215, R233): it goes on at once and puts the accesses of the from-classes before the later ones of the
to-classes, and of no other class: a later read on a to-class performs the pending writes of the from-classes first, and a
later write is not performed before them. From CPY it names the copies the thread created that are live and neither held nor
waiting on a predecessor, from COP the thread's pending passes, and from EXT those of either, and the `BGEMV`s, that reach
outside the package; while one of these lasts, an instruction that would make an access on a to-class waits. A `HEDGE` from
BNK waits for the thread's bank operations and reports the first failed one, late. No register changes. -/
def Stmt.HedgeResult : Prop :=
  ∀ (s : State) (src dst : BitVec 7), s.me.clean = true →
    let bank := src.getLsbD 5 = true
    let ops := s.me.bg.filter fun o => o.ticket ≤ s.me.tickets
    ((bank → ops = []) →
      ∃ t, exec (.hedge src dst) s = .next t ∧ OnlyMe s t
        ∧ t.me = { s.me with
            pc := s.me.pc + 16, hedges := t.me.hedges,
            pend := s.me.pend.map fun w => if maskHas src w.path then { w with hedged := w.hedged ||| dst } else w }
        ∧ (∀ p, maskHas dst p = true → ∀ w ∈ (t.before s.cur p).me.pend, maskHas src w.path = false)
        ∧ (∀ p, maskHas dst p = false → t.before s.cur p = t)
        ∧ (∀ w ∈ t.me.pend, maskHas src w.path = true → ∀ q : PendW, maskHas dst q.path = true → w.blocks q = true)
        ∧ ∃ h : Hedge, h.dst = dst
          ∧ (t.me.hedges = s.me.hedges ++ [h] ∨ t.me.hedges = s.me.hedges ∧ h.nodes = [] ∧ h.passes = [] ∧ h.tickets = [])
          ∧ (∀ o, o ∈ h.nodes ↔ ∃ n, (o, n) ∈ (s.core (coreOf s.cur)).nodes ∧ (∀ p, n.op ≠ .gnode p) ∧ n.ctx.tid = s.cur
              ∧ n.live = true ∧ n.preds = 0
              ∧ (src.getLsbD 3 = true ∨ src.getLsbD 6 = true ∧ s.nodeOutside n = true))
          ∧ (src.getLsbD 4 = true → h.passes = s.me.cPend)
          ∧ (src.getLsbD 4 = false → src.getLsbD 6 = true → h.passes = s.outsidePasses)
          ∧ (∀ k, k ∈ h.tickets ↔ src.getLsbD 6 = true
              ∧ ∃ o ∈ s.me.bg, o.ticket = k ∧ o.failed = none ∧ s.bgOutside o = true)
          ∧ ∀ i p, h ∈ t.me.hedges → t.hedgeLive s.cur h = true → p ∈ (t.pruneHedges s.cur).pathsOf i →
              maskHas dst p = true →
              ∃ u, t.issueInstr i = .next u ∧ SameBytes t u ∧ u.me.pc = t.me.pc ∧ u.me.x = t.me.x)
    ∧ (bank → (∃ o ∈ ops, o.failed = none) → exec (.hedge src dst) s = .next s)
    ∧ ∀ o l x, bank → ops = o :: l → (∀ q ∈ ops, q.failed ≠ none) → o.failed = some x →
      exec (.hedge src dst) s = .next ((s.modMe fun th =>
        { th with bg := th.bg.filter fun q => decide (q.ticket ≠ o.ticket) }).takeTrap
          s.cur s.me.pc false { cause := x.1, tval := x.2, telem := wordN o.ticket, late := true })

/-- `BAR` (R215, R341): an arrival stands until the count has arrived; the last arrival goes on and releases the others; a
released thread goes on; a count of 0, above the scope's threads, or other than the first arrival's raises ILLEGAL, with
the count in tval (of the first two cases log 49). Each arrival performs the thread's CT and VLS writes (log 8). An arrival
of a task that has ended, kept as 512 or more, counts and releases nobody (R357). -/
def Stmt.BarrierResult : Prop :=
  ∀ (s : State) sc a id, s.me.clean = true →
    let sc' := if sc = .dflt then Scope.clu else sc
    let n := s.me.rx a
    let clu := cluOf s.cur
    let key := barKey (coreOf s.cur) sc' id
    let bar := fun (t : State) => mapGet ({ count := 0 } : Barrier) (t.cluster clu).bars key
    let b := bar s
    let d := s.drain s.cur fencedPath
    let on := fun (t : State) => exec (.bar sc a id) s = .next t ∧ MachineKept d t
      ∧ t.me = { d.me with fences := t.me.fences, pc := s.me.pc + 16 }
    let mine := s.cur ∈ b.arrived ∨ s.cur ∈ b.released
    (s.cur ∈ b.released → ∃ t, on t ∧ (bar t).arrived = b.arrived
      ∧ (bar t).released = b.released.filter (fun k => k != s.cur))
    ∧ (s.cur ∈ b.arrived → s.cur ∉ b.released → exec (.bar sc a id) s = .next s)
    ∧ (¬ mine → (n = 0 ∨ s.threadsIn sc' < n.toNat ∨ b.arrived ≠ [] ∧ b.count ≠ n.toNat) →
      exec (.bar sc a id) s = .next (s.takeTrap s.cur s.me.pc false { cause := .illegal, tval := n }))
    ∧ (¬ mine → n ≠ 0 → n.toNat ≤ s.threadsIn sc' → (b.arrived = [] ∨ b.count = n.toNat) →
      (b.arrived.length + 1 = n.toNat → ∃ t, on t ∧ (bar t).arrived = []
        ∧ (bar t).released = b.released ++ b.arrived.filter (fun k => decide (k < 512)))
      ∧ (b.arrived.length + 1 ≠ n.toNat → ∃ t, exec (.bar sc a id) s = .next t ∧ MachineKept d t ∧ t.me = d.me
        ∧ (bar t).arrived = b.arrived ++ [s.cur] ∧ (bar t).count = n.toNat))

/-- `WAITM` and its re-read (R215): an aligned, readable value that meets the condition goes to xd and the thread goes on;
one that does not leaves the thread waiting with the comparison it will make again, and the re-read ends the wait. -/
def Stmt.WaitMemoryResult : Prop :=
  ∀ (s : State) cc d a b imm v, s.me.clean = true → s.me.waitm = none → (s.me.rx a + imm).toNat % 8 = 0 →
    (s.load .ct (s.me.rx a + imm) 8).2 = .ok v →
    (condX cc (wordN v) (s.me.rx b) = true → ∃ t, exec (.waitm cc d a b imm) s = .next t ∧ MachineKept s t
      ∧ RegisterResult s.me t.me 16 d (wordN v) 0)
    ∧ (condX cc (wordN v) (s.me.rx b) = false → ∃ t, exec (.waitm cc d a b imm) s = .next t ∧ MachineKept s t
      ∧ t.me = { s.me with waitm := some ⟨cc, d, s.me.rx a + imm, s.me.rx b⟩ })
    ∧ ∀ tid w x, (s.thread tid).waitm = some w → (s.thread tid).run = .ready → (s.thread tid).clean = true →
      s.cluRuns (cluOf tid) = true → (s.readRange (s.ctxOf tid) .ct w.addr 8).2 = .ok x →
      ∃ t, exec (.waitmReread tid) s = .next t ∧ SameBytes s t ∧ (∀ k, k ≠ tid → t.thread k = s.thread k)
        ∧ (condX w.cc (wordN (leNat x)) w.cmp = true →
          t.thread tid = { (s.thread tid).wx w.d (wordN (leNat x)) with waitm := none, pc := (s.thread tid).pc + 16 })
        ∧ (condX w.cc (wordN (leNat x)) w.cmp = false → t.thread tid = s.thread tid)

/-- Fences, hedges, barriers and memory waits (R215, R227, R229, R232, R233, R341). -/
def Obligations.Synchronisation : Prop := Stmt.FenceResult ∧ Stmt.HedgeResult ∧ Stmt.BarrierResult ∧ Stmt.WaitMemoryResult

/-- `TFORK` and `TJOIN` (R216, R217): a fork needs more than two lanes and a free context of the core, and gives −1
otherwise; it splits the grant, keeps vl within the new mvl, starts the child at pc + imm with its stack, gp, tid and
x5 to x12, and gives the child's number. A join of an ended child takes its lanes back and frees its context; of a running
one it waits; of another number it raises ILLEGAL. No byte of memory changes. That a free context holds the values of
{} is log 35 and log 3. -/
def Stmt.ForkAndJoin : Prop :=
  ∀ (s : State) d a off, s.me.clean = true →
    ((grantLanes s.me.grant ≤ 2 ∨ s.freeSibling = none) → ∃ t, exec (.tfork d a off) s = .next t ∧ OnlyMe s t
      ∧ RegisterResult s.me t.me 16 d 0xFFFFFFFFFFFFFFFF 0)
    ∧ (∀ c, 2 < grantLanes s.me.grant → s.me.grantOk = true → s.freeSibling = some c →
      ∃ t, exec (.tfork d a off) s = .next t ∧ SameBytes s t ∧ (∀ k, k ≠ s.cur → k ≠ c → t.thread k = s.thread k)
        ∧ (∀ r, t.me.rx r = if r = d ∧ d ≠ 0 then wordN c else s.me.rx r) ∧ t.me.pc = s.me.pc + 16
        ∧ grantLanes t.me.grant = grantLanes s.me.grant / 2 ∧ grantBase t.me.grant = grantBase s.me.grant
        ∧ t.me.vl = min s.me.vl t.me.mvl ∧ t.me.vtype = s.me.vtype ∧ t.me.children = s.me.children ++ [c]
        ∧ (t.thread c).run = .ready ∧ (t.thread c).pc = s.me.pc + off ∧ (t.thread c).parent = some s.cur
        ∧ (t.thread c).sup = false ∧ (t.thread c).vl = 0 ∧ (t.thread c).region = s.me.region
        ∧ grantLanes (t.thread c).grant = grantLanes s.me.grant / 2
        ∧ grantBase (t.thread c).grant = grantBase s.me.grant + grantLanes s.me.grant / 2
        ∧ (t.thread c).rx 2 = s.me.rx a ∧ (t.thread c).rx 3 = s.me.rx 3 ∧ (t.thread c).rx 4 = wordN c
        ∧ ∀ r : XReg, 5 ≤ r.toNat → r.toNat ≤ 12 → (t.thread c).rx r = s.me.rx r)
    ∧ (let c := (s.me.rx a).toNat
       (c ∉ s.me.children → exec (.tjoin a) s = .next (s.takeTrap s.cur s.me.pc false
          { cause := .illegal, tval := s.me.rx a }))
       ∧ (c ∈ s.me.children → (s.thread c).run ≠ .joinable → exec (.tjoin a) s = .next s)
       ∧ (c ∈ s.me.children → c ≠ s.cur → (s.thread c).run = .joinable → ∃ t, exec (.tjoin a) s = .next t ∧ SameBytes s t
         ∧ t.thread c = {} ∧ (∀ k, k ≠ s.cur → k ≠ c → t.thread k = s.thread k) ∧ t.me.x = s.me.x
         ∧ t.me.pc = s.me.pc + 16 ∧ t.me.grant = grantHull s.me.grant (s.thread c).grant
         ∧ c ∉ t.me.children))

/-- `END` and its effect (R109, R217, R319, R356): outside a loop and with no child the thread stops issuing at the `END`;
with an ended child it joins it first and issues the `END` again. The `END` takes effect once nothing of the thread is
outstanding: every write is performed; a child waits for its join; a context that Ciros started stays halted and Ciros
reports it (R358, log 50); another context becomes free, which is {} (log 35, log 3), with its packet counting the task as
ended, or begins the next iteration of its loop nest that was handed to it meanwhile (R325). -/
def Stmt.EndResult : Prop :=
  ∀ (s : State), s.me.clean = true →
    (s.me.rl.isOpen = false → s.me.children = [] → ∃ t, exec .endTask s = .next t ∧ MachineKept s t
      ∧ t.me = { s.me with run := .ending } ∧ s.cur ∉ (t.core (coreOf s.cur)).turn)
    ∧ (∀ c l, s.me.rl.isOpen = false → s.me.children = c :: l → c ≠ s.cur → (s.thread c).run = .joinable →
      ∃ t, exec .endTask s = .next t ∧ SameBytes s t ∧ t.me.pc = s.me.pc ∧ t.me.run = s.me.run ∧ t.thread c = {}
        ∧ c ∉ t.me.children)
    ∧ ∀ tid, (s.thread tid).run = .ending → s.cluRuns (cluOf tid) = true → (s.thread tid).bg = [] →
      (s.thread tid).cFail = [] → (s.thread tid).cPend = [] →
      ∃ t, exec (.endTakesEffect tid) s = .next t ∧ SameBytes (s.drainAll tid) t
        ∧ ((s.thread tid).parent ≠ none → (t.thread tid).run = .joinable ∧ (t.thread tid).pend = [])
        ∧ ((s.thread tid).parent = none → (s.thread tid).ciros = true →
          (t.thread tid).run = .halted ∧ t.out = s.out ++ [.halted tid])
        ∧ ((s.thread tid).parent = none → (s.thread tid).ciros = false →
          ((s.thread tid).ahead = none → t.thread tid = {})
          ∧ ∀ r u, (s.thread tid).region = some r → (s.thread tid).task = some u →
              (∀ p ∈ (t.die r.die).packets, p.uid = u →
                ∃ q ∈ (s.die r.die).packets, p = { q with running := q.running - 1 })
              ∧ ∀ l p, (s.thread tid).ahead = some l → (s.die r.die).packets.find? (fun q => some q.uid == some u) = some p →
                (t.thread tid).run = .ready ∧ (t.thread tid).pc = p.entry ∧ (t.thread tid).region = some p.region
                  ∧ (t.thread tid).task = some u ∧ (t.thread tid).ahead = none
                  ∧ ∀ i, i < 8 → (t.thread tid).rx (BitVec.ofNat 6 (45 + i)) = l.getD i 0)

/-- Forks, joins and the end of a task (R109, R216, R217, R319, R356). -/
def Obligations.ThreadsAndTasks : Prop := Stmt.ForkAndJoin ∧ Stmt.EndResult

/-! ## Copies, the graph, rings and launches -/

/-- A creating instruction answers a state in which one node is new under the next ordinal of the core: its id is in xd,
and no other node, no other register and no byte of memory has changed (R218). -/
def CreatesNode (s : State) (i : Instr) (size : Nat) (d : XReg) (h : Bool) (ring : Option Nat) (op : NodeOp) : Prop :=
  let core := coreOf s.cur
  let c := s.core core
  let ord := (c.nextOrd - 1) % (2 ^ 32 - 1) + 1
  ∃ t, exec i s = .next t ∧ MachineKept s t ∧ RegisterResult s.me t.me size d (wordN (core * 2 ^ 32 + ord)) 0
    ∧ mapFind (t.core core).nodes ord
      = some { op := op, seq := c.nextOrd, ring := ring, preds := if h then 1 else 0, held := h, ctx := s.ctxOf s.cur, region := s.me.region }
    ∧ (∀ o, o ≠ ord → mapFind (t.core core).nodes o = mapFind c.nodes o)
    ∧ { t.core core with nodes := c.nodes } = { c with nextOrd := c.nextOrd + 1 } ∧ ∀ k, k ≠ core → t.core k = s.core k

/-- `CPY`, `CPY2D`, `CPYG` and `GNODE` (R218): each creates one node, held with `.h`, and waits while 256 nodes are live;
a length or size of 0, or one that is no multiple of the slot size of a ring destination, raises ILLEGAL, and a handle of
no ring RINGSEQ, without a node. -/
def Stmt.CopyCreation : Prop :=
  ∀ (s : State) h d a b c, s.me.clean = true →
    let live := ((s.core (coreOf s.cur)).nodes.filter fun n => n.2.live).length
    let x := s.me.rx
    let ring := (s.cluster (cluOf s.cur)).ring a.toNat
    let trap := fun (i : Instr) (t : Trap) => exec i s = .next (s.takeTrap s.cur s.me.pc false t)
    (live < 256 →
      CreatesNode s (.cpy h false d a b c) 16 d h none (.cpy (x a) (x b) (x c).toNat)
      ∧ CreatesNode s (.gnode h d a) 16 d h none (.gnode (x a))
      ∧ (∀ len ds ss, len ≠ 0 → CreatesNode s (.cpy2d h false d a b c len ds ss) 32 d h none
        (.cpy2d (x a) (x b) (x c).toNat len.toNat ds ss))
      ∧ (∀ size xi w, size ≠ 0 → CreatesNode s (.cpyg h false d a b c size xi w) 32 d h none
        (.cpyg (x a) (x b) (x c).toNat size.toNat (x xi) w))
      ∧ ∀ r, ring = some r →
        ((x c).toNat % (r.ss * 128) = 0 →
          CreatesNode s (.cpy h true d a b c) 16 d h (some a.toNat) (.cpy (x a) (x b) (x c).toNat))
        ∧ (∀ len ds ss, len ≠ 0 → len.toNat % (r.ss * 128) = 0 → CreatesNode s (.cpy2d h true d a b c len ds ss) 32 d h
          (some a.toNat) (.cpy2d (x a) (x b) (x c).toNat len.toNat ds ss))
        ∧ ∀ size xi w, size ≠ 0 → size.toNat % (r.ss * 128) = 0 → CreatesNode s (.cpyg h true d a b c size xi w) 32 d h
          (some a.toNat) (.cpyg (x a) (x b) (x c).toNat size.toNat (x xi) w))
    ∧ (256 ≤ live → ∀ i ∈ [Instr.cpy h false d a b c, .gnode h d a, .cpy2d h false d a b c 1 0 0,
        .cpyg h false d a b c 1 a false], exec i s = .next s)
    ∧ (∀ r ds ss xi w, trap (.cpy2d h r d a b c 0 ds ss) { cause := .illegal }
      ∧ trap (.cpyg h r d a b c 0 xi w) { cause := .illegal })
    ∧ (ring = none → trap (.cpy h true d a b c) { cause := .ringseq, tval := wordN a.toNat }
      ∧ trap (.cpy2d h true d a b c 1 0 0) { cause := .ringseq, tval := wordN a.toNat }
      ∧ trap (.cpyg h true d a b c 1 a false) { cause := .ringseq, tval := wordN a.toNat })
    ∧ ∀ r, ring = some r → (x c).toNat % (r.ss * 128) ≠ 0 → trap (.cpy h true d a b c) { cause := .illegal, tval := x c }

/-- The n bytes at a physical address lie where an engine reaches memory and may read and write it (R360, R377). -/
def Mapped (s : State) (pa n : Nat) : Prop :=
  ∀ k, pa ≤ k → k < pa + n → s.physMem .read k = true ∧ s.physMem .write k = true

/-- The rows that a copy moves, as destination, source and length, with the items' indices of a `CPYG` (R218). -/
def rowsMoved (idx : Nat → Int) : NodeOp → List (Word × Word × Nat)
  | .cpy d a len => [(d, a, len)]
  | .cpy2d d a rows len ds ss => (List.range rows).map fun (i : Nat) =>
      (d + wordI (i * ds.toInt), a + wordI (i * ss.toInt), len)
  | .cpyg d a items size .. => (List.range items).map fun i => (d + wordN (i * size), a + wordI (idx i), size)
  | .gnode _ => []

/-- The pieces cover n bytes from an address on, in ascending order, one for each line (R299). -/
def CoversLines : List (Word × Nat) → Word → Nat → Prop
  | [], _, n => n = 0
  | p :: ps, va, n => p.1 = va ∧ p.2 = min n (128 - va.toNat % 128) ∧ 0 < p.2
      ∧ CoversLines ps (va + wordN p.2) (n - p.2)

/-- A node leads to another along edges of the graph, or is it (R219, R220). -/
inductive LeadsTo (ns : List (Nat × Node)) (o : Nat) : Nat → Prop
  | self : LeadsTo ns o o
  | edge (p q : Nat) (n : Node) : LeadsTo ns o p → mapFind ns p = some n → q ∈ n.succs → LeadsTo ns o q

/-- A copy launches (R218, R221, R299): a node with no predecessor left, in a cluster that runs, which the range checker
does not hold back and for which one of two engines is free, takes its rows, of a `CPYG` after reading the index list on
path CPY, and is left with one read of each line of each row, in ascending order, each with its translation. Where a line
has none it keeps the fault and the reads before it; where the list cannot be read, its fault. A `GNODE` reads its packet
and appends it as `SPAWN` does, or waits while the list is full. No other node launches. -/
def Stmt.CopyLaunch : Prop :=
  ∀ (s : State) core ord n, mapFind (s.core core).nodes ord = some n →
    let ready := n.st = .waiting ∧ n.preds = 0 ∧ s.cluRuns (core / 8) = true ∧ s.heldBack core ord n = false
    let engine := ((s.core core).nodes.filter fun p => p.2.copying).length < 2
    let own := tlbFresh s n.ctx ∧ (∀ w ∈ (s.thread n.ctx.tid).pend, w.hedged = 0) ∧ (s.thread n.ctx.tid).late = []
    let list : Option (Word × Nat × Nat) := match n.op with
      | .cpyg _ _ items _ l w => some (l, items, if w then 8 else 4)
      | _ => none
    let launches := fun (f : State → Node → Prop) => ∃ t m, exec (.copyNodeLaunch core ord) s = .next t ∧ SameBytes s t
      ∧ t.threads = s.threads ∧ mapFind (t.core core).nodes ord = some m ∧ m.st = .launched ∧ f t m
    (ready → engine → own → (∀ pkt, n.op ≠ .gnode pkt) → ∀ bs,
      (∀ l, list = some l → (s.readRange n.ctx .cpy l.1 (l.2.1 * l.2.2)).2 = .ok bs) →
      let w := (list.map (·.2.2)).getD 0
      let rows := rowsMoved (fun i => sx (8 * w) (leNat ((bs.drop (i * w)).take w))) n.op
      (∀ r ∈ rows, r.2.2 < 2 ^ 64) → launches fun _ m =>
        m.rows = rows.map (fun r => (r.1, r.2.2))
        ∧ (∀ j r, rows[j]? = some r → (∀ x, m.bad = some x → j < x.1 / 2 ^ 64) →
          CoversLines ((m.todo.filter fun p => p.ix / 2 ^ 64 == j).map fun p => (p.piece.va, p.piece.len)) r.2.1 r.2.2)
        ∧ (∀ p ∈ m.todo, s.xlate n.ctx .read p.piece.va = .ok p.piece.place)
        ∧ m.todo.Pairwise (fun p q => p.ix < q.ix)
        ∧ ∀ x, m.bad = some x → ∃ r k, rows[x.1 / 2 ^ 64]? = some r ∧ k < r.2.2 ∧ x.2.2 = r.2.1 + wordN k
            ∧ s.xlate n.ctx .read x.2.2 = .error x.2.1)
    ∧ (∀ l x, ready → engine → own → list = some l → (s.readRange n.ctx .cpy l.1 (l.2.1 * l.2.2)).2 = .error x →
      launches fun _ m => m.bad = some (0, x) ∧ m.todo = n.todo)
    ∧ ((¬ ready ∨ ¬ engine ∧ ∀ pkt, n.op ≠ .gnode pkt) → exec (.copyNodeLaunch core ord) s = .next s)
    ∧ ∀ pkt reg, n.op = .gnode pkt → ready → own → n.region = some reg →
      let e := s.readRange n.ctx .cpy pkt 128
      let r := (e.1.liveRegion reg).getD reg
      (∀ x, e.2 = .error x → exec (.copyNodeLaunch core ord) s = .next (e.1.failNode x core ord))
      ∧ (∀ bs, e.2 = .ok bs → e.1.listRoom r = true → ∃ t m, exec (.copyNodeLaunch core ord) s = .next t
        ∧ SameBytes (e.1.append (.core core) (core / 8) .cpy r bs) t ∧ t.threads = s.threads
        ∧ t.gnodes = s.gnodes ++ [(r.rcb, e.1.listTail r, core, ord)]
        ∧ mapFind (t.core core).nodes ord = some m ∧ m.st = .launched)
      ∧ (∀ bs, e.2 = .ok bs → e.1.listRoom r = false → exec (.copyNodeLaunch core ord) s = .next e.1)

/-- A copy finishes (R218, R220, R301): once every line has returned, a copy to memory whose rows lie apart, each in a page
of the package's memory that its core has translated, leaves the bytes it read at their destinations and no other byte
changed; one to a ring finishes when every slot is published; either is listed no more, and each successor has one
predecessor less. One that met a fault fails with its cause and tval, and so does every live node that it leads to, while
every other node is as it was. Where nothing has been written and no successor is there, the failure is the only one, and
without a `GWAIT` on the node it is an event of cause 3 in its region's fault domain, or counts as dropped there (R329). -/
def Stmt.CopyFinish : Prop :=
  ∀ (s : State) core ord n, mapFind (s.core core).nodes ord = some n →
    let copies := n.st = .launched ∧ ∀ pkt, n.op ≠ .gnode pkt
    let done := copies ∧ n.todo = [] ∧ n.out = []
    let i : Instr := .copyNodeFinish core ord
    let finishes := fun (f : State → Prop) => ∃ t, exec i s = .next t ∧ t.threads = s.threads ∧ f t
      ∧ mapFind (t.core core).nodes ord = none
      ∧ ∀ o, o ≠ ord → mapFind (t.core core).nodes o = (mapFind (s.core core).nodes o).map fun m =>
          if o ∈ n.succs then { m with preds := m.preds - 1 } else m
    let len := (n.rows.head?.map (·.2)).getD 0
    (¬ done → exec i s = .next s)
    ∧ (done → n.bad = none → n.succs.Nodup →
      (n.ring = none → n.wrote = [] → ∀ pas : List Nat, pas.length = n.rows.length →
        (∀ (j : Nat) (r : Word × Nat) (pa : Nat), n.rows[j]? = some r → pas[j]? = some pa → r.2 = (n.rowData j).length ∧ r.1.toNat % 65536 + r.2 ≤ 65536
          ∧ (inWindow r.1.toNat = true ∨ (tlbFind (s.core (coreOf n.ctx.tid)).tlb n.ctx.asid r.1.toNat).isSome = true)
          ∧ ∃ p, s.xlate n.ctx .write r.1 = .ok p ∧ p.pa = pa ∧ (s.physRow pa = .hbm ∨ s.physRow pa = .sram)) →
        (∀ (j k : Nat) (r q : Word × Nat) (pa pb : Nat), n.rows[j]? = some r → n.rows[k]? = some q → pas[j]? = some pa → pas[k]? = some pb → j ≠ k →
          pa + r.2 ≤ pb ∨ pb + q.2 ≤ pa) →
        finishes fun t =>
          (∀ (j : Nat) (r : Word × Nat) (pa c : Nat), n.rows[j]? = some r → pas[j]? = some pa → c < r.2 → t.byte (pa + c) = (n.rowData j).getD c 0)
          ∧ ∀ a, (∀ (j : Nat) (r : Word × Nat) (pa : Nat), n.rows[j]? = some r → pas[j]? = some pa → a < pa ∨ pa + r.2 ≤ a) → t.byte a = s.byte a)
      ∧ ∀ h g, n.ring = some h → (s.cluster (core / 8)).ring h = some g →
        (n.slots.length * (g.ss * 128) = n.rows.length * len → finishes fun t => SameBytes s t)
        ∧ (n.slots.length * (g.ss * 128) ≠ n.rows.length * len → exec i s = .next s))
    ∧ (∀ x, done → n.ring = none → n.bad = some x → (s.core core).nodes.length ≤ 256 →
      ∃ t, exec i s = .next t ∧ t.threads = s.threads
        ∧ (∀ o m, LeadsTo (s.core core).nodes ord o → mapFind (s.core core).nodes o = some m → m.live = true →
          ∃ m', mapFind (t.core core).nodes o = some m' ∧ m'.st = .failed x.2.1 x.2.2)
        ∧ ∀ o, ¬ LeadsTo (s.core core).nodes ord o → mapFind (t.core core).nodes o = mapFind (s.core core).nodes o)
    ∧ ∀ x, done → n.ring = none → n.bad = some x → n.rows = [] → n.succs = [] →
      let waited := ∃ k, k < 4 ∧ (s.thread (4 * core + k)).holds = .node ord
      (waited ∨ n.region = none → ∃ t, exec i s = .next t ∧ SameBytes s t)
      ∧ ∀ r, ¬ waited → n.region = some r → Mapped s (r.rcb + 88) 32 →
        let counts := ∃ t, exec i s = .next t
          ∧ t.readPhys (r.rcb + 92) 4 = (s.readPhys (r.rcb + 92) 4 + 1) % 2 ^ 32
          ∧ ∀ k, (k < r.rcb + 92 ∨ r.rcb + 96 ≤ k) → t.byte k = s.byte k
        (r.ring = none → counts)
        ∧ ∀ base log, r.ring = some (base, log) → Mapped s base (32 * 2 ^ log + 8) →
          (base + 32 * 2 ^ log + 8 ≤ r.rcb ∨ r.rcb + 128 ≤ base) →
          let ix := s.readPhys (r.rcb + 104) 8
          let at' := base + 32 * (ix % 2 ^ log)
          let full := 2 ^ log ≤ (ix + 2 ^ 64 - s.readPhys (base + 32 * 2 ^ log) 8) % 2 ^ 64
          (full → counts)
          ∧ (¬ full → ∃ t, exec i s = .next t ∧ t.readPhys at' 4 = 3 ∧ t.readPhys (at' + 4) 4 = r.id.toNat
            ∧ t.readPhys (at' + 8) 8 = (core * 2 ^ 32 + ord) % 2 ^ 64 ∧ t.readPhys (at' + 16) 8 = x.2.2.toNat
            ∧ t.readPhys (at' + 24) 8 = s.time.toNat ∧ t.readPhys (r.rcb + 104) 8 = (ix + 1) % 2 ^ 64)

/-- A cycle of the copy engines with one copy under way (R290, R299 to R301): its next line is issued, of HBM4 into its home
slice's queue, unless that holds 8 requests, and of the cluster-local window to return 8 cycles later; a ring-destination
copy publishes its next slot, here its last, once the row's bytes have returned in an earlier cycle, no read up to that row
has failed and the ring has room, and not otherwise. The clock of the copies, slices and caches of both dies is one
(log 53). -/
def Stmt.CopyCycle : Prop :=
  ∀ (s : State) core ord n l, mapFind (s.core core).nodes ord = some n → s.copies = [(core, ord, n)] → n.out = [] →
    s.turns = .tick .fab 1 :: l →
    let now := s.fab + 1
    (∀ p r, n.ring = none → n.todo = p :: r →
      let pa := p.piece.place.pa
      let line := pa / 128 * 128
      let die := homeDie line
      let sl := (s.homeSlice line).1
      let q := (s.die die).queue sl
      let seen := fun (q : List SliceReq) => q.map fun x => (x.core, x.ord, x.part, x.hit, x.arr)
      ∃ t m, step s = .next t ∧ t.fab = now ∧ SameBytes s t ∧ t.threads = s.threads
        ∧ mapFind (t.core core).nodes ord = some m
        ∧ (s.physRow pa = .hbm → (∀ c ∈ (s.cluster (core / 8)).lines, c.line ≠ pa / 128) →
          (q.length < 8 → (∀ x ∈ q, x.arr ≠ now) → mapFind (s.die die).freed sl ≠ some now →
            m = { n with todo := r, out := [(p, none)] }
              ∧ seen ((t.die die).queue sl) = seen q ++ [(core, ord, p, mapGet false s.held (line / 128), now)])
          ∧ (8 ≤ q.length → m = n ∧ (t.die die).queue sl = q))
        ∧ (s.physRow pa = .sram → mapGet 0 (s.cluster (core / 8)).served ((pa - sramAt (core / 8) 0) / 2 ^ 17) ≤ now →
          m = { n with todo := r, out := [(p, some (now + 8))] }))
    ∧ ∀ h g, n.ring = some h → (s.cluster (core / 8)).ring h = some g → 0 < g.ss → n.todo = [] →
      let size := g.ss * 128
      let len := (n.rows.head?.map (·.2)).getD 0
      let from' := n.slots.length * size
      let row := from' / len
      let whole := (∃ c, mapFind n.whole row = some c ∧ c < now) ∧ row < n.rows.length ∧ ∀ x, n.bad = some x → row < x.1 / 2 ^ 64
      let room := ∀ c ∈ g.cursors, g.push < c + g.nb * 1024 / g.ss
      let base := sramBase + core / 8 * 2 ^ 22 + g.bank * 2 ^ 17 + g.push % (g.nb * 1024 / g.ss) * size
      (whole → room → n.rows.length * len = from' + size →
        ∃ t, step s = .next t ∧ t.threads = s.threads
          ∧ mapFind (t.core core).nodes ord = some { n with slots := n.slots ++ [g.push] }
          ∧ (t.cluster (core / 8)).ring h = some { g with push := g.push + 1 }
          ∧ ∀ k, base ≤ k → k < base + size → (∀ c, c < len → (n.rowData row)[c]?.isSome = true) → len % size = 0 →
              t.byte k = (n.rowData row).getD (from' % len + (k - base)) 0)
      ∧ (¬ whole ∨ ¬ room → ∃ t, step s = .next t ∧ SameBytes s t ∧ mapFind (t.core core).nodes ord = some n)

/-- The return of a line (R290, R300): the head of a slice queue returns in a cycle after the one in which it reached the
head, and where the slice did not hold the line, not before 64 cycles after the memory-side cache accepted it. It leaves the
queue, whose next request is then the head; the copy takes the bytes of that moment for the part and notes when it has
every byte of the row. Nothing else of the copy and no byte changes. -/
def Stmt.LineReturns : Prop :=
  ∀ (s : State) die slice q r, (s.die die).queue slice = q :: r →
    let due := q.head < s.fab ∧ (q.hit = true ∨ q.acc + 64 ≤ s.fab)
    (¬ due → exec (.memorySideCacheReturn die slice) s = .next s)
    ∧ ∀ n, due → mapFind (s.core q.core).nodes q.ord = some n → n.copying = true → s.physRow q.part.piece.place.pa = .hbm →
      s.poison = [] → (∀ w ∈ (s.thread n.ctx.tid).pend, w.hedged = 0) → (s.thread n.ctx.tid).late = [] →
      let left := n.out.filter fun p => p.1.ix ≠ q.part.ix
      let row := q.part.ix / 2 ^ 64
      let more := (∃ p ∈ n.todo, p.ix / 2 ^ 64 = row) ∨ ∃ p ∈ left, p.1.ix / 2 ^ 64 = row
      ∃ t m, exec (.memorySideCacheReturn die slice) s = .next t ∧ t.threads = s.threads ∧ SameBytes s t
        ∧ (t.die die).queue slice = (match r with
          | h :: tl => { h with head := s.fab } :: tl
          | [] => [])
        ∧ mapFind (t.core q.core).nodes q.ord = some m
        ∧ { m with whole := n.whole } = { n with
            out := left,
            data := mapSet n.data q.part.ix (s.seeBytes n.ctx.tid .cpy q.part.piece.place.pa q.part.piece.len) }
        ∧ (more → m.whole = n.whole) ∧ (¬ more → m.whole = mapSet n.whole row s.fab)

/-- The engines and slices carry out copies (R218, R220, R290, R299 to R301, R329). -/
def Obligations.CopyResult : Prop := Stmt.CopyLaunch ∧ Stmt.CopyFinish ∧ Stmt.CopyCycle ∧ Stmt.LineReturns

/-- `GLINK` and `GWAIT` (R219, R220): an edge counts in both its nodes, has no effect from a finished predecessor and fails
the successor of a failed one; x0 releases a hold; a wait ends at a finished node, raises the failed node's cause with its
ordinal in telem, reported late, and goes on waiting otherwise; an id of no such node raises ILLEGAL, with xb in tval where
both ids of a `GLINK` are at fault (log 49). -/
def Stmt.GraphResult : Prop :=
  ∀ (s : State), s.me.clean = true → s.cur < 512 →
    let core := coreOf s.cur
    let c := s.core core
    let idOf := fun (o : Nat) => wordN (core * 2 ^ 32 + o)
    let isOrd := fun (o : Nat) => 1 ≤ o ∧ o < 2 ^ 32 ∧ o < c.nextOrd
    let trap := fun (i : Instr) (t : Trap) => exec i s = .next (s.takeTrap s.cur s.me.pc false t)
    (∀ a b o n, isOrd o → s.me.rx b = idOf o → mapFind c.nodes o = some n → n.st = .waiting →
      let goes := fun (f : Nat → Node → Node) => ∃ t, exec (.glink a b) s = .next t ∧ MachineKept s t
        ∧ t.me = { s.me with pc := s.me.pc + 16 } ∧ (t.core core).nextOrd = c.nextOrd
        ∧ ∀ k, mapFind (t.core core).nodes k = (mapFind c.nodes k).map (f k)
      (a = 0 → n.held = true →
        goes fun k m => if k = o then { m with held := false, preds := m.preds - 1 } else m)
      ∧ (a = 0 → n.held = false → trap (.glink a b) { cause := .illegal, tval := s.me.rx b })
      ∧ (∀ p, a ≠ 0 → isOrd p → s.me.rx a = idOf p →
        (mapFind c.nodes p = none → goes fun _ m => m)
        ∧ (∀ m, mapFind c.nodes p = some m → m.live = true → p ≠ o → goes fun k m =>
            if k = o then { m with preds := m.preds + 1 } else if k = p then { m with succs := m.succs ++ [o] } else m)
        ∧ (∀ m, mapFind c.nodes p = some m → m.live = true → p = o → goes fun k m =>
            if k = o then { m with preds := m.preds + 1, succs := m.succs ++ [o] } else m)
        ∧ (∀ m cause v, mapFind c.nodes p = some m → m.st = .failed cause v →
          ∃ t n', exec (.glink a b) s = .next t ∧ t.me = { s.me with pc := s.me.pc + 16 }
            ∧ mapFind (t.core core).nodes o = some n' ∧ n'.st = .failed cause v))
      ∧ (a ≠ 0 → (∀ p, isOrd p → s.me.rx a ≠ idOf p) → trap (.glink a b) { cause := .illegal, tval := s.me.rx a }))
    ∧ (∀ a b, (∀ o n, isOrd o → mapFind c.nodes o = some n → n.st = .waiting → s.me.rx b ≠ idOf o) →
      trap (.glink a b) { cause := .illegal, tval := s.me.rx b })
    ∧ (∀ a o, isOrd o → s.me.rx a = idOf o →
      let waits := fun (h : Hold) (step : Word) => ∃ t, exec (.gwait a) s = .next t ∧ OnlyMe s t
        ∧ t.me = { s.me with holds := h, pc := s.me.pc + step }
      (mapFind c.nodes o = none → waits .nothing 16)
      ∧ ∀ n, mapFind c.nodes o = some n → (n.live = true → waits (.node o) 0)
        ∧ ∀ cause v, n.st = .failed cause v → trap (.gwait a) { cause := cause, tval := v, telem := wordN o, late := true })
    ∧ ∀ a, (∀ o, isOrd o → s.me.rx a ≠ idOf o) → trap (.gwait a) { cause := .illegal, tval := s.me.rx a }

/-- The dependence graph as instructions build it and wait on it (R218 to R220). -/
def Obligations.GraphBuilding : Prop := Stmt.CopyCreation ∧ Stmt.GraphResult

/-- `RPUSH`, `RPEEK` and `RPOP` (R214): a push copies one slot's bytes to the next slot of the cluster's SRAM and publishes
it, and waits while the slowest consumer has not passed that slot; a peek gives the slot's window address or sequence
number and waits while nothing is published; a pop moves the consumer's cursor. Anything else of a ring, another handle or
consumer, or a ring torn down meanwhile raises RINGSEQ. -/
def Stmt.RingMoves : Prop :=
  ∀ (s : State) q, s.me.clean = true →
    let clu := cluOf s.cur
    let ringseq := fun (i : Instr) (ci : Nat) => ∃ t, exec i s = .next (t.takeTrap s.cur s.me.pc false
        { cause := .ringseq, tval := wordN (q.toNat + 16 * ci) })
      ∧ OnlyMe s t ∧ t.me = { s.me with holds := .nothing }
    (∀ r, mapFind (s.cluster clu).rings q.toNat = some r → s.me.holds ≠ .ring q.toNat true →
      let slot := fun (j : Nat) => r.bank * 2 ^ 17 + j % (r.nb * 1024 / r.ss) * (r.ss * 128)
      let waits := fun (i : Instr) => ∃ t, exec i s = .next t ∧ OnlyMe s t
        ∧ t.me = { s.me with holds := .ring q.toNat false }
      (∀ a imm bs, r.cursors ≠ [] →
        ((∀ c ∈ r.cursors, r.push < c + r.nb * 1024 / r.ss) →
          (s.readRange (s.ctxOf s.cur) .cpy (s.me.rx a + imm) (r.ss * 128)).2 = .ok bs →
          let base := sramBase + clu * 2 ^ 22 + slot r.push
          ∃ t, exec (.rpush q a imm) s = .next t
            ∧ (∀ k, t.byte k = if base ≤ k ∧ k < base + r.ss * 128 then bs.getD (k - base) 0 else s.byte k)
            ∧ mapFind (t.cluster clu).rings q.toNat = some { r with push := r.push + 1 }
            ∧ t.me = { s.me with holds := .nothing, pc := s.me.pc + 16 } ∧ ∀ k, k ≠ s.cur → t.thread k = s.thread k)
        ∧ (∀ c ∈ r.cursors, c + r.nb * 1024 / r.ss ≤ r.push → waits (.rpush q a imm)))
      ∧ ∀ d (ci : BitVec 3) c, r.cursors[ci.toNat]? = some c →
        (c < r.push → ∀ seq, ∃ t, exec (.rpeek d q ci seq) s = .next t ∧ OnlyMe s t
          ∧ RegisterResult { s.me with holds := .nothing } t.me 16 d
            (wordN (if seq then c else 0x00FFFF0000000000 + slot c)) 0)
        ∧ (r.push ≤ c → ∀ seq, waits (.rpeek d q ci seq))
        ∧ (r.push ≤ c → ringseq (.rpop q ci) ci.toNat)
        ∧ (c < r.push → ∃ t r', exec (.rpop q ci) s = .next t ∧ t.me = { s.me with pc := s.me.pc + 16 }
          ∧ (∀ k, k ≠ s.cur → t.thread k = s.thread k) ∧ mapFind (t.cluster clu).rings q.toNat = some r'
          ∧ r'.cursors = r.cursors.set ci.toNat (c + 1) ∧ r.push ≤ r'.push
          ∧ ((∀ k, k < 8 → ∀ n ∈ (s.core (8 * clu + k)).nodes, n.2.ring = none) → r'.push = r.push ∧ SameBytes s t)))
    ∧ ((s.me.holds = .ring q.toNat true ∨ mapFind (s.cluster clu).rings q.toNat = none) → ∀ a imm d ci seq,
      ringseq (.rpush q a imm) 0 ∧ ringseq (.rpeek d q ci seq) ci.toNat ∧ ringseq (.rpop q ci) ci.toNat)
    ∧ ∀ r (ci : BitVec 3) d seq, mapFind (s.cluster clu).rings q.toNat = some r → r.cursors.length ≤ ci.toNat →
      ringseq (.rpeek d q ci seq) ci.toNat ∧ ringseq (.rpop q ci) ci.toNat

/-- `BANKCFG` (R213, R281): a value that breaks a limit raises ILLEGAL; one whose banks are in use waits; otherwise the
named banks take the mode, a bank that does not stay cache way or scratchpad reads zero, and a FIFO setting builds an empty
ring. -/
def Stmt.BankSetting : Prop :=
  ∀ (s : State) a, s.me.clean = true →
    let v := (s.me.rx a).toNat
    let clu := cluOf s.cur
    let bank := v % 32
    let mode := v / 32 % 4
    let q := v / 256 % 16
    let cons := v / 4096 % 8
    let ss := v / 65536 % 256
    let nb := v / 2 ^ 24 % 64
    let legal := mode ≠ 3 ∧ v / 2 ^ 30 = 0 ∧ v / 2 ^ 15 % 2 = 0 ∧ v / 2 ^ 7 % 2 = 0
      ∧ (mode = 2 → 1 ≤ nb ∧ bank + nb ≤ 32 ∧ 1 ≤ ss) ∧ (mode ≠ 2 → nb = 0 ∧ ss = 0 ∧ cons = 0 ∧ q = 0)
    let named := fun (b : Nat) => if mode = 2 then bank ≤ b ∧ b < bank + nb else b = bank
    let m : BankMode := if mode = 0 then .cache else if mode = 1 then .scratch else .fifo
    let torn := (s.cluster clu).tornBy (s.me.rx a)
    let busy := s.banksBusy clu (bankNamed (s.me.rx a) ++ torn.flatMap (·.2.banks)) (torn.map (·.1))
    (¬ legal → exec (.bankcfg a) s = .next (s.takeTrap s.cur s.me.pc false { cause := .illegal, tval := s.me.rx a }))
    ∧ (legal → busy = true → exec (.bankcfg a) s = .next s)
    ∧ (legal → busy = false → ∃ t, exec (.bankcfg a) s = .next t
      ∧ { t.me with holds := s.me.holds } = { s.me with pc := s.me.pc + 16 }
      ∧ (∀ b, named b → (t.cluster clu).mode b = m)
      ∧ (∀ b i, named b → ((s.cluster clu).mode b ≠ m ∨ m = .fifo) → i < 2 ^ 17 →
        t.byte (sramBase + clu * 2 ^ 22 + b * 2 ^ 17 + i) = 0)
      ∧ (m = .fifo → (t.cluster clu).ring q
        = some { bank := bank, nb := nb, ss := ss, push := 0, cursors := List.replicate (cons + 1) 0 })
      ∧ ∀ p r, mapFind (s.cluster clu).rings p = some r → (m ≠ .fifo ∨ p ≠ q) →
        (∃ b, named b ∧ r.bank ≤ b ∧ b < r.bank + r.nb) → (t.cluster clu).ring p = none)

/-- Rings and the banks they stand in (R213, R214, R281). -/
def Obligations.RingResult : Prop := Stmt.RingMoves ∧ Stmt.BankSetting

/-- `SPAWN` (R222, R313, R314, R317): after the thread's earlier CT and VLS writes, the 128 bytes at xa become the packet
with the tail number of the list of its region, as the table holds it now, or of the enabled descendant that xb names: the
tail counts one more, bytes 8 to 127 stand in its slot, and its seq word holds the number; xd is 0, or 1 with nothing placed
when the list is full. A packet that cannot be read raises its fault. A region that is neither the thread's nor a descendant
raises PROT, whatever the packet; that, and the packet's read before the test for room, is log 36. -/
def Obligations.SpawnResult : Prop :=
  ∀ (s : State) d a b own, s.me.clean = true → s.me.region = some own →
    let e := s.drain s.cur fencedPath
    let xb := s.me.rx b
    let mine := xb = 0 ∨ xb = own.id.setWidth 64
    let heir := fun (r : Region) => (∃ die x, x ∈ (s.die die).regions ∧ x.2 = r) ∧ r.id.setWidth 64 = xb ∧ own.rcb ∈ r.chain
    let target := fun (r : Region) => mine ∧ r = (s.liveRegion own).getD own ∨ ¬ mine ∧ heir r ∧ ∀ q, heir q → q = r
    let pkt := e.readRange (s.ctxOf s.cur) .ct (s.me.rx a) 128
    (∀ r, target r →
      (∀ x, pkt.2 = .error x → exec (.spawn d a b) s = .next (pkt.1.takeTrap s.cur s.me.pc false { cause := x.1, tval := x.2 }))
      ∧ ∀ bs, pkt.2 = .ok bs →
        let j := e.listTail r
        let place := r.listBase + j % 2 ^ r.listLog * 128
        let full := 2 ^ r.listLog ≤ (j + 2 ^ 64 - e.listHead r) % 2 ^ 64
        (full → ∃ t, exec (.spawn d a b) s = .next t ∧ MachineKept e t ∧ RegisterResult e.me t.me 16 d 1 0)
        ∧ (¬ full → (r.rcb + 72 ≤ place ∨ place + 128 ≤ r.rcb + 64) → Mapped s (r.rcb + 64) 8 → Mapped s place 128 →
          ∃ t, exec (.spawn d a b) s = .next t ∧ RegisterResult e.me t.me 16 d 0 0
            ∧ (∀ k, k ≠ s.cur → t.thread k = e.thread k)
            ∧ t.listTail r = (j + 1) % 2 ^ 64 ∧ t.readPhys place 8 = j
            ∧ (∀ k, 8 ≤ k → k < 128 → t.byte (place + k) = bs.getD k 0)
            ∧ ∀ k, (k < place ∨ place + 128 ≤ k) → (k < r.rcb + 64 ∨ r.rcb + 72 ≤ k) → t.byte k = e.byte k))
    ∧ (¬ mine → (∀ r, ¬ heir r) →
      exec (.spawn d a b) s = .next (s.takeTrap s.cur s.me.pc false { cause := .prot, tval := xb }))

/-! ## The scheduler and the vector sequencer -/

/-- The packet that the words at a slot stand for, R319; its loop nest apart. -/
def packetAt (s : State) (r : Region) (pa : Nat) : Packet :=
  let f := fun off n => s.readPhys (pa + off) n
  { uid := s.uid, region := r, addr := pa, role := f 9 1, clu := if f 10 1 = 255 then none else some (f 10 1),
    evMiss := f 11 1 == 1, deadline := wordN (f 16 8), entry := wordN (f 24 8),
    args := (List.range 8).map fun i => wordN (f (32 + 8 * i) 8), nest := none, compAddr := wordN (f 104 8),
    compVal := wordN (f 112 8), total := 1, node := (s.gnodes.find? fun g => g.1 == r.rcb && g.2.1 == s.listHead r).map (·.2.2) }

/-- The slot keeps R319, its loop-nest record apart. -/
def PacketLegal (s : State) (r : Region) (pa : Nat) : Prop :=
  let f := fun off n => s.readPhys (pa + off) n
  (f 8 1 = 1 ∨ f 8 1 = 2) ∧ f 9 1 ≤ 3 ∧ (∃ k, k < 4 ∧ r.role k = f 9 1)
    ∧ (if f 10 1 = 255 then s.regionClus r ≠ [] else f 10 1 ∈ s.regionClus r)
    ∧ f 11 1 ≤ 1 ∧ f 12 4 = 0 ∧ f 24 8 % 16 = 0 ∧ f 104 8 % 8 = 0 ∧ f 120 8 = 0 ∧ (f 8 1 = 2 ∨ f 96 8 = 0)

/-- `PACKET_CONSUME` (R313, R317 to R321): the head packet of a resident region's list, once its seq word holds its
number, is consumed: head counts one more, and the packet joins the die's packets with the fields of its slot; one that
breaks R319 or whose loop-nest record does, or that cannot be read, leaves no packet: head counts one more all the same,
and a record of cause 2 with the slot's address and the time goes to the region's fault domain, or counts as dropped where
that is full or absent (R321, R329; the record's tval is open, log 6). That a packet with an uncorrectable error is one that
cannot be read is log 32. Otherwise, and while the dies are held in reset (R364), nothing happens. -/
def Stmt.PacketConsumed : Prop :=
  ∀ (s : State) die idx r, mapFind (s.die die).regions idx = some r →
    let h := s.listHead r
    let pa := r.listBase + h % 2 ^ r.listLog * 128
    let ready := s.hub.recovery = false ∧ s.resident r = true ∧ h < s.listTail r ∧ s.readPhys pa 8 = h
      ∧ Mapped s (r.rcb + 64) 48 ∧ Mapped s pa 128
    let takes := fun (p : Packet) => ∃ t, exec (.packetConsume die idx) s = .next t ∧ t.threads = s.threads
      ∧ t.listHead r = (h + 1) % 2 ^ 64 ∧ (∀ k, (k < r.rcb + 72 ∨ r.rcb + 80 ≤ k) → t.byte k = s.byte k)
      ∧ (t.die r.die).packets = (s.die r.die).packets ++ [p]
    (ready → PacketLegal s r pa → s.poison = [] → s.readPhys (pa + 8) 1 = 1 → takes (packetAt s r pa))
    ∧ (∀ n, ready → PacketLegal s r pa → s.poison = [] → s.readPhys (pa + 8) 1 = 2 →
      (s.readNest r (wordN (s.readPhys (pa + 96) 8))).2 = some n →
      takes { packetAt s r pa with nest := some n, total := n.dims.foldl (fun m d => m * d.2.1) 1 })
    ∧ (ready → (¬ PacketLegal s r pa ∨ s.poisoned pa = true ∨ s.readPhys (pa + 8) 1 = 2
        ∧ (s.readNest r (wordN (s.readPhys (pa + 96) 8))).2 = none) →
      let drops := fun (t : State) => exec (.packetConsume die idx) s = .next t ∧ t.threads = s.threads
        ∧ (t.die r.die).packets = (s.die r.die).packets ∧ t.listHead r = (h + 1) % 2 ^ 64
      let counts := ∃ t, drops t ∧ t.readPhys (r.rcb + 92) 4 = (s.readPhys (r.rcb + 92) 4 + 1) % 2 ^ 32
        ∧ ∀ k, (k < r.rcb + 72 ∨ r.rcb + 80 ≤ k) → (k < r.rcb + 92 ∨ r.rcb + 96 ≤ k) → t.byte k = s.byte k
      (r.ring = none → counts)
      ∧ ∀ base log, r.ring = some (base, log) → Mapped s base (32 * 2 ^ log + 8) →
        (base + 32 * 2 ^ log + 8 ≤ r.rcb ∨ r.rcb + 128 ≤ base) →
        let ix := s.readPhys (r.rcb + 104) 8
        let at' := base + 32 * (ix % 2 ^ log)
        let full := 2 ^ log ≤ (ix + 2 ^ 64 - s.readPhys (base + 32 * 2 ^ log) 8) % 2 ^ 64
        (full → counts)
        ∧ (¬ full → ∃ t, drops t ∧ t.readPhys at' 4 = 2 ∧ t.readPhys (at' + 4) 4 = r.id.toNat
          ∧ t.readPhys (at' + 8) 8 = pa % 2 ^ 64 ∧ t.readPhys (at' + 24) 8 = s.time.toNat
          ∧ t.readPhys (r.rcb + 104) 8 = (ix + 1) % 2 ^ 64))
    ∧ (s.hub.recovery = true ∨ s.resident r = false ∨ s.listTail r ≤ h ∨ Mapped s pa 128 ∧ s.readPhys pa 8 ≠ h →
      exec (.packetConsume die idx) s = .next s)

/-- The first of two packets under R322: priority, deadline, table index, order of consumption. -/
def Precedes (p q : Packet) : Prop :=
  q.region.prio < p.region.prio ∨ q.region.prio = p.region.prio ∧ (p.deadline.toNat < q.deadline.toNat
    ∨ p.deadline = q.deadline ∧ (p.region.idx < q.region.idx ∨ p.region.idx = q.region.idx ∧ p.uid < q.uid))

/-- Index i of the iteration that a loop nest's packet takes next, R320. -/
def loopIndex (p : Packet) (n : Nest) (i : Nat) : Word :=
  match n.dims[i]? with
  | some d => d.1 + wordI ((p.placed / (n.dims.drop (i + 1)).foldl (fun m x => m * x.2.1) 1 % d.2.1 : Nat) * d.2.2.toInt)
  | none => 0

/-- A task of a packet starts on a context (R6, R7, R315, R316, R331): the registers of the ABI, the slot's grant, type and
vl at their start values, user mode at the entry, and the packet counting one more placed and running task. No byte of
memory changes, and no thread but the core's others, which may get a pending grant. -/
def TaskStarts (s t : State) (p : Packet) (tid : Nat) : Prop :=
  let th := t.thread tid
  t.mem = s.mem ∧ (∀ k, k ≠ tid → { t.thread k with
      pendGrant := (s.thread k).pendGrant, shrunk := (s.thread k).shrunk, reform := (s.thread k).reform } = s.thread k)
    ∧ (∀ k, coreOf k ≠ coreOf tid → t.thread k = s.thread k)
    ∧ th.run = .ready ∧ th.sup = false ∧ th.pc = p.entry ∧ th.region = some p.region ∧ th.task = some p.uid
    ∧ th.rx 2 = p.region.stackBase + wordN ((tid + 1) * p.region.stackSize) ∧ th.rx 3 = p.region.gp ∧ th.rx 4 = wordN tid
    ∧ (∀ i, i < 8 → th.rx (BitVec.ofNat 6 (5 + i)) = p.args.getD i 0)
    ∧ (∀ n, p.nest = some n → n.dims.length ≤ 6 → (∀ i, i < 6 → th.rx (BitVec.ofNat 6 (45 + i)) = loopIndex p n i)
      ∧ th.rx 51 = wordN p.placed ∧ th.rx 52 = n.addr)
    ∧ (p.nest = none → ∀ i, i < 8 → th.rx (BitVec.ofNat 6 (45 + i)) = 0)
    ∧ th.grant = s.slotGrant (coreOf tid) p.region (tid % 4) ∧ th.svec = ((s.die p.region.die).partOf p.region.part).svec
    ∧ th.vl = 0 ∧ th.vtype = 0x24 ∧ th.fcsr = 0 ∧ th.tstatus = 0 ∧ th.vdirty = 0 ∧ th.tvec = 0 ∧ th.used = 0
    ∧ th.tiles = p.region.tilesOf (tid % 4)
    ∧ ∃ q ∈ (t.die p.region.die).packets, q = { p with placed := p.placed + 1, running := p.running + 1, bound := q.bound }

/-- The next iteration of a loop nest is handed to a context of the same nest whose `END` waits (R14, R325): the context
keeps its task until the `END` takes effect, and the packet counts one more placed and running task. -/
def IterationHeld (s t : State) (p : Packet) (tid : Nat) : Prop :=
  t.mem = s.mem ∧ (∀ k, k ≠ tid → t.thread k = s.thread k)
    ∧ (∃ l, t.thread tid = { s.thread tid with ahead := some l }
      ∧ ∀ n, p.nest = some n → n.dims.length ≤ 6 → (∀ i, i < 6 → l.getD i 0 = loopIndex p n i)
        ∧ l.getD 6 0 = wordN p.placed ∧ l.getD 7 0 = n.addr)
    ∧ ∃ q ∈ (t.die p.region.die).packets, q = { p with placed := p.placed + 1, running := p.running + 1, bound := q.bound }

/-- `TASK_PLACEMENT` and `LOOP_NEST_ITERATION` (R322 to R326): the packet offered a context is a candidate of the die, it
can use the context, and no candidate before it claims that context; a packet before it that this event could place finds
every context that it could take claimed by candidates before itself. A candidate claims a context that is free, or whose
task's `END` waits, so that it will be, where cluster, slot, core and cap suit (R322, R325, R326). The context is free, or for
the next iteration of its own nest has issued its `END`; it lies in the region's partition, on a core in service, in a slot
of the packet's role, within the cap. A deadline that has come is counted first. -/
def Stmt.Placement : Prop :=
  (∀ (s : State) die which p tid, s.nextPlace die which = some (p, tid) →
    (p ∈ (s.die die).packets ∧ p.placed < p.total ∧ s.resident p.region = true ∧ which p = true)
    ∧ (∃ x ∈ (s.die p.region.die).regions, x.2.rcb = p.region.rcb)
    ∧ tid ∈ s.choices p ∧ tid / 32 ∈ s.regionClus p.region
    ∧ (∀ q ∈ (s.die die).packets, s.candidate q = true → Precedes q p → tid ∉ s.choices q ∧ tid ∉ s.claims q)
    ∧ (((s.die die).packets.map (·.uid)).Nodup → ∀ q ∈ (s.die die).packets, s.candidate q = true → which q = true →
      Precedes q p → ∀ u ∈ s.choices q, ∃ o ∈ (s.die die).packets, s.candidate o = true ∧ Precedes o q ∧ u ∈ s.claims o)
    ∧ ((s.thread tid).run = .free ∨ (s.thread tid).run = .ending ∧ p.nest ≠ none ∧ (s.thread tid).task = some p.uid)
    ∧ s.coreUp (coreOf tid) = true ∧ p.region.role (tid % 4) = p.role
    ∧ (p.region.cap = 0 ∨ coreOf tid ∈ s.coresOf p.region ∨ (s.coresOf p.region).length < p.region.cap))
  ∧ (∀ (s : State) p u, u ∈ s.claims p → s.coreUp (coreOf u) = true ∧ u / 32 ∈ s.regionClus p.region
    ∧ p.region.role (u % 4) = p.role ∧ ((s.thread u).run = .free ∨ (s.thread u).run = .ending)
    ∧ (p.region.cap = 0 ∨ coreOf u ∈ s.coresOf p.region ∨ (s.coresOf p.region).length < p.region.cap))
  ∧ (∀ (s : State) die which, s.hub.recovery = false → s.nextPlace die which = none →
    ∀ q ∈ (s.die die).packets, s.candidate q = true → which q = true →
      ∀ u ∈ s.choices q, ∃ o ∈ (s.die die).packets, s.candidate o = true ∧ u ∈ s.claims o
        ∧ (which o = false ∨ u ∉ s.choices o))
  ∧ (∀ (s : State) p w, p.nest ≠ none → w ∈ s.choices p →
    (∀ c, (s.cluster (w / 32)).walked = some c → c + 8 ≤ (s.cluster (w / 32)).cycle)
    ∧ (∀ c, p.bound = some c → w / 32 = c)
    ∧ (p.bound = none → ((s.die (dieOf (w / 32))).packets.filter fun q =>
      decide (q.bound = some (w / 32) ∧ s.resident q.region = true)).length < 4))
  ∧ ∀ (s : State) die i which, (i = Instr.taskPlacement die ∧ which = (fun (p : Packet) => p.bound.isNone)
      ∨ ∃ clu, die = dieOf clu ∧ i = .loopNestIteration clu ∧ which = fun p => decide (p.bound = some clu)) →
    (s.nextPlace die which = none → exec i s = .next s)
    ∧ ∀ p tid, s.nextPlace die which = some (p, tid) → p.region.die = die →
      let places := fun (u : State) (p : Packet) => ∃ t, exec i s = .next t
        ∧ ((s.thread tid).run = .free → TaskStarts u t p tid)
        ∧ ((s.thread tid).run = .ending → IterationHeld u t p tid)
      ((p.missed = true ∨ s.time.toNat < p.deadline.toNat) → places s p)
      ∧ (p.missed = false → p.deadline.toNat ≤ s.time.toNat → (s.die die).packet p.uid = some p →
        ∃ u, exec (.deadlineMiss die p.uid) s = .next u ∧ places u { p with missed := true })

/-- `DEADLINE_MISS` (R323, R329): a candidate whose deadline has come counts one miss of its region, once, and with the
packet's flag writes a record of the fault domain with the packet's address and the time (its tval is open, log 6). -/
def Stmt.DeadlineMissed : Prop :=
  ∀ (s : State) die p, (s.die die).packet p.uid = some p → p.region.die = die →
    let r := p.region
    let due := s.hub.recovery = false ∧ s.candidate p = true ∧ p.missed = false ∧ p.deadline.toNat ≤ s.time.toNat
    Mapped s (r.rcb + 64) 48 →
    let misses := fun (t : State) => exec (.deadlineMiss die p.uid) s = .next t ∧ t.threads = s.threads
      ∧ t.readPhys (r.rcb + 88) 4 = (s.readPhys (r.rcb + 88) 4 + 1) % 2 ^ 32
      ∧ (t.die die).packet p.uid = some { p with missed := true }
    (due → p.evMiss = false → ∃ t, misses t ∧ ∀ k, (k < r.rcb + 88 ∨ r.rcb + 92 ≤ k) → t.byte k = s.byte k)
    ∧ (∀ base log, due → p.evMiss = true → r.ring = some (base, log) →
      (base + 32 * 2 ^ log + 8 ≤ r.rcb ∨ r.rcb + 128 ≤ base) → Mapped s base (32 * 2 ^ log + 8) →
      let ix := s.readPhys (r.rcb + 104) 8
      let at' := base + 32 * (ix % 2 ^ log)
      (ix + 2 ^ 64 - s.readPhys (base + 32 * 2 ^ log) 8) % 2 ^ 64 < 2 ^ log →
      ∃ t, misses t ∧ t.readPhys at' 4 = 1 ∧ t.readPhys (at' + 4) 4 = r.id.toNat
        ∧ t.readPhys (at' + 8) 8 = p.addr % 2 ^ 64 ∧ t.readPhys (at' + 24) 8 = s.time.toNat
        ∧ t.readPhys (r.rcb + 104) 8 = (ix + 1) % 2 ^ 64)
    ∧ (¬ due → exec (.deadlineMiss die p.uid) s = .next s)

/-- `PACKET_COMPLETION` (R319, R220, R329, R346): once every task has been placed and has ended, and the partition is
resident, the packet leaves the scheduler, the completion value stands at its address, where that is written, and the node
that placed it is finished. Where the address has no translation, or its page or an uncorrectable error refuses the write,
the value is dropped, the node has failed with that cause and the completion address in tval, and a record of cause 4 with
the packet's address and the completion address goes to the region's fault domain, or counts as dropped where that is full
or absent. -/
def Stmt.PacketCompleted : Prop :=
  ∀ (s : State) die p, (s.die die).packet p.uid = some p → p.region.die = die →
    let ended := p.placed = p.total ∧ p.running = 0 ∧ s.resident p.region = true
    let r := p.region
    let leaves := fun (t : State) => exec (.packetCompletion die p.uid) s = .next t ∧ t.threads = s.threads
      ∧ (t.die die).packet p.uid = none
      ∧ (∀ q ∈ (s.die die).packets, q.uid ≠ p.uid → q ∈ (t.die die).packets)
    let finished := fun (t : State) => ∀ n, p.node = some n → mapFind (t.core n.1).nodes n.2 = none
    (ended → p.compAddr = 0 → ∃ t, leaves t ∧ finished t ∧ SameBytes s t)
    ∧ (∀ q, ended → p.compAddr ≠ 0 → p.compAddr.toNat % 65536 + 8 ≤ 65536 →
      s.xlate p.region.schedCtx .write p.compAddr = .ok q →
      (s.poisoned q.pa = false → Mapped s q.pa 8 →
        ∃ t, leaves t ∧ finished t ∧ t.readPhys q.pa 8 = p.compVal.toNat
          ∧ ∀ k, (k < q.pa ∨ q.pa + 8 ≤ k) → t.byte k = s.byte k))
    ∧ (∀ c, ended → p.compAddr ≠ 0 → Mapped s (r.rcb + 88) 32 →
      (s.xlate r.schedCtx .write p.compAddr = .error c ∨ p.compAddr.toNat % 65536 + 8 ≤ 65536 ∧ c = .memue
        ∧ ∃ q, s.xlate r.schedCtx .write p.compAddr = .ok q ∧ s.poisoned q.pa = true) →
      let fails := fun (t : State) => leaves t ∧ ∀ n m, p.node = some n → mapFind (s.core n.1).nodes n.2 = some m →
        m.live = true → ∃ m', mapFind (t.core n.1).nodes n.2 = some m' ∧ m'.st = .failed c p.compAddr
      (∀ n m, p.node = some n → mapFind (s.core n.1).nodes n.2 = some m → m.live = true → r.ring = none → ∃ t, fails t)
      ∧ (p.node = none →
        let counts := ∃ t, fails t ∧ t.readPhys (r.rcb + 92) 4 = (s.readPhys (r.rcb + 92) 4 + 1) % 2 ^ 32
          ∧ ∀ k, (k < r.rcb + 92 ∨ r.rcb + 96 ≤ k) → t.byte k = s.byte k
        (r.ring = none → counts)
        ∧ ∀ base log, r.ring = some (base, log) → Mapped s base (32 * 2 ^ log + 8) →
          (base + 32 * 2 ^ log + 8 ≤ r.rcb ∨ r.rcb + 128 ≤ base) →
          let ix := s.readPhys (r.rcb + 104) 8
          let at' := base + 32 * (ix % 2 ^ log)
          let full := 2 ^ log ≤ (ix + 2 ^ 64 - s.readPhys (base + 32 * 2 ^ log) 8) % 2 ^ 64
          (full → counts)
          ∧ (¬ full → ∃ t, fails t ∧ t.readPhys at' 4 = 4 ∧ t.readPhys (at' + 4) 4 = r.id.toNat
            ∧ t.readPhys (at' + 8) 8 = p.addr % 2 ^ 64 ∧ t.readPhys (at' + 16) 8 = p.compAddr.toNat
            ∧ t.readPhys (at' + 24) 8 = s.time.toNat ∧ t.readPhys (r.rcb + 104) 8 = (ix + 1) % 2 ^ 64)))
    ∧ (¬ ended → exec (.packetCompletion die p.uid) s = .next s)

/-- What the scheduler does with a packet that it has consumed (R319 to R326, R329). -/
def Stmt.PacketLife : Prop := Stmt.Placement ∧ Stmt.DeadlineMissed ∧ Stmt.PacketCompleted

/-- Launch packets from their consumption to their completion (R313, R317 to R326, R329). -/
def Obligations.PacketResult : Prop := Stmt.PacketConsumed ∧ Stmt.PacketLife

/-- `WATCHDOG` (R327, R340, R341): a placed task that has used its limit, and has not been stopped in this run of the
count, is asked to stop, and only that; the thread takes WATCHDOG with the limit in tval once the instruction in hand has
completed. A `VF` that then waits to resume its block still does so after the trap (log 45). A supervisor is not stopped. -/
def Stmt.WatchdogStops : Prop :=
  (∀ (s : State) tid el, let th := s.thread tid
    let past := th.placed = true ∧ th.cycleCap ≠ 0 ∧ th.cycleCap ≤ th.used ∧ th.stop = none ∧ th.dogged = false
    (past → ∃ t, exec (.watchdog tid el) s = .next t ∧ { t with threads := s.threads } = s
      ∧ t.thread tid = { th with stop := some el, stopCycle := (s.cluster (cluOf tid)).cycle }
      ∧ ∀ k, k ≠ tid → t.thread k = s.thread k)
    ∧ (¬ past → exec (.watchdog tid el) s = .next s))
  ∧ ∀ (s : State) el r, s.me.stop = some el → s.me.halt = .none → s.me.run = .ready → s.me.blk = none →
    s.me.region = some r →
    (s.me.sup = false → ∃ u, OnlyMe s u ∧ u.me = { s.me with pc := s.me.pc + 16 }
      ∧ let t := fun vr => u.takeTrap s.cur (s.me.pc + 16) vr { cause := .watchdog, tval := r.cycleLimit }
        (u.atVf s.cur = false ∨ u.me.resumesAt = none → exec .nop s = .next (t false))
        ∧ ∀ e, u.atVf s.cur = true → u.me.resumesAt = some e →
          exec .nop s = .next ((t true).modThread s.cur fun th =>
            { th with dogAt := some (s.me.pc + 16, r.cycleLimit, e) }))
    ∧ (s.me.sup = true → ∃ t, exec .nop s = .next t ∧ OnlyMe s t ∧ t.me = { s.me with pc := s.me.pc + 16 })

/-- A WATCHDOG is requested of the issuing thread, which runs in user mode, is otherwise clean and has no block to resume. -/
abbrev dogAsked (s : State) (el : Nat) (r : Region) : Prop :=
  s.me.stop = some el ∧ { s.me with stop := none }.clean = true ∧ s.me.run = .ready ∧ s.me.sup = false
    ∧ s.me.region = some r ∧ s.me.vr = false ∧ s.me.resume = none

/-- The WATCHDOG of a region's limit, R327. -/
def dogOf (r : Region) : Trap := { cause := .watchdog, tval := r.cycleLimit }

/-- The instructions whose wait a forced save stops at once (R341). -/
def stopsWaiting : Instr → Bool
  | .claim .. | .bar .. | .rpeek .. | .waitm .. | .gwait .. | .bwait .. | .tjoin .. | .rlopen .. | .drove ..
  | .kset .. | .rpush .. => true
  | _ => false

/-- Instructions with a wait that R341 does not name: a forced save waits until they complete. -/
def waitsOn : Instr → Bool
  | .cpy .. | .cpy2d .. | .cpyg .. | .gnode .. | .hedge .. | .bankcfg .. | .halt | .endTask => true
  | _ => false

/-- A forced save at an instruction that waits (R341): one that the table names takes WATCHDOG at once, at its own
address, with what it has done so far (an arrival at a barrier and a post stand), where the instruction without the
request would have waited, and `RPUSH` with them, whose row has it execute again (R357); any other goes on waiting. -/
def Stmt.ForcedWaits : Prop :=
  ∀ (s : State) el r i t, dogAsked s el r → s.me.blk = none →
    exec i (s.modMe fun th => { th with stop := none }) = .next t →
    t.me.pc = s.me.pc → t.me.sup = false → t.me.uh = s.me.uh → t.me.run ∈ [Run.ready, .ending] →
      let same := fun (u : State) => { u with threads := t.threads } = t ∧ u.me = { t.me with stop := some el }
        ∧ ∀ k, k ≠ s.cur → u.thread k = t.thread k
      (stopsWaiting i = true →
        ∃ u, same u ∧ exec i s = .next (u.takeTrap s.cur s.me.pc false (dogOf r)))
      ∧ (waitsOn i = true → ∃ u, same u ∧ exec i s = .next u)

/-- A forced save at a vector load or store, and at a `TMMA` (R184, R340, R341): the elements from vstart up to the one at
which the save finds it are performed, WATCHDOG is taken at its address, and vstart names the next element, or the first
row of the next M-block; one whose elements are all performed completes first. -/
def Stmt.ForcedElements : Prop :=
  (∀ (s : State) el r i f, dogAsked s el r → s.me.blk = none → s.me.hasVector = true → loadForm s i = some f →
    let lim := max el s.me.vstart.toNat
    let q := runElems (loadOne f) ((performed s.me f.gov).filter (· < lim))
      ((s.modMe fun th => th.dirty f.vd th.ew).chargeVec s.me.ew)
    q.2 = none →
      (lim < s.me.vl → exec i s = .next ((q.1.modMe fun th => { th with vstart := wordN lim }).takeTrap s.cur s.me.pc
        false (dogOf r)))
      ∧ (s.me.vl ≤ lim → exec i s = .next ((q.1.modMe fun th => { th with vstart := 0, pc := th.pc + 16 }).takeTrap s.cur
        (s.me.pc + 16) false (dogOf r))))
  ∧ (∀ (s : State) el r i f ord, dogAsked s el r → s.me.blk = none → s.me.hasVector = true →
    storeForm s i = some (f, ord) →
    let lim := max el s.me.vstart.toNat
    let q := runElems (storeOne f (if ord = .u then none else some s.stamp) (if unitStore i then s.stamp + 1 else 0))
      ((performed s.me f.gov).filter (· < lim)) (({ s with stamp := s.stamp + 1 } : State).chargeVec s.me.ew)
    q.2 = none → q.1.me = { s.me with pend := q.1.me.pend, vt := q.1.me.vt } →
      (lim < s.me.vl → exec i s = .next ((q.1.modMe fun th => { th with vstart := wordN lim }).takeTrap q.1.cur s.me.pc
        false (dogOf r)))
      ∧ (s.me.vl ≤ lim → exec i s = .next ((q.1.modMe fun th => { th with vstart := 0, pc := th.pc + 16 }).takeTrap q.1.cur
        (s.me.pc + 16) false (dogOf r))))
  ∧ ∀ (s : State) el r assoc acc a b c wb rb n imm, dogAsked s el r → s.me.blk = none → s.me.hasVector = true →
    (s.core (coreOf s.cur)).accErr = [] → s.poison = [] → s.me.tiles.contains acc.toNat = true →
    tlbFresh s (s.ctxOf s.cur) →
    let ty := s.me.vTy
    let addr := fun (k : Nat) => s.me.rx a + imm + wordN k * s.me.rx b
    let g := (s.me.rx c).toNat
    let i0 := 16 * (s.me.vstart.toNat / 16)
    let last := max i0 (max el s.me.vstart.toNat) / 16
    actMode ty = some (s.tile acc).mode → ((s.tile acc).mode = .torus ↔ n ≠ 0) → 16 * rb.toNat + g ≤ 64 →
    mapFind (s.core (coreOf s.cur)).wbBad (if wb then 1 else 0) = none →
    ((s.tile acc).mode = .torus → (s.tile acc).tagValid = true → (s.tile acc).tag = (s.me.rx n).extractLsb' 32 4) →
    s.rowFault ty addr i0 g = none → max el s.me.vstart.toNat < g →
      ∃ u, exec (.tmma assoc false acc a b c wb rb n imm) s = .next (u.takeTrap s.cur s.me.pc false (dogOf r))
        ∧ TileOnly s u acc ∧ u.me.vstart = wordN (16 * last) ∧ u.me.pc = s.me.pc ∧ u.me.x = s.me.x
        ∧ ∀ q, 16 * rb.toNat + 16 * last ≤ q → (u.tile acc).row q = (s.tile acc).row q

/-- A forced save in a block (R147, R148, R327, R341): at the next E-word boundary, or between two elements of an ordered
reduction with vrstate, resumable at that E-word, which the core keeps while tval is the limit (log 45); after a `vpfetch`,
when the `VF` completes, or at an E-word boundary with VR = 0 once 65,536 cycles have passed. -/
def Stmt.ForcedBlocks : Prop :=
  ∀ (s : State) el r b e, dogAsked s el r → s.me.blk = some b →
    let late := s.me.stopCycle + 65536 ≤ (s.cluster (s.cur / 32)).cycle
    let dog := fun (u : State) (e : Word) => (u.takeTrap s.cur b.vf true (dogOf r)).modThread s.cur fun th =>
      { th with dogAt := some (b.vf, r.cycleLimit, e) }
    (b.group ≠ [] →
      let u := s.modMe fun th => { th with blk := some { b with epc := b.epc + 8 } }
      (b.diverged = false →
        exec (.vnop e) s = .next (dog u (b.epc + 8)))
      ∧ (b.diverged = true → ¬ late → exec (.vnop e) s = .next u)
      ∧ (b.diverged = true → late → exec (.vnop e) s = .next ((u.takeTrap s.cur b.vf false (dogOf r)).modThread
        s.cur fun th => { th with dogAt := none })))
    ∧ (b.pending = [] → exec (.vstop e) s = .next ((s.modMe fun th => { th with blk := none, pc := b.vf + 16 }).takeTrap
        s.cur (b.vf + 16) false (dogOf r)))
    ∧ ∀ i q, reduceRow s.me i = some q → q.ok = true → q.e.f = 1 → s.me.vl ≤ 8192 → b.diverged = false →
      let w := (s.me.eTy q.e).width
      let lim := max el s.me.vstart.toNat
      ([q.e.va, q.e.vb, q.e.vd].all fun v => s.me.regOk v w) = true → lim < s.me.vl →
        ∃ u, exec i s = .next (dog u b.epc) ∧ MachineKept s u
          ∧ u.me = { s.me with
              vt := u.me.vt, fcsr := u.me.fcsr, vdirty := (s.me.dirty q.e.vd w).vdirty, vstart := wordN lim,
              vrstate := if lim = 0 then s.me.vrstate else wordN (q.value { s.me with vl := lim } b).1 }

/-- The region of a context has been charged less than its floor on the core in the current window of 65,536 cycles:
fewer element-beats than floor × 4,096 (R328). -/
def FloorOwed (s : State) (u : Nat) : Prop :=
  ∃ r, (s.thread u).region = some r ∧
    (if (s.core (u / 4)).beatsWin = (s.cluster (u / 32)).cycle / 65536 then mapGet 0 (s.core (u / 4)).beats r.rcb else 0)
      < r.floor * 4096

/-- The order of R330: a thread below its floor, higher priority, lower vt, lower thread number. -/
def TurnBefore (s : State) (w u : Nat) : Prop :=
  let prio := fun (k : Nat) => ((s.thread k).region.map (·.prio)).getD 0
  (FloorOwed s w ∧ ¬ FloorOwed s u) ∨ (FloorOwed s w ↔ FloorOwed s u) ∧ (prio u < prio w ∨ prio w = prio u
    ∧ ((s.thread w).vt < (s.thread u).vt ∨ (s.thread w).vt = (s.thread u).vt ∧ w < u))

/-- The turns at a core's vector sequencer (R328, R330): a thread with an entry ready that finds its lanes free takes its
turn, in the order of floor, priority, vt and thread number, and one is passed over only for a turn that holds its lanes
already or for a thread that comes before it; a turn ends after 8 idle cycles; a window's end clears the beats. -/
def Stmt.SequencerTurns : Prop :=
  (∀ (s : State) core (ready : List Nat), ∃ t new, exec (.vectorSequencerTurn core ready) s = .next t
    ∧ { t with cores := s.cores } = s ∧ (∀ k, k ≠ core → t.core k = s.core k)
    ∧ t.core core = { s.core core with turn := (s.core core).turn ++ new }
    ∧ (∀ u ∈ new, u ∈ ready ∧ coreOf u = core ∧ (s.thread u).run ≠ .free)
    ∧ ((s.core core).turn ++ new).Pairwise (fun u w => w ∈ new → u ≠ w ∧ grantsMeet (s.thread u).grant (s.thread w).grant = false)
    ∧ ∀ u ∈ ready, coreOf u = core → (s.thread u).run ≠ .free → u ∉ (s.core core).turn ++ new →
        ∃ w, grantsMeet (s.thread w).grant (s.thread u).grant = true
          ∧ (w ∈ (s.core core).turn ∨ w ∈ new ∧ TurnBefore s w u))
  ∧ (∀ (s : State) tid,
    let idle := (s.thread tid).blk = none ∧ (s.thread tid).entryAt + 8 ≤ (s.cluster (tid / 32)).cycle
    (idle → ∃ t, exec (.turnIdleEnd tid) s = .next t ∧ { t with cores := s.cores } = s
      ∧ (∀ k, k ≠ coreOf tid → t.core k = s.core k)
      ∧ t.core (coreOf tid) = { s.core (coreOf tid) with
          turn := (s.core (coreOf tid)).turn.filter (fun u => u ≠ tid), want := (s.core (coreOf tid)).want.filter (fun u => u ≠ tid) })
    ∧ (¬ idle → exec (.turnIdleEnd tid) s = .next s))
  ∧ ∀ (s : State) core, let w := (s.cluster (core / 8)).cycle / 65536
    ((s.core core).beatsWin ≠ w → ∃ t, exec (.floorWindowEnd core) s = .next t ∧ { t with cores := s.cores } = s
      ∧ (∀ k, k ≠ core → t.core k = s.core k) ∧ t.core core = { s.core core with beats := [], beatsWin := w })
    ∧ ((s.core core).beatsWin = w → exec (.floorWindowEnd core) s = .next s)

/-- Task e of the core is exclusive, on 8 lanes or fewer, of higher priority than the thread, and its lanes overlap the
thread's (R331). -/
def TakesLanesOf (s : State) (tid e : Nat) : Prop :=
  let x := s.thread e
  e ≠ tid ∧ e / 4 = tid / 4 ∧ x.task ≠ none ∧ x.run ≠ .free ∧ (∃ r, x.region = some r ∧ r.excl = true)
    ∧ grantLanes x.grant ≤ 8
    ∧ ((s.thread tid).region.map (·.prio)).getD 0 < (x.region.map (·.prio)).getD 0
    ∧ grantsMeet (s.thread tid).grant x.grant = true

/-- `PENDING_GRANT_REFORM` (R331): after a `TFORK` or `TJOIN` a thread whose lanes an exclusive task takes gets, as pending
grant, the half of its own grant that does not overlap the exclusive one, and none when no overlap remains; whatever the
exclusive tasks, the grant is a legal one within its own, and it returns when they end. -/
def Stmt.GrantReformed : Prop :=
  ∀ (s : State) tid, let th := s.thread tid
    (th.reform = false → exec (.pendingGrantReform tid) s = .next s)
    ∧ (th.reform = true → ∃ t, exec (.pendingGrantReform tid) s = .next t ∧ { t with threads := s.threads } = s
      ∧ (∀ k, k ≠ tid → t.thread k = s.thread k)
      ∧ { t.thread tid with pendGrant := th.pendGrant, shrunk := th.shrunk } = { th with reform := false }
      ∧ (∀ e, e ∈ (t.thread tid).shrunk ↔ e ∈ th.shrunk ∨ TakesLanesOf s tid e)
      ∧ ((∀ e, ¬ TakesLanesOf s tid e) → (t.thread tid).pendGrant = none)
      ∧ (grantOk th.grant = true → (∀ e, TakesLanesOf s tid e → grantOk (s.thread e).grant = true) →
        ∀ g, (t.thread tid).pendGrant = some g → grantOk g = true ∧ 2 * grantLanes g ≤ grantLanes th.grant
          ∧ grantBase th.grant ≤ grantBase g ∧ grantBase g + grantLanes g ≤ grantBase th.grant + grantLanes th.grant)
      ∧ ∀ e, TakesLanesOf s tid e → (∀ k, TakesLanesOf s tid k → k = e) →
        let x := (s.thread e).grant
        grantOk th.grant = true → grantOk x = true → grantLanes x < grantLanes th.grant → 4 ≤ grantLanes th.grant →
          ∃ g, (t.thread tid).pendGrant = some g ∧ grantsMeet g x = false ∧ grantLanes g = grantLanes th.grant / 2)

/-- The watchdog, the vector sequencer and pending grants (R327, R328, R330, R331). -/
def Obligations.SequencerResult : Prop :=
  Stmt.WatchdogStops ∧ Stmt.ForcedWaits ∧ Stmt.ForcedElements ∧ Stmt.ForcedBlocks ∧ Stmt.SequencerTurns
    ∧ Stmt.GrantReformed

/-! ## Controllers, outside parties and tables -/

/-- One RAS record more, in the next slot of the ring (R392). -/
def Logged (s t : State) (code cls die unit : Nat) (detail : Word) : Prop :=
  t.hub.rasCount = s.hub.rasCount + 1 ∧ mapFind t.hub.ras (s.hub.rasCount % 4096)
    = some { time := s.time, code := code, cls := cls, die := die, unit := unit, detail := detail }

/-- The hub but for its RAS log is as before. -/
def HubKept (s t : State) : Prop :=
  { t.hub with ras := s.hub.ras, rasCount := s.hub.rasCount, fatal := s.hub.fatal } = s.hub

/-- Only the registers of one die have changed. -/
def DieOnly (s t : State) (d : DieId) : Prop :=
  { t with dieA := s.dieA, dieB := s.dieB } = s ∧ ∀ e, e ≠ d → t.die e = s.die e

/-- Only one bank of a channel has changed, and the channel's counts. -/
def BankOnly (s t : State) (d : DieId) (ch b : Nat) (x : Bank) (rm alerts : Nat) : Prop :=
  DieOnly s t d ∧ { t.die d with channels := (s.die d).channels } = s.die d
    ∧ (∀ k, k ≠ ch → (t.die d).channel k = (s.die d).channel k)
    ∧ (t.bank d ch b = x ∧ ∀ k, k ≠ b → t.bank d ch k = s.bank d ch k)
    ∧ { (t.die d).channel ch with banks := [], rm := 0, alerts := 0 } = { (s.die d).channel ch with banks := [], rm := 0, alerts := 0 }
    ∧ ((t.die d).channel ch).rm = (((s.die d).channel ch).rm + rm) % 2 ^ 64
    ∧ ((t.die d).channel ch).alerts = (((s.die d).channel ch).alerts + alerts) % 2 ^ 64

/-- The HBM4 controllers (R383, R384, R386): refreshes owed under demand traffic, at most 8; the frequent-row tracker of 16
rows with its refresh management at the threshold; its clearing; an alert, which holds activations until its release; a die
has 128 channels (R3), and events of others do nothing. What
a refresh without demand traffic, and an activation at 8 owed, repay is the model's reading (log 30). -/
def Stmt.Controllers : Prop :=
  ∀ (s : State) die ch b, let x := s.bank die ch b
    let thr := ((s.die die).channel ch).thr
    (128 ≤ ch → ∀ row q, ∀ i ∈ [Instr.perBankRefresh die ch b q, .trackerClear die ch b, .alertRelease die ch b,
      .activationCountAlert die ch b, .activation die ch b row], exec i s = .next s) ∧ (ch < 128 →
    let goes := fun (i : Instr) (y : Bank) (rm alerts : Nat) => ∃ t, exec i s = .next t ∧ BankOnly s t die ch b y rm alerts
    goes (.perBankRefresh die ch b true) { x with owed := min 8 (x.owed + 1) } 0 0
    ∧ goes (.perBankRefresh die ch b false) { x with owed := x.owed - 1 } 0 0
    ∧ goes (.trackerClear die ch b) { x with rows := [] } 0 0
    ∧ goes (.alertRelease die ch b) { x with held := false } 0 0
    ∧ goes (.activationCountAlert die ch b)
        { x with
          held := true, owed := if x.owed = 8 then 0 else x.owed,
          rows := x.rows.map fun r => (r.1, if thr ≤ 2 * r.2 then 0 else r.2) }
        (x.rows.filter fun r => thr ≤ 2 * r.2).length 1
    ∧ ∀ row, (x.held = true → exec (.activation die ch b row) s = .next s)
      ∧ (x.held = false → let y := { x with owed := if x.owed = 8 then 7 else x.owed }
        (∀ n, mapFind x.rows row = some n → n + 1 < thr →
          goes (.activation die ch b row) { y with rows := mapSet x.rows row (n + 1) } 0 0)
        ∧ (∀ n, mapFind x.rows row = some n → thr ≤ n + 1 → ∃ rows, mapFind rows row = some 0
          ∧ (∀ k, k ≠ row → mapFind rows k = mapFind x.rows k) ∧ goes (.activation die ch b row) { y with rows := rows } 1 0)
        ∧ (mapFind x.rows row = none → x.rows.length < 16 → 1 < thr →
          goes (.activation die ch b row) { y with rows := mapSet x.rows row 1 } 0 0)
        ∧ (mapFind x.rows row = none → 16 ≤ x.rows.length →
          goes (.activation die ch b row) { y with rows := (x.rows.map fun r => (r.1, r.2 - 1)).filter fun r => r.2 != 0 } 0 0)))

/-- The end of a hot-page epoch (R296, R297): the tracker is cleared, the pages accessed from the other die more than twice
as often as from their own and at least the threshold are proposed to Ciros, the most remote first, at most 16 and no
PEERDST page; for such a page a record with its address is written, and it is left out of the next test. -/
def Stmt.HotPages : Prop :=
  ∀ (s : State) die, let x := s.die die
    let meets := fun (e : Nat × Nat × Nat) => e ∈ x.hot ∧ x.hotThr ≤ e.2.2 ∧ 2 * e.2.1 < e.2.2
      ∧ ∀ k ∈ x.hotSkip, k.1 = e.1 → k.2 < x.hotEpoch + 2 ^ 20
    (x.cycle < x.hotEpoch + 2 ^ 20 → exec (.hotPageEpochEnd die) s = .next s)
    ∧ (x.hotEpoch + 2 ^ 20 ≤ x.cycle → (x.hot.map (·.1)).Nodup →
      ∃ t pages, exec (.hotPageEpochEnd die) s = .next t ∧ t.mem = s.mem ∧ t.threads = s.threads ∧ HubKept s t
        ∧ (t.die die).hot = [] ∧ (t.die die).hotEpoch = x.hotEpoch + 2 ^ 20
        ∧ t.out = (if pages = [] then s.out else s.out ++ [.hotPages die pages]) ∧ pages.length ≤ 16
        ∧ (∀ g ∈ pages, ∃ e, meets e ∧ e.1 % 2 = 0 ∧ g = (e.1 / 2 % 64, e.1 / 128))
        ∧ (∀ e, meets e → e.1 % 2 = 0 → (e.1 / 2 % 64, e.1 / 128) ∉ pages → pages.length = 16
          ∧ ∀ f, meets f → f.1 % 2 = 0 → (f.1 / 2 % 64, f.1 / 128) ∈ pages → e.2.2 ≤ f.2.2)
        ∧ (∀ e, meets e → e.1 % 2 = 1 → mapFind (t.die die).hotSkip e.1 = some (x.hotEpoch + 2 ^ 21))
        ∧ ∃ l : List (Nat × Nat × Nat), l.Nodup ∧ (∀ e, e ∈ l ↔ meets e ∧ e.1 % 2 = 1)
          ∧ t.hub.rasCount = s.hub.rasCount + l.length
          ∧ (l.length ≤ 4096 → ∀ e ∈ l, ∃ k, mapFind t.hub.ras k = some
              { time := s.time, code := 6, cls := 0, die := dieNo die, unit := dieNo die,
                detail := wordN (e.1 / 128 * 2 ^ (e.1 / 2 % 64)) }))

/-- Errors (R2, R3, R36 to R40, R355, R393): a memory error of HBM4, or of the SRAM of a cluster in service, is logged with
its address, and an uncorrectable one poisons its 8 bytes; a byte of a lane word of a core in service keeps an error until a
read meets it or writes cover it, a register word one that cannot be corrected, as none in an accumulator, ciphertext or
table register can; a corrected one is logged only, when it arises (log 37). The late loads of the core's threads take no
other value from then on (log 8). -/
def Stmt.Errors : Prop :=
  (∀ (s : State) addr uncorr,
    (s.physRow addr = .hbm → ∃ t, exec (.memoryError addr uncorr) s = .next t ∧ SameBytes s t ∧ t.threads = s.threads
      ∧ Logged s t (if uncorr then 4 else 3) (if uncorr then 2 else 1) (if addr < 2 ^ 38 then 0 else 1) (s.channelOf addr) (wordN addr)
      ∧ ∀ a, t.poisoned a = (s.poisoned a || (uncorr && a / 8 == addr / 8)))
    ∧ (let c := (addr - sramBase) / 2 ^ 22
      s.physRow addr = .sram → (¬ (c < 16 ∧ s.hub.clu.getLsbD c = true) → exec (.memoryError addr uncorr) s = .next s)
      ∧ (c < 16 → s.hub.clu.getLsbD c = true → ∃ t unit, exec (.memoryError addr uncorr) s = .next t ∧ SameBytes s t
      ∧ t.threads = s.threads ∧ Logged s t (if uncorr then 4 else 3) (if uncorr then 2 else 1)
        (dieNo (dieOf c)) unit (wordN addr)
      ∧ ∀ a, t.poisoned a = (s.poisoned a || (uncorr && a / 8 == addr / 8))))
    ∧ (s.physRow addr ≠ .hbm → s.physRow addr ≠ .sram → exec (.memoryError addr uncorr) s = .next s))
  ∧ ∀ (s : State) tid,
    let up := tid < 512 ∧ s.hub.clu.getLsbD (tid / 32) = true
      ∧ (mapGet 0xFF s.hub.cores (tid / 32)).getLsbD (tid / 4 % 8) = true
    let bound := fun (k : Nat) => if k / 4 = tid / 4 then (s.thread k).bindAll else s.thread k
    let th := bound tid
    let others := fun (t : State) => ∀ k, k ≠ tid → t.thread k = bound k
    let mine := fun (t : State) => { t with threads := s.threads } = s ∧ others t
    (¬ up → ∀ loc, exec (.registerError tid loc) s = .next s)
    ∧ (∀ r g l byte, up → let i := Instr.registerError tid (.lane r g l byte)
      let holds := g < 8 ∧ l < 17 ∧ byte < 16 ∧ (s.halfCore (tid / 4) = true → l < 8 ∨ l = 16)
      (¬ holds → ∃ t, exec i s = .next t ∧ mine t ∧ t.thread tid = th)
      ∧ (holds → ∃ t, exec i s = .next t ∧ mine t ∧ { t.thread tid with vErr := th.vErr } = th
        ∧ (∃ e ∈ (t.thread tid).vErr, e.pos = r.toNat * 8 + g ∧ e.lane = l ∧ e.byte = byte)
        ∧ (∀ e ∈ th.vErr, e ∈ (t.thread tid).vErr)
        ∧ ∀ e ∈ (t.thread tid).vErr, e ∈ th.vErr ∨ e = { pos := r.toNat * 8 + g, lane := l, byte := byte, left := 0xFF }))
    ∧ ∀ kind n w uncorr, up → let i := Instr.registerError tid (.word kind n w uncorr)
      let stays := uncorr = true ∨ kind ∈ [RegKind.acc, .c, .tb]
      (stays → kind ≠ .acc → ∃ t, exec i s = .next t ∧ mine t ∧ { t.thread tid with regErr := th.regErr } = th
        ∧ ∀ e, e ∈ (t.thread tid).regErr ↔ e = (kind, n, w) ∨ e ∈ th.regErr)
      ∧ (kind = .acc → ∃ t, exec i s = .next t ∧ { t with threads := s.threads, cores := s.cores } = s
        ∧ others t ∧ t.thread tid = th ∧ (∀ k, k ≠ tid / 4 → t.core k = s.core k)
        ∧ { t.core (tid / 4) with accErr := (s.core (tid / 4)).accErr } = s.core (tid / 4)
        ∧ ∀ e, e ∈ (t.core (tid / 4)).accErr ↔ e = (n, w) ∨ e ∈ (s.core (tid / 4)).accErr)
      ∧ (¬ stays → ∃ t, exec i s = .next t ∧ { t with threads := s.threads, hub := s.hub } = s
        ∧ others t ∧ t.thread tid = th ∧ HubKept s t
        ∧ Logged s t 1 1 (dieNo (dieOf (cluOf tid))) tid (regTrap kind n).tval)

/-- Memory controllers, the hot-page tracker and errors. -/
def Obligations.MemoryDevices : Prop := Stmt.Controllers ∧ Stmt.HotPages ∧ Stmt.Errors

/-- An outside party has been answered, and nothing else has changed. -/
def Answers (s t : State) (r : Response) : Prop := t = { s with out := s.out ++ [r] }

/-- `REMOTE_READ` (R295, R381, R382): 64 or 128 bytes of one stack, which an enabled entry of that stack's table grants to
the reader, are returned; a part may be as it was before one of the writes that no `CFLUSH.sys` has covered (R236; which of
these values is returned is part of the event). Anything else is answered with ACCESSCTL and logged with the reader's id. -/
def Stmt.RemoteReads : Prop :=
  ∀ (s : State) stack reader addr len old,
    let x := s.die (homeDie addr)
    let granted := s.hub.wiping = false ∧ (len = 64 ∨ len = 128) ∧ stack < 8 ∧ addr / 2 ^ 36 = stack
      ∧ (addr + len - 1) / 2 ^ 36 = stack ∧ s.physRow addr = .hbm ∧ s.physRow (addr + len - 1) = .hbm
      ∧ ∃ e, e < 256 ∧
        let w := fun i => (mapGet 0 x.access ((stack % 4 * 256 + e) * 2 + i)).toNat
        w 1 / 2 ^ 63 = 1 ∧ (w 1 / 2 ^ 32 % 65536 = reader ∨ w 1 / 2 ^ 32 % 65536 = 0xFFFF)
          ∧ w 0 / 65536 % 2 ^ 36 * 65536 / 2 ^ 36 = stack ∧ w 0 / 65536 % 2 ^ 36 * 65536 ≤ addr
          ∧ addr + len ≤ w 0 / 65536 % 2 ^ 36 * 65536 + w 1 % 2 ^ 32 * 65536
    (granted → ∃ t data, exec (.remoteRead stack reader addr len old) s = .next t
      ∧ Answers s t (.remoteData stack reader addr data) ∧ data.length = len
      ∧ ∀ i, i < len →
        let part := (addr + i) / 8
        let k := old.getD (part - addr / 8) 0
        (k = 0 → data.getD i 0 = s.byte (addr + i))
        ∧ (1 ≤ k → data.getD i 0 = match (mapGet [] s.stale part).reverse[k - 1]? with
            | some w => (leBytes 8 w.toNat).getD ((addr + i) % 8) 0
            | none => s.byte (addr + i)))
    ∧ (8 ≤ stack → exec (.remoteRead stack reader addr len old) s = .next s)
    ∧ (stack < 8 → ¬ granted → ∃ t, exec (.remoteRead stack reader addr len old) s = .next t
      ∧ t.out = s.out ++ [.remoteRefused stack reader addr] ∧ { t with hub := s.hub, out := s.out } = s ∧ HubKept s t
      ∧ Logged s t 7 0 (if stack < 4 then 0 else 1) stack (wordN reader))

/-- CXL.mem (R355, R369, R375): a read of HBM4 returns its bytes at the coherence point, and no data during a wipe, in
recovery, outside HBM4 or at a poisoned byte; the owner's write to HBM4 changes exactly its bytes, and during a wipe or in
recovery nothing; a write of the host while it does not own the device is dropped and logged (R372). -/
def Stmt.CxlMemory : Prop :=
  ∀ (s : State) addr len (bytes : List Byte),
    let isOpen := s.hub.wiping = false ∧ s.hub.recovery = false
    let readable := isOpen ∧ ∀ i, i < len → s.physRow (addr + i) = .hbm ∧ s.poisoned (addr + i) = false
    (readable → ∃ t, exec (.cxlMemRead addr len) s = .next t
      ∧ Answers s t (.cxlData addr (some ((List.range len).map fun i => s.byte (addr + i)))))
    ∧ (¬ readable → ∃ t, exec (.cxlMemRead addr len) s = .next t ∧ Answers s t (.cxlData addr none))
    ∧ (isOpen → s.hub.valid = true → s.hub.owner = 1 → s.time.toNat < s.hub.timer + 2000000000 →
      (∀ i, i < bytes.length → s.physRow (addr + i) = .hbm) →
      ∃ t, exec (.cxlMemWrite addr bytes) s = .next t ∧ t.threads = s.threads
        ∧ ∀ k, t.byte k = ((if addr ≤ k then bytes[k - addr]? else none).getD (s.byte k)))
    ∧ (s.hub.valid = true → s.hub.owner = 1 → s.time.toNat < s.hub.timer + 2000000000 → ¬ isOpen →
      exec (.cxlMemWrite addr bytes) s = .next s)
    ∧ ((s.hub.valid = false ∨ s.hub.owner ≠ 1 ∧ s.time.toNat < s.hub.timer + 2000000000) →
      ∃ t, exec (.cxlMemWrite addr bytes) s = .next t ∧ { t with hub := s.hub } = s ∧ HubKept s t ∧ Logged s t 9 0 2 0 1)

/-- Holt (R376, R377): an access of a peer of 1 to 128 bytes within a line of HBM4, which an enabled window admits, is
performed at the coherence point and answered; an atomic is one of 4 or 8 bytes, aligned, and needs both rights; any other
access is refused with PROT to the issuer and logged with the node. A link that goes down fails the running copies that
have still to read or to write a byte of a peer with DATAFAULT; that it fails them whichever the link, and first performs
the writes that threads have pending to peers, is log 29. One of the 16 links comes up (R3). -/
def Stmt.HoltPeers : Prop :=
  (∀ (s : State) node addr len (bytes : List Byte) cas op ty (x y : Word),
    let allowed := fun (n : Nat) (r w : Bool) => s.hub.wiping = false ∧ s.hub.recovery = false ∧ s.hub.linksUp ≠ []
      ∧ 1 ≤ n ∧ addr % 128 + n ≤ 128 ∧ (∀ i, i < n → s.physRow (addr + i) = .hbm)
      ∧ ∃ k, k < 16 ∧
        let base := (mapGet 0 s.hub.windows (2 * k)).toNat / 65536 % 2 ^ 36 * 65536
        let v := (mapGet 0 s.hub.windows (2 * k + 1)).toNat
        v.testBit 63 = true ∧ (w = true → v.testBit 62 = true) ∧ (r = true → v.testBit 61 = true)
          ∧ (v.testBit 60 = true ∨ v / 2 ^ 40 % 2048 = node) ∧ base ≤ addr ∧ addr + n ≤ base + v % 2 ^ 32 * 65536
    let refuses := fun (i : Instr) => ∃ t, exec i s = .next t ∧ t.out = s.out ++ [.peerRefused node addr]
      ∧ { t with hub := s.hub, out := s.out } = s ∧ HubKept s t ∧ Logged s t 8 0 2 0 (wordN node)
    let n := ty.width / 8
    let single := (n = 4 ∨ n = 8) ∧ addr % n = 0 ∧ allowed n true true
    (allowed len true false → ∃ t, exec (.peerRead node addr len) s = .next t
      ∧ Answers s t (.peerData node addr ((List.range len).map fun i => s.byte (addr + i))))
    ∧ (¬ allowed len true false → refuses (.peerRead node addr len))
    ∧ (allowed bytes.length false true → ∃ t, exec (.peerWrite node addr bytes) s = .next t ∧ t.threads = s.threads
      ∧ t.out = s.out ++ [.peerAck node addr]
      ∧ ∀ k, t.byte k = ((if addr ≤ k then bytes[k - addr]? else none).getD (s.byte k)))
    ∧ (¬ allowed bytes.length false true → refuses (.peerWrite node addr bytes))
    ∧ (single → let old := s.readPhys addr n
      ∃ t, exec (.peerAtomic node addr cas op ty x y) s = .next t ∧ t.threads = s.threads
        ∧ t.out = s.out ++ [.peerData node addr (leBytes n old)]
        ∧ (∀ k, (k < addr ∨ addr + n ≤ k) → t.byte k = s.byte k)
        ∧ (cas = true → t.readPhys addr n
          = if old = x.toNat % 2 ^ ty.width then y.toNat % 2 ^ ty.width else old)
        ∧ (cas = false → AmoOp.tyOk op ty = true → Ty.amoOk ty = true →
          t.readPhys addr n = amoSpec op ty old (x.toNat % 2 ^ ty.width)))
    ∧ (¬ single → refuses (.peerAtomic node addr cas op ty x y)))
  ∧ ∀ (s : State) link,
    let u := s.landPeerWrites
    (link ∈ s.hub.linksUp → ∃ t, exec (.holtLinkDown link) s = .next t
      ∧ t.hub.linksUp = s.hub.linksUp.filter (fun l => l != link)
      ∧ (∀ k, { t.thread k with pend := (s.thread k).pend } = s.thread k
        ∧ ∀ w ∈ (t.thread k).pend, w ∈ (s.thread k).pend ∧ ∀ b ∈ w.bytes, s.physRow b.1 ≠ .peer)
      ∧ ∀ core ord m, mapFind (s.core core).nodes ord = some m → m.copying = true →
        ((∃ q ∈ m.todo, s.physRow q.piece.place.pa = .peer)
          ∨ ∃ c ∈ m.linesLeft, ∃ q ∈ (u.pieces m.ctx .write c.1 c.2).1, s.physRow q.place.pa = .peer) →
        ∃ m' v, mapFind (t.core core).nodes ord = some m' ∧ m'.st = .failed .datafault v)
    ∧ (link ∉ s.hub.linksUp → exec (.holtLinkDown link) s = .next s)
    ∧ ∃ t, exec (.holtLinkUp link) s = .next t ∧ { t with hub := s.hub } = s
      ∧ { t.hub with linksUp := s.hub.linksUp } = s.hub ∧ ∀ l, l ∈ t.hub.linksUp ↔ l = link ∧ link < 16 ∨ l ∈ s.hub.linksUp

/-- `REDUCTION_COMBINE` (R2, R237, R364, R380): once every rank of an enabled group whose core is in service has set its
arrival bit, element i of the result is the sum of the contributions in ascending rank, modulo the width for an integer or torus type and rounded to nearest
even at each addition for a float type; then the arrival word is zero and the completion value is written. A slot that was
written after its arrival bit gives an open value (R380), and is no case here; the engine takes no note of poison (log 42).
On a core out of service, and while the dies are held in reset, nothing is combined. -/
def Stmt.Reductions : Prop :=
  ∀ (s : State) g r, mapFind s.hub.redg g = some r →
    let n := r.ty.width / 8
    let slot := 128 * ((r.count * n + 127) / 128)
    let at' := fun (k i : Nat) => s.readPhys (r.landing + k * slot + i * n) n
    let res := r.landing + r.ranks * slot
    let arrived := r.reg.getLsbD 63 = true ∧ ∀ k, k < r.ranks → (s.readPhys r.arrival 8).testBit k = true
    let up := s.coreUp r.core = true ∧ s.hub.recovery = false
    let apart := fun (a m b l : Nat) => a + m ≤ b ∨ b + l ≤ a
    (arrived → up → redTyOk r.ty = true → 1 ≤ r.ranks → apart res (r.count * n) r.arrival 8 → apart res (r.count * n) r.compAddr 8 →
      apart r.arrival 8 r.compAddr 8 → Mapped s res (r.count * n) → Mapped s r.arrival 8 → Mapped s r.compAddr 8 →
      (∀ a, r.landing ≤ a → a < res → mapGet [] s.redOld (a / 8) = []) →
      ∃ t, exec (.reductionCombine g) s = .next t ∧ t.threads = s.threads ∧ t.hub = s.hub
        ∧ (∀ i, i < r.count → (isF r.ty = false → t.readPhys (res + i * n) n
              = ((List.range r.ranks).foldl (fun a k => a + at' k i) 0) % 2 ^ r.ty.width)
            ∧ (isF r.ty = true → t.readPhys (res + i * n) n
              = (List.range (r.ranks - 1)).foldl (fun a k => (fAdd r.ty .rne a (at' (k + 1) i)).1) (at' 0 i) % 2 ^ r.ty.width))
        ∧ t.readPhys r.arrival 8 = 0 ∧ t.readPhys r.compAddr 8 = r.compVal.toNat
        ∧ ∀ k, (k < res ∨ res + r.count * n ≤ k) → (k < r.arrival ∨ r.arrival + 8 ≤ k) →
            (k < r.compAddr ∨ r.compAddr + 8 ≤ k) → t.byte k = s.byte k)
    ∧ (¬ arrived ∨ ¬ up → exec (.reductionCombine g) s = .next s)

/-- Outside parties: remote readers, the host, peers and reductions. -/
def Obligations.OutsideAccess : Prop :=
  Stmt.RemoteReads ∧ Stmt.CxlMemory ∧ Stmt.HoltPeers ∧ Stmt.Reductions

/-! ## Tables, partitions, ownership and Ciros -/

/-- The master owns the device, and its ownership has not lapsed (R371). -/
def Owner (s : State) (m : BitVec 16) : Prop :=
  s.hub.valid = true ∧ s.hub.owner = m ∧ s.time.toNat < s.hub.timer + 2000000000

/-- An id of R370: the host, the board controller, or the Holt peer of one of the 2,048 nodes. -/
def Master (m : BitVec 16) : Prop := m = 1 ∨ m = 2 ∨ ∃ n, n < 2048 ∧ m.toNat = 0x1000 + n

/-- `OWNCLAIM`, `HEARTBEAT`, `SUCCESSOR` and the expiry (R370, R371, R373): a claim of an unowned device, and a heartbeat or
successor of its owner, succeed under the current epoch; a write that fails is logged with the master; ownership lapses 2 s
after the last write that succeeded; of claims in one cycle the host's wins, then the board controller's, then that of the
peer with the lowest id. -/
def Stmt.Ownership : Prop :=
  (∀ (s : State) m (v : Word), (s.hub.valid = true → s.time.toNat < s.hub.timer + 2000000000) → Master m →
    let now := v.toNat / 2 ^ 32 = s.hub.epoch
    let next := (s.hub.epoch + 1) % 2 ^ 32
    let sets := fun (i : Instr) (h : Hub) => exec i s = .next { s with hub := h }
    let fails := fun (i : Instr) => ∃ t, exec i s = .next t ∧ { t with hub := s.hub } = s ∧ HubKept s t
      ∧ Logged s t 9 0 2 0 (m.setWidth 64)
    (s.hub.valid = false → now →
      sets (.ownclaim m v) { s.hub with owner := m, valid := true, epoch := next, timer := s.time.toNat })
    ∧ ((s.hub.valid = true ∨ ¬ now) → fails (.ownclaim m v))
    ∧ (Owner s m → now → sets (.heartbeat m v) { s.hub with timer := s.time.toNat }
      ∧ sets (.successor m v) { s.hub with owner := v.setWidth 16, epoch := next, timer := s.time.toNat })
    ∧ ((¬ Owner s m ∨ ¬ now) → fails (.heartbeat m v) ∧ fails (.successor m v))
    ∧ exec .ownershipExpiry s = .next s)
  ∧ (∀ (s : State), s.hub.valid = true → s.hub.timer + 2000000000 ≤ s.time.toNat →
    ∃ t, exec .ownershipExpiry s = .next t ∧ { t with hub := s.hub } = s
      ∧ t.hub.valid = false ∧ t.hub.epoch = (s.hub.epoch + 1) % 2 ^ 32 ∧ t.hub.owner = s.hub.owner
      ∧ Logged s t 9 0 2 0 (s.hub.owner.setWidth 64))
  ∧ ∀ (s : State) (l : List (BitVec 16 × Nat × Word)) r, s.turns = .ownership l :: r → s.hub.valid = false → l ≠ [] →
    (∀ w ∈ l, Master w.1 ∧ w.2.1 = 0x108 ∧ w.2.2.toNat / 2 ^ 32 = s.hub.epoch) →
    ∃ t w, step s = .next t ∧ w ∈ l ∧ (∀ w' ∈ l, w.1.toNat ≤ w'.1.toNat) ∧ t.hub.valid = true ∧ t.hub.owner = w.1
      ∧ t.hub.epoch = (s.hub.epoch + 1) % 2 ^ 32 ∧ t.turns = r

/-- What only the owner may do, by another master while ownership has not lapsed: it is dropped and logged, and a request
of the host that is no posted write, here an image or a life-cycle command (log 10), is answered Unsupported Request (R372).
An id that no transport has does nothing (R370). -/
def Stmt.OwnerGate : Prop :=
  ∀ (s : State) m die ch v stack entry hi g p word img signed slotA,
    (s.hub.valid = true → s.time.toNat < s.hub.timer + 2000000000) → ¬ Owner s m →
    let posted := [Instr.channelConfigWrite m die ch v, .accessControlEntryWrite m die stack entry hi v,
      .reductionGroupEnable m g v, .regionTableWrite m die entry v, .rangeTableWrite m die entry hi v,
      .partitionTableWrite m die p word v, .swapOut m die v, .slotVerify m v, .minimumVersionRaise m v slotA,
      .retireAdd m v, .retireClear m v]
    let asked := [Instr.recoveryImage m img, .provision m signed, .deploy m, .decommission m]
    let drops := fun (i : Instr) (out : List Response) => ∃ t, exec i s = .next t
      ∧ { t with hub := s.hub, out := s.out } = s ∧ HubKept s t ∧ Logged s t 9 0 2 0 (m.setWidth 64) ∧ t.out = out
    (Master m → (∀ i ∈ posted, drops i s.out) ∧ ∀ i ∈ asked, drops i (if m = 1 then s.out ++ [.unsupported 1] else s.out))
    ∧ (¬ Master m → ∀ i ∈ posted ++ asked, exec i s = .next s)

/-- Who owns the device, and what only its owner does (R370 to R373). -/
def Obligations.OwnershipResult : Prop := Stmt.Ownership ∧ Stmt.OwnerGate

/-- No packet of a die is a candidate whose deadline has come and has not been counted (R323). -/
def NoDeadlineDue (s : State) (die : DieId) : Prop :=
  ∀ p ∈ (s.die die).packets, s.candidate p = true → p.missed = false → s.time.toNat < p.deadline.toNat

/-- The writes of the die's tables by the owner: channel limits are clamped and reserved bits kept (R385); the entries of the
four access tables of 256 are kept (R381); one of the 16 reduction groups is enabled when its descriptor is legal, and shows
err otherwise (R378, R379); a range entry
keeps its words, and shows err instead of en where it breaks R287 (R286), and only where a slice holds a line of the old or
the new range, or an access to one is in flight, may reads of them be stale (R289; which lines a slice may hold is log 9); a
region entry takes effect with
the fields that its control blocks resolve, for the packets of that control block already consumed too (R313 to R315), or
shows err. err tells of the last write of en = 1. A control block where an engine reaches no memory reads zero (log 29). A
write that could end the candidacy of a packet first counts a deadline that has come (R323). Nothing but the table changes. -/
def Stmt.TableWrites : Prop :=
  ∀ (s : State) m die (v : Word), Owner s m → Master m →
    let x := s.die die
    let v' := v &&& ~~~0x4000000000000000
    let bad := (v &&& 0x7FFFFFFFFFFFFFFF) ||| 0x4000000000000000
    let kept := fun (old : Word) => v' ||| (old &&& 0x4000000000000000)
    (∀ ch, (128 ≤ ch → exec (.channelConfigWrite m die ch v) s = .next s)
      ∧ (ch < 128 → let br := v.toNat / 2 ^ 18 % 4
        ∃ t, exec (.channelConfigWrite m die ch v) s = .next t ∧ DieOnly s t die
        ∧ { t.die die with channels := x.channels } = x ∧ (∀ k, k ≠ ch → (t.die die).channel k = x.channel k)
        ∧ (t.die die).channel ch = { x.channel ch with
            br := if br = 0 ∨ br = 3 then 1 else br, thr := max 64 (v.toNat % 65536), rsv := v &&& 0xFFFFFFFFFFF30000 }))
    ∧ (∀ stack entry (hi : Bool), let k := (stack * 256 + entry) * 2 + if hi then 1 else 0
      (4 ≤ stack ∨ 256 ≤ entry → exec (.accessControlEntryWrite m die stack entry hi v) s = .next s)
      ∧ (stack < 4 → entry < 256 → ∃ t, exec (.accessControlEntryWrite m die stack entry hi v) s = .next t ∧ DieOnly s t die
        ∧ { t.die die with access := x.access } = x ∧ mapFind (t.die die).access k = some v
        ∧ ∀ j, j ≠ k → mapFind (t.die die).access j = mapFind x.access j))
    ∧ (∀ g, 16 ≤ g → exec (.reductionGroupEnable m g v) s = .next s)
    ∧ (∀ g, g < 16 → ∃ t r, exec (.reductionGroupEnable m g v) s = .next t ∧ { t with hub := s.hub } = s
        ∧ { t.hub with redg := s.hub.redg } = s.hub ∧ mapFind t.hub.redg g = some r
        ∧ (∀ k, k ≠ g → mapFind t.hub.redg k = mapFind s.hub.redg k)
        ∧ (v.getLsbD 63 = false → r.reg = kept (mapGet {} s.hub.redg g).reg)
        ∧ (v.getLsbD 63 = true → s.readRed v' = none → r.reg = bad)
        ∧ ∀ r', v.getLsbD 63 = true → s.readRed v' = some r' → r = r' ∧ r.reg = v')
    ∧ (∀ entry (hi : Bool), let k := 2 * entry + if hi then 1 else 0
      ∃ t, exec (.rangeTableWrite m die entry hi v) s = .next t ∧ DieOnly { s with moved := t.moved } t die
        ∧ { t.die die with range := x.range } = x ∧ (∀ j, j ≠ k → mapGet 0 (t.die die).range j = mapGet 0 x.range j)
        ∧ mapGet 0 (t.die die).range k
          = (if hi = false ∨ rangeOk die (x.rangeWord entry 0) v' = true then (if hi then v' else v) else bad)
        ∧ let both := x.rangeLines entry ++ (t.die die).rangeLines entry
          t.moved = if both.any s.spanBusy then both ++ s.moved else s.moved)
    ∧ (∀ i p u, s.hub.recovery = false → (x.packets.map (·.uid)).Nodup → p ∈ x.packets → s.candidate p = true →
      p.missed = false → p.deadline.toNat ≤ s.time.toNat →
      (∀ q ∈ x.packets, q ≠ p → s.candidate q = true → q.missed = false → s.time.toNat < q.deadline.toNat) →
      p.region.die = die → exec (.deadlineMiss die p.uid) s = .next u →
      exec (.regionTableWrite m die i v) s = exec (.regionTableWrite m die i v) u
        ∧ (s.swapOk die v = true → exec (.swapOut m die v) s = exec (.swapOut m die v) u))
    ∧ ∀ i, NoDeadlineDue s die → let rcb := v.toNat / 128 % 2 ^ 45 * 128
      let rd := fun (a n : Nat) => if s.physMem .read a then s.readPhys a n else 0
      let old := mapGet 0 x.regionW i
      let puts := fun (w : Word) (r : Option Region) (packets : List Packet) =>
        ∃ t, exec (.regionTableWrite m die i v) s = .next t
        ∧ DieOnly s t die ∧ { t.die die with regionW := x.regionW, regions := x.regions, packets := x.packets } = x
        ∧ mapFind (t.die die).regionW i = some w ∧ mapFind (t.die die).regions i = r ∧ (t.die die).packets = packets
        ∧ ∀ k, k ≠ i → mapFind (t.die die).regionW k = mapFind x.regionW k
            ∧ mapFind (t.die die).regions k = mapFind x.regions k
      (v.getLsbD 63 = false → puts (kept old) none x.packets)
      ∧ (v.getLsbD 63 = true → s.rcbChain 8 rcb = none → puts bad none x.packets)
      ∧ ∀ chain, v.getLsbD 63 = true → s.rcbChain 8 rcb = some chain →
        (s.regionOk die i v' chain = false → puts bad none x.packets)
        ∧ (s.regionOk die i v' chain = true →
          let field := fun (j off n dflt : Nat) => match chain.find? fun c => (rd (c + 12) 4).testBit j with
            | some b => rd (b + off) n
            | none => dflt
          let list := rd (rcb + 80) 8
          let ring := field 8 96 8 0
          ∃ r, puts v' (some r) (x.packets.map fun p => if p.region.rcb = rcb then { p with region := r } else p)
          ∧ r.rcb = rcb ∧ r.die = die ∧ r.idx = i
          ∧ r.part = v.toNat % 16 ∧ r.chain = chain ∧ r.id.toNat = rd (rcb + 8) 4
          ∧ r.prio = field 0 16 1 0 ∧ r.floor = field 1 17 1 0 ∧ r.weight = field 2 18 2 256 ∧ r.cap = field 3 20 1 0
          ∧ r.excl = (field 10 21 1 0).testBit 0 ∧ r.cycleLimit = wordN (field 4 24 8 0)
          ∧ r.stackBase = wordN (field 5 32 8 0) ∧ r.stackSize = field 5 40 4 0 ∧ r.gp = wordN (field 6 48 8 0)
          ∧ r.roles = wordN (field 7 56 8 0x20100804) ∧ r.grants = BitVec.ofNat 32 (field 11 112 4 0x40404040)
          ∧ r.listBase = list / 128 % 2 ^ 45 * 128 ∧ r.listLog = list % 32
          ∧ r.ring = (if ring = 0 then none else some (ring / 4096 % 2 ^ 40 * 4096, ring % 16))
          ∧ r.asid = field 9 116 2 0 ∧ r.root = field 9 120 8 0 / 2 ^ 20 % 2 ^ 32 * 2 ^ 20)

/-- The partition table (R348): word 1 is svec; words 2 and 3 are kept while the partition is not enabled and dropped
while it is; en = 1 enables a legal entry, resident with its clusters reset unless a partition that is not out holds one of
them, and shows err otherwise; an enabled entry takes only en = 0 in state out. err tells of the last write of en = 1, and
the reserved bits of word 0 keep what is written. R348 names a resident partition; that one which is halting or being
restored holds its clusters too is log 41. -/
def Stmt.PartitionTable : Prop :=
  ∀ (s : State) m die p (v : Word), Owner s m → Master m →
    let x := (s.die die).partOf p
    let x' : Part := { x with w0 := v &&& 0x0FFFFFFFFFFFFF00, clu := v.setWidth 8 }
    let puts := fun (w : Nat) (y : Part) => ∃ t, exec (.partitionTableWrite m die p w v) s = .next t
      ∧ (t.die die).partOf p = y ∧ (∀ k, k ≠ p → (t.die die).partOf k = (s.die die).partOf k) ∧ DieOnly s t die
    let cs := cluList die (v.setWidth 8)
    let held := ∃ c ∈ cs, s.heldIn c [.resident, .halting, .restoring] = true
    puts 1 { x with svec := v &&& ~~~0xF }
    ∧ (x.en = false → puts 2 { x with w2 := v &&& 0xFFFF } ∧ puts 3 { x with w3 := v &&& 0x000FFFFFFFFFF000 })
    ∧ (x.en = true → ∀ w ∈ [2, 3], exec (.partitionTableWrite m die p w v) s = .next s)
    ∧ (x.en = true → v.getLsbD 63 = false → x.st = .out → puts 0 { x' with en := false, saved := {} })
    ∧ (x.en = true → (v.getLsbD 63 = true ∨ x.st ≠ .out) → exec (.partitionTableWrite m die p 0 v) s = .next s)
    ∧ (x.en = false → v.getLsbD 63 = false → puts 0 x')
    ∧ (x.en = false → v.getLsbD 63 = true → s.partOk die p (v.setWidth 8) x = false → puts 0 { x' with err := true })
    ∧ (x.en = false → v.getLsbD 63 = true → s.partOk die p (v.setWidth 8) x = true →
      let y : Part := { x' with en := true, err := false, saved := {} }
      (held → puts 0 { y with st := .out })
      ∧ (¬ held → ∃ t, exec (.partitionTableWrite m die p 0 v) s = .next t ∧ (t.die die).partOf p = { y with st := .resident }
        ∧ (∀ k, t.thread k = if cluOf k ∈ cs then {} else s.thread k)
        ∧ (∀ k, t.core k = if k / 8 ∈ cs then {} else s.core k)
        ∧ (∀ a, t.byte a = if sramBase ≤ a ∧ (a - sramBase) / 2 ^ 22 ∈ cs then 0 else s.byte a)
        ∧ ∀ a, t.poisoned a = if sramBase ≤ a ∧ (a - sramBase) / 2 ^ 22 ∈ cs then false else s.poisoned a))

/-- A swap (R345 to R349): an accepted write asks every running thread of the outgoing partition for a forced save, or
begins the restore, and keeps the duration of the last swap; one that breaks a condition sets err only. The element at which
a vector instruction stops for the save is open (log 45). The halted partition is saved once it is quiet, and the duration
counts from then; that its clusters are then idle with their SRAM zero is log 41. What finds no room in the shadow area
goes to the overflow area, whose bytes are then open (log 51), and no other byte of HBM4 changes. The restore gives
every context, node, SRAM byte and poison of the saved context back, and the swap ends with its duration. -/
def Stmt.Swaps : Prop :=
  (∀ (s : State) m die (v : Word), Owner s m → Master m →
    let o := v.toNat % 16
    let i := v.toNat / 256 % 16
    let oen := v.getLsbD 4
    let ien := v.getLsbD 12
    let x := s.die die
    (s.swapOk die v = false → ∃ t, exec (.swapOut m die v) s = .next t ∧ DieOnly s t die
      ∧ t.die die = { x with swap := { x.swap with err := true } })
    ∧ (s.swapOk die v = true → NoDeadlineDue s die → ∃ t, exec (.swapOut m die v) s = .next t ∧ SameBytes s t
      ∧ (t.die die).swap = { busy := true, outP := if oen then some o else none, inP := if ien then some i else none,
                             saved := !oen, since := s.time.toNat, dur := x.swap.dur }
      ∧ (oen = true → ((t.die die).partOf o) = { x.partOf o with st := .halting }
        ∧ ∀ k ∈ s.threads.map (·.1), ∃ el, t.thread k
          = if cluOf k ∈ cluList die (x.partOf o).clu ∧ (s.thread k).run = .ready then
              { s.thread k with
                halt := .asked, haltEl := el,
                stopCycle := if (s.thread k).stop.isSome then (s.thread k).stopCycle else (s.cluster (cluOf k)).cycle }
            else s.thread k)
      ∧ (oen = false → ((t.die die).partOf i) = { x.partOf i with st := .restoring } ∧ t.threads = s.threads)))
  ∧ (∀ (s : State) die o, let x := s.die die
    let cs := cluList die (x.partOf o).clu
    let lo := (x.partOf o).w3.toNat / 4096 % 2 ^ 40 * 4096
    let n := s.contextSize cs - (x.partOf o).w2.toNat % 256 * 2 ^ 20
    x.swap.outP = some o →
    (x.swap.busy = true → x.swap.saved = false → (x.partOf o).st = .halting → s.quiet cs = true →
      ∃ t, exec (.partitionSave die) s = .next t ∧ ((t.die die).partOf o).st = (if x.swap.inP = some o then .restoring else .out)
        ∧ ((t.die die).partOf o).saved = s.snapshot cs
        ∧ (∀ k, t.thread k = if cluOf k ∈ cs then {} else s.thread k)
        ∧ (∀ a, sramBase ≤ a → t.byte a = if (a - sramBase) / 2 ^ 22 ∈ cs then 0 else s.byte a)
        ∧ (∀ a, a < sramBase → (a < lo ∨ lo + n ≤ a) → t.byte a = s.byte a)
        ∧ (∀ i, x.swap.inP = some i → ((t.die die).partOf i).st = .restoring ∧ (t.die die).swap.busy = true
          ∧ (t.die die).swap.since = s.time.toNat)
        ∧ (x.swap.inP = none → (t.die die).swap.busy = false ∧ (t.die die).swap.done = true))
    ∧ ((x.swap.busy = false ∨ x.swap.saved = true ∨ (x.partOf o).st ≠ .halting ∨ s.quiet cs = false) →
      exec (.partitionSave die) s = .next s))
  ∧ ∀ (s : State) die i, let x := s.die die
    let p := x.partOf i
    let cs := cluList die p.clu
    let inSram := fun (a : Nat) => sramBase ≤ a ∧ (a - sramBase) / 2 ^ 22 ∈ cs
    x.swap.inP = some i →
    (x.swap.busy = true → x.swap.saved = true → p.st = .restoring →
      (p.saved.threads.map (·.1)).Nodup → (∀ e ∈ p.saved.threads, cluOf e.1 ∈ cs) →
      (p.saved.cores.map (·.1)).Nodup → (∀ e ∈ p.saved.cores, e.1 / 8 ∈ cs) →
      (p.saved.sram.map (·.1)).Nodup → (∀ e ∈ p.saved.sram, inSram e.1) →
      (p.saved.poison.map (·.1)).Nodup → (∀ e ∈ p.saved.poison, inSram (8 * e.1)) →
      ∃ t, exec (.swapIn die) s = .next t ∧ (t.die die).partOf i = { p with st := .resident, saved := {} }
        ∧ (∀ k, t.thread k = if cluOf k ∈ cs then { mapGet {} p.saved.threads k with halt := .none } else s.thread k)
        ∧ (∀ k, k / 8 ∈ cs → (t.core k).nodes = (mapGet {} p.saved.cores k).nodes
          ∧ (t.core k).nextOrd = (mapGet {} p.saved.cores k).nextOrd ∧ (t.core k).tiles = (mapGet {} p.saved.cores k).tiles)
        ∧ (∀ a, t.byte a = if sramBase ≤ a ∧ (a - sramBase) / 2 ^ 22 ∈ cs then mapGet 0 p.saved.sram a else s.byte a)
        ∧ (∀ a, t.poisoned a = if sramBase ≤ a ∧ (a - sramBase) / 2 ^ 22 ∈ cs then mapGet false p.saved.poison (a / 8)
            else s.poisoned a)
        ∧ (t.die die).swap = { x.swap with
            busy := false, done := true, outP := none, inP := none,
            dur := min (s.time.toNat - x.swap.since) (2 ^ 32 - 1) })
    ∧ ((x.swap.busy = false ∨ x.swap.saved = false ∨ p.st ≠ .restoring) → exec (.swapIn die) s = .next s)

/-- The tables of a die and its partitions. -/
def Obligations.TablesResult : Prop := Stmt.TableWrites ∧ Stmt.PartitionTable ∧ Stmt.Swaps

/-- Nothing in the package but the wipe's own record survives in memory and contexts (R368): every byte of HBM4 and SRAM
reads zero, memory outside the package is kept, and every context is free. -/
def Wiped (s t : State) : Prop :=
  (∀ a, t.byte a = if 2 ^ 39 ≤ a ∧ a < 2 ^ 52 then s.byte a else 0) ∧ (∀ k, t.thread k = {}) ∧ (∀ k, t.core k = {})
    ∧ t.poison = [] ∧ t.hub.wiping = true

/-- Reset, boot and the wipe (R347, R362, R364, R365, R367, R368, R371, R391, R399): a reset wipes, forgets the owner, the
epoch, the tables, the RAS ring and the measurements, keeps what is nonvolatile, and boots the first slot that passes,
measured into MEAS0, or stays in recovery. That memory outside the package survives, and that a wipe shows its effect at its
start, is log 38; that each boot extends MEAS2, and that a recovery image comes from the board controller, is log 39. The
end of a wipe writes the record W, measures it into MEAS3, and logs a record for each stack that is present (log 37); a
life-cycle
change of the owner, to provisioned only with a record that an Ndonoholt key has signed, wipes too, and a boot image is accepted in recovery on the management port, which ends it unless a
stack could not be wiped (R364, R368). -/
def Stmt.BootAndWipe : Prop :=
  (∀ (s : State) (b : BootInput), ∃ t, exec (.reset b) s = .next t ∧ Wiped s t
    ∧ t.dieA = {} ∧ t.dieB = {} ∧ t.hub.valid = false ∧ t.hub.epoch = 0 ∧ t.hub.ras = [] ∧ t.hub.rasCount = 0
    ∧ t.time = 0 ∧ t.hub.ready = false ∧ t.hub.life = s.hub.life ∧ t.hub.identity = s.hub.identity
    ∧ t.hub.minVersion = s.hub.minVersion ∧ t.hub.retired = s.hub.retired ∧ t.hub.fatal = s.hub.fatal
    ∧ t.hub.wipe = s.hub.wipe ∧ t.hub.shadowReg = s.hub.shadowReg
    ∧ t.hub.clu = cluUnder s.hub s.hub.retired
    ∧ (let ok := fun (i : Image) => s.hub.passes (fun r => r == 0) i
       let zero := List.replicate 48 (0 : Byte)
       t.hub.measReg 2 = sha384 (zero ++ sha384 (Config.fuseRecord s.hub.life t.hub.identityWord.toNat)) ∧
       let runs := fun (i : Image) => t.hub.booted = true ∧ t.hub.recovery = false
         ∧ t.hub.measReg 0 = sha384 (zero ++ imageDigest i)
       (∀ i, b.slotA = some i → ok i = true → runs i)
       ∧ ((∀ i, b.slotA = some i → ok i = false) → (∀ i, b.slotB = some i → ok i = true → runs i)
         ∧ ((∀ i, b.slotB = some i → ok i = false) → t.hub.booted = false ∧ t.hub.recovery = true ∧ t.hub.measReg 0 = zero))))
  ∧ (∀ (s : State) (failed : BitVec 8) dur unread,
    (s.hub.wiping = false → exec (.wipeComplete failed dur unread) s = .next s)
    ∧ (s.hub.wiping = true → let f := failed &&& s.hub.stk
      let w : Wipe := { count := s.hub.wipe.count + 1, cause := s.hub.wipeCause, stackBits := s.hub.stk, failed := f, dur := dur,
                        unread := s.hub.retiredBytes unread }
      ∃ t, exec (.wipeComplete failed dur unread) s = .next t ∧ { t with hub := s.hub } = s ∧ t.hub.wiping = false
        ∧ t.hub.wipe = w
        ∧ (∀ c, c < 256 → ((w.unread.getD (c / 8) 0).getLsbD (c % 8) = true
          ↔ (unread.getD (c / 8) 0).getLsbD (c % 8) = true ∧ (mapGet 0xFFFFFFFF s.hub.chans (c / 32)).getLsbD (c % 32) = false))
        ∧ t.hub.measReg 3 = sha384 (s.hub.measReg 3 ++ sha384 w.bytes)
        ∧ t.hub.recovery = (s.hub.recovery || f != 0) ∧ t.hub.ready = (s.hub.readyPoint && !t.hub.recovery)
        ∧ t.hub.rasCount = s.hub.rasCount + popN 8 s.hub.stk.toNat))
  ∧ ∀ (s : State) m img, Owner s m → Master m →
    let changes := fun (i : Instr) (life : Nat) (identity : Bool) => ∃ t, exec i s = .next t ∧ Wiped s t
      ∧ t.hub.life = life ∧ t.hub.identity = identity ∧ t.hub.wipeCause = 1 ∧ t.hub.valid = s.hub.valid
    (s.hub.life = 0 → changes (.provision m true) 1 true)
    ∧ (∀ signed, (s.hub.life ≠ 0 ∨ signed = false) → exec (.provision m signed) s = .next s)
    ∧ (s.hub.life = 1 → changes (.deploy m) 2 s.hub.identity) ∧ (s.hub.life ≠ 1 → exec (.deploy m) s = .next s)
    ∧ ((s.hub.life = 1 ∨ s.hub.life = 2) → changes (.decommission m) 3 false)
    ∧ (s.hub.life ≠ 1 → s.hub.life ≠ 2 → exec (.decommission m) s = .next s)
    ∧ (let ok := m = 2 ∧ s.hub.recovery = true ∧ s.hub.passes (fun r => r == 0) img = true
       (¬ ok → exec (.recoveryImage m img) s = .next s)
       ∧ (ok → ∃ t, exec (.recoveryImage m img) s = .next t ∧ { t with hub := s.hub } = s ∧ t.hub.booted = true
         ∧ t.hub.measReg 0 = sha384 (s.hub.measReg 0 ++ imageDigest img)
         ∧ t.hub.recovery = (s.hub.wipe.failed != 0 && !s.hub.wiping)))

/-- SPDM (R366, R367): ECDSA P-384 and SHA-384 are negotiated and no secure session is offered; there are digests, a
certificate chain and a signature once the identity key exists; `GET_MEASUREMENTS` 1 to 8 return the raw measurement
registers; a decommissioned device answers `GET_VERSION` only, and any other request is refused. The codes and
flags are those of SPDM 1.3, and the rest of the bodies is open (log 7). -/
def Stmt.Spdm : Prop :=
  ∀ (s : State) off len nonce ix code,
    let gives := fun (i : Instr) (c : Nat) (p : List Byte) => ∃ t, exec i s = .next t ∧ Answers s t (.spdm c p)
    let refuses := fun (i : Instr) => gives i 0x7F [0x07]
    let keyed := [Instr.getDigests, .getCertificate off len, .challenge nonce]
    gives .getVersion 0x04 (Config.spdmBody 0x84 []) ∧ refuses (.unsupportedRequest code)
    ∧ (s.hub.life = 3 → ∀ i ∈ [Instr.getCapabilities, .negotiateAlgorithms, .getMeasurements ix] ++ keyed, refuses i)
    ∧ (s.hub.identity = false → ∀ i ∈ keyed, refuses i)
    ∧ (s.hub.life ≠ 3 → gives .getCapabilities 0x61 ([0x16, 0, 0, 0] ++ Config.spdmBody 0xE1 [])
      ∧ gives .negotiateAlgorithms 0x63 ([0x80, 0, 0, 0, 0x02, 0, 0, 0] ++ Config.spdmBody 0xE3 [])
      ∧ (s.hub.identity = true → gives .getDigests 0x01 (sha384 Config.certChain)
        ∧ gives (.getCertificate off len) 0x02 ((Config.certChain.drop off).take len)
        ∧ gives (.challenge nonce) 0x03
          (Config.spdmBody 0x83 nonce ++ Config.identitySign (Config.spdmBody 0x83 nonce)))
      ∧ (1 ≤ ix → ix ≤ 8 → gives (.getMeasurements ix) 0x60 (s.hub.measReg (ix - 1)))
      ∧ ((ix = 0 ∨ 8 < ix) → refuses (.getMeasurements ix)))

/-- Ciros: boot, attestation and the life cycle. -/
def Obligations.CirosResult : Prop := Stmt.BootAndWipe ∧ Stmt.Spdm

/-- Firmware and retirement (R362, R365, R391, R397): a later stage and a firmware image are measured when they pass, a
slot's verification answers 1 or 2 with the version, the minimum version is burnt only upward and when slot A passes with
it, and the retire list takes a unit or gives one back within its limits, or the write is refused and logged. -/
def Stmt.Firmware : Prop :=
  (∀ (s : State) img,
    let measured := fun (i : Instr) (r : Nat) => ∃ t, exec i s = .next t ∧ { t with hub := s.hub } = s
      ∧ { t.hub with meas := s.hub.meas } = s.hub ∧ t.hub.measReg r = sha384 (s.hub.measReg r ++ imageDigest img)
      ∧ ∀ k, k ≠ r → t.hub.measReg k = s.hub.measReg k
    (s.hub.booted = true → s.hub.passes (fun r => r == 1) img = true → measured (.firmwareStageStart img) 1)
    ∧ (s.hub.booted = true → s.hub.passes (fun r => decide (4 ≤ r ∧ r ≤ 7)) img = true →
      measured (.firmwareMeasurementRequest img) (imageReg img))
    ∧ (s.hub.booted = false → ∀ i ∈ [Instr.firmwareStageStart img, .firmwareMeasurementRequest img, .readyPoint],
      exec i s = .next s)
    ∧ (s.hub.booted = true → exec .readyPoint s = .next { s with hub := { s.hub with
        readyPoint := true, ready := !s.hub.wiping && !s.hub.recovery } })
    ∧ (s.hub.verifying = false → exec (.slotVerifyDone (some img)) s = .next s)
    ∧ (s.hub.verifying = true → (∃ t, exec (.slotVerifyDone (some img)) s = .next t ∧ { t with hub := s.hub, freeIx := s.freeIx } = s
        ∧ t.hub = { s.hub with
            verifying := false, verify := if s.hub.passes (fun r => r == 0) img then 1 else 2,
            verifyVersion := BitVec.ofNat 32 (imageVersion img) })
      ∧ ∃ t, exec (.slotVerifyDone none) s = .next t ∧ { t with hub := s.hub, freeIx := s.freeIx } = s
        ∧ { t.hub with verifyVersion := s.hub.verifyVersion } = { s.hub with verifying := false, verify := 2 }))
  ∧ ∀ (s : State) m (v : Word) slotA, Owner s m → Master m →
    let refused := fun (i : Instr) => ∃ t, exec i s = .next t ∧ { t with hub := s.hub } = s ∧ HubKept s t ∧ Logged s t 14 0 2 0 v
    let word : Word := 0x8000000000000000 ||| (v &&& 0x3FF)
    let passes := ∃ i, slotA = some i ∧ s.hub.passes (fun r => r == 0) i = true ∧ v.toNat ≤ imageVersion i
    exec (.slotVerify m v) s = .next { s with hub := { s.hub with
        verifySlot := v.toNat % 2, verify := 0, verifyVersion := 0, verifying := true } }
    ∧ (s.hub.minVersion < v.toNat → passes →
      exec (.minimumVersionRaise m v slotA) s = .next { s with hub := { s.hub with minVersion := v.toNat } })
    ∧ ((v.toNat ≤ s.hub.minVersion ∨ ¬ passes) → refused (.minimumVersionRaise m v slotA))
    ∧ (∀ i, (List.range 64).find? (fun k => (mapFind s.hub.retired k).isNone) = some i →
      let l := mapSet s.hub.retired i word
      (retireOk s.hub l = true → exec (.retireAdd m v) s = .next { s with hub := { s.hub with retired := l } })
      ∧ (retireOk s.hub l = false → refused (.retireAdd m v)))
    ∧ ((∀ k, k < 64 → mapFind s.hub.retired k ≠ none) → refused (.retireAdd m v))
    ∧ (∀ e, s.hub.retired.find? (fun e => e.2 == word) = some e →
      exec (.retireClear m v) s = .next { s with hub := { s.hub with retired := mapErase s.hub.retired e.1 } })
    ∧ (s.hub.retired.find? (fun e => e.2 == word) = none → refused (.retireClear m v))

/-- The power cap (R395): an island of a unit in service above 100 °C is lowered by 25 MHz; above the cap the compute
islands of lowest prio that are above 875 MHz are, and at most at 95 % of it the islands of highest prio below fmax,
of whatever kind, are raised; one above 115 °C trips a reset with a fatal record. One step of 25 MHz, within 875 MHz and
fmax, and only for islands of units in service, is log 40. -/
def Stmt.PowerCap : Prop :=
  ∀ (s : State) power temps pwrs,
    let isl := s.hub.island
    let temp := fun (i : Nat) => temps.getD i 0
    let used := fun (i : Nat) => i < 32 ∧ (i < 16 → s.hub.clu.getLsbD i = true)
      ∧ (16 ≤ i → i < 24 → s.hub.stk.getLsbD (i - 16) = true)
    let compute := fun (i : Nat) => i < 16 ∨ 24 ≤ i ∧ i < 28
    let hot := fun (i : Nat) => used i ∧ 1600 < temp i ∧ 875 < (isl i).clk
    let down := fun (i : Nat) => s.hub.cap < power ∧ used i ∧ compute i ∧ 875 < (isl i).clk
      ∧ ∀ j, used j → compute j → 875 < (isl j).clk → (isl i).prio ≤ (isl j).prio
    let up := fun (i : Nat) => power * 100 ≤ s.hub.cap * 95 ∧ used i ∧ (isl i).clk < (isl i).fmax
      ∧ ∀ j, used j → (isl j).clk < (isl j).fmax → (isl j).prio ≤ (isl i).prio
    (∀ i, i < 32 → (isl i).prio < 8) →
    ((∀ i, used i → temp i ≤ 1840) → ∃ t, exec (.powerCapComparison power temps pwrs) s = .next t
      ∧ { t with hub := s.hub } = s
      ∧ ∀ i, i < 32 → t.hub.island i = { isl i with
          temp := temp i, pwr := pwrs.getD i 0, clk := (t.hub.island i).clk }
        ∧ ((hot i ∨ down i) → (t.hub.island i).clk = max 875 ((isl i).clk - 25))
        ∧ (¬ hot i → ¬ down i → up i → (t.hub.island i).clk = min (isl i).fmax ((isl i).clk + 25))
        ∧ (¬ hot i → ¬ down i → ¬ up i → (t.hub.island i).clk = (isl i).clk))
    ∧ ((∃ i, used i ∧ 1840 < temp i) → ∃ t r, exec (.powerCapComparison power temps pwrs) s = .next t ∧ Wiped s t
      ∧ t.hub.valid = false ∧ r ∈ t.hub.fatal ∧ r.code = 12 ∧ r.cls = 3 ∧ r.time = s.time)

/-- Contexts that Ciros starts, releases and restarts (R223, R358): a free context of a core in service starts in
supervisor mode at a 16-byte-aligned address with its arguments in x5 to x12, in the region of a control block whether a
table entry holds it or not; a halted one of Ciros becomes free; a halted thread issues again at its pc. That the grant is
0x30 on a core without lanes 8 to 15 is log 43, and what a free context holds ({}) logs 35 and 3. -/
def Stmt.CirosContexts : Prop :=
  ∀ (s : State) tid addr args rcb,
    let only := fun (i : Instr) (th : Thread) => ∃ t, exec i s = .next t ∧ { t with threads := s.threads } = s
      ∧ t.thread tid = th ∧ ∀ k, k ≠ tid → t.thread k = s.thread k
    let may := (s.thread tid).run = .free ∧ tid < 512 ∧ s.coreUp (coreOf tid) = true ∧ addr.toNat % 16 = 0
      ∧ s.cluRuns (cluOf tid) = true
    (may → ∃ th r, only (.cirosStartContext tid addr args rcb) th
      ∧ th.run = .ready ∧ th.sup = true ∧ th.ciros = true ∧ th.pc = addr ∧ th.region = some r ∧ r.rcb = rcb ∧ th.task = none
      ∧ th.rx 4 = wordN tid ∧ (∀ i, i < 8 → th.rx (BitVec.ofNat 6 (5 + i)) = args.getD i 0) ∧ th.vl = 0 ∧ th.tstatus = 0
      ∧ th.grant = (if s.halfCore (coreOf tid) then 0x30 else 0x40)
      ∧ ((∃ e ∈ s.dieA.regions ++ s.dieB.regions, e.2.rcb = rcb) → ∃ e ∈ s.dieA.regions ++ s.dieB.regions, r = e.2)
      ∧ ((∀ e ∈ s.dieA.regions ++ s.dieB.regions, e.2.rcb ≠ rcb) → ∀ chain, s.rcbChain 8 rcb = some chain →
          r = s.readRegion (dieOf (cluOf tid)) 0 0 rcb chain))
    ∧ (¬ may → exec (.cirosStartContext tid addr args rcb) s = .next s)
    ∧ ((s.thread tid).ciros = true → (s.thread tid).run = .halted → only (.cirosReleaseContext tid) {})
    ∧ (((s.thread tid).ciros = false ∨ (s.thread tid).run ≠ .halted) → exec (.cirosReleaseContext tid) s = .next s)
    ∧ ((s.thread tid).run = .halted → s.cluRuns (cluOf tid) = true →
      only (.threadRestart tid) { s.thread tid with run := .ready })
    ∧ (((s.thread tid).run ≠ .halted ∨ s.cluRuns (cluOf tid) = false) → exec (.threadRestart tid) s = .next s)

/-- `REGISTER_WRITE` (R286, R313, R348, R349, R361, R371, R378, R381, R385, R391, R395, R397): a master's aligned 8-byte
write at a register's address is the write that the event of that register stands for, an island's fmax bounds its clock at
once, and an aligned 8-byte read answers the register; any other access writes nothing, reads zero and is logged; an address
outside the blocks is no register. A write of 0x0410 is judged by slot A as it is then (hub.target, log 39). -/
def Stmt.RegisterWrites : Prop :=
  ∀ (s : State) m (v : Word), Master m →
    let at' := fun (off : Nat) (i : Instr) => ∃ t, exec (.registerWrite m (0x000FFFF000000000 + off) 8 v) s = .next t ∧ exec i s = .next t
    let dieAt := fun (d : DieId) (off : Nat) => 0x1000000 * (if d = .a then 1 else 2) + off
    at' 0x108 (.ownclaim m v) ∧ at' 0x110 (.heartbeat m v) ∧ at' 0x118 (.successor m v) ∧ at' 0x400 (.slotVerify m v)
    ∧ (v.getLsbD 62 = false → at' 0x200 (.retireAdd m v)) ∧ (v.getLsbD 62 = true → at' 0x200 (.retireClear m v))
    ∧ at' 0x410 (.minimumVersionRaise m v s.hub.target.slotA)
    ∧ (∀ g, g < 16 → at' (0x1000 + 8 * g) (.reductionGroupEnable m g v))
    ∧ (∀ d e hi, e < 64 → at' (dieAt d (0x10000 + 16 * e + if hi then 8 else 0)) (.rangeTableWrite m d e hi v))
    ∧ (∀ d e, e < 1024 → at' (dieAt d (0x20000 + 8 * e)) (.regionTableWrite m d e v))
    ∧ (∀ d ch, ch < 128 → at' (dieAt d (0x30000 + 64 * ch)) (.channelConfigWrite m d ch v))
    ∧ (∀ d k e hi, k < 4 → e < 256 →
      at' (dieAt d (0x40000 + 0x1000 * k + 16 * e + if hi then 8 else 0)) (.accessControlEntryWrite m d k e hi v))
    ∧ (∀ d p w, p < 16 → w < 4 → at' (dieAt d (0x60000 + 32 * p + 8 * w)) (.partitionTableWrite m d p w v))
    ∧ (∀ d, at' (dieAt d 0x60200) (.swapOut m d v))
    ∧ (Owner s m → exec (.registerWrite m (0x000FFFF000000000 + 0x4000) 8 v) s
      = .next { s with hub := { s.hub with cap := max 400 (min 1500 (v.toNat % 65536)) } })
    ∧ (∀ i, Owner s m → i < 32 → let f := max 875 (min 1750 (v.toNat % 65536))
      ∃ t, exec (.registerWrite m (0x000FFFF000000000 + 0x5008 + 16 * i) 8 v) s = .next t ∧ { t with hub := s.hub } = s
        ∧ t.hub.island i = { s.hub.island i with
            prio := v.toNat / 65536 % 8, fmax := f, clk := min f (s.hub.island i).clk, rsv := v &&& ~~~0x7FFFF })
    ∧ (∀ addr size, s.physRow addr = .reg → (size ≠ 8 ∨ addr % 8 ≠ 0) → ∃ t, exec (.registerWrite m addr size v) s = .next t
      ∧ { t with hub := s.hub } = s ∧ HubKept s t ∧ Logged s t 9 0 2 0 (m.setWidth 64))
    ∧ (∀ addr size, s.physRow addr ≠ .reg → exec (.registerWrite m addr size v) s = .next s)
    ∧ ∀ addr size r, s.turns = .hostRead m addr size :: r → s.physRow addr = .reg → let u := { s with turns := r }
      (size = 8 → addr % 8 = 0 → step s = .next { u with out := s.out ++ [.regData m addr (s.readReg addr)] })
      ∧ ((size ≠ 8 ∨ addr % 8 ≠ 0) → ∃ t, step s = .next t ∧ { t with hub := s.hub, out := s.out } = u ∧ HubKept s t
        ∧ t.out = s.out ++ [.regData m addr 0] ∧ Logged s t 9 0 2 0 (m.setWidth 64))

/-- The fleet: firmware, retirement, power, Ciros's contexts and register writes. -/
def Obligations.FleetResult : Prop :=
  Stmt.Firmware ∧ Stmt.PowerCap ∧ Stmt.CirosContexts ∧ Stmt.RegisterWrites
end

