-- ==== Sys2Proof/Laws/Map.lean ====
section
/-!
SUPPORT. Laws of sparse maps: what a lookup reads after a change, and that the changes keep the keys rising and the
canonical form.
-/
namespace Sys2Proof.Machine

variable {β : Type}

@[simp] theorem mapGet_nil (d : β) (k : Nat) : mapGet d [] k = d := rfl

@[simp] theorem mapGet_mapSet_same (d : β) (m : List (Nat × β)) (k : Nat) (v : β) :
    mapGet d (mapSet m k v) k = v := by
  induction m with
  | nil => simp [mapSet, mapGet]
  | cons p r ih => simp only [mapSet]; split <;> (try split) <;> simp_all [mapGet]

theorem mapGet_mapSet_other (d : β) (m : List (Nat × β)) {k j : Nat} (v : β) (h : j ≠ k) :
    mapGet d (mapSet m k v) j = mapGet d m j := by
  induction m with
  | nil => simp [mapSet, mapGet, h]
  | cons p r ih => simp only [mapSet]; split <;> (try split) <;> simp_all [mapGet]

@[simp] theorem mapFind_mapSet_same (m : List (Nat × β)) (k : Nat) (v : β) : mapFind (mapSet m k v) k = some v := by
  induction m with
  | nil => simp [mapSet, mapFind]
  | cons p r ih => simp only [mapSet]; split <;> (try split) <;> simp_all [mapFind]

theorem mapFind_mapSet_other (m : List (Nat × β)) {k j : Nat} (v : β) (h : j ≠ k) :
    mapFind (mapSet m k v) j = mapFind m j := by
  induction m with
  | nil => simp [mapSet, mapFind, h]
  | cons p r ih => simp only [mapSet]; split <;> (try split) <;> simp_all [mapFind]

@[simp] theorem mapGet_mapErase_same (d : β) (m : List (Nat × β)) (k : Nat) : mapGet d (mapErase m k) k = d := by
  induction m with
  | nil => rfl
  | cons p r ih => simp only [mapErase]; split <;> simp_all [mapGet]

theorem mapGet_mapErase_other (d : β) (m : List (Nat × β)) {k j : Nat} (h : j ≠ k) :
    mapGet d (mapErase m k) j = mapGet d m j := by
  induction m with
  | nil => rfl
  | cons p r ih => simp only [mapErase]; split <;> simp_all [mapGet]

@[simp] theorem mapGet_mapPut_same [DecidableEq β] (d : β) (m : List (Nat × β)) (k : Nat) (v : β) :
    mapGet d (mapPut d m k v) k = v := by
  unfold mapPut; split <;> simp_all

theorem mapGet_mapPut_other [DecidableEq β] (d : β) (m : List (Nat × β)) {k j : Nat} (v : β) (h : j ≠ k) :
    mapGet d (mapPut d m k v) j = mapGet d m j := by
  unfold mapPut; split
  · exact mapGet_mapErase_other d m h
  · exact mapGet_mapSet_other d m v h

/-! ## Rising keys -/

/-- Every key lies above a bound. -/
def keysAbove (b : Nat) (m : List (Nat × β)) : Prop := ∀ p ∈ m, b < p.1

theorem keysRise_some_iff (b : Nat) (m : List (Nat × β)) :
    keysRise (some b) m = true ↔ keysAbove b m ∧ keysRise none m = true := by
  induction m generalizing b with
  | nil => simp [keysRise, keysAbove]
  | cons p r ih =>
    obtain ⟨j, v⟩ := p
    simp only [keysRise, Bool.and_eq_true, decide_eq_true_eq, ih j, keysAbove, List.mem_cons, forall_eq_or_imp]
    constructor
    · rintro ⟨h, ha, hr⟩; exact ⟨⟨h, fun p hp => Nat.lt_trans h (ha p hp)⟩, ha, hr⟩
    · rintro ⟨⟨h, _⟩, ha, hr⟩; exact ⟨h, ha, hr⟩

theorem keysRise_cons (p : Nat × β) (r : List (Nat × β)) :
    keysRise none (p :: r) = true ↔ keysAbove p.1 r ∧ keysRise none r = true := by
  obtain ⟨j, v⟩ := p; exact keysRise_some_iff j r

theorem keysRise_filter (f : Nat × β → Bool) (m : List (Nat × β)) (h : keysRise none m = true) :
    keysRise none (m.filter f) = true := by
  induction m with
  | nil => rfl
  | cons p r ih =>
    rw [keysRise_cons] at h
    rw [List.filter_cons]
    split
    · exact (keysRise_cons _ _).2 ⟨fun q hq => h.1 q ((List.mem_filter.1 hq).1), ih h.2⟩
    · exact ih h.2

theorem mapErase_eq_filter (m : List (Nat × β)) (k : Nat) : mapErase m k = m.filter fun p => k ≠ p.1 := by
  induction m with
  | nil => rfl
  | cons p r ih => obtain ⟨j, w⟩ := p; simp only [mapErase, List.filter_cons]; split <;> simp_all

theorem mem_mapSet {m : List (Nat × β)} {k : Nat} {v : β} {p : Nat × β} (h : p ∈ mapSet m k v) :
    p = (k, v) ∨ p ∈ m := by
  induction m with
  | nil => simpa [mapSet] using h
  | cons q r ih =>
    obtain ⟨j, w⟩ := q
    simp only [mapSet] at h
    split at h
    · simpa using h
    · split at h
      · simp only [List.mem_cons] at h ⊢
        rcases h with h | h
        · exact Or.inl h
        · exact Or.inr (Or.inr h)
      · simp only [List.mem_cons] at h ⊢
        rcases h with h | h
        · exact Or.inr (Or.inl h)
        · rcases ih h with h | h
          · exact Or.inl h
          · exact Or.inr (Or.inr h)

theorem keysRise_mapSet (m : List (Nat × β)) (k : Nat) (v : β) (h : keysRise none m = true) :
    keysRise none (mapSet m k v) = true := by
  induction m with
  | nil => rfl
  | cons q r ih =>
    obtain ⟨j, w⟩ := q
    have h' := (keysRise_cons _ _).1 h
    simp only [mapSet]
    split
    · refine (keysRise_cons _ _).2 ⟨fun p hp => ?_, h⟩
      rcases List.mem_cons.1 hp with rfl | hp
      · assumption
      · exact Nat.lt_trans ‹_› (h'.1 p hp)
    · split
      · subst_vars; exact (keysRise_cons _ _).2 h'
      · refine (keysRise_cons _ _).2 ⟨fun p hp => ?_, ih h'.2⟩
        rcases mem_mapSet hp with rfl | hp
        · simp only; omega
        · exact h'.1 p hp

/-! ## The canonical form -/

theorem mapWf_nil [DecidableEq β] (d : β) : mapWf d ([] : List (Nat × β)) = true := rfl

theorem mapWf_filter [DecidableEq β] (d : β) (m : List (Nat × β)) (f : Nat × β → Bool) (h : mapWf d m = true) :
    mapWf d (m.filter f) = true := by
  simp only [mapWf, Bool.and_eq_true, List.all_eq_true] at h ⊢
  exact ⟨keysRise_filter f m h.1, fun p hp => h.2 p ((List.mem_filter.1 hp).1)⟩

theorem mapWf_mapPut [DecidableEq β] (d : β) (m : List (Nat × β)) (k : Nat) (v : β) (h : mapWf d m = true) :
    mapWf d (mapPut d m k v) = true := by
  unfold mapPut
  split
  · rw [mapErase_eq_filter]; exact mapWf_filter d m _ h
  · simp only [mapWf, Bool.and_eq_true, List.all_eq_true] at h ⊢
    refine ⟨keysRise_mapSet m k v h.1, fun p hp => ?_⟩
    rcases mem_mapSet hp with rfl | hp
    · simpa using ‹_›
    · exact h.2 p hp

theorem mapWf_mapDropRange [DecidableEq β] (d : β) (m : List (Nat × β)) (lo hi : Nat) (h : mapWf d m = true) :
    mapWf d (mapDropRange m lo hi) = true := mapWf_filter d m _ h

theorem mapWf_foldl_mapPut [DecidableEq β] {γ : Type} (d : β) (l : List γ) (key : γ → Nat) (val : γ → β)
    (m : List (Nat × β)) (h : mapWf d m = true) :
    mapWf d (l.foldl (fun m x => mapPut d m (key x) (val x)) m) = true := by
  induction l generalizing m with
  | nil => exact h
  | cons x xs ih => exact ih _ (mapWf_mapPut d m _ _ h)

/-- A key below every listed key reads the default. -/
theorem mapGet_of_keysAbove (d : β) {m : List (Nat × β)} {k : Nat} (h : keysAbove k m) : mapGet d m k = d := by
  induction m with
  | nil => rfl
  | cons p r ih =>
    obtain ⟨j, v⟩ := p
    have hj : k < j := h (j, v) (by simp)
    simp only [mapGet, if_neg (Nat.ne_of_lt hj)]
    exact ih fun q hq => h q (by simp [hq])

end Sys2Proof.Machine
end

