-- ==== Sys2Proof/Laws/State.lean ====
section
/-!
SUPPORT. Projections of the state after its updates, one lemma for each field and update, and what the accessors read
after an update.
-/
namespace Sys2Proof.Machine

/-! ## setThread -/

@[simp] theorem State.setThread_turns (s : State) (t : Nat) (th : Thread) : (s.setThread t th).turns = s.turns := rfl
@[simp] theorem State.setThread_cur (s : State) (t : Nat) (th : Thread) : (s.setThread t th).cur = s.cur := rfl
@[simp] theorem State.setThread_fetchOld (s : State) (t : Nat) (th : Thread) : (s.setThread t th).fetchOld = s.fetchOld := rfl
@[simp] theorem State.setThread_mem (s : State) (t : Nat) (th : Thread) : (s.setThread t th).mem = s.mem := rfl
@[simp] theorem State.setThread_poison (s : State) (t : Nat) (th : Thread) : (s.setThread t th).poison = s.poison := rfl
@[simp] theorem State.setThread_old (s : State) (t : Nat) (th : Thread) : (s.setThread t th).old = s.old := rfl
@[simp] theorem State.setThread_stale (s : State) (t : Nat) (th : Thread) : (s.setThread t th).stale = s.stale := rfl
@[simp] theorem State.setThread_cores (s : State) (t : Nat) (th : Thread) : (s.setThread t th).cores = s.cores := rfl
@[simp] theorem State.setThread_clusters (s : State) (t : Nat) (th : Thread) : (s.setThread t th).clusters = s.clusters := rfl
@[simp] theorem State.setThread_dieA (s : State) (t : Nat) (th : Thread) : (s.setThread t th).dieA = s.dieA := rfl
@[simp] theorem State.setThread_dieB (s : State) (t : Nat) (th : Thread) : (s.setThread t th).dieB = s.dieB := rfl
@[simp] theorem State.setThread_hub (s : State) (t : Nat) (th : Thread) : (s.setThread t th).hub = s.hub := rfl
@[simp] theorem State.setThread_time (s : State) (t : Nat) (th : Thread) : (s.setThread t th).time = s.time := rfl
@[simp] theorem State.setThread_peers (s : State) (t : Nat) (th : Thread) : (s.setThread t th).peers = s.peers := rfl
@[simp] theorem State.setThread_gnodes (s : State) (t : Nat) (th : Thread) : (s.setThread t th).gnodes = s.gnodes := rfl
@[simp] theorem State.setThread_out (s : State) (t : Nat) (th : Thread) : (s.setThread t th).out = s.out := rfl
@[simp] theorem State.setThread_freeIx (s : State) (t : Nat) (th : Thread) : (s.setThread t th).freeIx = s.freeIx := rfl
@[simp] theorem State.setThread_stamp (s : State) (t : Nat) (th : Thread) : (s.setThread t th).stamp = s.stamp := rfl
@[simp] theorem State.setThread_uid (s : State) (t : Nat) (th : Thread) : (s.setThread t th).uid = s.uid := rfl
@[simp] theorem State.setThread_early (s : State) (t : Nat) (th : Thread) : (s.setThread t th).early = s.early := rfl
@[simp] theorem State.setThread_tern (s : State) (t : Nat) (th : Thread) : (s.setThread t th).tern = s.tern := rfl
@[simp] theorem State.setThread_veil (s : State) (t : Nat) (th : Thread) : (s.setThread t th).veil = s.veil := rfl
@[simp] theorem State.setThread_held (s : State) (t : Nat) (th : Thread) : (s.setThread t th).held = s.held := rfl
@[simp] theorem State.setThread_moved (s : State) (t : Nat) (th : Thread) : (s.setThread t th).moved = s.moved := rfl
@[simp] theorem State.setThread_keyAt (s : State) (t : Nat) (th : Thread) : (s.setThread t th).keyAt = s.keyAt := rfl
@[simp] theorem State.setThread_keyHit (s : State) (t : Nat) (th : Thread) : (s.setThread t th).keyHit = s.keyHit := rfl
@[simp] theorem State.setThread_redOld (s : State) (t : Nat) (th : Thread) : (s.setThread t th).redOld = s.redOld := rfl
@[simp] theorem State.setThread_trace (s : State) (t : Nat) (th : Thread) : (s.setThread t th).trace = s.trace := rfl
@[simp] theorem State.setThread_fab (s : State) (t : Nat) (th : Thread) : (s.setThread t th).fab = s.fab := rfl

/-! ## modThread -/

@[simp] theorem State.modThread_turns (s : State) (t : Nat) (f : Thread → Thread) : (s.modThread t f).turns = s.turns := rfl
@[simp] theorem State.modThread_cur (s : State) (t : Nat) (f : Thread → Thread) : (s.modThread t f).cur = s.cur := rfl
@[simp] theorem State.modThread_fetchOld (s : State) (t : Nat) (f : Thread → Thread) : (s.modThread t f).fetchOld = s.fetchOld := rfl
@[simp] theorem State.modThread_mem (s : State) (t : Nat) (f : Thread → Thread) : (s.modThread t f).mem = s.mem := rfl
@[simp] theorem State.modThread_poison (s : State) (t : Nat) (f : Thread → Thread) : (s.modThread t f).poison = s.poison := rfl
@[simp] theorem State.modThread_old (s : State) (t : Nat) (f : Thread → Thread) : (s.modThread t f).old = s.old := rfl
@[simp] theorem State.modThread_stale (s : State) (t : Nat) (f : Thread → Thread) : (s.modThread t f).stale = s.stale := rfl
@[simp] theorem State.modThread_cores (s : State) (t : Nat) (f : Thread → Thread) : (s.modThread t f).cores = s.cores := rfl
@[simp] theorem State.modThread_clusters (s : State) (t : Nat) (f : Thread → Thread) : (s.modThread t f).clusters = s.clusters := rfl
@[simp] theorem State.modThread_dieA (s : State) (t : Nat) (f : Thread → Thread) : (s.modThread t f).dieA = s.dieA := rfl
@[simp] theorem State.modThread_dieB (s : State) (t : Nat) (f : Thread → Thread) : (s.modThread t f).dieB = s.dieB := rfl
@[simp] theorem State.modThread_hub (s : State) (t : Nat) (f : Thread → Thread) : (s.modThread t f).hub = s.hub := rfl
@[simp] theorem State.modThread_time (s : State) (t : Nat) (f : Thread → Thread) : (s.modThread t f).time = s.time := rfl
@[simp] theorem State.modThread_peers (s : State) (t : Nat) (f : Thread → Thread) : (s.modThread t f).peers = s.peers := rfl
@[simp] theorem State.modThread_gnodes (s : State) (t : Nat) (f : Thread → Thread) : (s.modThread t f).gnodes = s.gnodes := rfl
@[simp] theorem State.modThread_out (s : State) (t : Nat) (f : Thread → Thread) : (s.modThread t f).out = s.out := rfl
@[simp] theorem State.modThread_freeIx (s : State) (t : Nat) (f : Thread → Thread) : (s.modThread t f).freeIx = s.freeIx := rfl
@[simp] theorem State.modThread_stamp (s : State) (t : Nat) (f : Thread → Thread) : (s.modThread t f).stamp = s.stamp := rfl
@[simp] theorem State.modThread_uid (s : State) (t : Nat) (f : Thread → Thread) : (s.modThread t f).uid = s.uid := rfl
@[simp] theorem State.modThread_early (s : State) (t : Nat) (f : Thread → Thread) : (s.modThread t f).early = s.early := rfl
@[simp] theorem State.modThread_tern (s : State) (t : Nat) (f : Thread → Thread) : (s.modThread t f).tern = s.tern := rfl
@[simp] theorem State.modThread_veil (s : State) (t : Nat) (f : Thread → Thread) : (s.modThread t f).veil = s.veil := rfl
@[simp] theorem State.modThread_held (s : State) (t : Nat) (f : Thread → Thread) : (s.modThread t f).held = s.held := rfl
@[simp] theorem State.modThread_moved (s : State) (t : Nat) (f : Thread → Thread) : (s.modThread t f).moved = s.moved := rfl
@[simp] theorem State.modThread_keyAt (s : State) (t : Nat) (f : Thread → Thread) : (s.modThread t f).keyAt = s.keyAt := rfl
@[simp] theorem State.modThread_keyHit (s : State) (t : Nat) (f : Thread → Thread) : (s.modThread t f).keyHit = s.keyHit := rfl
@[simp] theorem State.modThread_redOld (s : State) (t : Nat) (f : Thread → Thread) : (s.modThread t f).redOld = s.redOld := rfl
@[simp] theorem State.modThread_trace (s : State) (t : Nat) (f : Thread → Thread) : (s.modThread t f).trace = s.trace := rfl
@[simp] theorem State.modThread_fab (s : State) (t : Nat) (f : Thread → Thread) : (s.modThread t f).fab = s.fab := rfl

/-! ## modMe -/

@[simp] theorem State.modMe_turns (s : State) (f : Thread → Thread) : (s.modMe f).turns = s.turns := rfl
@[simp] theorem State.modMe_cur (s : State) (f : Thread → Thread) : (s.modMe f).cur = s.cur := rfl
@[simp] theorem State.modMe_fetchOld (s : State) (f : Thread → Thread) : (s.modMe f).fetchOld = s.fetchOld := rfl
@[simp] theorem State.modMe_mem (s : State) (f : Thread → Thread) : (s.modMe f).mem = s.mem := rfl
@[simp] theorem State.modMe_poison (s : State) (f : Thread → Thread) : (s.modMe f).poison = s.poison := rfl
@[simp] theorem State.modMe_old (s : State) (f : Thread → Thread) : (s.modMe f).old = s.old := rfl
@[simp] theorem State.modMe_stale (s : State) (f : Thread → Thread) : (s.modMe f).stale = s.stale := rfl
@[simp] theorem State.modMe_cores (s : State) (f : Thread → Thread) : (s.modMe f).cores = s.cores := rfl
@[simp] theorem State.modMe_clusters (s : State) (f : Thread → Thread) : (s.modMe f).clusters = s.clusters := rfl
@[simp] theorem State.modMe_dieA (s : State) (f : Thread → Thread) : (s.modMe f).dieA = s.dieA := rfl
@[simp] theorem State.modMe_dieB (s : State) (f : Thread → Thread) : (s.modMe f).dieB = s.dieB := rfl
@[simp] theorem State.modMe_hub (s : State) (f : Thread → Thread) : (s.modMe f).hub = s.hub := rfl
@[simp] theorem State.modMe_time (s : State) (f : Thread → Thread) : (s.modMe f).time = s.time := rfl
@[simp] theorem State.modMe_peers (s : State) (f : Thread → Thread) : (s.modMe f).peers = s.peers := rfl
@[simp] theorem State.modMe_gnodes (s : State) (f : Thread → Thread) : (s.modMe f).gnodes = s.gnodes := rfl
@[simp] theorem State.modMe_out (s : State) (f : Thread → Thread) : (s.modMe f).out = s.out := rfl
@[simp] theorem State.modMe_freeIx (s : State) (f : Thread → Thread) : (s.modMe f).freeIx = s.freeIx := rfl
@[simp] theorem State.modMe_stamp (s : State) (f : Thread → Thread) : (s.modMe f).stamp = s.stamp := rfl
@[simp] theorem State.modMe_uid (s : State) (f : Thread → Thread) : (s.modMe f).uid = s.uid := rfl
@[simp] theorem State.modMe_early (s : State) (f : Thread → Thread) : (s.modMe f).early = s.early := rfl
@[simp] theorem State.modMe_tern (s : State) (f : Thread → Thread) : (s.modMe f).tern = s.tern := rfl
@[simp] theorem State.modMe_veil (s : State) (f : Thread → Thread) : (s.modMe f).veil = s.veil := rfl
@[simp] theorem State.modMe_held (s : State) (f : Thread → Thread) : (s.modMe f).held = s.held := rfl
@[simp] theorem State.modMe_moved (s : State) (f : Thread → Thread) : (s.modMe f).moved = s.moved := rfl
@[simp] theorem State.modMe_keyAt (s : State) (f : Thread → Thread) : (s.modMe f).keyAt = s.keyAt := rfl
@[simp] theorem State.modMe_keyHit (s : State) (f : Thread → Thread) : (s.modMe f).keyHit = s.keyHit := rfl
@[simp] theorem State.modMe_redOld (s : State) (f : Thread → Thread) : (s.modMe f).redOld = s.redOld := rfl
@[simp] theorem State.modMe_trace (s : State) (f : Thread → Thread) : (s.modMe f).trace = s.trace := rfl
@[simp] theorem State.modMe_fab (s : State) (f : Thread → Thread) : (s.modMe f).fab = s.fab := rfl

/-! ## setX -/

@[simp] theorem State.setX_turns (s : State) (r : XReg) (v : Word) : (s.setX r v).turns = s.turns := rfl
@[simp] theorem State.setX_cur (s : State) (r : XReg) (v : Word) : (s.setX r v).cur = s.cur := rfl
@[simp] theorem State.setX_fetchOld (s : State) (r : XReg) (v : Word) : (s.setX r v).fetchOld = s.fetchOld := rfl
@[simp] theorem State.setX_mem (s : State) (r : XReg) (v : Word) : (s.setX r v).mem = s.mem := rfl
@[simp] theorem State.setX_poison (s : State) (r : XReg) (v : Word) : (s.setX r v).poison = s.poison := rfl
@[simp] theorem State.setX_old (s : State) (r : XReg) (v : Word) : (s.setX r v).old = s.old := rfl
@[simp] theorem State.setX_stale (s : State) (r : XReg) (v : Word) : (s.setX r v).stale = s.stale := rfl
@[simp] theorem State.setX_cores (s : State) (r : XReg) (v : Word) : (s.setX r v).cores = s.cores := rfl
@[simp] theorem State.setX_clusters (s : State) (r : XReg) (v : Word) : (s.setX r v).clusters = s.clusters := rfl
@[simp] theorem State.setX_dieA (s : State) (r : XReg) (v : Word) : (s.setX r v).dieA = s.dieA := rfl
@[simp] theorem State.setX_dieB (s : State) (r : XReg) (v : Word) : (s.setX r v).dieB = s.dieB := rfl
@[simp] theorem State.setX_hub (s : State) (r : XReg) (v : Word) : (s.setX r v).hub = s.hub := rfl
@[simp] theorem State.setX_time (s : State) (r : XReg) (v : Word) : (s.setX r v).time = s.time := rfl
@[simp] theorem State.setX_peers (s : State) (r : XReg) (v : Word) : (s.setX r v).peers = s.peers := rfl
@[simp] theorem State.setX_gnodes (s : State) (r : XReg) (v : Word) : (s.setX r v).gnodes = s.gnodes := rfl
@[simp] theorem State.setX_out (s : State) (r : XReg) (v : Word) : (s.setX r v).out = s.out := rfl
@[simp] theorem State.setX_freeIx (s : State) (r : XReg) (v : Word) : (s.setX r v).freeIx = s.freeIx := rfl
@[simp] theorem State.setX_stamp (s : State) (r : XReg) (v : Word) : (s.setX r v).stamp = s.stamp := rfl
@[simp] theorem State.setX_uid (s : State) (r : XReg) (v : Word) : (s.setX r v).uid = s.uid := rfl
@[simp] theorem State.setX_early (s : State) (r : XReg) (v : Word) : (s.setX r v).early = s.early := rfl
@[simp] theorem State.setX_tern (s : State) (r : XReg) (v : Word) : (s.setX r v).tern = s.tern := rfl
@[simp] theorem State.setX_veil (s : State) (r : XReg) (v : Word) : (s.setX r v).veil = s.veil := rfl
@[simp] theorem State.setX_held (s : State) (r : XReg) (v : Word) : (s.setX r v).held = s.held := rfl
@[simp] theorem State.setX_moved (s : State) (r : XReg) (v : Word) : (s.setX r v).moved = s.moved := rfl
@[simp] theorem State.setX_keyAt (s : State) (r : XReg) (v : Word) : (s.setX r v).keyAt = s.keyAt := rfl
@[simp] theorem State.setX_keyHit (s : State) (r : XReg) (v : Word) : (s.setX r v).keyHit = s.keyHit := rfl
@[simp] theorem State.setX_redOld (s : State) (r : XReg) (v : Word) : (s.setX r v).redOld = s.redOld := rfl
@[simp] theorem State.setX_trace (s : State) (r : XReg) (v : Word) : (s.setX r v).trace = s.trace := rfl
@[simp] theorem State.setX_fab (s : State) (r : XReg) (v : Word) : (s.setX r v).fab = s.fab := rfl

/-! ## orFlags -/

@[simp] theorem State.orFlags_turns (s : State) (fl : Flags) : (s.orFlags fl).turns = s.turns := rfl
@[simp] theorem State.orFlags_cur (s : State) (fl : Flags) : (s.orFlags fl).cur = s.cur := rfl
@[simp] theorem State.orFlags_fetchOld (s : State) (fl : Flags) : (s.orFlags fl).fetchOld = s.fetchOld := rfl
@[simp] theorem State.orFlags_mem (s : State) (fl : Flags) : (s.orFlags fl).mem = s.mem := rfl
@[simp] theorem State.orFlags_poison (s : State) (fl : Flags) : (s.orFlags fl).poison = s.poison := rfl
@[simp] theorem State.orFlags_old (s : State) (fl : Flags) : (s.orFlags fl).old = s.old := rfl
@[simp] theorem State.orFlags_stale (s : State) (fl : Flags) : (s.orFlags fl).stale = s.stale := rfl
@[simp] theorem State.orFlags_cores (s : State) (fl : Flags) : (s.orFlags fl).cores = s.cores := rfl
@[simp] theorem State.orFlags_clusters (s : State) (fl : Flags) : (s.orFlags fl).clusters = s.clusters := rfl
@[simp] theorem State.orFlags_dieA (s : State) (fl : Flags) : (s.orFlags fl).dieA = s.dieA := rfl
@[simp] theorem State.orFlags_dieB (s : State) (fl : Flags) : (s.orFlags fl).dieB = s.dieB := rfl
@[simp] theorem State.orFlags_hub (s : State) (fl : Flags) : (s.orFlags fl).hub = s.hub := rfl
@[simp] theorem State.orFlags_time (s : State) (fl : Flags) : (s.orFlags fl).time = s.time := rfl
@[simp] theorem State.orFlags_peers (s : State) (fl : Flags) : (s.orFlags fl).peers = s.peers := rfl
@[simp] theorem State.orFlags_gnodes (s : State) (fl : Flags) : (s.orFlags fl).gnodes = s.gnodes := rfl
@[simp] theorem State.orFlags_out (s : State) (fl : Flags) : (s.orFlags fl).out = s.out := rfl
@[simp] theorem State.orFlags_freeIx (s : State) (fl : Flags) : (s.orFlags fl).freeIx = s.freeIx := rfl
@[simp] theorem State.orFlags_stamp (s : State) (fl : Flags) : (s.orFlags fl).stamp = s.stamp := rfl
@[simp] theorem State.orFlags_uid (s : State) (fl : Flags) : (s.orFlags fl).uid = s.uid := rfl
@[simp] theorem State.orFlags_early (s : State) (fl : Flags) : (s.orFlags fl).early = s.early := rfl
@[simp] theorem State.orFlags_tern (s : State) (fl : Flags) : (s.orFlags fl).tern = s.tern := rfl
@[simp] theorem State.orFlags_veil (s : State) (fl : Flags) : (s.orFlags fl).veil = s.veil := rfl
@[simp] theorem State.orFlags_held (s : State) (fl : Flags) : (s.orFlags fl).held = s.held := rfl
@[simp] theorem State.orFlags_moved (s : State) (fl : Flags) : (s.orFlags fl).moved = s.moved := rfl
@[simp] theorem State.orFlags_keyAt (s : State) (fl : Flags) : (s.orFlags fl).keyAt = s.keyAt := rfl
@[simp] theorem State.orFlags_keyHit (s : State) (fl : Flags) : (s.orFlags fl).keyHit = s.keyHit := rfl
@[simp] theorem State.orFlags_redOld (s : State) (fl : Flags) : (s.orFlags fl).redOld = s.redOld := rfl
@[simp] theorem State.orFlags_trace (s : State) (fl : Flags) : (s.orFlags fl).trace = s.trace := rfl
@[simp] theorem State.orFlags_fab (s : State) (fl : Flags) : (s.orFlags fl).fab = s.fab := rfl

/-! ## setVstart -/

@[simp] theorem State.setVstart_turns (s : State) (k : Nat) : (s.setVstart k).turns = s.turns := rfl
@[simp] theorem State.setVstart_cur (s : State) (k : Nat) : (s.setVstart k).cur = s.cur := rfl
@[simp] theorem State.setVstart_fetchOld (s : State) (k : Nat) : (s.setVstart k).fetchOld = s.fetchOld := rfl
@[simp] theorem State.setVstart_mem (s : State) (k : Nat) : (s.setVstart k).mem = s.mem := rfl
@[simp] theorem State.setVstart_poison (s : State) (k : Nat) : (s.setVstart k).poison = s.poison := rfl
@[simp] theorem State.setVstart_old (s : State) (k : Nat) : (s.setVstart k).old = s.old := rfl
@[simp] theorem State.setVstart_stale (s : State) (k : Nat) : (s.setVstart k).stale = s.stale := rfl
@[simp] theorem State.setVstart_cores (s : State) (k : Nat) : (s.setVstart k).cores = s.cores := rfl
@[simp] theorem State.setVstart_clusters (s : State) (k : Nat) : (s.setVstart k).clusters = s.clusters := rfl
@[simp] theorem State.setVstart_dieA (s : State) (k : Nat) : (s.setVstart k).dieA = s.dieA := rfl
@[simp] theorem State.setVstart_dieB (s : State) (k : Nat) : (s.setVstart k).dieB = s.dieB := rfl
@[simp] theorem State.setVstart_hub (s : State) (k : Nat) : (s.setVstart k).hub = s.hub := rfl
@[simp] theorem State.setVstart_time (s : State) (k : Nat) : (s.setVstart k).time = s.time := rfl
@[simp] theorem State.setVstart_peers (s : State) (k : Nat) : (s.setVstart k).peers = s.peers := rfl
@[simp] theorem State.setVstart_gnodes (s : State) (k : Nat) : (s.setVstart k).gnodes = s.gnodes := rfl
@[simp] theorem State.setVstart_out (s : State) (k : Nat) : (s.setVstart k).out = s.out := rfl
@[simp] theorem State.setVstart_freeIx (s : State) (k : Nat) : (s.setVstart k).freeIx = s.freeIx := rfl
@[simp] theorem State.setVstart_stamp (s : State) (k : Nat) : (s.setVstart k).stamp = s.stamp := rfl
@[simp] theorem State.setVstart_uid (s : State) (k : Nat) : (s.setVstart k).uid = s.uid := rfl
@[simp] theorem State.setVstart_early (s : State) (k : Nat) : (s.setVstart k).early = s.early := rfl
@[simp] theorem State.setVstart_tern (s : State) (k : Nat) : (s.setVstart k).tern = s.tern := rfl
@[simp] theorem State.setVstart_veil (s : State) (k : Nat) : (s.setVstart k).veil = s.veil := rfl
@[simp] theorem State.setVstart_held (s : State) (k : Nat) : (s.setVstart k).held = s.held := rfl
@[simp] theorem State.setVstart_moved (s : State) (k : Nat) : (s.setVstart k).moved = s.moved := rfl
@[simp] theorem State.setVstart_keyAt (s : State) (k : Nat) : (s.setVstart k).keyAt = s.keyAt := rfl
@[simp] theorem State.setVstart_keyHit (s : State) (k : Nat) : (s.setVstart k).keyHit = s.keyHit := rfl
@[simp] theorem State.setVstart_redOld (s : State) (k : Nat) : (s.setVstart k).redOld = s.redOld := rfl
@[simp] theorem State.setVstart_trace (s : State) (k : Nat) : (s.setVstart k).trace = s.trace := rfl
@[simp] theorem State.setVstart_fab (s : State) (k : Nat) : (s.setVstart k).fab = s.fab := rfl

/-! ## setCore -/

@[simp] theorem State.setCore_turns (s : State) (k : Nat) (c : CoreState) : (s.setCore k c).turns = s.turns := rfl
@[simp] theorem State.setCore_cur (s : State) (k : Nat) (c : CoreState) : (s.setCore k c).cur = s.cur := rfl
@[simp] theorem State.setCore_fetchOld (s : State) (k : Nat) (c : CoreState) : (s.setCore k c).fetchOld = s.fetchOld := rfl
@[simp] theorem State.setCore_mem (s : State) (k : Nat) (c : CoreState) : (s.setCore k c).mem = s.mem := rfl
@[simp] theorem State.setCore_poison (s : State) (k : Nat) (c : CoreState) : (s.setCore k c).poison = s.poison := rfl
@[simp] theorem State.setCore_old (s : State) (k : Nat) (c : CoreState) : (s.setCore k c).old = s.old := rfl
@[simp] theorem State.setCore_stale (s : State) (k : Nat) (c : CoreState) : (s.setCore k c).stale = s.stale := rfl
@[simp] theorem State.setCore_threads (s : State) (k : Nat) (c : CoreState) : (s.setCore k c).threads = s.threads := rfl
@[simp] theorem State.setCore_clusters (s : State) (k : Nat) (c : CoreState) : (s.setCore k c).clusters = s.clusters := rfl
@[simp] theorem State.setCore_dieA (s : State) (k : Nat) (c : CoreState) : (s.setCore k c).dieA = s.dieA := rfl
@[simp] theorem State.setCore_dieB (s : State) (k : Nat) (c : CoreState) : (s.setCore k c).dieB = s.dieB := rfl
@[simp] theorem State.setCore_hub (s : State) (k : Nat) (c : CoreState) : (s.setCore k c).hub = s.hub := rfl
@[simp] theorem State.setCore_time (s : State) (k : Nat) (c : CoreState) : (s.setCore k c).time = s.time := rfl
@[simp] theorem State.setCore_peers (s : State) (k : Nat) (c : CoreState) : (s.setCore k c).peers = s.peers := rfl
@[simp] theorem State.setCore_gnodes (s : State) (k : Nat) (c : CoreState) : (s.setCore k c).gnodes = s.gnodes := rfl
@[simp] theorem State.setCore_out (s : State) (k : Nat) (c : CoreState) : (s.setCore k c).out = s.out := rfl
@[simp] theorem State.setCore_freeIx (s : State) (k : Nat) (c : CoreState) : (s.setCore k c).freeIx = s.freeIx := rfl
@[simp] theorem State.setCore_stamp (s : State) (k : Nat) (c : CoreState) : (s.setCore k c).stamp = s.stamp := rfl
@[simp] theorem State.setCore_uid (s : State) (k : Nat) (c : CoreState) : (s.setCore k c).uid = s.uid := rfl
@[simp] theorem State.setCore_early (s : State) (k : Nat) (c : CoreState) : (s.setCore k c).early = s.early := rfl
@[simp] theorem State.setCore_tern (s : State) (k : Nat) (c : CoreState) : (s.setCore k c).tern = s.tern := rfl
@[simp] theorem State.setCore_veil (s : State) (k : Nat) (c : CoreState) : (s.setCore k c).veil = s.veil := rfl
@[simp] theorem State.setCore_held (s : State) (k : Nat) (c : CoreState) : (s.setCore k c).held = s.held := rfl
@[simp] theorem State.setCore_moved (s : State) (k : Nat) (c : CoreState) : (s.setCore k c).moved = s.moved := rfl
@[simp] theorem State.setCore_keyAt (s : State) (k : Nat) (c : CoreState) : (s.setCore k c).keyAt = s.keyAt := rfl
@[simp] theorem State.setCore_keyHit (s : State) (k : Nat) (c : CoreState) : (s.setCore k c).keyHit = s.keyHit := rfl
@[simp] theorem State.setCore_redOld (s : State) (k : Nat) (c : CoreState) : (s.setCore k c).redOld = s.redOld := rfl
@[simp] theorem State.setCore_trace (s : State) (k : Nat) (c : CoreState) : (s.setCore k c).trace = s.trace := rfl
@[simp] theorem State.setCore_fab (s : State) (k : Nat) (c : CoreState) : (s.setCore k c).fab = s.fab := rfl

/-! ## modCore -/

@[simp] theorem State.modCore_turns (s : State) (k : Nat) (f : CoreState → CoreState) : (s.modCore k f).turns = s.turns := rfl
@[simp] theorem State.modCore_cur (s : State) (k : Nat) (f : CoreState → CoreState) : (s.modCore k f).cur = s.cur := rfl
@[simp] theorem State.modCore_fetchOld (s : State) (k : Nat) (f : CoreState → CoreState) : (s.modCore k f).fetchOld = s.fetchOld := rfl
@[simp] theorem State.modCore_mem (s : State) (k : Nat) (f : CoreState → CoreState) : (s.modCore k f).mem = s.mem := rfl
@[simp] theorem State.modCore_poison (s : State) (k : Nat) (f : CoreState → CoreState) : (s.modCore k f).poison = s.poison := rfl
@[simp] theorem State.modCore_old (s : State) (k : Nat) (f : CoreState → CoreState) : (s.modCore k f).old = s.old := rfl
@[simp] theorem State.modCore_stale (s : State) (k : Nat) (f : CoreState → CoreState) : (s.modCore k f).stale = s.stale := rfl
@[simp] theorem State.modCore_threads (s : State) (k : Nat) (f : CoreState → CoreState) : (s.modCore k f).threads = s.threads := rfl
@[simp] theorem State.modCore_clusters (s : State) (k : Nat) (f : CoreState → CoreState) : (s.modCore k f).clusters = s.clusters := rfl
@[simp] theorem State.modCore_dieA (s : State) (k : Nat) (f : CoreState → CoreState) : (s.modCore k f).dieA = s.dieA := rfl
@[simp] theorem State.modCore_dieB (s : State) (k : Nat) (f : CoreState → CoreState) : (s.modCore k f).dieB = s.dieB := rfl
@[simp] theorem State.modCore_hub (s : State) (k : Nat) (f : CoreState → CoreState) : (s.modCore k f).hub = s.hub := rfl
@[simp] theorem State.modCore_time (s : State) (k : Nat) (f : CoreState → CoreState) : (s.modCore k f).time = s.time := rfl
@[simp] theorem State.modCore_peers (s : State) (k : Nat) (f : CoreState → CoreState) : (s.modCore k f).peers = s.peers := rfl
@[simp] theorem State.modCore_gnodes (s : State) (k : Nat) (f : CoreState → CoreState) : (s.modCore k f).gnodes = s.gnodes := rfl
@[simp] theorem State.modCore_out (s : State) (k : Nat) (f : CoreState → CoreState) : (s.modCore k f).out = s.out := rfl
@[simp] theorem State.modCore_freeIx (s : State) (k : Nat) (f : CoreState → CoreState) : (s.modCore k f).freeIx = s.freeIx := rfl
@[simp] theorem State.modCore_stamp (s : State) (k : Nat) (f : CoreState → CoreState) : (s.modCore k f).stamp = s.stamp := rfl
@[simp] theorem State.modCore_uid (s : State) (k : Nat) (f : CoreState → CoreState) : (s.modCore k f).uid = s.uid := rfl
@[simp] theorem State.modCore_early (s : State) (k : Nat) (f : CoreState → CoreState) : (s.modCore k f).early = s.early := rfl
@[simp] theorem State.modCore_tern (s : State) (k : Nat) (f : CoreState → CoreState) : (s.modCore k f).tern = s.tern := rfl
@[simp] theorem State.modCore_veil (s : State) (k : Nat) (f : CoreState → CoreState) : (s.modCore k f).veil = s.veil := rfl
@[simp] theorem State.modCore_held (s : State) (k : Nat) (f : CoreState → CoreState) : (s.modCore k f).held = s.held := rfl
@[simp] theorem State.modCore_moved (s : State) (k : Nat) (f : CoreState → CoreState) : (s.modCore k f).moved = s.moved := rfl
@[simp] theorem State.modCore_keyAt (s : State) (k : Nat) (f : CoreState → CoreState) : (s.modCore k f).keyAt = s.keyAt := rfl
@[simp] theorem State.modCore_keyHit (s : State) (k : Nat) (f : CoreState → CoreState) : (s.modCore k f).keyHit = s.keyHit := rfl
@[simp] theorem State.modCore_redOld (s : State) (k : Nat) (f : CoreState → CoreState) : (s.modCore k f).redOld = s.redOld := rfl
@[simp] theorem State.modCore_trace (s : State) (k : Nat) (f : CoreState → CoreState) : (s.modCore k f).trace = s.trace := rfl
@[simp] theorem State.modCore_fab (s : State) (k : Nat) (f : CoreState → CoreState) : (s.modCore k f).fab = s.fab := rfl

/-! ## setCluster -/

@[simp] theorem State.setCluster_turns (s : State) (k : Nat) (c : Cluster) : (s.setCluster k c).turns = s.turns := rfl
@[simp] theorem State.setCluster_cur (s : State) (k : Nat) (c : Cluster) : (s.setCluster k c).cur = s.cur := rfl
@[simp] theorem State.setCluster_fetchOld (s : State) (k : Nat) (c : Cluster) : (s.setCluster k c).fetchOld = s.fetchOld := rfl
@[simp] theorem State.setCluster_mem (s : State) (k : Nat) (c : Cluster) : (s.setCluster k c).mem = s.mem := rfl
@[simp] theorem State.setCluster_poison (s : State) (k : Nat) (c : Cluster) : (s.setCluster k c).poison = s.poison := rfl
@[simp] theorem State.setCluster_old (s : State) (k : Nat) (c : Cluster) : (s.setCluster k c).old = s.old := rfl
@[simp] theorem State.setCluster_stale (s : State) (k : Nat) (c : Cluster) : (s.setCluster k c).stale = s.stale := rfl
@[simp] theorem State.setCluster_threads (s : State) (k : Nat) (c : Cluster) : (s.setCluster k c).threads = s.threads := rfl
@[simp] theorem State.setCluster_cores (s : State) (k : Nat) (c : Cluster) : (s.setCluster k c).cores = s.cores := rfl
@[simp] theorem State.setCluster_dieA (s : State) (k : Nat) (c : Cluster) : (s.setCluster k c).dieA = s.dieA := rfl
@[simp] theorem State.setCluster_dieB (s : State) (k : Nat) (c : Cluster) : (s.setCluster k c).dieB = s.dieB := rfl
@[simp] theorem State.setCluster_hub (s : State) (k : Nat) (c : Cluster) : (s.setCluster k c).hub = s.hub := rfl
@[simp] theorem State.setCluster_time (s : State) (k : Nat) (c : Cluster) : (s.setCluster k c).time = s.time := rfl
@[simp] theorem State.setCluster_peers (s : State) (k : Nat) (c : Cluster) : (s.setCluster k c).peers = s.peers := rfl
@[simp] theorem State.setCluster_gnodes (s : State) (k : Nat) (c : Cluster) : (s.setCluster k c).gnodes = s.gnodes := rfl
@[simp] theorem State.setCluster_out (s : State) (k : Nat) (c : Cluster) : (s.setCluster k c).out = s.out := rfl
@[simp] theorem State.setCluster_freeIx (s : State) (k : Nat) (c : Cluster) : (s.setCluster k c).freeIx = s.freeIx := rfl
@[simp] theorem State.setCluster_stamp (s : State) (k : Nat) (c : Cluster) : (s.setCluster k c).stamp = s.stamp := rfl
@[simp] theorem State.setCluster_uid (s : State) (k : Nat) (c : Cluster) : (s.setCluster k c).uid = s.uid := rfl
@[simp] theorem State.setCluster_early (s : State) (k : Nat) (c : Cluster) : (s.setCluster k c).early = s.early := rfl
@[simp] theorem State.setCluster_tern (s : State) (k : Nat) (c : Cluster) : (s.setCluster k c).tern = s.tern := rfl
@[simp] theorem State.setCluster_veil (s : State) (k : Nat) (c : Cluster) : (s.setCluster k c).veil = s.veil := rfl
@[simp] theorem State.setCluster_held (s : State) (k : Nat) (c : Cluster) : (s.setCluster k c).held = s.held := rfl
@[simp] theorem State.setCluster_moved (s : State) (k : Nat) (c : Cluster) : (s.setCluster k c).moved = s.moved := rfl
@[simp] theorem State.setCluster_keyAt (s : State) (k : Nat) (c : Cluster) : (s.setCluster k c).keyAt = s.keyAt := rfl
@[simp] theorem State.setCluster_keyHit (s : State) (k : Nat) (c : Cluster) : (s.setCluster k c).keyHit = s.keyHit := rfl
@[simp] theorem State.setCluster_redOld (s : State) (k : Nat) (c : Cluster) : (s.setCluster k c).redOld = s.redOld := rfl
@[simp] theorem State.setCluster_trace (s : State) (k : Nat) (c : Cluster) : (s.setCluster k c).trace = s.trace := rfl
@[simp] theorem State.setCluster_fab (s : State) (k : Nat) (c : Cluster) : (s.setCluster k c).fab = s.fab := rfl

/-! ## modCluster -/

@[simp] theorem State.modCluster_turns (s : State) (k : Nat) (f : Cluster → Cluster) : (s.modCluster k f).turns = s.turns := rfl
@[simp] theorem State.modCluster_cur (s : State) (k : Nat) (f : Cluster → Cluster) : (s.modCluster k f).cur = s.cur := rfl
@[simp] theorem State.modCluster_fetchOld (s : State) (k : Nat) (f : Cluster → Cluster) : (s.modCluster k f).fetchOld = s.fetchOld := rfl
@[simp] theorem State.modCluster_mem (s : State) (k : Nat) (f : Cluster → Cluster) : (s.modCluster k f).mem = s.mem := rfl
@[simp] theorem State.modCluster_poison (s : State) (k : Nat) (f : Cluster → Cluster) : (s.modCluster k f).poison = s.poison := rfl
@[simp] theorem State.modCluster_old (s : State) (k : Nat) (f : Cluster → Cluster) : (s.modCluster k f).old = s.old := rfl
@[simp] theorem State.modCluster_stale (s : State) (k : Nat) (f : Cluster → Cluster) : (s.modCluster k f).stale = s.stale := rfl
@[simp] theorem State.modCluster_threads (s : State) (k : Nat) (f : Cluster → Cluster) : (s.modCluster k f).threads = s.threads := rfl
@[simp] theorem State.modCluster_cores (s : State) (k : Nat) (f : Cluster → Cluster) : (s.modCluster k f).cores = s.cores := rfl
@[simp] theorem State.modCluster_dieA (s : State) (k : Nat) (f : Cluster → Cluster) : (s.modCluster k f).dieA = s.dieA := rfl
@[simp] theorem State.modCluster_dieB (s : State) (k : Nat) (f : Cluster → Cluster) : (s.modCluster k f).dieB = s.dieB := rfl
@[simp] theorem State.modCluster_hub (s : State) (k : Nat) (f : Cluster → Cluster) : (s.modCluster k f).hub = s.hub := rfl
@[simp] theorem State.modCluster_time (s : State) (k : Nat) (f : Cluster → Cluster) : (s.modCluster k f).time = s.time := rfl
@[simp] theorem State.modCluster_peers (s : State) (k : Nat) (f : Cluster → Cluster) : (s.modCluster k f).peers = s.peers := rfl
@[simp] theorem State.modCluster_gnodes (s : State) (k : Nat) (f : Cluster → Cluster) : (s.modCluster k f).gnodes = s.gnodes := rfl
@[simp] theorem State.modCluster_out (s : State) (k : Nat) (f : Cluster → Cluster) : (s.modCluster k f).out = s.out := rfl
@[simp] theorem State.modCluster_freeIx (s : State) (k : Nat) (f : Cluster → Cluster) : (s.modCluster k f).freeIx = s.freeIx := rfl
@[simp] theorem State.modCluster_stamp (s : State) (k : Nat) (f : Cluster → Cluster) : (s.modCluster k f).stamp = s.stamp := rfl
@[simp] theorem State.modCluster_uid (s : State) (k : Nat) (f : Cluster → Cluster) : (s.modCluster k f).uid = s.uid := rfl
@[simp] theorem State.modCluster_early (s : State) (k : Nat) (f : Cluster → Cluster) : (s.modCluster k f).early = s.early := rfl
@[simp] theorem State.modCluster_tern (s : State) (k : Nat) (f : Cluster → Cluster) : (s.modCluster k f).tern = s.tern := rfl
@[simp] theorem State.modCluster_veil (s : State) (k : Nat) (f : Cluster → Cluster) : (s.modCluster k f).veil = s.veil := rfl
@[simp] theorem State.modCluster_held (s : State) (k : Nat) (f : Cluster → Cluster) : (s.modCluster k f).held = s.held := rfl
@[simp] theorem State.modCluster_moved (s : State) (k : Nat) (f : Cluster → Cluster) : (s.modCluster k f).moved = s.moved := rfl
@[simp] theorem State.modCluster_keyAt (s : State) (k : Nat) (f : Cluster → Cluster) : (s.modCluster k f).keyAt = s.keyAt := rfl
@[simp] theorem State.modCluster_keyHit (s : State) (k : Nat) (f : Cluster → Cluster) : (s.modCluster k f).keyHit = s.keyHit := rfl
@[simp] theorem State.modCluster_redOld (s : State) (k : Nat) (f : Cluster → Cluster) : (s.modCluster k f).redOld = s.redOld := rfl
@[simp] theorem State.modCluster_trace (s : State) (k : Nat) (f : Cluster → Cluster) : (s.modCluster k f).trace = s.trace := rfl
@[simp] theorem State.modCluster_fab (s : State) (k : Nat) (f : Cluster → Cluster) : (s.modCluster k f).fab = s.fab := rfl

/-! ## count -/

@[simp] theorem State.count_turns (s : State) (clu ix n : Nat) : (s.count clu ix n).turns = s.turns := rfl
@[simp] theorem State.count_cur (s : State) (clu ix n : Nat) : (s.count clu ix n).cur = s.cur := rfl
@[simp] theorem State.count_fetchOld (s : State) (clu ix n : Nat) : (s.count clu ix n).fetchOld = s.fetchOld := rfl
@[simp] theorem State.count_mem (s : State) (clu ix n : Nat) : (s.count clu ix n).mem = s.mem := rfl
@[simp] theorem State.count_poison (s : State) (clu ix n : Nat) : (s.count clu ix n).poison = s.poison := rfl
@[simp] theorem State.count_old (s : State) (clu ix n : Nat) : (s.count clu ix n).old = s.old := rfl
@[simp] theorem State.count_stale (s : State) (clu ix n : Nat) : (s.count clu ix n).stale = s.stale := rfl
@[simp] theorem State.count_threads (s : State) (clu ix n : Nat) : (s.count clu ix n).threads = s.threads := rfl
@[simp] theorem State.count_cores (s : State) (clu ix n : Nat) : (s.count clu ix n).cores = s.cores := rfl
@[simp] theorem State.count_dieA (s : State) (clu ix n : Nat) : (s.count clu ix n).dieA = s.dieA := rfl
@[simp] theorem State.count_dieB (s : State) (clu ix n : Nat) : (s.count clu ix n).dieB = s.dieB := rfl
@[simp] theorem State.count_hub (s : State) (clu ix n : Nat) : (s.count clu ix n).hub = s.hub := rfl
@[simp] theorem State.count_time (s : State) (clu ix n : Nat) : (s.count clu ix n).time = s.time := rfl
@[simp] theorem State.count_peers (s : State) (clu ix n : Nat) : (s.count clu ix n).peers = s.peers := rfl
@[simp] theorem State.count_gnodes (s : State) (clu ix n : Nat) : (s.count clu ix n).gnodes = s.gnodes := rfl
@[simp] theorem State.count_out (s : State) (clu ix n : Nat) : (s.count clu ix n).out = s.out := rfl
@[simp] theorem State.count_freeIx (s : State) (clu ix n : Nat) : (s.count clu ix n).freeIx = s.freeIx := rfl
@[simp] theorem State.count_stamp (s : State) (clu ix n : Nat) : (s.count clu ix n).stamp = s.stamp := rfl
@[simp] theorem State.count_uid (s : State) (clu ix n : Nat) : (s.count clu ix n).uid = s.uid := rfl
@[simp] theorem State.count_early (s : State) (clu ix n : Nat) : (s.count clu ix n).early = s.early := rfl
@[simp] theorem State.count_tern (s : State) (clu ix n : Nat) : (s.count clu ix n).tern = s.tern := rfl
@[simp] theorem State.count_veil (s : State) (clu ix n : Nat) : (s.count clu ix n).veil = s.veil := rfl
@[simp] theorem State.count_held (s : State) (clu ix n : Nat) : (s.count clu ix n).held = s.held := rfl
@[simp] theorem State.count_moved (s : State) (clu ix n : Nat) : (s.count clu ix n).moved = s.moved := rfl
@[simp] theorem State.count_keyAt (s : State) (clu ix n : Nat) : (s.count clu ix n).keyAt = s.keyAt := rfl
@[simp] theorem State.count_keyHit (s : State) (clu ix n : Nat) : (s.count clu ix n).keyHit = s.keyHit := rfl
@[simp] theorem State.count_redOld (s : State) (clu ix n : Nat) : (s.count clu ix n).redOld = s.redOld := rfl
@[simp] theorem State.count_trace (s : State) (clu ix n : Nat) : (s.count clu ix n).trace = s.trace := rfl
@[simp] theorem State.count_fab (s : State) (clu ix n : Nat) : (s.count clu ix n).fab = s.fab := rfl

/-! ## modHub -/

@[simp] theorem State.modHub_turns (s : State) (f : Hub → Hub) : (s.modHub f).turns = s.turns := rfl
@[simp] theorem State.modHub_cur (s : State) (f : Hub → Hub) : (s.modHub f).cur = s.cur := rfl
@[simp] theorem State.modHub_fetchOld (s : State) (f : Hub → Hub) : (s.modHub f).fetchOld = s.fetchOld := rfl
@[simp] theorem State.modHub_mem (s : State) (f : Hub → Hub) : (s.modHub f).mem = s.mem := rfl
@[simp] theorem State.modHub_poison (s : State) (f : Hub → Hub) : (s.modHub f).poison = s.poison := rfl
@[simp] theorem State.modHub_old (s : State) (f : Hub → Hub) : (s.modHub f).old = s.old := rfl
@[simp] theorem State.modHub_stale (s : State) (f : Hub → Hub) : (s.modHub f).stale = s.stale := rfl
@[simp] theorem State.modHub_threads (s : State) (f : Hub → Hub) : (s.modHub f).threads = s.threads := rfl
@[simp] theorem State.modHub_cores (s : State) (f : Hub → Hub) : (s.modHub f).cores = s.cores := rfl
@[simp] theorem State.modHub_clusters (s : State) (f : Hub → Hub) : (s.modHub f).clusters = s.clusters := rfl
@[simp] theorem State.modHub_dieA (s : State) (f : Hub → Hub) : (s.modHub f).dieA = s.dieA := rfl
@[simp] theorem State.modHub_dieB (s : State) (f : Hub → Hub) : (s.modHub f).dieB = s.dieB := rfl
@[simp] theorem State.modHub_time (s : State) (f : Hub → Hub) : (s.modHub f).time = s.time := rfl
@[simp] theorem State.modHub_peers (s : State) (f : Hub → Hub) : (s.modHub f).peers = s.peers := rfl
@[simp] theorem State.modHub_gnodes (s : State) (f : Hub → Hub) : (s.modHub f).gnodes = s.gnodes := rfl
@[simp] theorem State.modHub_out (s : State) (f : Hub → Hub) : (s.modHub f).out = s.out := rfl
@[simp] theorem State.modHub_freeIx (s : State) (f : Hub → Hub) : (s.modHub f).freeIx = s.freeIx := rfl
@[simp] theorem State.modHub_stamp (s : State) (f : Hub → Hub) : (s.modHub f).stamp = s.stamp := rfl
@[simp] theorem State.modHub_uid (s : State) (f : Hub → Hub) : (s.modHub f).uid = s.uid := rfl
@[simp] theorem State.modHub_early (s : State) (f : Hub → Hub) : (s.modHub f).early = s.early := rfl
@[simp] theorem State.modHub_tern (s : State) (f : Hub → Hub) : (s.modHub f).tern = s.tern := rfl
@[simp] theorem State.modHub_veil (s : State) (f : Hub → Hub) : (s.modHub f).veil = s.veil := rfl
@[simp] theorem State.modHub_held (s : State) (f : Hub → Hub) : (s.modHub f).held = s.held := rfl
@[simp] theorem State.modHub_moved (s : State) (f : Hub → Hub) : (s.modHub f).moved = s.moved := rfl
@[simp] theorem State.modHub_keyAt (s : State) (f : Hub → Hub) : (s.modHub f).keyAt = s.keyAt := rfl
@[simp] theorem State.modHub_keyHit (s : State) (f : Hub → Hub) : (s.modHub f).keyHit = s.keyHit := rfl
@[simp] theorem State.modHub_redOld (s : State) (f : Hub → Hub) : (s.modHub f).redOld = s.redOld := rfl
@[simp] theorem State.modHub_trace (s : State) (f : Hub → Hub) : (s.modHub f).trace = s.trace := rfl
@[simp] theorem State.modHub_fab (s : State) (f : Hub → Hub) : (s.modHub f).fab = s.fab := rfl

/-! ## answer -/

@[simp] theorem State.answer_turns (s : State) (r : Response) : (s.answer r).turns = s.turns := rfl
@[simp] theorem State.answer_cur (s : State) (r : Response) : (s.answer r).cur = s.cur := rfl
@[simp] theorem State.answer_fetchOld (s : State) (r : Response) : (s.answer r).fetchOld = s.fetchOld := rfl
@[simp] theorem State.answer_mem (s : State) (r : Response) : (s.answer r).mem = s.mem := rfl
@[simp] theorem State.answer_poison (s : State) (r : Response) : (s.answer r).poison = s.poison := rfl
@[simp] theorem State.answer_old (s : State) (r : Response) : (s.answer r).old = s.old := rfl
@[simp] theorem State.answer_stale (s : State) (r : Response) : (s.answer r).stale = s.stale := rfl
@[simp] theorem State.answer_threads (s : State) (r : Response) : (s.answer r).threads = s.threads := rfl
@[simp] theorem State.answer_cores (s : State) (r : Response) : (s.answer r).cores = s.cores := rfl
@[simp] theorem State.answer_clusters (s : State) (r : Response) : (s.answer r).clusters = s.clusters := rfl
@[simp] theorem State.answer_dieA (s : State) (r : Response) : (s.answer r).dieA = s.dieA := rfl
@[simp] theorem State.answer_dieB (s : State) (r : Response) : (s.answer r).dieB = s.dieB := rfl
@[simp] theorem State.answer_hub (s : State) (r : Response) : (s.answer r).hub = s.hub := rfl
@[simp] theorem State.answer_time (s : State) (r : Response) : (s.answer r).time = s.time := rfl
@[simp] theorem State.answer_peers (s : State) (r : Response) : (s.answer r).peers = s.peers := rfl
@[simp] theorem State.answer_gnodes (s : State) (r : Response) : (s.answer r).gnodes = s.gnodes := rfl
@[simp] theorem State.answer_freeIx (s : State) (r : Response) : (s.answer r).freeIx = s.freeIx := rfl
@[simp] theorem State.answer_stamp (s : State) (r : Response) : (s.answer r).stamp = s.stamp := rfl
@[simp] theorem State.answer_uid (s : State) (r : Response) : (s.answer r).uid = s.uid := rfl
@[simp] theorem State.answer_early (s : State) (r : Response) : (s.answer r).early = s.early := rfl
@[simp] theorem State.answer_tern (s : State) (r : Response) : (s.answer r).tern = s.tern := rfl
@[simp] theorem State.answer_veil (s : State) (r : Response) : (s.answer r).veil = s.veil := rfl
@[simp] theorem State.answer_held (s : State) (r : Response) : (s.answer r).held = s.held := rfl
@[simp] theorem State.answer_moved (s : State) (r : Response) : (s.answer r).moved = s.moved := rfl
@[simp] theorem State.answer_keyAt (s : State) (r : Response) : (s.answer r).keyAt = s.keyAt := rfl
@[simp] theorem State.answer_keyHit (s : State) (r : Response) : (s.answer r).keyHit = s.keyHit := rfl
@[simp] theorem State.answer_redOld (s : State) (r : Response) : (s.answer r).redOld = s.redOld := rfl
@[simp] theorem State.answer_trace (s : State) (r : Response) : (s.answer r).trace = s.trace := rfl
@[simp] theorem State.answer_fab (s : State) (r : Response) : (s.answer r).fab = s.fab := rfl

/-! ## putByte -/

@[simp] theorem State.putByte_turns (s : State) (pa : Nat) (b mask : Byte) : (s.putByte pa b mask).turns = s.turns := rfl
@[simp] theorem State.putByte_cur (s : State) (pa : Nat) (b mask : Byte) : (s.putByte pa b mask).cur = s.cur := rfl
@[simp] theorem State.putByte_fetchOld (s : State) (pa : Nat) (b mask : Byte) : (s.putByte pa b mask).fetchOld = s.fetchOld := rfl
@[simp] theorem State.putByte_poison (s : State) (pa : Nat) (b mask : Byte) : (s.putByte pa b mask).poison = s.poison := rfl
@[simp] theorem State.putByte_old (s : State) (pa : Nat) (b mask : Byte) : (s.putByte pa b mask).old = s.old := rfl
@[simp] theorem State.putByte_stale (s : State) (pa : Nat) (b mask : Byte) : (s.putByte pa b mask).stale = s.stale := rfl
@[simp] theorem State.putByte_threads (s : State) (pa : Nat) (b mask : Byte) : (s.putByte pa b mask).threads = s.threads := rfl
@[simp] theorem State.putByte_cores (s : State) (pa : Nat) (b mask : Byte) : (s.putByte pa b mask).cores = s.cores := rfl
@[simp] theorem State.putByte_clusters (s : State) (pa : Nat) (b mask : Byte) : (s.putByte pa b mask).clusters = s.clusters := rfl
@[simp] theorem State.putByte_dieA (s : State) (pa : Nat) (b mask : Byte) : (s.putByte pa b mask).dieA = s.dieA := rfl
@[simp] theorem State.putByte_dieB (s : State) (pa : Nat) (b mask : Byte) : (s.putByte pa b mask).dieB = s.dieB := rfl
@[simp] theorem State.putByte_hub (s : State) (pa : Nat) (b mask : Byte) : (s.putByte pa b mask).hub = s.hub := rfl
@[simp] theorem State.putByte_time (s : State) (pa : Nat) (b mask : Byte) : (s.putByte pa b mask).time = s.time := rfl
@[simp] theorem State.putByte_peers (s : State) (pa : Nat) (b mask : Byte) : (s.putByte pa b mask).peers = s.peers := rfl
@[simp] theorem State.putByte_gnodes (s : State) (pa : Nat) (b mask : Byte) : (s.putByte pa b mask).gnodes = s.gnodes := rfl
@[simp] theorem State.putByte_out (s : State) (pa : Nat) (b mask : Byte) : (s.putByte pa b mask).out = s.out := rfl
@[simp] theorem State.putByte_freeIx (s : State) (pa : Nat) (b mask : Byte) : (s.putByte pa b mask).freeIx = s.freeIx := rfl
@[simp] theorem State.putByte_stamp (s : State) (pa : Nat) (b mask : Byte) : (s.putByte pa b mask).stamp = s.stamp := rfl
@[simp] theorem State.putByte_uid (s : State) (pa : Nat) (b mask : Byte) : (s.putByte pa b mask).uid = s.uid := rfl
@[simp] theorem State.putByte_early (s : State) (pa : Nat) (b mask : Byte) : (s.putByte pa b mask).early = s.early := rfl
@[simp] theorem State.putByte_tern (s : State) (pa : Nat) (b mask : Byte) : (s.putByte pa b mask).tern = s.tern := rfl
@[simp] theorem State.putByte_held (s : State) (pa : Nat) (b mask : Byte) : (s.putByte pa b mask).held = s.held := rfl
@[simp] theorem State.putByte_moved (s : State) (pa : Nat) (b mask : Byte) : (s.putByte pa b mask).moved = s.moved := rfl
@[simp] theorem State.putByte_keyAt (s : State) (pa : Nat) (b mask : Byte) : (s.putByte pa b mask).keyAt = s.keyAt := rfl
@[simp] theorem State.putByte_keyHit (s : State) (pa : Nat) (b mask : Byte) : (s.putByte pa b mask).keyHit = s.keyHit := rfl
@[simp] theorem State.putByte_redOld (s : State) (pa : Nat) (b mask : Byte) : (s.putByte pa b mask).redOld = s.redOld := rfl
@[simp] theorem State.putByte_trace (s : State) (pa : Nat) (b mask : Byte) : (s.putByte pa b mask).trace = s.trace := rfl
@[simp] theorem State.putByte_fab (s : State) (pa : Nat) (b mask : Byte) : (s.putByte pa b mask).fab = s.fab := rfl

/-! ## logRas -/

@[simp] theorem State.logRas_turns (s : State) (code cls die unit : Nat) (detail : Word) : (s.logRas code cls die unit detail).turns = s.turns := rfl
@[simp] theorem State.logRas_cur (s : State) (code cls die unit : Nat) (detail : Word) : (s.logRas code cls die unit detail).cur = s.cur := rfl
@[simp] theorem State.logRas_fetchOld (s : State) (code cls die unit : Nat) (detail : Word) : (s.logRas code cls die unit detail).fetchOld = s.fetchOld := rfl
@[simp] theorem State.logRas_mem (s : State) (code cls die unit : Nat) (detail : Word) : (s.logRas code cls die unit detail).mem = s.mem := rfl
@[simp] theorem State.logRas_poison (s : State) (code cls die unit : Nat) (detail : Word) : (s.logRas code cls die unit detail).poison = s.poison := rfl
@[simp] theorem State.logRas_old (s : State) (code cls die unit : Nat) (detail : Word) : (s.logRas code cls die unit detail).old = s.old := rfl
@[simp] theorem State.logRas_stale (s : State) (code cls die unit : Nat) (detail : Word) : (s.logRas code cls die unit detail).stale = s.stale := rfl
@[simp] theorem State.logRas_threads (s : State) (code cls die unit : Nat) (detail : Word) : (s.logRas code cls die unit detail).threads = s.threads := rfl
@[simp] theorem State.logRas_cores (s : State) (code cls die unit : Nat) (detail : Word) : (s.logRas code cls die unit detail).cores = s.cores := rfl
@[simp] theorem State.logRas_clusters (s : State) (code cls die unit : Nat) (detail : Word) : (s.logRas code cls die unit detail).clusters = s.clusters := rfl
@[simp] theorem State.logRas_dieA (s : State) (code cls die unit : Nat) (detail : Word) : (s.logRas code cls die unit detail).dieA = s.dieA := rfl
@[simp] theorem State.logRas_dieB (s : State) (code cls die unit : Nat) (detail : Word) : (s.logRas code cls die unit detail).dieB = s.dieB := rfl
@[simp] theorem State.logRas_time (s : State) (code cls die unit : Nat) (detail : Word) : (s.logRas code cls die unit detail).time = s.time := rfl
@[simp] theorem State.logRas_peers (s : State) (code cls die unit : Nat) (detail : Word) : (s.logRas code cls die unit detail).peers = s.peers := rfl
@[simp] theorem State.logRas_gnodes (s : State) (code cls die unit : Nat) (detail : Word) : (s.logRas code cls die unit detail).gnodes = s.gnodes := rfl
@[simp] theorem State.logRas_out (s : State) (code cls die unit : Nat) (detail : Word) : (s.logRas code cls die unit detail).out = s.out := rfl
@[simp] theorem State.logRas_freeIx (s : State) (code cls die unit : Nat) (detail : Word) : (s.logRas code cls die unit detail).freeIx = s.freeIx := rfl
@[simp] theorem State.logRas_stamp (s : State) (code cls die unit : Nat) (detail : Word) : (s.logRas code cls die unit detail).stamp = s.stamp := rfl
@[simp] theorem State.logRas_uid (s : State) (code cls die unit : Nat) (detail : Word) : (s.logRas code cls die unit detail).uid = s.uid := rfl
@[simp] theorem State.logRas_early (s : State) (code cls die unit : Nat) (detail : Word) : (s.logRas code cls die unit detail).early = s.early := rfl
@[simp] theorem State.logRas_tern (s : State) (code cls die unit : Nat) (detail : Word) : (s.logRas code cls die unit detail).tern = s.tern := rfl
@[simp] theorem State.logRas_veil (s : State) (code cls die unit : Nat) (detail : Word) : (s.logRas code cls die unit detail).veil = s.veil := rfl
@[simp] theorem State.logRas_held (s : State) (code cls die unit : Nat) (detail : Word) : (s.logRas code cls die unit detail).held = s.held := rfl
@[simp] theorem State.logRas_moved (s : State) (code cls die unit : Nat) (detail : Word) : (s.logRas code cls die unit detail).moved = s.moved := rfl
@[simp] theorem State.logRas_keyAt (s : State) (code cls die unit : Nat) (detail : Word) : (s.logRas code cls die unit detail).keyAt = s.keyAt := rfl
@[simp] theorem State.logRas_keyHit (s : State) (code cls die unit : Nat) (detail : Word) : (s.logRas code cls die unit detail).keyHit = s.keyHit := rfl
@[simp] theorem State.logRas_redOld (s : State) (code cls die unit : Nat) (detail : Word) : (s.logRas code cls die unit detail).redOld = s.redOld := rfl
@[simp] theorem State.logRas_trace (s : State) (code cls die unit : Nat) (detail : Word) : (s.logRas code cls die unit detail).trace = s.trace := rfl
@[simp] theorem State.logRas_fab (s : State) (code cls die unit : Nat) (detail : Word) : (s.logRas code cls die unit detail).fab = s.fab := rfl

/-! ## setDie and modDie -/

@[simp] theorem State.setDie_turns (s : State) (d : DieId) (x : DieState) : (s.setDie d x).turns = s.turns := by
  cases d <;> rfl
@[simp] theorem State.modDie_turns (s : State) (d : DieId) (f : DieState → DieState) : (s.modDie d f).turns = s.turns := by
  cases d <;> rfl
@[simp] theorem State.setDie_cur (s : State) (d : DieId) (x : DieState) : (s.setDie d x).cur = s.cur := by
  cases d <;> rfl
@[simp] theorem State.modDie_cur (s : State) (d : DieId) (f : DieState → DieState) : (s.modDie d f).cur = s.cur := by
  cases d <;> rfl
@[simp] theorem State.setDie_fetchOld (s : State) (d : DieId) (x : DieState) : (s.setDie d x).fetchOld = s.fetchOld := by
  cases d <;> rfl
@[simp] theorem State.modDie_fetchOld (s : State) (d : DieId) (f : DieState → DieState) : (s.modDie d f).fetchOld = s.fetchOld := by
  cases d <;> rfl
@[simp] theorem State.setDie_mem (s : State) (d : DieId) (x : DieState) : (s.setDie d x).mem = s.mem := by
  cases d <;> rfl
@[simp] theorem State.modDie_mem (s : State) (d : DieId) (f : DieState → DieState) : (s.modDie d f).mem = s.mem := by
  cases d <;> rfl
@[simp] theorem State.setDie_poison (s : State) (d : DieId) (x : DieState) : (s.setDie d x).poison = s.poison := by
  cases d <;> rfl
@[simp] theorem State.modDie_poison (s : State) (d : DieId) (f : DieState → DieState) : (s.modDie d f).poison = s.poison := by
  cases d <;> rfl
@[simp] theorem State.setDie_old (s : State) (d : DieId) (x : DieState) : (s.setDie d x).old = s.old := by
  cases d <;> rfl
@[simp] theorem State.modDie_old (s : State) (d : DieId) (f : DieState → DieState) : (s.modDie d f).old = s.old := by
  cases d <;> rfl
@[simp] theorem State.setDie_stale (s : State) (d : DieId) (x : DieState) : (s.setDie d x).stale = s.stale := by
  cases d <;> rfl
@[simp] theorem State.modDie_stale (s : State) (d : DieId) (f : DieState → DieState) : (s.modDie d f).stale = s.stale := by
  cases d <;> rfl
@[simp] theorem State.setDie_threads (s : State) (d : DieId) (x : DieState) : (s.setDie d x).threads = s.threads := by
  cases d <;> rfl
@[simp] theorem State.modDie_threads (s : State) (d : DieId) (f : DieState → DieState) : (s.modDie d f).threads = s.threads := by
  cases d <;> rfl
@[simp] theorem State.setDie_cores (s : State) (d : DieId) (x : DieState) : (s.setDie d x).cores = s.cores := by
  cases d <;> rfl
@[simp] theorem State.modDie_cores (s : State) (d : DieId) (f : DieState → DieState) : (s.modDie d f).cores = s.cores := by
  cases d <;> rfl
@[simp] theorem State.setDie_clusters (s : State) (d : DieId) (x : DieState) : (s.setDie d x).clusters = s.clusters := by
  cases d <;> rfl
@[simp] theorem State.modDie_clusters (s : State) (d : DieId) (f : DieState → DieState) : (s.modDie d f).clusters = s.clusters := by
  cases d <;> rfl
@[simp] theorem State.setDie_hub (s : State) (d : DieId) (x : DieState) : (s.setDie d x).hub = s.hub := by
  cases d <;> rfl
@[simp] theorem State.modDie_hub (s : State) (d : DieId) (f : DieState → DieState) : (s.modDie d f).hub = s.hub := by
  cases d <;> rfl
@[simp] theorem State.setDie_time (s : State) (d : DieId) (x : DieState) : (s.setDie d x).time = s.time := by
  cases d <;> rfl
@[simp] theorem State.modDie_time (s : State) (d : DieId) (f : DieState → DieState) : (s.modDie d f).time = s.time := by
  cases d <;> rfl
@[simp] theorem State.setDie_peers (s : State) (d : DieId) (x : DieState) : (s.setDie d x).peers = s.peers := by
  cases d <;> rfl
@[simp] theorem State.modDie_peers (s : State) (d : DieId) (f : DieState → DieState) : (s.modDie d f).peers = s.peers := by
  cases d <;> rfl
@[simp] theorem State.setDie_gnodes (s : State) (d : DieId) (x : DieState) : (s.setDie d x).gnodes = s.gnodes := by
  cases d <;> rfl
@[simp] theorem State.modDie_gnodes (s : State) (d : DieId) (f : DieState → DieState) : (s.modDie d f).gnodes = s.gnodes := by
  cases d <;> rfl
@[simp] theorem State.setDie_out (s : State) (d : DieId) (x : DieState) : (s.setDie d x).out = s.out := by
  cases d <;> rfl
@[simp] theorem State.modDie_out (s : State) (d : DieId) (f : DieState → DieState) : (s.modDie d f).out = s.out := by
  cases d <;> rfl
@[simp] theorem State.setDie_freeIx (s : State) (d : DieId) (x : DieState) : (s.setDie d x).freeIx = s.freeIx := by
  cases d <;> rfl
@[simp] theorem State.modDie_freeIx (s : State) (d : DieId) (f : DieState → DieState) : (s.modDie d f).freeIx = s.freeIx := by
  cases d <;> rfl
@[simp] theorem State.setDie_stamp (s : State) (d : DieId) (x : DieState) : (s.setDie d x).stamp = s.stamp := by
  cases d <;> rfl
@[simp] theorem State.modDie_stamp (s : State) (d : DieId) (f : DieState → DieState) : (s.modDie d f).stamp = s.stamp := by
  cases d <;> rfl
@[simp] theorem State.setDie_uid (s : State) (d : DieId) (x : DieState) : (s.setDie d x).uid = s.uid := by
  cases d <;> rfl
@[simp] theorem State.modDie_uid (s : State) (d : DieId) (f : DieState → DieState) : (s.modDie d f).uid = s.uid := by
  cases d <;> rfl
@[simp] theorem State.setDie_early (s : State) (d : DieId) (x : DieState) : (s.setDie d x).early = s.early := by
  cases d <;> rfl
@[simp] theorem State.modDie_early (s : State) (d : DieId) (f : DieState → DieState) : (s.modDie d f).early = s.early := by
  cases d <;> rfl
@[simp] theorem State.setDie_tern (s : State) (d : DieId) (x : DieState) : (s.setDie d x).tern = s.tern := by
  cases d <;> rfl
@[simp] theorem State.modDie_tern (s : State) (d : DieId) (f : DieState → DieState) : (s.modDie d f).tern = s.tern := by
  cases d <;> rfl
@[simp] theorem State.setDie_veil (s : State) (d : DieId) (x : DieState) : (s.setDie d x).veil = s.veil := by
  cases d <;> rfl
@[simp] theorem State.modDie_veil (s : State) (d : DieId) (f : DieState → DieState) : (s.modDie d f).veil = s.veil := by
  cases d <;> rfl
@[simp] theorem State.setDie_held (s : State) (d : DieId) (x : DieState) : (s.setDie d x).held = s.held := by
  cases d <;> rfl
@[simp] theorem State.modDie_held (s : State) (d : DieId) (f : DieState → DieState) : (s.modDie d f).held = s.held := by
  cases d <;> rfl
@[simp] theorem State.setDie_moved (s : State) (d : DieId) (x : DieState) : (s.setDie d x).moved = s.moved := by
  cases d <;> rfl
@[simp] theorem State.modDie_moved (s : State) (d : DieId) (f : DieState → DieState) : (s.modDie d f).moved = s.moved := by
  cases d <;> rfl
@[simp] theorem State.setDie_keyAt (s : State) (d : DieId) (x : DieState) : (s.setDie d x).keyAt = s.keyAt := by
  cases d <;> rfl
@[simp] theorem State.modDie_keyAt (s : State) (d : DieId) (f : DieState → DieState) : (s.modDie d f).keyAt = s.keyAt := by
  cases d <;> rfl
@[simp] theorem State.setDie_keyHit (s : State) (d : DieId) (x : DieState) : (s.setDie d x).keyHit = s.keyHit := by
  cases d <;> rfl
@[simp] theorem State.modDie_keyHit (s : State) (d : DieId) (f : DieState → DieState) : (s.modDie d f).keyHit = s.keyHit := by
  cases d <;> rfl
@[simp] theorem State.setDie_redOld (s : State) (d : DieId) (x : DieState) : (s.setDie d x).redOld = s.redOld := by
  cases d <;> rfl
@[simp] theorem State.setDie_trace (s : State) (d : DieId) (x : DieState) : (s.setDie d x).trace = s.trace := by
  cases d <;> rfl
@[simp] theorem State.setDie_fab (s : State) (d : DieId) (x : DieState) : (s.setDie d x).fab = s.fab := by
  cases d <;> rfl
@[simp] theorem State.modDie_redOld (s : State) (d : DieId) (f : DieState → DieState) : (s.modDie d f).redOld = s.redOld := by
  cases d <;> rfl
@[simp] theorem State.modDie_trace (s : State) (d : DieId) (f : DieState → DieState) : (s.modDie d f).trace = s.trace := by
  cases d <;> rfl
@[simp] theorem State.modDie_fab (s : State) (d : DieId) (f : DieState → DieState) : (s.modDie d f).fab = s.fab := by
  cases d <;> rfl

/-! ## Accessors -/

@[simp] theorem State.thread_setThread_same (s : State) (t : Nat) (th : Thread) : (s.setThread t th).thread t = th :=
  mapGet_mapSet_same _ _ _ _

theorem State.thread_setThread_other (s : State) {t u : Nat} (th : Thread) (h : u ≠ t) :
    (s.setThread t th).thread u = s.thread u := mapGet_mapSet_other _ _ _ h

@[simp] theorem State.thread_modThread_same (s : State) (t : Nat) (f : Thread → Thread) :
    (s.modThread t f).thread t = f (s.thread t) := State.thread_setThread_same _ _ _

theorem State.thread_modThread_other (s : State) {t u : Nat} (f : Thread → Thread) (h : u ≠ t) :
    (s.modThread t f).thread u = s.thread u := State.thread_setThread_other s _ h

@[simp] theorem State.me_modMe (s : State) (f : Thread → Thread) : (s.modMe f).me = f s.me :=
  State.thread_modThread_same s s.cur f

theorem State.thread_modMe_other (s : State) {u : Nat} (f : Thread → Thread) (h : u ≠ s.cur) :
    (s.modMe f).thread u = s.thread u := State.thread_modThread_other s f h

@[simp] theorem State.me_setX (s : State) (r : XReg) (v : Word) : (s.setX r v).me = s.me.setX r v :=
  State.me_modMe s _

@[simp] theorem State.me_orFlags (s : State) (fl : Flags) : (s.orFlags fl).me = s.me.orFlags fl := State.me_modMe s _

@[simp] theorem State.me_setVstart (s : State) (k : Nat) :
    (s.setVstart k).me = { s.me.clearErr .special 2 with vstart := wordN k } :=
  State.me_modMe s _

@[simp] theorem State.core_setCore_same (s : State) (k : Nat) (c : CoreState) : (s.setCore k c).core k = c :=
  mapGet_mapSet_same _ _ _ _

theorem State.core_setCore_other (s : State) {k j : Nat} (c : CoreState) (h : j ≠ k) :
    (s.setCore k c).core j = s.core j := mapGet_mapSet_other _ _ _ h

@[simp] theorem State.core_modCore_same (s : State) (k : Nat) (f : CoreState → CoreState) :
    (s.modCore k f).core k = f (s.core k) := State.core_setCore_same _ _ _

@[simp] theorem State.cluster_setCluster_same (s : State) (k : Nat) (c : Cluster) :
    (s.setCluster k c).cluster k = c := mapGet_mapSet_same _ _ _ _

theorem State.cluster_setCluster_other (s : State) {k j : Nat} (c : Cluster) (h : j ≠ k) :
    (s.setCluster k c).cluster j = s.cluster j := mapGet_mapSet_other _ _ _ h

@[simp] theorem State.cluster_modCluster_same (s : State) (k : Nat) (f : Cluster → Cluster) :
    (s.modCluster k f).cluster k = f (s.cluster k) := State.cluster_setCluster_same _ _ _

@[simp] theorem State.die_setDie_same (s : State) (d : DieId) (x : DieState) : (s.setDie d x).die d = x := by
  cases d <;> rfl

@[simp] theorem State.die_modDie_same (s : State) (d : DieId) (f : DieState → DieState) :
    (s.modDie d f).die d = f (s.die d) := State.die_setDie_same _ _ _

theorem State.die_modDie_other (s : State) {d e : DieId} (f : DieState → DieState) (h : e ≠ d) :
    (s.modDie d f).die e = s.die e := by cases d <;> cases e <;> first | rfl | exact absurd rfl h

@[simp] theorem State.hub_modHub (s : State) (f : Hub → Hub) : (s.modHub f).hub = f s.hub := rfl

@[simp] theorem State.out_answer (s : State) (r : Response) : (s.answer r).out = s.out ++ [r] := rfl

/-! ## Registers of a thread -/

theorem Thread.rx_zero (th : Thread) : th.rx 0 = 0 := rfl

@[simp] theorem Thread.wx_zero (th : Thread) (v : Word) : th.wx 0 v = th := rfl

/-- A written x-register reads back, and x0 discards the write. -/
theorem Thread.rx_wx (th : Thread) (r q : XReg) (v : Word) :
    (th.wx r v).rx q = if q = r ∧ r ≠ 0 then v else th.rx q := by
  by_cases hr : r = 0
  · rw [if_neg (fun h => h.2 hr)]; subst hr; rfl
  · have hw : th.wx r v = { th with x := mapSet th.x r.toNat v } := if_neg hr
    rw [hw]
    by_cases hq : q = r
    · subst hq
      rw [if_pos ⟨rfl, hr⟩]
      exact (if_neg hr).trans (mapGet_mapSet_same _ _ _ _)
    · rw [if_neg (fun h => hq h.1)]
      have hn : q.toNat ≠ r.toNat := fun h => hq (BitVec.eq_of_toNat_eq h)
      unfold Thread.rx
      split
      · rfl
      · exact mapGet_mapSet_other _ _ _ hn

theorem Thread.clearErr_nil (th : Thread) (k : RegKind) (n : Nat) (h : th.regErr = []) : th.clearErr k n = th := by
  simp [Thread.clearErr, h]

theorem Thread.setX_clean (th : Thread) (r : XReg) (v : Word) (h : th.regErr = []) : th.setX r v = th.wx r v := by
  have : (th.wx r v).regErr = [] := by unfold Thread.wx; split <;> exact h
  exact Thread.clearErr_nil _ _ _ this

/-- The x-register file is all that a register write changes. -/
theorem Thread.wx_frame (th : Thread) (r : XReg) (v : Word) : { th.wx r v with x := th.x } = th := by
  unfold Thread.wx; split <;> rfl

/-! ## Bytes of memory -/

/-- An address that a range leaves out has no free value. -/
theorem veilFind_unveil_same (l : List (Nat × Nat × Nat)) (pa : Nat) : veilFind (unveil l pa) pa = none := by
  rw [veilFind, Option.map_eq_none_iff, List.find?_eq_none]
  intro v hv
  obtain ⟨u, _, hu⟩ := List.mem_flatMap.mp hv
  split at hu
  · simp only [List.mem_cons, List.not_mem_nil, or_false] at hu
    obtain rfl | rfl := hu <;> simp <;> omega
  · simp only [List.mem_cons, List.not_mem_nil, or_false] at hu
    subst hu
    rename_i hn
    simpa using fun h1 => Nat.le_of_not_lt fun h2 => hn ⟨h1, h2⟩

/-- Every other address keeps its free value. -/
theorem veilFind_unveil_other (l : List (Nat × Nat × Nat)) {pa a : Nat} (h : a ≠ pa) :
    veilFind (unveil l pa) a = veilFind l a := by
  induction l with
  | nil => rfl
  | cons v l ih =>
    simp only [veilFind, unveil, List.flatMap_cons] at ih ⊢
    by_cases hc : v.1 ≤ pa ∧ pa < v.2.1
    · rw [if_pos hc]
      simp only [List.cons_append, List.nil_append, List.find?_cons]
      rcases Nat.lt_or_gt_of_ne h with hl | hg
      · have h2 : decide (pa + 1 ≤ a) = false := by simp; omega
        by_cases hv : v.1 ≤ a
        · have h1 : a < v.2.1 := by omega
          simp [hv, hl, h1]
        · simp only [hv, decide_false, Bool.false_and, h2]
          exact ih
      · have h1 : decide (a < pa) = false := by simp; omega
        have hv : v.1 ≤ a := by omega
        have h2 : pa + 1 ≤ a := by omega
        by_cases h3 : a < v.2.1
        · simp [hv, h1, h2, h3]; omega
        · simp only [h3, h1, decide_false, Bool.and_false]
          exact ih
    · rw [if_neg hc]
      simp only [List.cons_append, List.nil_append, List.find?_cons]
      split
      · rfl
      · exact ih

theorem veilAt_unveil_same (l : List (Nat × Nat × Nat)) (pa : Nat) : veilAt (unveil l pa) pa = none := by
  rw [veilAt, veilFind_unveil_same, ite_self]

theorem veilAt_unveil_other (l : List (Nat × Nat × Nat)) {pa a : Nat} (h : a ≠ pa) :
    veilAt (unveil l pa) a = veilAt l a := by
  rw [veilAt, veilAt, veilFind_unveil_other l h]

theorem State.byte_putByte_same (s : State) (pa : Nat) (b mask : Byte) :
    (s.putByte pa b mask).byte pa = mergeByte (s.byte pa) b mask := by
  have h : veilAt (s.putByte pa b mask).veil pa = none := veilAt_unveil_same _ _
  rw [State.byte, h]
  exact mapGet_mapPut_same _ _ _ _

theorem State.byte_putByte_other (s : State) {pa a : Nat} (b mask : Byte) (h : a ≠ pa) :
    (s.putByte pa b mask).byte a = s.byte a := by
  have hv : veilAt (s.putByte pa b mask).veil a = veilAt s.veil a := veilAt_unveil_other _ h
  have hm : mapGet memDefault (s.putByte pa b mask).mem a = mapGet memDefault s.mem a := mapGet_mapPut_other _ _ _ h
  rw [State.byte, State.byte, hv, hm]

/-- Equal memories read alike. -/
theorem State.byte_congr {s t : State} (h : t.mem = s.mem) (hv : t.veil = s.veil) (a : Nat) : t.byte a = s.byte a := by
  simp [State.byte, h, hv]

theorem State.putByte_wf (s : State) (pa : Nat) (b mask : Byte) (h : Memory.wf s.mem = true) :
    Memory.wf (s.putByte pa b mask).mem = true := mapWf_mapPut _ _ _ _ h

theorem State.reset_mem_wf : Memory.wf State.reset.mem = true := rfl

end Sys2Proof.Machine
end

