-- ==== Sys2Proof/Laws/Memory.lean ====
section
/-!
SUPPORT. Laws of memory: what performing a write leaves, and that every operation that changes memory keeps the
canonical form.
-/
namespace Sys2Proof.Machine

/-- A fold keeps a projection that each of its steps keeps. -/
theorem foldl_keeps {α β γ : Type} (g : α → γ) (f : α → β → α) (h : ∀ a b, g (f a b) = g a) (l : List β) (a : α) :
    g (l.foldl f a) = g a := by
  induction l generalizing a with
  | nil => rfl
  | cons b l ih => exact (ih _).trans (h a b)

/-- A fold keeps a property that each of its steps keeps. -/
theorem foldl_holds {α β : Type} (P : α → Prop) (f : α → β → α) (h : ∀ a b, P a → P (f a b)) (l : List β) (a : α)
    (ha : P a) : P (l.foldl f a) := by
  induction l generalizing a with
  | nil => exact ha
  | cons b l ih => exact ih _ (h a b ha)

/-! ## Performing a write -/

/-- Recording old values touches the two records of old values alone. -/
theorem State.recordOld_frame (s : State) (w : Party) (p : Nat) :
    { s.recordOld w p with old := s.old, stale := s.stale } = s := by
  simp only [State.recordOld]

/-- What performing a write touches, as it was in another state. -/
def State.unwritten (s t : State) : State :=
  { t with mem := s.mem, veil := s.veil, old := s.old, stale := s.stale, poison := s.poison, keyHit := s.keyHit,
           redOld := s.redOld }

theorem State.noteKeys_frame (s : State) (bs : List (Nat × Byte × Byte)) :
    { s.noteKeys bs with keyHit := s.keyHit } = s := by
  unfold State.noteKeys; split <;> rfl

theorem State.noteRed_frame (s : State) (bs : List (Nat × Byte × Byte)) :
    { s.noteRed bs with redOld := s.redOld } = s := by
  let g := fun (t : State) => { t with redOld := s.redOld }
  show g (s.noteRed bs) = s
  unfold State.noteRed
  split
  · rfl
  · exact foldl_keeps g _ (fun a b => by simp only [g]; split <;> rfl) _ _

/-- Performing a write touches memory, the records of old values, poison, and the notes of the engines that read what it
writes, and nothing else. -/
theorem State.performBytes_frame (s : State) (w : Party) (bs : List (Nat × Byte × Byte)) :
    s.unwritten (s.performBytes w bs) = s := by
  have h0 : s.unwritten ((s.noteKeys bs).noteRed bs) = s := by
    have h1 := congrArg s.unwritten (State.noteRed_frame (s.noteKeys bs) bs)
    have h2 := congrArg s.unwritten (State.noteKeys_frame s bs)
    exact h1.trans h2
  have h1 : ∀ (l : List Nat) t, s.unwritten (l.foldl (fun s p => s.recordOld w p) t) = s.unwritten t :=
    foldl_keeps s.unwritten _ fun a b => by have h := congrArg s.unwritten (State.recordOld_frame a w b); exact h
  have h2 : ∀ (l : List (Nat × Byte × Byte)) t,
      s.unwritten (l.foldl (fun s b => s.putByte b.1 b.2.1 b.2.2) t) = s.unwritten t :=
    foldl_keeps s.unwritten _ fun a b => rfl
  have h3 : ∀ t : State, s.unwritten (t.clearPoison bs) = s.unwritten t := fun t => by
    unfold State.clearPoison; split <;> rfl
  exact (h3 _).trans ((h2 _ _).trans ((h1 _ _).trans h0))

/-- What a byte of memory is read from. -/
def State.contents (s : State) : List (Nat × Byte) × List (Nat × Nat × Nat) := (s.mem, s.veil)

theorem State.noteAll_contents (s : State) (bs : List (Nat × Byte × Byte)) :
    ((s.noteKeys bs).noteRed bs).contents = s.contents := by
  have h1 := congrArg State.contents (State.noteRed_frame (s.noteKeys bs) bs)
  have h2 := congrArg State.contents (State.noteKeys_frame s bs)
  exact h1.trans h2

/-- The memory after a performed write is the bytes written in order. -/
theorem State.performBytes_contents (s : State) (w : Party) (bs : List (Nat × Byte × Byte)) :
    (s.performBytes w bs).contents = (bs.foldl (fun s b => s.putByte b.1 b.2.1 b.2.2) s).contents := by
  have h1 : ∀ (l : List Nat) (t : State), (l.foldl (fun s p => s.recordOld w p) t).contents = t.contents :=
    foldl_keeps State.contents _ fun a b => by have h := congrArg State.contents (State.recordOld_frame a w b); exact h
  have h2 : ∀ (l : List (Nat × Byte × Byte)) (t u : State), t.contents = u.contents →
      (l.foldl (fun s b => s.putByte b.1 b.2.1 b.2.2) t).contents
        = (l.foldl (fun s b => s.putByte b.1 b.2.1 b.2.2) u).contents := by
    intro l
    induction l with
    | nil => exact fun _ _ h => h
    | cons b l ih =>
      intro t u h
      have hm : t.mem = u.mem := congrArg Prod.fst h
      have hv : t.veil = u.veil := congrArg Prod.snd h
      exact ih _ _ (by simp only [State.contents, State.putByte, State.byte, hm, hv])
  have h3 : ∀ t : State, (t.clearPoison bs).contents = t.contents := fun t => by unfold State.clearPoison; split <;> rfl
  exact (h3 _).trans (h2 _ _ _ ((h1 _ _).trans (State.noteAll_contents s bs)))

/-- A byte after the bytes of a write have been put. -/
theorem State.byte_puts (bs : List (Nat × Byte × Byte)) (s : State) (a : Nat) :
    (bs.foldl (fun s b => s.putByte b.1 b.2.1 b.2.2) s).byte a = overlay bs a (s.byte a) := by
  induction bs generalizing s with
  | nil => rfl
  | cons b l ih =>
    simp only [List.foldl_cons, overlay]
    rw [ih]
    by_cases h : b.1 = a
    · subst h; rw [State.byte_putByte_same]; simp [overlay]
    · rw [State.byte_putByte_other _ _ _ (Ne.symm h)]; simp [overlay, h]

/-- A byte after a write: the last of its bytes at that address under their masks, else as before (R230). -/
theorem State.byte_performBytes (s : State) (w : Party) (bs : List (Nat × Byte × Byte)) (a : Nat) :
    (s.performBytes w bs).byte a = overlay bs a (s.byte a) :=
  (State.byte_congr (congrArg Prod.fst (State.performBytes_contents s w bs))
    (congrArg Prod.snd (State.performBytes_contents s w bs)) a).trans (State.byte_puts bs s a)

/-- A write leaves every byte that it does not name. -/
theorem overlay_other (bs : List (Nat × Byte × Byte)) (a : Nat) (b : Byte) (h : ∀ w ∈ bs, w.1 ≠ a) :
    overlay bs a b = b := by
  induction bs generalizing b with
  | nil => rfl
  | cons w l ih =>
    have hw := h w (by simp)
    simp only [overlay, List.foldl_cons, if_neg hw]
    exact ih b fun v hv => h v (by simp [hv])

@[simp] theorem State.performBytes_threads (s : State) (w : Party) (bs : List (Nat × Byte × Byte)) :
    (s.performBytes w bs).threads = s.threads := by
  have h := congrArg State.threads (State.performBytes_frame s w bs); exact h
@[simp] theorem State.performBytes_cur (s : State) (w : Party) (bs : List (Nat × Byte × Byte)) :
    (s.performBytes w bs).cur = s.cur := by
  have h := congrArg State.cur (State.performBytes_frame s w bs); exact h
@[simp] theorem State.performBytes_turns (s : State) (w : Party) (bs : List (Nat × Byte × Byte)) :
    (s.performBytes w bs).turns = s.turns := by
  have h := congrArg State.turns (State.performBytes_frame s w bs); exact h
@[simp] theorem State.performBytes_cores (s : State) (w : Party) (bs : List (Nat × Byte × Byte)) :
    (s.performBytes w bs).cores = s.cores := by
  have h := congrArg State.cores (State.performBytes_frame s w bs); exact h
@[simp] theorem State.performBytes_clusters (s : State) (w : Party) (bs : List (Nat × Byte × Byte)) :
    (s.performBytes w bs).clusters = s.clusters := by
  have h := congrArg State.clusters (State.performBytes_frame s w bs); exact h
@[simp] theorem State.performBytes_hub (s : State) (w : Party) (bs : List (Nat × Byte × Byte)) :
    (s.performBytes w bs).hub = s.hub := by
  have h := congrArg State.hub (State.performBytes_frame s w bs); exact h
@[simp] theorem State.performBytes_time (s : State) (w : Party) (bs : List (Nat × Byte × Byte)) :
    (s.performBytes w bs).time = s.time := by
  have h := congrArg State.time (State.performBytes_frame s w bs); exact h

/-- A pending write that is performed changes no other thread. -/
theorem State.thread_performNth_other (s : State) {tid u : Nat} (n : Nat) (h : u ≠ tid) :
    (s.performNth tid n).thread u = s.thread u := by
  simp only [State.performNth]
  split
  · rfl
  · split
    · rfl
    · simp only [State.thread, State.performBytes_threads]
      exact State.thread_setThread_other s _ h

/-- Draining a thread changes no other thread. -/
theorem State.thread_drainW_other (s : State) {tid u : Nat} (which : PendW → Bool) (h : u ≠ tid) :
    (s.drainW tid which).thread u = s.thread u := by
  have hf : ∀ (l : List PendW) (t : State),
      (l.foldl (fun s w => s.performBytes (.thread tid) w.bytes) t).threads = t.threads :=
    foldl_keeps State.threads _ fun a b => State.performBytes_threads a _ _
  simp only [State.drainW]
  split
  · rfl
  · show mapGet _ _ u = _
    rw [hf]
    exact State.thread_setThread_other s _ h

/-- Draining some paths of a thread changes no other thread. -/
theorem State.thread_drain_other (s : State) {tid u : Nat} (which : Path → Bool) (h : u ≠ tid) :
    (s.drain tid which).thread u = s.thread u := State.thread_drainW_other s _ h

/-! ## The canonical form -/

/-- The memory of a state has the canonical form. -/
def State.MemOk (s : State) : Prop := Memory.wf s.mem = true

theorem State.memOk_congr {s t : State} (h : t.mem = s.mem) (hs : s.MemOk) : t.MemOk := by
  unfold State.MemOk; rw [h]; exact hs

theorem State.performBytes_memOk (s : State) (w : Party) (bs : List (Nat × Byte × Byte)) (h : s.MemOk) :
    (s.performBytes w bs).MemOk :=
  State.memOk_congr (congrArg Prod.fst (State.performBytes_contents s w bs))
    (foldl_holds State.MemOk _ (fun a _ ha => State.putByte_wf a _ _ _ ha) bs s h)

theorem State.performNth_memOk (s : State) (tid n : Nat) (h : s.MemOk) : (s.performNth tid n).MemOk := by
  simp only [State.performNth]
  split
  · exact h
  · split
    · exact h
    · exact State.performBytes_memOk _ _ _ h

theorem State.drainW_memOk (s : State) (tid : Nat) (which : PendW → Bool) (h : s.MemOk) :
    (s.drainW tid which).MemOk := by
  simp only [State.drainW]
  split
  · exact h
  · exact foldl_holds State.MemOk _ (fun a _ ha => State.performBytes_memOk a _ _ ha) _ _ h

theorem State.drain_memOk (s : State) (tid : Nat) (which : Path → Bool) (h : s.MemOk) : (s.drain tid which).MemOk :=
  State.drainW_memOk s tid _ h

theorem State.drainAll_memOk (s : State) (tid : Nat) (h : s.MemOk) : (s.drainAll tid).MemOk :=
  State.drain_memOk s tid _ h

theorem State.zeroBank_memOk (s : State) (clu b : Nat) (h : s.MemOk) : (s.zeroBank clu b).MemOk :=
  mapWf_mapDropRange _ _ _ _ h

theorem State.resetClusters_memOk (s : State) (cs : List Nat) (h : s.MemOk) : (s.resetClusters cs).MemOk :=
  foldl_holds State.MemOk _ (fun a _ ha => by exact mapWf_mapDropRange _ a.mem _ _ ha) cs s h

theorem State.logWalk_mem (s : State) (ctx : Ctx) (va : Word) (n : Nat) : (s.logWalk ctx va n).mem = s.mem := by
  simp only [State.logWalk]; split
  · split <;> rfl
  · rfl

theorem State.reloadWb_mem (s : State) (core buf : Nat) (va : Word) (ctx : Ctx) :
    (s.reloadWb core buf va ctx).mem = s.mem := by
  simp only [State.reloadWb]; split <;> exact State.logWalk_mem s ctx va _

theorem State.restore_memOk (s : State) (cs : List Nat) (x : Snapshot) (h : s.MemOk) : (s.restore cs x).MemOk := by
  have h1 : ∀ (l : List (Nat × CoreState)) (t : State), t.MemOk →
      (l.foldl (fun s c => c.2.wbAddr.foldl (fun s w => s.reloadWb c.1 w.1 w.2.1 w.2.2) s) t).MemOk :=
    foldl_holds State.MemOk _ fun a b ha => foldl_holds State.MemOk _
      (fun u v hu => State.memOk_congr (State.reloadWb_mem u _ _ _ _) hu) _ _ ha
  refine h1 _ _ ?_
  exact mapWf_foldl_mapPut memDefault x.sram _ _ _
    (foldl_holds State.MemOk _ (fun a _ ha => by exact mapWf_mapDropRange _ a.mem _ _ ha) cs s h)

theorem State.wipedMem_memOk (s : State) (h : s.MemOk) : s.wipedMem.MemOk := mapWf_filter _ _ _ h

theorem State.afterReset_memOk (s : State) (h : s.MemOk) : s.afterReset.MemOk := State.wipedMem_memOk s h

end Sys2Proof.Machine
end

