-- ==== Sys2Proof/Laws/Ops.lean ====
section
/-!
SUPPORT. Laws of the shared operations: what an access may change besides its own bytes and registers, how a meaning
ends when nothing diverts the thread, and what the guards do.
-/
namespace Sys2Proof.Machine

/-! ## What an access keeps -/

/-- No thread, no byte, no poison, no turn and not the time have changed. -/
def Kept (s t : State) : Prop :=
  t.threads = s.threads ∧ (t.mem = s.mem ∧ t.veil = s.veil) ∧ t.poison = s.poison ∧ t.cur = s.cur ∧ t.turns = s.turns ∧ t.time = s.time

theorem Kept.refl (s : State) : Kept s s := ⟨rfl, ⟨rfl, rfl⟩, rfl, rfl, rfl, rfl⟩

theorem Kept.trans {s t u : State} (h : Kept s t) (g : Kept t u) : Kept s u :=
  ⟨g.1.trans h.1, ⟨g.2.1.1.trans h.2.1.1, g.2.1.2.trans h.2.1.2⟩, g.2.2.1.trans h.2.2.1, g.2.2.2.1.trans h.2.2.2.1,
    g.2.2.2.2.1.trans h.2.2.2.2.1, g.2.2.2.2.2.trans h.2.2.2.2.2⟩

theorem Kept.foldl {β : Type} (f : State → β → State) (h : ∀ a b, Kept a (f a b)) (l : List β) (s : State) :
    Kept s (l.foldl f s) := by
  induction l generalizing s with
  | nil => exact Kept.refl s
  | cons b l ih => exact (h s b).trans (ih _)

theorem Kept.me {s t : State} (h : Kept s t) : t.me = s.me := by
  simp only [State.me, State.thread, h.1, h.2.2.2.1]

theorem Kept.thread {s t : State} (h : Kept s t) (k : Nat) : t.thread k = s.thread k := by
  simp only [State.thread, h.1]

theorem Kept.byte {s t : State} (h : Kept s t) (a : Nat) : t.byte a = s.byte a := State.byte_congr h.2.1.1 h.2.1.2 a

theorem Kept.machineKept {s t : State} (h : Kept s t) : MachineKept s t :=
  ⟨h.byte, h.2.2.1, h.2.2.2.1, h.2.2.2.2.1, h.2.2.2.2.2, fun k _ => h.thread k⟩

theorem State.modCore_kept (s : State) (k : Nat) (f : CoreState → CoreState) : Kept s (s.modCore k f) :=
  ⟨rfl, ⟨rfl, rfl⟩, rfl, rfl, rfl, rfl⟩
theorem State.setCluster_kept (s : State) (k : Nat) (c : Cluster) : Kept s (s.setCluster k c) :=
  ⟨rfl, ⟨rfl, rfl⟩, rfl, rfl, rfl, rfl⟩
theorem State.modCluster_kept (s : State) (k : Nat) (f : Cluster → Cluster) : Kept s (s.modCluster k f) :=
  ⟨rfl, ⟨rfl, rfl⟩, rfl, rfl, rfl, rfl⟩
theorem State.count_kept (s : State) (k i n : Nat) : Kept s (s.count k i n) := ⟨rfl, ⟨rfl, rfl⟩, rfl, rfl, rfl, rfl⟩
theorem State.logRas_kept (s : State) (a b c d : Nat) (w : Word) : Kept s (s.logRas a b c d w) :=
  ⟨rfl, ⟨rfl, rfl⟩, rfl, rfl, rfl, rfl⟩
theorem State.modDie_kept (s : State) (d : DieId) (f : DieState → DieState) : Kept s (s.modDie d f) :=
  ⟨by simp, ⟨by simp, by simp⟩, by simp, by simp, by simp, by simp⟩

theorem State.logAccess_kept (s : State) (w : Writer) : Kept s (s.logAccess w) := by
  cases w <;> exact ⟨rfl, ⟨rfl, rfl⟩, rfl, rfl, rfl, rfl⟩

theorem State.noteTern_kept (s : State) (e log : Nat) : Kept s (s.noteTern e log) := by
  simp only [State.noteTern]
  split
  · exact ⟨rfl, ⟨rfl, rfl⟩, rfl, rfl, rfl, rfl⟩
  · split
    · exact Kept.refl s
    · exact ⟨rfl, ⟨rfl, rfl⟩, rfl, rfl, rfl, rfl⟩

/-- Filling translation caches changes no thread and no byte (R354). -/
theorem State.noteXlate_kept (s : State) (ctx : Ctx) (va : Word) : Kept s (s.noteXlate ctx va) := by
  simp only [State.noteXlate]
  split
  · exact Kept.refl s
  · split
    · exact Kept.refl s
    · split
      · split
        · exact (State.noteTern_kept s _ _).trans (State.modCore_kept _ _ _)
        · exact ((State.noteTern_kept s _ _).trans (State.modCore_kept _ _ _)).trans (State.modCluster_kept _ _ _)
      · exact State.logRas_kept s _ _ _ _ _
      · exact Kept.refl s

theorem State.noteSpan_kept (s : State) (ctx : Ctx) (acc : Acc) (va : Word) (n : Nat) :
    Kept s (s.noteSpan ctx acc va n) :=
  Kept.foldl (fun (s : State) (c : Word × Nat) => s.noteXlate ctx c.1) (fun a c => State.noteXlate_kept a ctx c.1) _ s

theorem State.noteHot_kept (s : State) (clu : Nat) (p : Phys) : Kept s (s.noteHot clu p) := by
  simp only [State.noteHot]
  split
  · exact Kept.refl s
  · exact State.modDie_kept s _ _

/-- A line access changes no thread and no byte (R280, R284). -/
theorem State.noteLine_kept (s : State) (clu : Nat) (path : Path) (write : Bool) (p : Phys) :
    Kept s (s.noteLine clu path write p) := by
  simp only [State.noteLine]
  split
  · exact State.noteHot_kept s clu p
  · split
    · exact State.setCluster_kept s _ _
    · split
      · split
        · exact (State.noteHot_kept s clu p).trans (State.setCluster_kept _ _ _)
        · exact State.noteHot_kept s clu p
      · exact (State.noteHot_kept s clu p).trans (State.count_kept _ _ _ _)

theorem State.noteHeld_kept (s : State) (line : Nat) : Kept s (s.noteHeld line) := ⟨rfl, ⟨rfl, rfl⟩, rfl, rfl, rfl, rfl⟩

theorem State.bankLines_kept (s : State) (write : Bool) (lo hi : Nat) : Kept s (s.bankLines write lo hi) :=
  ⟨rfl, ⟨rfl, rfl⟩, rfl, rfl, rfl, rfl⟩

theorem State.bringLine_kept (s : State) (clu : Nat) (pin : Bool) (p : Phys) : Kept s (s.bringLine clu pin p) := by
  simp only [State.bringLine]
  split
  · exact State.setCluster_kept s _ _
  · generalize (if (s.cluster clu).ways.isEmpty = true then none else (s.cluster clu).fill (p.pa / 128) false pin) = o
    cases o
    · exact Kept.refl s
    · exact (State.noteHot_kept s clu p).trans
        ((State.noteHeld_kept _ (p.pa / 128)).trans (State.setCluster_kept _ clu _))

theorem State.notePiece_kept (s : State) (clu : Nat) (path : Path) (write : Bool) (p : Piece) :
    Kept s (s.notePiece clu path write p) := by
  simp only [State.notePiece]
  split
  · exact Kept.refl s
  · split
    · exact State.bankLines_kept s _ _ _
    · refine Kept.foldl _ (fun a i => ?_) _ s
      have h := State.noteLine_kept a clu path write { p.place with pa := (p.place.pa / 128 + i) * 128 }
      split
      · exact h
      · exact h.trans (State.noteHeld_kept _ _)

theorem State.logRegRead_kept (s : State) (p : Piece) : Kept s (s.logRegRead p) := by
  simp only [State.logRegRead]
  split
  · exact State.logAccess_kept s none
  · exact Kept.refl s

theorem State.tookBytes_kept (s : State) : Kept s s.tookBytes := by
  unfold State.tookBytes
  split
  · exact Kept.refl s
  · exact ⟨rfl, ⟨rfl, rfl⟩, rfl, rfl, rfl, rfl⟩

/-- No earlier write of the thread is one that a `HEDGE` puts before a later access, and no load is late. -/
def Thread.unhedged (th : Thread) : Prop := (∀ w ∈ th.pend, w.hedged = 0) ∧ th.late = []

/-- With nothing to perform, a drain leaves the state. -/
theorem closePend_none (which : PendW → Bool) (l : List PendW) (h : ∀ w ∈ l, which w = false) :
    closePend which l = ([], l) := by
  induction l with
  | nil => rfl
  | cons w l ih =>
    have hw := h w (by simp)
    have hl := ih fun v hv => h v (by simp [hv])
    simp [closePend, hl, hw]

theorem State.drainW_none (s : State) (tid : Nat) (which : PendW → Bool)
    (h : ∀ w ∈ (s.thread tid).pend, which w = false) : s.drainW tid which = s := by
  simp [State.drainW, closePend_none which _ h]

/-- Where no `HEDGE` asks for it, an access performs and fixes nothing before itself. -/
theorem State.before_none (s : State) (tid : Nat) (path : Path) (h : (s.thread tid).unhedged) :
    s.before tid path = s := by
  have h1 : (s.drainW tid fun w => maskHas w.hedged path) = s :=
    State.drainW_none s tid _ fun w hw => by simp [maskHas, h.1 w hw]
  simp [State.before, h1, State.fixLate, h.2]

theorem State.beforeRead_none (s : State) (tid : Nat) (path : Path) (ps : List Piece) (h : (s.thread tid).unhedged) :
    s.beforeRead tid path ps = s := by
  unfold State.beforeRead
  induction (ps.map fun p => s.pathAt path p.place.pa).eraseDups with
  | nil => rfl
  | cons c l ih => rw [List.foldl_cons, State.before_none s tid c h]; exact ih

/-- Taking bytes changes the record of the running instruction alone. -/
theorem State.takeBytes_frame (s : State) (ctx : Ctx) (path : Path) (ps : List Piece) :
    { (s.takeBytes ctx path ps).1 with trace := s.trace } = s := by
  unfold State.takeBytes; split <;> rfl

theorem State.takeBytes_kept (s : State) (ctx : Ctx) (path : Path) (ps : List Piece) :
    Kept s (s.takeBytes ctx path ps).1 := by
  unfold State.takeBytes; split <;> exact ⟨rfl, ⟨rfl, rfl⟩, rfl, rfl, rfl, rfl⟩

theorem leBytes_length (n x : Nat) : (leBytes n x).length = n := by
  induction n generalizing x with
  | zero => rfl
  | succ n ih => simp [leBytes, ih]

theorem runsBy_flatten {α : Type} (key : α → Nat) (l : List α) : (runsBy key l).flatten = l := by
  induction l with
  | nil => rfl
  | cons b l ih =>
    simp only [runsBy]
    split
    · rename_i h; rw [h] at ih; split <;> simp_all
    · simp [ih]

theorem State.pieceBytes_length (s : State) (tid : Nat) (path : Path) (p : Piece) :
    (s.pieceBytes tid path p).length = p.len := by
  unfold State.pieceBytes
  split
  · split
    · rename_i h; simp [leBytes_length, h.1]
    · simp
  · simp [State.seeBytes]

theorem readParts_flatten (l : List (Nat × Byte)) : (readParts l).flatten = l := by
  unfold readParts; split
  · simp
  · exact runsBy_flatten _ _

theorem unzip_zip {α β : Type} (l : List (α × β)) : (l.map (·.1)).zip (l.map (·.2)) = l := by
  induction l with
  | nil => rfl
  | cons b l ih => simpa using ih

/-- Where none is prescribed, the bytes taken are those that the thread reads. -/
theorem State.takeBytes_own (s : State) (ctx : Ctx) (path : Path) (ps : List Piece) (h : s.ownValues) :
    (s.takeBytes ctx path ps).2 = ps.flatMap (s.pieceBytes ctx.tid path) := by
  unfold State.takeBytes
  split
  · rfl
  · rename_i t ht
    have hl : (ps.flatMap fun p => (List.range p.len).map (p.place.pa + ·)).length
        = (ps.flatMap (s.pieceBytes ctx.tid path)).length := by
      simp [List.length_flatMap, State.pieceBytes_length]
    have hz : ∀ l : List (List (Nat × Byte)),
        (l.zipIdx.map fun a => a.1.map fun b => b.2).flatten = l.flatten.map fun b => b.2 := fun l => by
      rw [List.map_flatten, ← congrArg (List.map (List.map fun b : Nat × Byte => b.2)) (List.zipIdx_map_fst 0 l),
        List.map_map]
      rfl
    simp only [h t ht, List.getD_nil, List.flatMap_map, unzip_zip]
    rw [List.flatMap_def, hz, readParts_flatten]
    exact List.map_snd_zip (Nat.le_of_eq hl.symm)

/-- A read changes no thread, no byte and no poison, whether it fails or not (R226). -/
theorem State.readRange_kept (s : State) (ctx : Ctx) (path : Path) (va : Word) (n : Nat)
    (h : (s.thread ctx.tid).unhedged) : Kept s (s.readRange ctx path va n).1 := by
  have hn := State.noteSpan_kept s ctx .read va n
  have hb := State.beforeRead_none (s.noteSpan ctx .read va n) ctx.tid path (s.pieces ctx .read va n).1
    (by rw [hn.thread]; exact h)
  simp only [State.readRange]
  rw [hb]
  split
  · exact hn
  · exact hn
  · refine hn.trans ((State.takeBytes_kept _ ctx path (s.pieces ctx .read va n).1).trans ?_)
    have hf : ∀ u : State, Kept u (((s.pieces ctx .read va n).1).foldl
        (fun s p => (s.notePiece (cluOf ctx.tid) path false p).logRegRead p) u) := Kept.foldl _
      (fun a p => (State.notePiece_kept a _ _ _ p).trans (State.logRegRead_kept _ p)) _
    exact (State.tookBytes_kept _).trans (hf _)

theorem State.load_kept (s : State) (path : Path) (va : Word) (n : Nat) (h : s.me.unhedged) :
    Kept s (s.load path va n).1 := by
  have h := State.readRange_kept s (s.ctxOf s.cur) path va n (by
    have : (s.ctxOf s.cur).tid = s.cur := by simp only [State.ctxOf]; split <;> rfl
    rw [this]; exact h)
  simp only [State.load]
  split <;> rename_i heq <;> rw [heq] at h <;> exact h

/-- A write that fails changes no thread, no byte and no poison (R339). -/
theorem State.writeRangeAt_failed (s : State) (ctx : Ctx) (acc : Acc) (path : Path) (o : Option Nat) (rel : Bool)
    (va : Word) (bs : List (Byte × Byte)) (e : Cause × Word)
    (h : (s.writeRangeAt ctx acc path o rel va bs).2 = some e) : Kept s (s.writeRangeAt ctx acc path o rel va bs).1 := by
  simp only [State.writeRangeAt] at h ⊢
  split <;> rename_i heq <;> rw [heq] at h <;> simp only at h ⊢
  · exact State.noteSpan_kept s ctx _ va _
  · exact absurd h nofun

theorem State.engineWrite_failed (s : State) (ctx : Ctx) (path : Path) (va : Word) (bs : List Byte)
    (who : Party) (e : Cause × Word) (h : (s.engineWrite who ctx path va bs).2 = some e) :
    Kept s (s.engineWrite who ctx path va bs).1 := by
  simp only [State.engineWrite] at h ⊢
  split <;> rename_i heq <;> rw [heq] at h <;> simp only at h ⊢
  · exact State.noteSpan_kept s ctx _ va _
  · exact absurd h nofun

/-! ## Only the issuing thread -/

theorem State.modMe_onlyMe (s : State) (f : Thread → Thread) : OnlyMe s (s.modMe f) :=
  ⟨rfl, fun _ hk => State.thread_modMe_other s f hk⟩

theorem OnlyMe.refl (s : State) : OnlyMe s s := ⟨rfl, fun _ _ => rfl⟩

theorem OnlyMe.cur {s t : State} (h : OnlyMe s t) : t.cur = s.cur := by
  have g := congrArg State.cur h.1; exact g

theorem OnlyMe.mem {s t : State} (h : OnlyMe s t) : t.mem = s.mem := by
  have g := congrArg State.mem h.1; exact g

theorem OnlyMe.veil {s t : State} (h : OnlyMe s t) : t.veil = s.veil := by
  have g := congrArg State.veil h.1; exact g

theorem OnlyMe.sameBytes {s t : State} (h : OnlyMe s t) : SameBytes s t := fun a => State.byte_congr h.mem h.veil a

theorem OnlyMe.trans {s t u : State} (h : OnlyMe s t) (g : OnlyMe t u) : OnlyMe s u := by
  refine ⟨?_, fun k hk => (g.2 k (h.cur ▸ hk)).trans (h.2 k hk)⟩
  have h1 := congrArg (fun x : State => { x with threads := s.threads }) g.1
  exact h1.trans h.1

/-! ## How a meaning ends -/

theorem Thread.clean_iff (th : Thread) :
    th.clean = true ↔ th.regErr = [] ∧ th.vErr = [] ∧ th.vPoison = [] ∧ th.stop = none ∧ th.halt = .none ∧ th.unhedged := by
  simp [Thread.clean, Thread.unhedged, and_assoc]

/-- Neither a WATCHDOG nor a halt is due at the thread. -/
def Thread.unstopped (th : Thread) : Prop := th.stop = none ∧ th.halt = .none

/-- Without a requested stop nothing is delivered at the end of an instruction. -/
theorem State.settled_of_noStop (s : State) (tid : Nat) (h : (s.thread tid).unstopped) : s.settled tid = s := by
  simp [State.settled, h.1, h.2]

theorem State.settledHalt_of_noStop (s : State) (tid : Nat) (h : (s.thread tid).unstopped) : s.settledHalt tid = s := by
  simp [State.settledHalt, h.2]

/-- A meaning that completes moves the pc past its words. -/
theorem finishCtl_done (size : Nat) (s : State) (h : s.me.unstopped) :
    finishCtl size (.done s) = .next (s.modMe fun th => { th with pc := th.pc + wordN size }) := by
  simp only [finishCtl]
  rw [State.settled_of_noStop]
  have := State.me_modMe s fun th => { th with pc := th.pc + wordN size }
  exact ⟨(congrArg Thread.stop this).trans h.1, (congrArg Thread.halt this).trans h.2⟩

/-- A meaning that transfers control moves the pc to its target. -/
theorem finishCtl_goto (size : Nat) (pc : Word) (s : State) (h : s.me.unstopped) :
    finishCtl size (.goto pc s) = .next (s.modMe fun th => { th with pc := pc }) := by
  simp only [finishCtl]
  rw [State.settled_of_noStop]
  have := State.me_modMe s fun th => { th with pc := pc }
  exact ⟨(congrArg Thread.stop this).trans h.1, (congrArg Thread.halt this).trans h.2⟩

/-- A meaning that waits leaves its state, and the instruction issues again. -/
theorem finishCtl_wait (size : Nat) (s : State) (h : s.me.unstopped) : finishCtl size (.wait s) = .next s := by
  simp only [finishCtl]
  rw [State.settled_of_noStop _ _ h]

theorem finishCtl_hold (size : Nat) (s : State) (h : s.me.unstopped) : finishCtl size (.hold s) = .next s := by
  simp only [finishCtl]
  rw [State.settledHalt_of_noStop _ _ h]

/-- A meaning that traps takes the trap at the instruction. -/
theorem finishCtl_trap (size : Nat) (t : Trap) (s : State) :
    finishCtl size (.trap t s) = .next (s.takeTrap s.cur s.me.pc false t) := rfl

/-- A forced save that stops an instruction at a boundary takes effect there (R341). -/
theorem finishCtl_stop (size : Nat) (s : State) : finishCtl size (.stop s) = .next (s.forcedSave s.cur) := rfl

/-- Every ending is a next state. -/
theorem finishCtl_next (size : Nat) (o : Out) : ∃ t, finishCtl size o = .next t := by
  cases o <;> exact ⟨_, rfl⟩

/-- No stored register error, no REGERR (R40). -/
theorem guardRegs_clean (srcs : List Src) (s : State) (k : State → Out) (h : s.me.regErr = []) :
    guardRegs srcs s k = k s := by
  simp [guardRegs, Thread.badReg, h]

/-- A thread that may use its vector state meets no VABSENT (R34). -/
theorem guardVA_hasVector (s : State) (k : State → Out) (h : s.me.hasVector = true) : guardVA s k = k s := by
  simp only [Thread.hasVector, Bool.or_eq_true, Bool.not_eq_true'] at h
  rcases h with h | h <;> simp [guardVA, h]

/-- In user mode while tstatus.VA is 1 a vector instruction raises VABSENT (R34). -/
theorem guardVA_absent (s : State) (k : State → Out) (h : s.me.hasVector = false) :
    guardVA s k = .trap { cause := .vabsent } s := by
  simp only [Thread.hasVector, Bool.or_eq_false_iff, Bool.not_eq_false'] at h
  simp [guardVA, h.1, h.2]

/-- A supervisor instruction has its effect in supervisor mode (R77). -/
theorem guardSup_sup (i : Instr) (s : State) (k : State → Out) (h : s.me.sup = true) : guardSup i s k = k s := by
  simp [guardSup, h]

/-- In user mode a supervisor instruction raises PROT (R77). -/
theorem guardSup_user (i : Instr) (s : State) (k : State → Out) (h : s.me.sup = false) :
    guardSup i s k = .trap { cause := .prot, tval := i.low64 } s := by
  simp [guardSup, h]

/-! ## Performance and traps keep the other threads -/

/-- Delivery to the supervisor changes no other thread. -/
theorem State.thread_trapToSuper_other (s : State) {tid u : Nat} (tpc : Word) (t : Trap) (h : u ≠ tid) :
    (s.trapToSuper tid tpc t).thread u = s.thread u := by
  simp only [State.trapToSuper]
  split
  · exact State.thread_setThread_other s _ h
  · simp only [State.thread, State.logRas_threads]
    exact State.thread_setThread_other s _ h

/-- Taking a trap changes no other thread (R335, R337). -/
theorem State.thread_takeTrap_other (s : State) {tid u : Nat} (tpc : Word) (vr : Bool) (t : Trap) (h : u ≠ tid) :
    (s.takeTrap tid tpc vr t).thread u = s.thread u := by
  unfold State.takeTrap
  extract_lets d c m th
  have hm : m.thread u = s.thread u :=
    (State.thread_modThread_other _ _ h).trans (State.thread_drain_other s _ h)
  clear_value th m
  split
  · split
    · exact (State.thread_setThread_other _ _ h).trans hm
    · exact (State.thread_trapToSuper_other _ _ _ h).trans hm
  · exact (State.thread_trapToSuper_other _ _ _ h).trans hm

/-- Taking a trap keeps the canonical form of memory. -/
theorem State.takeTrap_memOk (s : State) (tid : Nat) (tpc : Word) (vr : Bool) (t : Trap) (h : s.MemOk) :
    (s.takeTrap tid tpc vr t).MemOk := by
  have h2 : ∀ (v : State) (p : Word) (x : Trap), v.MemOk → (v.trapToSuper tid p x).MemOk := fun v p x hv => by
    simp only [State.trapToSuper]; split <;> exact hv
  unfold State.takeTrap
  extract_lets d c m th
  have hm : m.MemOk := State.drainAll_memOk s tid h
  clear_value th m
  split
  · split
    · exact hm
    · exact h2 _ _ _ hm
  · exact h2 _ _ _ hm

/-! ## Ownership -/

/-- The owner's write runs, after the lapse of ownership has been looked at (R371 to R373). -/
theorem State.ownerOnly_owner (s : State) (m : BitVec 16) (k : State → State) (hm : masterOk m = true)
    (h : s.expire.owns m = true) : s.ownerOnly m k = k s.expire := by simp [State.ownerOnly, State.ownerMay, hm, h]

/-- A write of a master that does not own the device is dropped (R372). -/
theorem State.ownerOnly_other (s : State) (m : BitVec 16) (k : State → State) (hm : masterOk m = true)
    (h : s.expire.owns m = false) : s.ownerOnly m k = s.expire.dropWrite m true := by
  simp [State.ownerOnly, State.ownerMay, hm, h]

end Sys2Proof.Machine
end

