-- ==== Sys2Proof/Tests/Slice0.lean ====
section
/-!
SUPPORT. Tests: words written out from the layouts of spec/03 to spec/06 and what they decode to, terms that are not
well formed, single steps against the spec's worked examples and tables, and for each statement a state and operands
that meet its hypotheses.
-/
namespace Sys2Proof.Tests
open Sys2Proof Sys2Proof.Machine
set_option Elab.async false

/-! ## States for the tests -/

/-- The state after an outcome. -/
def after (o : Host.Outcome State Fault Refusal) : State :=
  match o with
  | .next t => t
  | _ => State.reset

/-- A thread that runs in user mode at 0x1000 with a usable svec: x5 = 40, x6 = 7, x7 = −3, x8 an address in the
cluster-local window, x9 an address of HBM4, and a stack. -/
def th0 : Thread :=
  { run := .ready, pc := 0x1000, svec := 0x8000,
    x := [(2, 0x4000), (5, 40), (6, 7), (7, wordI (-3)), (8, 0x00FFFF0000001000), (9, 0x10000)] }

/-- Thread 0 of a package that has booted: cluster 0 has its SRAM as scratchpad, and the first GiB is mapped onto
itself with every right. -/
def demoWith (th : Thread) : State :=
  { threads := [(0, th)], clusters := [(0, { modes := (List.range 32).map fun b => (b, .scratch) })],
    cores := [(0, { tlb := [{ asid := 0, page := 0, log := 30, entry := 0x3F }] })] }

/-- The state of most tests. -/
def demo : State := demoWith th0

/-- The state with vector registers: 64 lanes' worth of elements from lists, and a running block at 0x2000. -/
def vecTh (vt : BitVec 16) (vl w : Nat) (regs : List (VReg × List Nat)) : Thread :=
  regs.foldl (fun th r => th.setElems r.1 w (r.2.zipIdx.map fun p => (p.2, p.1)))
    { th0 with vtype := vt, vl := vl,
               blk := some { vf := 0x1000, epc := 0x2000, start := 0x2000, group := List.range vl } }

/-- Elements of a register of the issuing thread. -/
def elems (s : State) (r : VReg) (w n : Nat) : List Nat := (List.range n).map (s.me.elem r w)

/-! ## Words written out from the encodings -/

/-- Each word decodes to the instruction beside it, which is well formed and whose words the encoder gives. -/
def readAs (l : List (Code × Instr)) : Bool :=
  l.all fun p => (decode p.1).toOption == some p.2 && encode p.2 == some p.1 && p.2.wf

theorem test_words_flow : readAs [
    (.c 0x00000000000000000000000000000001, .nop),
    (.c 0xFFFFFFFFFFFFFFE00000000000000002, .br (wordI (-32))),
    (.c 0xFFFFFFFFFFFFFFD00000400000614003, .bcc .lt 5 6 (wordI (-48))),
    (.c 0x00000000000000400000000000024004, .bz 9 64),
    (.c 0x000000000000001000000000000FC005, .bnz 63 16),
    (.c 0x00000000000010000000000000000006, .call 0x1000),
    (.c 0x00000000000000000000000000030007, .callr 12),
    (.c 0x00000000000000000000000000000008, .ret),
    (.c 0x00000000000000000000000000030009, .jmpr 12),
    (.c 0xFFFFFFFFFFFFFF60000000001C61400A, .jtab 5 6 7 (wordI (-160))),
    (.c 0x0000000000000000000000000001460B, .setvl 6 5),
    (.c 0x0000000000000000000000000000000C, .endTask),
    (.c 0x0000000000000000000000000000000D, .yieldTurn),
    (.c 0x0000000000000007000000000000000E, .brk 7),
    (.c 0x0000000000000021000000000000000F, .trap 0x21)] = true := by decide +kernel

theorem test_words_integer_1 : readAs [
    (.c 0x00000000000000000000000000718510, .add 5 6 7),
    (.c 0x00000000000000000000000000718511, .sub 5 6 7),
    (.c 0xFFFFFFFFFFFFFFFF0000000000018512, .addi 5 6 (wordI (-1))),
    (.c 0x00000000000000000000000000718513, .mul 5 6 7),
    (.c 0x00000000000000000000000000718514, .mulh 5 6 7),
    (.c 0x00000000000000000000000000718515, .mulhn 5 6 7),
    (.c 0x00000000000000000000000000718516, .div 5 6 7),
    (.c 0x00000000000000000000000000718517, .divn 5 6 7),
    (.c 0x00000000000000000000000000718518, .rem 5 6 7),
    (.c 0x00000000000000000000000000718519, .remn 5 6 7),
    (.c 0x0000000000000000000000000071851A, .and 5 6 7),
    (.c 0x0000000000000000000000000071851B, .or 5 6 7),
    (.c 0x0000000000000000000000000071851C, .xor 5 6 7),
    (.c 0x0000000000000000000000000071851D, .andn 5 6 7),
    (.c 0x0000000000000003000000000071851E, .shl 5 6 7 3),
    (.c 0x0000000000000003000000000071851F, .shr 5 6 7 3),
    (.c 0x00000000000000030000000000718520, .sra 5 6 7 3),
    (.c 0x00000000000000030000000000718521, .rot 5 6 7 3),
    (.c 0x00000000000000000000000000718522, .min 5 6 7),
    (.c 0x00000000000000000000000000718523, .max 5 6 7),
    (.c 0x00000000000000000000000000718524, .minn 5 6 7),
    (.c 0x00000000000000000000000000718525, .maxn 5 6 7),
    (.c 0x00000000000000000000000000018526, .clz 5 6),
    (.c 0x00000000000000000000000000018527, .ctz 5 6)] = true := by decide +kernel

theorem test_words_integer_2 : readAs [
    (.c 0x00000000000000000000000000018528, .popc 5 6),
    (.c 0x00000000000000000000000020718529, .sel 5 6 7 8),
    (.c 0x0000000000000000000080000071852A, .setcc .ltn 5 6 7),
    (.c 0x0000000000000010000000180042092B, .lea 9 8 4 3 16),
    (.c 0x0000000000003808000000000001852C, .bfx 5 6 8 56),
    (.c 0x0000000000000810000000000001472D, .bfi 7 5 16 8),
    (.c 0xFFFFFFFFFFFFFFFE000000000000052E, .li 5 (wordI (-2))),
    (.c 0x0000000000000000000000000001872F, .slhash 7 6 0)] = true := by decide +kernel

theorem test_words_float : readAs [
    (.c 0x000000000000000000000D0000718530, .fadd .f32 5 6 7),
    (.c 0x000000000000000000000D0000718531, .fsub .f32 5 6 7),
    (.c 0x000000000000000000000D0000718532, .fmul .f32 5 6 7),
    (.c 0x000000000000000000000E0020718533, .fma .f64 5 6 7 8),
    (.c 0x000000000000000000000D0000718534, .fdiv .f32 5 6 7),
    (.c 0x000000000000000000000D0000018535, .fsqrt .f32 5 6),
    (.c 0x000000000000000000000D0000718536, .fmin .f32 5 6 7),
    (.c 0x000000000000000000000D0000718537, .fmax .f32 5 6 7),
    (.c 0x00000000000000000000056800018538, .fcvt .f32 .s32 5 6),
    (.c 0x000000000000000000006C0000718539, .fcmp .le .h16 5 6 7)] = true := by decide +kernel

theorem test_words_scalar_memory : readAs [
    (.c 0x00000000000000020000840300018540, .ld .s16 .acq .clu 5 6 2),
    (.c 0x00000000000000000000A60600024741, .st .s64 .rel .sys 7 9 0),
    (.c 0x00000000000000000000C63000718542, .amo .swap .s64 .sc .dflt 5 6 7 0),
    (.c 0x00000000000000000000890220718543, .cas .n32 .acq .core 5 6 7 8 0),
    (.c 0x00000000000010000000001000020044, .pref 8 4096 2)] = true := by decide +kernel

theorem test_words_vector_memory : readAs [
    (.c 0x000000000000000800004D008C020148, .vld (some .f32) .u 1 8 8 (some 3)),
    (.c 0x00000000000000000000200000920149, .vlds none .o 1 8 9 0 none),
    (.c 0x000000000000000000000FF88042014A, .vldx (some .g8) .plain 1 8 4 7 3 0 (some 0)),
    (.c 0x00000000000000000000000000021F4B, .vldff none .plain 31 8 0 none),
    (.c 0x0000000000000000000003000002424C, .vst (some .s8) .plain 2 9 0 none),
    (.c 0x0000000000000000000000009CA2424D, .vsts none .plain 2 9 10 0 (some 7)),
    (.c 0x0000000000000000000020500062424E, .vstx none .o 2 9 6 2 2 0 none),
    (.c 0x0000000000000004000045AD8462424F, .vamo .max (some .s32) .u .pkg 2 9 6 1 4 (some 1)),
    (.c 0x00000000000000010000400000024750, .vldm .u 7 9 1),
    (.c 0x00000000000000010000000000024751, .vstm .plain 7 9 1),
    (.c 0x00000000000000100000000000024852, .vspill .plain 8 9 16),
    (.c 0x00000000000000100000230000024853, .vfill (some .s8) .o 8 9 16)] = true := by decide +kernel

theorem test_words_vector_control : readAs [
    (.c 0xFFFFFFFFFFFFFFB00000000000000058, .vf (wordI (-80))),
    (.c 0x00000000000001820000000000000659, .vsett 6 0 0x0182),
    (.c 0x0000000000000000000000000000075A, .vmvl 7),
    (.c 0x0000000000000000000000008800455B, .vmpop 5 1 (some 2)),
    (.c 0x0000000000000000000000000001C55C, .vmfirst 5 7 none),
    (.c 0x0000000000000002000000000067C55D, .vgetx 5 31 6 2),
    (.c 0x00000000000000020000000000615F5E, .vputx 31 5 6 2),
    (.c 0x0000000000000040000000000002405F, .vssave 9 64),
    (.c 0x00000000000000400000000000024060, .vsload 9 64)] = true := by decide +kernel

theorem test_words_array : readAs [
    (.c 0x00000000000000000000000800024068, .tlw true 9 0),
    (.c 0x00000000000000000000001000000369, .tzero 3 .float),
    (.c 0x0000000000000000000000180002816A, .tscale 1 10 0 3),
    (.d 0x00000000000000000000000000000001000000000000000000006018207181C4, .tmma true true 1 6 7 8 true 1 0 0),
    (.d 0x00000000000000000000000000003F03FFFFFFFFFFFFFFFC00002000207182C4, .tmma false false 2 6 7 8 false 3 63 (wordI (-4))),
    (.c 0x000000000000FF04000000000000896B, .tstat 9 2 4 255),
    (.d 0x0000000000000000000000020501003F000000000000000000000000847181C5, .tdrain 1 6 7 0 (some 1) 63 1 2 5 0),
    (.d 0x000000000000003F000000000040000000000000000000000000000001E181C6, .tdrainx 1 6 30 0 none 0 64 0 0 63),
    (.d 0x00000004FFFFFFF8000000080002FFFF000000000000000000000000207185C8, .bgemv 5 6 7 8 0xFFFF 2 8 0xFFFFFFF8 4),
    (.c 0x0000000000000000000000000001406E, .bwait 5)] = true := by decide +kernel

theorem test_words_cipher : readAs [
    (.c 0x00000000000000400000000000018F70, .kset 15 6 64),
    (.c 0x00000000000000080000000000018771, .cld 7 6 8),
    (.c 0x00000000000000080000000000018772, .cst 7 6 8),
    (.c 0x0000000000000000000000003C000773, .czero 7 15),
    (.c 0x00000000000000000000000000008174, .cmov 1 2),
    (.c 0x00000000000000000000000000308175, .cadd 1 2 3),
    (.c 0x00000000000000000000000000308176, .csub 1 2 3),
    (.c 0x00000000000000000000000000008177, .cneg 1 2),
    (.c 0xFFFFFFFFFFFFFFFD0000000000508178, .cmulk 1 2 5 (wordI (-3))),
    (.c 0x00000000000000090000000000508179, .caddk 1 2 5 9),
    (.c 0x0000000000000000000000001030817A, .cref 1 2 3 4),
    (.c 0x0000000000000020000000001000007B, .drove 4 32),
    (.c 0x0000000000000000000000000000857C, .cnoise 5 2),
    (.c 0x0000000000000000000000000050027D, .cnraise 2 5),
    (.c 0x0000000000000020000000000001427E, .tbld 2 5 32),
    (.c 0x0000000000000020000000000001427F, .tbst 2 5 32),
    (.c 0x000000000000000A0000000000000280, .tbset 2 false 10 0),
    (.c 0x00000000000006010000000800000280, .tbset 2 true 1 6)] = true := by decide +kernel

theorem test_words_claims_and_rings : readAs [
    (.c 0x00000000000000040000000000050084, .rlopen 20 4),
    (.c 0x00000000000000000000000089510185, .claim 1 4 21 (some 2)),
    (.c 0x00000000000000000000000000000086, .claimdone),
    (.c 0x00000000000000000000000000000087, .rlclose),
    (.c 0x00000000000000800000000000F14088, .rpush 15 5 128),
    (.c 0x00000000000000050000000000300089, .rpop 3 5),
    (.c 0x0000000000000007000000080030058A, .rpeek 5 3 7 true)] = true := by decide +kernel

theorem test_words_sync : readAs [
    (.c 0x0000000000000009000000020001408B, .bar .core 5 9),
    (.c 0x00000000000000000000C0040000008C, .fence .sc .die),
    (.c 0x0000000000000240000000000000008D, .hedge 0x40 0x02),
    (.c 0x0000000000000008000000280071858E, .waitm .gen 5 6 7 8),
    (.c 0xFFFFFFFFFFFFFFF0000000000001858F, .tfork 5 6 (wordI (-16))),
    (.c 0x00000000000000000000000000014090, .tjoin 5)] = true := by decide +kernel

theorem test_words_copy_and_graph : readAs [
    (.c 0x00000000000000000000000820718594, .cpy true false 5 6 7 8),
    (.c 0x00000000000000000000000800018595, .gnode true 5 6),
    (.c 0x00000000000000000000000000D30096, .glink 12 13),
    (.c 0x00000000000000000000000000034097, .gwait 13),
    (.c 0x00000000000000000000000000028598, .spawn 5 10 0),
    (.d 0xFFFFFF80000001000000000000000080000000000000000000000000207185CC, .cpy2d false false 5 6 7 8 128 256 0xFFFFFF80),
    (.d 0x000000000000000000000000004900400000000000000000000000102073C5CD, .cpyg false true 5 15 7 8 64 9 true)] = true := by decide +kernel

theorem test_words_system : readAs [
    (.c 0x000000000000000000000000000000A0, .eret),
    (.c 0x00000000000000C800000000000005A1, .mfs 5 0x0C8),
    (.c 0x0000000000000FFF00000000000180A2, .mts 0xFFF 6),
    (.c 0x000000000000000100000004007180A3, .tlbinv .die 6 7 true),
    (.c 0x000000000000001000000006009200A4, .cflush .sys 8 16 9),
    (.c 0x000000000000008000000000000200A5, .cpin 8 128),
    (.c 0x000000000000008000000000000200A6, .cunpin 8 128),
    (.c 0x000000000000000000000000000200A7, .bankcfg 8),
    (.c 0x000000000000000000000000000000A8, .halt),
    (.d 0x00000000000000000000040400000908FFFFFFFFFFFFFFC000000000000005C0, .strip 5 8 9 0 0 4 4 0 0 (wordI (-64)))] = true := by decide +kernel

theorem test_words_block_control : readAs [
    (.e 0x0000000000000001, .vnop {}),
    (.e 0x00000000000000FE, .vstop {}),
    (.e 0xFFFE0001B00000FD, .vpfetchDirect { mask := some 3, f := 1, imm := 65534 }),
    (.e 0x00000000000100FD, .vpfetchIndirect { va := 8 })] = true := by decide +kernel

theorem test_words_block_integer_1 : readAs [
    (.e 0x00000500A00C6110, .vadd { vd := 1, va := 3, vb := 3, mask := some 2, ty := some .s32 }),
    (.e 0x000000000077DF11, .vsub { vd := 31, va := 30, vb := 29 }),
    (.e 0x0005000800004112, .vrsub { vd := 1, va := 2, f := 8, imm := 5 }),
    (.e 0x0000800000092113, .vmul { vd := 1, va := 9, vb := 2, xb := true }),
    (.e 0x00000800000C4114, .vmulh { vd := 1, va := 2, vb := 3, ty := some .n16 }),
    (.e 0x00000000020C4115, .vmadd { vd := 1, va := 2, vb := 3, vc := 4 }),
    (.e 0x000000000F8C4116, .vmsub { vd := 1, va := 2, vb := 3, vc := 31 }),
    (.e 0x00000000000C4117, .vsadd { vd := 1, va := 2, vb := 3 }),
    (.e 0x00000000000C4118, .vssub { vd := 1, va := 2, vb := 3 }),
    (.e 0x00000000000C4119, .vmin { vd := 1, va := 2, vb := 3 }),
    (.e 0x00000000000C411A, .vmax { vd := 1, va := 2, vb := 3 }),
    (.e 0x000000000000411B, .vabs { vd := 1, va := 2 }),
    (.e 0x000000000000411C, .vneg { vd := 1, va := 2 }),
    (.e 0x00000000000C411D, .vavg { vd := 1, va := 2, vb := 3 }),
    (.e 0x00000000000C4120, .vand { vd := 1, va := 2, vb := 3 }),
    (.e 0x00000000000C4121, .vor { vd := 1, va := 2, vb := 3 }),
    (.e 0x00000000000C4122, .vxor { vd := 1, va := 2, vb := 3 }),
    (.e 0x0000000000004123, .vnot { vd := 1, va := 2 }),
    (.e 0x0007000800004124, .vshl { vd := 1, va := 2, f := 8, imm := 7 }),
    (.e 0x0007000800004125, .vshr { vd := 1, va := 2, f := 8, imm := 7 }),
    (.e 0x0007000800004126, .vsra { vd := 1, va := 2, f := 8, imm := 7 }),
    (.e 0x0000000000004127, .vclz { vd := 1, va := 2 }),
    (.e 0x0000000000004128, .vpopc { vd := 1, va := 2 }),
    (.e 0x00000000000C482C, .vwadd { vd := 8, va := 2, vb := 3 })] = true := by decide +kernel

theorem test_words_block_integer_2 : readAs [
    (.e 0x00000000000C482D, .vwmul { vd := 8, va := 2, vb := 3 }),
    (.e 0x000400030001012E, .vnarrow { vd := 1, va := 8, f := 3, imm := 4 }),
    (.e 0x000040100000412F, .vcvt { vd := 1, va := 2, f := 16, rnd := some .rup })] = true := by decide +kernel

theorem test_words_block_float : readAs [
    (.e 0x00000D00000C4130, .vfadd { vd := 1, va := 2, vb := 3, ty := some .f32 }),
    (.e 0x00000D00000C4131, .vfsub { vd := 1, va := 2, vb := 3, ty := some .f32 }),
    (.e 0x00000D00000C4132, .vfmul { vd := 1, va := 2, vb := 3, ty := some .f32 }),
    (.e 0x0000A00002052433, .vfma { vd := 4, va := 9, vb := 1, vc := 4, xb := true, rnd := some .rtz }),
    (.e 0x0000000002052434, .vfms { vd := 4, va := 9, vb := 1, vc := 4 }),
    (.e 0x00003000000C4135, .vfdiv { vd := 1, va := 2, vb := 3, rnd := some .rdn }),
    (.e 0x0000100000004136, .vfsqrt { vd := 1, va := 2, rnd := some .rne }),
    (.e 0x00000000000C4137, .vfmin { vd := 1, va := 2, vb := 3 }),
    (.e 0x00000C00D0086338, .vfmax { vd := 3, va := 3, vb := 2, mask := some 5, ty := some .h16 }),
    (.e 0x0000000000004139, .vfabs { vd := 1, va := 2 }),
    (.e 0x000000000000413A, .vfneg { vd := 1, va := 2 })] = true := by decide +kernel

theorem test_words_block_masks : readAs [
    (.e 0x00000005000C4740, .vcmp { vd := 7, va := 2, vb := 3, f := 5 }),
    (.e 0x00000004000C4741, .vfcmp { vd := 7, va := 2, vb := 3, f := 4 }),
    (.e 0x0000000000082342, .mand { vd := 3, va := 1, vb := 2 }),
    (.e 0x0000000000082343, .mor { vd := 3, va := 1, vb := 2 }),
    (.e 0x0000000000082344, .mxor { vd := 3, va := 1, vb := 2 }),
    (.e 0x00000000A0002145, .mnot { vd := 1, va := 1, mask := some 2 }),
    (.e 0x00000000030C4546, .vsel { vd := 5, va := 2, vb := 3, vc := 6 }),
    (.e 0xFFFF050000000748, .vid { vd := 7, ty := some .s32, imm := 65535 }),
    (.e 0x000000000000C749, .viota { vd := 7, va := 6 }),
    (.e 0x000000000180224A, .vcompress { vd := 2, va := 1, vc := 3 }),
    (.e 0x000000000180224B, .vexpand { vd := 2, va := 1, vc := 3 }),
    (.e 0x000000000024A64C, .vslideup { vd := 6, va := 5, vb := 9 }),
    (.e 0x00010D080000644D, .vslidedn { vd := 4, va := 3, f := 8, ty := some .f32, imm := 1 }),
    (.e 0x000003080010224E, .vperm { vd := 2, va := 1, vb := 4, f := 8, ty := some .s8 }),
    (.e 0x00008D000001824F, .vbcast { vd := 2, va := 12, xb := true, ty := some .f32 })] = true := by decide +kernel

theorem test_words_block_moves : readAs [
    (.e 0x000000000180224A, .vcompress { vd := 2, va := 1, vc := 3 }),
    (.e 0x000000000180224B, .vexpand { vd := 2, va := 1, vc := 3 }),
    (.e 0x000000000024A64C, .vslideup { vd := 6, va := 5, vb := 9 }),
    (.e 0x00010D080000644D, .vslidedn { vd := 4, va := 3, f := 8, ty := some .f32, imm := 1 }),
    (.e 0x000003080010224E, .vperm { vd := 2, va := 1, vb := 4, f := 8, ty := some .s8 }),
    (.e 0x00008D000001824F, .vbcast { vd := 2, va := 12, xb := true, ty := some .f32 }),
    (.e 0x00000D0200242950, .vredsum { vd := 9, va := 1, vb := 9, f := 2, ty := some .f32 }),
    (.e 0x0000040190082251, .vredmax { vd := 2, va := 1, vb := 2, mask := some 1, f := 1, ty := some .s16 }),
    (.e 0x0000000100082252, .vredmin { vd := 2, va := 1, vb := 2, f := 1 }),
    (.e 0x0000000200082253, .vredand { vd := 2, va := 1, vb := 2, f := 2 }),
    (.e 0x0000000100082254, .vredor { vd := 2, va := 1, vb := 2, f := 1 }),
    (.e 0x0000000002802455, .vmeanvar { vd := 4, va := 1, vc := 5 }),
    (.e 0x0000000100082258, .vfn { vd := 2, va := 1, vb := 2, f := 1 }),
    (.e 0x00000000000C4C59, .vbscale { vd := 12, va := 2, vb := 3 }),
    (.e 0x000000000181025A, .vbquant { vd := 2, va := 8, vc := 3 }),
    (.e 0x000000000000225C, .vtpack { vd := 2, va := 1 }),
    (.e 0x000000000000435D, .vtunpk { vd := 3, va := 2 })] = true := by decide +kernel

/-! ## Words that are not instructions -/

/-- R71, R72, R75, R76, R80 to R87: each word breaks one rule, and the decoder refuses it. -/
theorem test_words_refused : [
    -- opcode 0x00
    Code.c 0x00000000000000000000000000000000,
    -- an unassigned opcode
    .c 0x000000000000000000000000000000B0,
    -- `ADD` with z = 1
    .c 0x00000000000000000001000000718510,
    -- `ADD` with an immediate
    .c 0x00000000000000010000000000718510,
    -- `ADD` with field c
    .c 0x00000000000000000000000004718510,
    -- `BR` with a misaligned offset
    .c 0x00000000000000080000000000000002,
    -- a D-word opcode in 16 bytes
    .c 0x000000000000000000000000000000C0,
    -- `B.cc` with condition 6
    .c 0x00000000000000000000C00000204003,
    -- `FCMP.cc` with condition 5
    .c 0x00000000000000000000AD0000308139,
    -- `ST` of the reserved type code 18
    .c 0x00000000000000000000120000018541,
    -- `ST.acq`
    .c 0x00000000000000000000830000018541,
    -- `LD.rel`
    .c 0x00000000000000000000A30000018540,
    -- `LD` with order 7
    .c 0x00000000000000000000E30000018540,
    -- `LD` with scope 7
    .c 0x00000000000000000000030700018540,
    -- `AMO` of type s8
    .c 0x00000000000000000000030000718542,
    -- `AMO` operation 7
    .c 0x00000000000000000000053800718542,
    -- `VST` with a mask field that names no mask
    .c 0x0000000000000000000000000402414C,
    -- `VLDM` of m8
    .c 0x00000000000000000000000000024850,
    -- `VLD` of v32
    .c 0x00000000000000000000000000026048,
    -- `MFS` with bits above imm[11:0]
    .c 0x000000000000100000000000000005A1,
    -- `BFI` of 65 bits
    .c 0x0000000000004100000000000001852D,
    -- `RLOPEN` with bits above imm[3:0]
    .c 0x00000000000000100000000000001484,
    -- `STRIP` with ext1 = 1
    .d 0x00000000000000010000000000000000000000000000000000000000000005C0,
    -- `STRIP` counting in x0
    .d 0x00000000000000000000000000000000000000000000000000000000000000C0,
    -- `TMMA` with q = 2
    .d 0x00000000000000000000000000000000000000000000000000004000207181C4,
    -- `TMMA` of tile 4
    .d 0x00000000000000000000000000000000000000000000000000002000207184C4,
    -- an unassigned D-word opcode
    .d 0x00000000000000000000000000000000000000000000000000000000000000C7,
    -- opcode 0x00 of the block map
    .e 0x0000000000000000,
    -- an unassigned block opcode
    .e 0x0000000000000060,
    -- `vadd` unmasked with m.reg = 1
    .e 0x00000000100C6110,
    -- `vadd` with rounding code 5
    .e 0x00005000000C6110,
    -- `vredsum` with order 0
    .e 0x00000000000C4150,
    -- `vredsum` with order 3
    .e 0x00000003000C4150,
    -- `vstop` with vd = 1
    .e 0x00000000000001FE,
    -- `vpfetch` with f = 2
    .e 0x00000002000000FD,
    -- `vcmp` with condition 6
    .e 0x00000006000C4140,
    -- `vcvt` to type code 18
    .e 0x000000120000412F
  ].all (fun w => (decode w).toOption == none) = true := by decide +kernel

/-- One term for each check of `wf`, each refused by that check. -/
theorem test_wf_refuses : [
    Instr.br 8, .bcc .eq 1 2 4, .bz 1 1, .bnz 1 2, .call 15, .jtab 1 2 3 8, .vf 8, .tfork 1 2 8,
    .bfx 1 2 0 0, .bfx 1 2 60 5, .bfi 1 2 63 2, .fadd .s32 1 2 3, .fsub .g8 1 2 3, .fmul .n8 1 2 3, .fma .t32 1 2 3 4,
    .fdiv .s8 1 2 3, .fsqrt .s64 1 2, .fmin .tr 1 2 3, .fmax .g6 1 2 3, .fcmp .eq .s32 1 2 3, .fcvt .s2 .f32 1 2,
    .fcvt .f32 .g6 1 2, .ld .g8 .plain .dflt 1 2 0, .ld .s8 .rel .dflt 1 2 0, .st .s2 .plain .dflt 1 2 0,
    .st .s8 .acq .dflt 1 2 0, .amo .add .s8 .plain .dflt 1 2 3 0, .amo .min .t32 .plain .dflt 1 2 3 0,
    .cas .f32 .plain .dflt 1 2 3 4 0, .pref 1 0 3, .vsett 1 2 3, .tstat 1 0 6 0, .tdrain 0 1 2 0 none 0 0 0 0 0,
    .tdrain 0 1 2 0 none 60 5 0 0 0, .tdrain 0 1 2 0 none 0 1 3 0 0, .tdrainx 0 1 2 0 none 1 64 0 0 0,
    .bgemv 1 2 3 4 0 1 1 0 4, .bgemv 1 2 3 4 1 0 1 0 4, .bgemv 1 2 3 4 1 1 9 0 4, .bgemv 1 2 3 4 1 1 1 0 2,
    .drove 0 33, .tbset 0 false 11 0, .tbset 0 false 1 1, .tbset 0 true 1 0, .tbset 0 true 1 7, .bar .sys 1 0,
    .fence .plain .dflt, .hedge 0 1, .hedge 1 0, .tlbinv .thr 1 2 false, .tlbinv .sys 1 2 true,
    .cpy false true 1 16 2 3, .cpy2d false true 1 16 2 3 1 0 0, .cpyg false true 1 16 2 3 1 4 false,
    .strip 0 0 0 0 0 0 0 0 0 0, .strip 5 5 0 0 0 0 0 0 0 0, .strip 5 6 6 0 0 0 0 0 0 0, .strip 5 0 0 0 0 1 0 0 0 0,
    .strip 5 6 0 0 0 4 0 0 0 8].all (fun i => !i.wf) = true := by decide +kernel

/-- The same for the E-words: a used-field, mask-number or function-byte check of each kind. -/
theorem test_wf_refuses_block : [
    Instr.vnop { vd := 1 }, .vstop { mask := some 1 }, .vpfetchDirect { f := 0 }, .vpfetchDirect { f := 1, va := 1 },
    .vpfetchIndirect { f := 1 }, .vadd { vc := 1 }, .vadd { imm := 1 }, .vadd { f := 8, vb := 1 }, .vadd { ty := some .g6 },
    .vmulh { f := 8 }, .vmadd { imm := 1 }, .vabs { vb := 1 }, .vnarrow { f := 4 }, .vcvt { f := 0 }, .vcvt { f := 17 },
    .vcmp { vd := 8 }, .vcmp { f := 6 }, .vfcmp { f := 5 }, .vfcmp { vd := 8 }, .mand { ty := some .s8 }, .mor { va := 8 },
    .mxor { vb := 8 }, .mnot { vb := 1 }, .vsel { vc := 8 }, .vid { va := 1 }, .viota { va := 8 },
    .vbcast { xb := true, imm := 1 }, .vcompress { vc := 8 }, .vexpand { vb := 1 }, .vslideup { xb := true },
    .vslidedn { f := 1 }, .vperm { f := 1 }, .vredsum { f := 0 }, .vredmax { f := 3 }, .vredmin { xb := true, f := 1 },
    .vredand { f := 4 }, .vredor { f := 0 }, .vmeanvar { vd := 1, vc := 1 }, .vmeanvar { vd := 1, ty := some .f32 },
    .vfn { vb := 8 }, .vfn { f := 2 }, .vbscale { vc := 1 }, .vbquant { vb := 1 }, .vtpack { vb := 1 }, .vtunpk { f := 1 }].all
      (fun i => !i.wf) = true := by decide +kernel

/-! ## Single steps of the control thread -/

/-- The x-register of a destination after an instruction. -/
def xAfter (i : Instr) (r : XReg) : Word := (after (exec i demo)).me.rx r

/-- R20, R112: sums wrap, x0 discards. -/
theorem test_add : xAfter (.add 5 5 7) 5 = 37 ∧ xAfter (.add 0 5 6) 0 = 0 := by decide +kernel
theorem test_sub : xAfter (.sub 5 6 5) 5 = wordI (-33) := by decide +kernel
theorem test_mul : xAfter (.mul 5 6 7) 5 = wordI (-21) := by decide +kernel
theorem test_mulh : xAfter (.mulh 5 6 7) 5 = wordI (-1) ∧ xAfter (.mulhn 5 6 7) 5 = 6 := by decide +kernel
/-- R112, R113: quotients toward zero, the remainder has the dividend's sign, a divisor of zero. -/
theorem test_div : xAfter (.div 5 5 7) 5 = wordI (-13) ∧ xAfter (.rem 5 5 7) 5 = 1 ∧ xAfter (.divn 5 5 7) 5 = 0
    ∧ xAfter (.remn 5 5 0) 5 = 40 ∧ xAfter (.div 5 5 0) 5 = wordI (-1) := by decide +kernel
theorem test_shifts : xAfter (.sra 5 7 0 1) 5 = wordI (-2) ∧ xAfter (.shr 5 7 0 60) 5 = 15
    ∧ xAfter (.shl 5 6 0 65) 5 = 14 ∧ xAfter (.rot 5 7 0 1) 5 = wordI (-5) := by decide +kernel
theorem test_bits : xAfter (.clz 5 0) 5 = 64 ∧ xAfter (.ctz 5 5) 5 = 3 ∧ xAfter (.popc 5 7) 5 = 63
    ∧ xAfter (.andn 5 5 6) 5 = 40 ∧ xAfter (.xor 5 5 6) 5 = 47 := by decide +kernel
theorem test_minmax : xAfter (.min 5 6 7) 5 = wordI (-3) ∧ xAfter (.minn 5 6 7) 5 = 7
    ∧ xAfter (.sel 5 6 7 0) 5 = wordI (-3) ∧ xAfter (.setcc .ltn 5 6 7) 5 = 1 ∧ xAfter (.setcc .lt 5 6 7) 5 = 0 := by
  decide +kernel
/-- R112: the fields of `BFX` and `BFI`, the shift of `LEA`. -/
theorem test_fields : xAfter (.bfx 6 5 3 2) 6 = 1 ∧ xAfter (.bfi 5 6 4 2) 5 = 0x38
    ∧ xAfter (.lea 9 8 6 3 16) 9 = 0x00FFFF0000001048 ∧ xAfter (.li 5 9) 5 = 9 ∧ xAfter (.addi 5 6 (wordI (-8))) 5 = wordI (-1) := by
  decide +kernel
/-- R114: an address in the cluster-local window has no home slice. -/
theorem test_slhash : xAfter (.slhash 5 8 0) 5 = 0x8000 := by decide +kernel

/-- The thread with two float operands in x10 and x11. -/
def floatDemo (a b : Word) : State := demoWith { th0 with x := th0.x ++ [(10, a), (11, b)] }

/-- R115, R47: 2^24 + 1 is a tie in binary32 and rounds to even; NX. -/
theorem test_fadd : let t := (after (exec (.fadd .f32 5 10 11) (floatDemo 0x4B800000 0x3F800000))).me
    t.rx 5 = 0x4B800000 ∧ t.fcsr = 1 := by decide +kernel
/-- A finite value over zero is an infinity with DZ (R47). -/
theorem test_fdiv : let t := (after (exec (.fdiv .f32 5 10 11) (floatDemo 0x3F800000 0x80000000))).me
    t.rx 5 = 0xFF800000 ∧ t.fcsr = 8 := by decide +kernel
theorem test_fsqrt : let t := (after (exec (.fsqrt .f64 5 10) (floatDemo 0x8000000000000000 0))).me
    t.rx 5 = 0x8000000000000000 ∧ t.fcsr = 0 := by decide +kernel
/-- R116: −0 is the smaller zero; one NaN gives the other operand. -/
theorem test_fmin : (after (exec (.fmin .f32 5 10 11) (floatDemo 0 0x80000000))).me.rx 5 = 0x80000000
    ∧ (after (exec (.fmax .f32 5 10 11) (floatDemo 0x7FC00000 0x40000000))).me.rx 5 = 0x40000000 := by decide +kernel
/-- R85: `un` holds for a NaN, without NV for a quiet one. -/
theorem test_fcmp : let t := (after (exec (.fcmp .un .f32 5 10 11) (floatDemo 0x7FC00000 0))).me
    t.rx 5 = 1 ∧ t.fcsr = 0 := by decide +kernel
theorem test_fma : (after (exec (.fma .f32 5 10 10 11) (floatDemo 0x40000000 0x3F800000))).me.rx 5 = 0x40A00000
    ∧ (after (exec (.fmul .f32 5 10 11) (floatDemo 0x40000000 0x40400000))).me.rx 5 = 0x40C00000
    ∧ (after (exec (.fsub .f32 5 10 11) (floatDemo 0x40000000 0x40400000))).me.rx 5 = 0xBF800000 := by decide +kernel
/-- The example of R55: 100.0 in g8 is 0x6A with NX. -/
theorem test_fcvt : let t := (after (exec (.fcvt .f32 .g8 5 10) (floatDemo 0x42C80000 0))).me
    t.rx 5 = 0x6A ∧ t.fcsr = 1 := by decide +kernel

/-- R101: the condition decides between the target and the next word. -/
theorem test_branch : (after (exec (.bcc .lt 7 6 (wordI (-48))) demo)).me.pc = 0xFD0
    ∧ (after (exec (.bcc .ltn 7 6 (wordI (-48))) demo)).me.pc = 0x1010
    ∧ (after (exec (.bz 0 64) demo)).me.pc = 0x1040 ∧ (after (exec (.bnz 0 64) demo)).me.pc = 0x1010
    ∧ (after (exec (.br 32) demo)).me.pc = 0x1020 := by decide +kernel
theorem test_nop : (after (exec .nop demo)).me.pc = 0x1010 ∧ (after (exec .yieldTurn demo)).me.pc = 0x1010 := by decide +kernel
/-- R105: a misaligned target raises FETCHFAULT (code 2) with the target in tval. -/
theorem test_jmpr : let t := (after (exec (.jmpr 6) demo)).me
    t.pc = 0x8000 ∧ t.super.tcause = 2 ∧ t.super.tval = 7 ∧ t.super.tpc = 0x1000 ∧ t.sup = true := by decide +kernel
/-- R103: the frame below the stack pointer, and the return address in x1. -/
theorem test_call : let t := after (exec (.call 0x100) demo)
    t.me.pc = 0x1100 ∧ t.me.rx 1 = 0x1010 ∧ t.me.rx 2 = 0x3FF0
      ∧ leNat (t.seeBytes 0 .ct 0x3FF0 8) = 0x1010 ∧ leNat (t.seeBytes 0 .ct 0x3FF8 8) = 0x24000000 := by decide +kernel
/-- R104: a frame of zeros returns to address 0 with vl 0, but its vtype 0 is s2 and legal. -/
theorem test_ret : let t := (after (exec .ret demo)).me
    t.pc = 0 ∧ t.rx 2 = 0x4010 := by decide +kernel
/-- R106: an index at or above the length takes the default without an access. -/
theorem test_jtab : (after (exec (.jtab 5 9 6 (wordI (-160))) demo)).me.pc = 0xF60 := by decide +kernel
/-- R111. -/
theorem test_brk : let t := (after (exec (.brk 7) demo)).me
    t.super = ⟨0x1000, 0x0F, 7, 0⟩ ∧ t.pc = 0x8000 := by decide +kernel
theorem test_trap : let t := (after (exec (.trap 0x21) demo)).me
    t.super = ⟨0x1000, 0x10, 0x21, 0⟩ ∧ t.sup = true := by decide +kernel

/-- R107, R9: under 16 lanes and f32, mvl is 512. -/
theorem test_setvl : let t := (after (exec (.setvl 6 7) demo)).me
    t.vl = 512 ∧ t.rx 6 = 512 := by decide +kernel
/-- The example of R60: s8 in blocks of 32, a request of 100 gives 96; 4 stays 4. -/
theorem test_setvl_blocks : (after (exec (.setvl 6 10) (demoWith { th0 with vtype := 0x0182, grant := 0x10, x := [(10, 100)] }))).me.vl = 96
    ∧ (after (exec (.setvl 6 10) (demoWith { th0 with vtype := 0x0182, grant := 0x10, x := [(10, 4)] }))).me.vl = 4 := by
  decide +kernel
/-- The example of R108: the strip of 512 of 1,200 elements. -/
theorem test_strip : let t := (after (exec (.strip 5 8 9 0 0 4 4 0 0 (wordI (-64)))
      (demoWith { th0 with vl := 512, x := [(5, 1200), (8, 0x100000), (9, 0x200000)] }))).me
    t.rx 5 = 688 ∧ t.rx 8 = 0x100800 ∧ t.rx 9 = 0x200800 ∧ t.vl = 512 ∧ t.pc = 0xFC0 := by decide +kernel
/-- R134 and the example of R60: vtype 0x0182 has mvl 256 under two lanes. -/
theorem test_vsett : let t := (after (exec (.vsett 6 0 0x0182) (demoWith { th0 with grant := 0x10 }))).me
    t.vtype = 0x0182 ∧ t.rx 6 = 256 := by decide +kernel
/-- R130: 2,064 for f32 under 16 lanes. -/
theorem test_vmvl : xAfter (.vmvl 5) 5 = 2064 := by decide +kernel
theorem test_vmpop : let th := { th0 with vl := 4, m := [(1, true), (3, true), (5, true)] }
    (after (exec (.vmpop 5 0 none) (demoWith th))).me.rx 5 = 2
      ∧ (after (exec (.vmfirst 5 0 none) (demoWith th))).me.rx 5 = 1 := by decide +kernel
/-- R136: an s8 element is sign-extended; an index from vl on reads zero. -/
theorem test_vgetx : (after (exec (.vgetx 5 1 0 1) (demoWith { vecTh 0x0002 4 8 [(1, [3, 0xFF])] with blk := none }))).me.rx 5 = wordI (-1)
    ∧ (after (exec (.vgetx 5 1 0 4) (demoWith { vecTh 0x0002 4 8 [(1, [3, 0xFF])] with blk := none }))).me.rx 5 = 0 := by decide +kernel
theorem test_vputx : elems (after (exec (.vputx 1 5 0 2) (demoWith { vecTh 0x0002 4 8 [] with blk := none }))) 1 8 4 = [0, 0, 40, 0] := by
  decide +kernel
/-- R18: every VP below vl in one group at the block. -/
theorem test_vf : (after (exec (.vf 0x1000) (demoWith { th0 with vl := 3 }))).me.blk
    = some { vf := 0x1000, epc := 0x2000, start := 0x2000, group := [0, 1, 2] } := by decide +kernel

/-- R118, R228: a store is pending, and the thread itself reads it. -/
theorem test_st : let t := after (exec (.st .n16 .plain .dflt 7 8 2) demo)
    leNat (t.seeBytes 0 .ct (sramBase + 0x1002) 2) = 0xFFFD ∧ t.byte (sramBase + 0x1002) = 0 := by decide +kernel
/-- R118: sign extension; a misaligned address raises DATAFAULT (code 3). -/
theorem test_ld : let s := demo.performBytes (.thread 9) (numWrite 0x10000 2 0xFFFE)
    (after (exec (.ld .s16 .plain .dflt 5 9 0) s)).me.rx 5 = wordI (-2) ∧ (after (exec (.ld .n16 .plain .dflt 5 9 0) s)).me.rx 5 = 0xFFFE
      ∧ (after (exec (.ld .n16 .plain .dflt 5 9 1) s)).me.super.tcause = 3 := by decide +kernel
/-- R119: the old value in xd and the new one in memory; a failed `CAS` writes the old value. -/
theorem test_amo : let t := after (exec (.amo .max .s32 .plain .dflt 5 9 7 0) demo)
    t.me.rx 5 = 0 ∧ t.readPhys 0x10000 4 = 0 ∧ (after (exec (.amo .max .n32 .plain .dflt 5 9 7 0) demo)).readPhys 0x10000 4 = 0xFFFFFFFD := by
  decide +kernel
theorem test_cas : (after (exec (.cas .n64 .plain .dflt 5 9 0 6 0) demo)).readPhys 0x10000 8 = 7
    ∧ (after (exec (.cas .n64 .plain .dflt 5 9 6 5 0) demo)).readPhys 0x10000 8 = 0 := by decide +kernel
theorem test_pref : (after (exec (.pref 9 0 0) demo)).me = { th0 with pc := 0x1010 } := by decide +kernel

/-- R123: a load of four n8 elements; vstart is zero afterwards. -/
theorem test_vld : let t := after (exec (.vld none .plain 1 9 0 none) ((demoWith { th0 with vtype := 0x000A, vl := 4 }).performBytes (.thread 9)
      (numWrite 0x10000 4 0x04030201)))
    elems t 1 8 4 = [1, 2, 3, 4] ∧ t.me.vstart = 0 ∧ t.me.vdirty = 2 := by decide +kernel
/-- R57 and its example: g6 elements 0x10, 0x30, 0x0B, 0x00 from the bytes 10 BC 00. -/
theorem test_vld_g6 : let t := after (exec (.vld none .plain 1 9 0 none) ((demoWith { th0 with vtype := 0x003A, vl := 4 }).performBytes (.thread 9)
      (numWrite 0x10000 3 0x00BC10)))
    elems t 1 8 4 = [0x10, 0x30, 0x0B, 0] := by decide +kernel
/-- R122: a stride of −1 byte. -/
theorem test_vsts : let t := after (exec (.vsts none .plain 1 9 10 0 none)
      (demoWith { vecTh 0x000A 3 8 [(1, [1, 2, 3])] with blk := none, x := [(9, 0x10000), (10, wordI (-1))] }))
    t.seeBytes 0 .vls 0xFFFE 4 = [3, 2, 1, 0] := by decide +kernel
/-- R124: the higher of two elements that write one byte stands. -/
theorem test_vstx : let t := after (exec (.vstx none .plain 1 9 2 0 0 0 none)
      (demoWith { vecTh 0x000A 3 8 [(1, [7, 8, 9]), (2, [5, 0, 5])] with blk := none }))
    t.seeBytes 0 .vls 0x10000 6 = [8, 0, 0, 0, 0, 9] := by decide +kernel
/-- R126: a fault at element 1 shortens vl to 1. -/
theorem test_vldff : let t := after (exec (.vldff none .plain 1 10 0 none)
      (demoWith { th0 with vtype := 0x000A, vl := 4, x := [(10, 0x3FFFFFFF)] }))
    t.me.vl = 1 ∧ t.me.pc = 0x1010 := by decide +kernel
/-- R127: two contributions to one address in element order. -/
theorem test_vamo : let t := after (exec (.vamo .add (some .n32) .plain .dflt 1 9 2 0 0 none)
      (demoWith { vecTh 0x0014 2 32 [(1, [3, 4]), (2, [0, 0])] with blk := none }))
    t.readPhys 0x10000 4 = 7 := by decide +kernel
theorem test_vldm : let t := (after (exec (.vldm .u 1 9 0) ((demoWith { th0 with vl := 3 }).performBytes (.thread 9) (numWrite 0x10000 1 0xFD)))).me
    t.mbit 1 0 = true ∧ t.mbit 1 1 = false ∧ t.mbit 1 2 = true ∧ t.mbit 1 3 = false := by decide +kernel
theorem test_vstm : (after (exec (.vstm .plain 1 9 0) (demoWith { th0 with vl := 3, m := [(8193, true)] }))).seeBytes 0 .vls 0x10000 1 = [2] := by
  decide +kernel
/-- R129: the header holds vsw, and the elements follow at offset 16. -/
theorem test_vspill : let t := after (exec (.vspill .plain 1 9 0) (demoWith { vecTh 0x000A 2 8 [(1, [1, 2])] with blk := none }))
    leNat (t.seeBytes 0 .vls 0x10000 8) = 0x0A000002 ∧ t.seeBytes 0 .vls 0x10010 3 = [1, 2, 0] := by decide +kernel
theorem test_vfill : let t := after (exec (.vfill none .o 1 9 0) ((demoWith { th0 with vtype := 0x000A }).performBytes (.thread 9)
      (numWrite 0x10000 8 0x0A000002 ++ numWrite 0x10010 2 0x0605)))
    t.me.vl = 2 ∧ t.me.vdirty = 0 ∧ t.me.pc = 0x1010 := by decide +kernel
/-- R137: the record begins with vsw. -/
theorem test_vssave : leNat ((after (exec (.vssave 9 0) demo)).seeBytes 0 .ct 0x10000 8) = 0x24000000 := by decide +kernel
theorem test_vsload : (after (exec (.vsload 9 0) (demo.performBytes (.thread 9) (numWrite 0x10000 8 0x24000003 ++ numWrite 0x10028 1 0x7F)))).me.vl = 3 := by
  decide +kernel

/-! ## Block instructions: the worked examples of "Vector block instructions" -/

/-- Elements of a destination after an E-word, under a vtype, vl and register contents. -/
def eAfter (i : Instr) (vt : BitVec 16) (vl w : Nat) (regs : List (VReg × List Nat)) (d : VReg) (u n : Nat) : List Nat × Flags :=
  let t := after (exec i (demoWith (vecTh vt vl w regs)))
  (elems t d u n, t.me.fcsr)

/-- R153: saturation sets OF, wrapping sets nothing (s8). -/
theorem test_vadd : eAfter (.vadd { vd := 2, va := 1, vb := 3 }) 0x0002 2 8 [(1, [127, 3]), (3, [1, 4])] 2 8 2 = ([128, 7], 0) := by decide +kernel
theorem test_vsadd : eAfter (.vsadd { vd := 2, va := 1, vb := 3 }) 0x0002 2 8 [(1, [127, 3]), (3, [1, 4])] 2 8 2 = ([127, 7], 4) := by decide +kernel
theorem test_vssub : eAfter (.vssub { vd := 2, va := 1, vb := 3 }) 0x000A 2 8 [(1, [1, 3]), (3, [2, 1])] 2 8 2 = ([0, 2], 4) := by decide +kernel
theorem test_vsub : eAfter (.vsub { vd := 2, va := 1, vb := 3 }) 0x0002 1 8 [(1, [1]), (3, [3])] 2 8 1 = ([254], 0)
    ∧ eAfter (.vrsub { vd := 2, va := 1, vb := 3 }) 0x0002 1 8 [(1, [1]), (3, [3])] 2 8 1 = ([2], 0) := by decide +kernel
theorem test_vmul : eAfter (.vmul { vd := 2, va := 1, f := 8, imm := 0xFFFF }) 0x0002 1 8 [(1, [3])] 2 8 1 = ([253], 0)
    ∧ eAfter (.vmulh { vd := 2, va := 1, vb := 3 }) 0x0002 1 8 [(1, [0x80]), (3, [0x80])] 2 8 1 = ([0x40], 0) := by decide +kernel
theorem test_vmadd : eAfter (.vmadd { vd := 2, va := 1, vb := 3, vc := 4 }) 0x000A 1 8 [(1, [5]), (3, [6]), (4, [7])] 2 8 1 = ([37], 0)
    ∧ eAfter (.vmsub { vd := 2, va := 1, vb := 3, vc := 4 }) 0x000A 1 8 [(1, [5]), (3, [6]), (4, [40])] 2 8 1 = ([10], 0) := by decide +kernel
theorem test_vminmax : eAfter (.vmin { vd := 2, va := 1, vb := 3 }) 0x0002 1 8 [(1, [0x80]), (3, [1])] 2 8 1 = ([0x80], 0)
    ∧ eAfter (.vmax { vd := 2, va := 1, vb := 3 }) 0x000A 1 8 [(1, [0x80]), (3, [1])] 2 8 1 = ([0x80], 0) := by decide +kernel
theorem test_vabs : eAfter (.vabs { vd := 2, va := 1 }) 0x0002 2 8 [(1, [0x80, 0xFD])] 2 8 2 = ([0x80, 3], 0)
    ∧ eAfter (.vneg { vd := 2, va := 1 }) 0x0002 1 8 [(1, [1])] 2 8 1 = ([255], 0)
    ∧ eAfter (.vavg { vd := 2, va := 1, vb := 1 }) 0x000A 1 8 [(1, [255])] 2 8 1 = ([255], 0) := by decide +kernel
theorem test_vlogic : eAfter (.vand { vd := 2, va := 1, vb := 3 }) 0x000A 1 8 [(1, [12]), (3, [10])] 2 8 1 = ([8], 0)
    ∧ eAfter (.vor { vd := 2, va := 1, vb := 3 }) 0x000A 1 8 [(1, [12]), (3, [10])] 2 8 1 = ([14], 0)
    ∧ eAfter (.vxor { vd := 2, va := 1, vb := 3 }) 0x000A 1 8 [(1, [12]), (3, [10])] 2 8 1 = ([6], 0)
    ∧ eAfter (.vnot { vd := 2, va := 1 }) 0x000A 1 8 [(1, [12])] 2 8 1 = ([243], 0) := by decide +kernel
/-- R155: the amount is taken mod w. -/
theorem test_vshifts : eAfter (.vsra { vd := 2, va := 1, f := 8, imm := 9 }) 0x0002 1 8 [(1, [0x82])] 2 8 1 = ([0xC1], 0)
    ∧ eAfter (.vshr { vd := 2, va := 1, f := 8, imm := 1 }) 0x0002 1 8 [(1, [0x82])] 2 8 1 = ([0x41], 0)
    ∧ eAfter (.vshl { vd := 2, va := 1, f := 8, imm := 1 }) 0x0002 1 8 [(1, [0x82])] 2 8 1 = ([4], 0)
    ∧ eAfter (.vclz { vd := 2, va := 1 }) 0x0002 1 8 [(1, [0])] 2 8 1 = ([8], 0)
    ∧ eAfter (.vpopc { vd := 2, va := 1 }) 0x0002 1 8 [(1, [0x82])] 2 8 1 = ([2], 0) := by decide +kernel
theorem test_vwadd : eAfter (.vwadd { vd := 4, va := 1, vb := 3 }) 0x0002 1 8 [(1, [0x80]), (3, [0x80])] 4 16 1 = ([0xFF00], 0)
    ∧ eAfter (.vwmul { vd := 4, va := 1, vb := 3 }) 0x0002 1 8 [(1, [0x80]), (3, [0x80])] 4 16 1 = ([0x4000], 0) := by decide +kernel
/-- The example of R157. -/
theorem test_vnarrow : eAfter (.vnarrow { vd := 2, va := 4, f := 3, imm := 4 }) 0x0002 1 16 [(4, [0x07F9])] 2 8 1 = ([127], 4) := by decide +kernel
/-- The example of R158: f32 to g8. -/
theorem test_vcvt : eAfter (.vcvt { vd := 2, va := 1, f := 15 }) 0x0024 5 32
    [(1, [0x42C80000, 0x4BE4E1C0, 0x32800000, 0x33000000, 0xBE800000])] 2 8 5 = ([0x6A, 0x7F, 0, 1, 0xB0], 7) := by decide +kernel
theorem test_vfloat : eAfter (.vfadd { vd := 2, va := 1, vb := 3 }) 0x0024 1 32 [(1, [0x3F800000]), (3, [0x40000000])] 2 32 1 = ([0x40400000], 0)
    ∧ eAfter (.vfsub { vd := 2, va := 1, vb := 3 }) 0x0024 1 32 [(1, [0x3F800000]), (3, [0x40000000])] 2 32 1 = ([0xBF800000], 0)
    ∧ eAfter (.vfmul { vd := 2, va := 1, vb := 3 }) 0x0024 1 32 [(1, [0x40400000]), (3, [0x40000000])] 2 32 1 = ([0x40C00000], 0)
    ∧ eAfter (.vfdiv { vd := 2, va := 1, vb := 3 }) 0x0024 1 32 [(1, [0x3F800000]), (3, [0])] 2 32 1 = ([0x7F800000], 8) := by decide +kernel
theorem test_vfma : eAfter (.vfma { vd := 2, va := 1, vb := 1, vc := 3 }) 0x0024 1 32 [(1, [0x40000000]), (3, [0x3F800000])] 2 32 1 = ([0x40A00000], 0)
    ∧ eAfter (.vfms { vd := 2, va := 1, vb := 1, vc := 3 }) 0x0024 1 32 [(1, [0x40000000]), (3, [0x3F800000])] 2 32 1 = ([0x40400000], 0)
    ∧ eAfter (.vfsqrt { vd := 2, va := 1 }) 0x0024 1 32 [(1, [0xBF800000])] 2 32 1 = ([0x7FC00000], 16) := by decide +kernel
theorem test_vfmin : eAfter (.vfmin { vd := 2, va := 1, vb := 3 }) 0x0024 1 32 [(1, [0]), (3, [0x80000000])] 2 32 1 = ([0x80000000], 0)
    ∧ eAfter (.vfmax { vd := 2, va := 1, vb := 3 }) 0x0024 1 32 [(1, [0x7F800001]), (3, [0x3F800000])] 2 32 1 = ([0x3F800000], 16)
    ∧ eAfter (.vfabs { vd := 2, va := 1 }) 0x0024 1 32 [(1, [0xBF800000])] 2 32 1 = ([0x3F800000], 0)
    ∧ eAfter (.vfneg { vd := 2, va := 1 }) 0x0024 1 32 [(1, [0xFFC00001])] 2 32 1 = ([0x7FC00000], 0) := by decide +kernel

/-- Bits of a mask after an E-word. -/
def mAfter (i : Instr) (th : Thread) (m : MReg) (n : Nat) : List Bool := (List.range n).map ((after (exec i (demoWith th))).me.mbit m)

/-- R161, R162. -/
theorem test_vcmp : mAfter (.vcmp { vd := 2, va := 1, vb := 3, f := 2 }) (vecTh 0x0002 3 8 [(1, [0x80, 1, 5]), (3, [1, 1, 4])]) 2 3 = [true, false, false]
    ∧ mAfter (.vcmp { vd := 2, va := 1, vb := 3, f := 4 }) (vecTh 0x0002 3 8 [(1, [0x80, 1, 5]), (3, [1, 1, 4])]) 2 3 = [false, false, false] := by decide +kernel
theorem test_vfcmp : mAfter (.vfcmp { vd := 2, va := 1, vb := 3, f := 0 }) (vecTh 0x0024 2 32 [(1, [0x80000000, 0x7FC00000]), (3, [0, 0x7FC00000])]) 2 2
    = [true, false] := by decide +kernel
theorem test_masks : let th := { vecTh 0x0002 2 8 [] with m := [(0, true), (1, true), (8192, true)] }
    mAfter (.mand { vd := 2, va := 0, vb := 1 }) th 2 2 = [true, false] ∧ mAfter (.mor { vd := 2, va := 0, vb := 1 }) th 2 2 = [true, true]
      ∧ mAfter (.mxor { vd := 2, va := 0, vb := 1 }) th 2 2 = [false, true] ∧ mAfter (.mnot { vd := 2, va := 1 }) th 2 2 = [false, true] := by decide +kernel

/-- R163, R164: `vid` counts from a negative start; `vsel` picks by mask. -/
theorem test_vid : eAfter (.vid { vd := 2, imm := 0xFFFF }) 0x0002 3 8 [] 2 8 3 = ([255, 0, 1], 0) := by decide +kernel
theorem test_vbcast : eAfter (.vbcast { vd := 2, va := 1, imm := 1 }) 0x0002 2 8 [(1, [4, 9])] 2 8 2 = ([9, 9], 0)
    ∧ eAfter (.vbcast { vd := 2, va := 6, xb := true }) 0x0002 2 8 [] 2 8 2 = ([7, 7], 0) := by decide +kernel
/-- The thread of the example of R165: v1 holds 10 to 17 and m3 = 0b10110010. -/
def packTh : Thread :=
  { vecTh 0x0004 8 32 [(1, [10, 11, 12, 13, 14, 15, 16, 17])] with m := [1, 4, 5, 7].map fun e => (3 * 8192 + e, true) }
/-- R165's example, its inverse, and R163 and R164 under the same mask. -/
theorem test_vcompress : elems (after (exec (.vcompress { vd := 2, va := 1, vc := 3 }) (demoWith packTh))) 2 32 8 = [11, 14, 15, 17, 0, 0, 0, 0] := by
  decide +kernel
theorem test_vexpand : elems (after (exec (.vexpand { vd := 2, va := 1, vc := 3 }) (demoWith packTh))) 2 32 8 = [0, 10, 0, 0, 11, 12, 0, 13] := by
  decide +kernel
theorem test_vsel : elems (after (exec (.vsel { vd := 2, va := 1, vb := 3, vc := 3 }) (demoWith packTh))) 2 32 8 = [0, 11, 0, 0, 14, 15, 0, 17] := by
  decide +kernel
theorem test_viota : elems (after (exec (.viota { vd := 2, va := 3 }) (demoWith packTh))) 2 32 8 = [0, 0, 1, 1, 1, 2, 3, 3] := by decide +kernel
theorem test_vslides : eAfter (.vslideup { vd := 2, va := 1, f := 8, imm := 1 }) 0x000A 3 8 [(1, [4, 5, 6]), (2, [9, 9, 9])] 2 8 3 = ([9, 4, 5], 0)
    ∧ eAfter (.vslidedn { vd := 2, va := 1, f := 8, imm := 1 }) 0x000A 3 8 [(1, [4, 5, 6]), (2, [9, 9, 9])] 2 8 3 = ([5, 6, 0], 0) := by decide +kernel
theorem test_vperm : eAfter (.vperm { vd := 2, va := 1, vb := 3 }) 0x000A 3 8 [(1, [4, 5, 6]), (3, [2, 0, 3])] 2 8 3 = ([6, 4, 0], 0) := by decide +kernel
/-- The example of R67: the two orders of a float sum. -/
theorem test_vredsum : eAfter (.vredsum { vd := 2, va := 1, vb := 3, f := 1 }) 0x0024 4 32 [(1, [0x4B800000, 0x3F800000, 0x3F800000, 0x3F800000])] 2 32 1
      = ([0x4B800000], 1)
    ∧ eAfter (.vredsum { vd := 2, va := 1, vb := 3, f := 2 }) 0x0024 4 32 [(1, [0x4B800000, 0x3F800000, 0x3F800000, 0x3F800000])] 2 32 1
      = ([0x4B800001], 1) := by decide +kernel
theorem test_vreduce : eAfter (.vredmax { vd := 2, va := 1, vb := 3, f := 1 }) 0x0002 2 8 [(1, [0x80, 5])] 2 8 1 = ([5], 0)
    ∧ eAfter (.vredmin { vd := 2, va := 1, vb := 3, f := 2 }) 0x0002 2 8 [(1, [0x80, 5])] 2 8 1 = ([0x80], 0)
    ∧ eAfter (.vredand { vd := 2, va := 1, vb := 1, f := 1 }) 0x0002 2 8 [(1, [7, 5])] 2 8 1 = ([5], 0)
    ∧ eAfter (.vredor { vd := 2, va := 1, vb := 3, f := 2 }) 0x0002 2 8 [(1, [2, 5])] 2 8 1 = ([7], 0) := by decide +kernel
/-- The example of R170. -/
theorem test_vmeanvar : let t := after (exec (.vmeanvar { vd := 4, va := 1, vc := 5 }) (demoWith (vecTh 0x0024 8 32
      [(1, [0x40000000, 0x40800000, 0x40800000, 0x40800000, 0x40A00000, 0x40A00000, 0x40E00000, 0x41100000])])))
    elems t 4 32 1 = [0x40A00000] ∧ elems t 5 32 1 = [0x40800000] ∧ t.me.fcsr = 0 := by decide +kernel
/-- The example of R173. -/
theorem test_vfn : let hdr := [0, 0x437F0000, 0, 0x477E0100, 0x3F000000, 0x3F800000, 0x40000000, 0]
    let squares := [(10, 0x42C80000), (11, 0x42F20000)].map fun p => (2 * 264 + 8 + p.1, p.2)
    let th := { vecTh 0x0024 4 32 [(1, [0x41940000, 0xC0800000, 0x41A00000, 0x44160000])] with
                  tb := (hdr.zipIdx.map fun p => (2 * 264 + p.2, p.1)) ++ squares ++ [(2 * 264 + 8 + 12, 0x43100000)] }
    elems (after (exec (.vfn { vd := 2, va := 1, vb := 2, f := 1 }) (demoWith th))) 2 32 4
      = [0x43528000, 0, 0x43720000, 0x47FE0100] := by decide +kernel
/-- The example of R175, and back under R174. -/
theorem test_vbquant : let t := after (exec (.vbquant { vd := 2, va := 8, vc := 3 }) (demoWith (vecTh 0x0082 8 32
      [(8, [0x3F000000, 0xC0500000, 0x42C80000, 0x447A0000, 0, 0x40E00000, 0xC47A2000, 0x40000000])])))
    elems t 2 8 8 = [0, 0, 12, 125, 0, 1, 131, 0] ∧ elems t 3 8 1 = [130] ∧ t.me.fcsr = 1 := by decide +kernel
theorem test_vbscale : eAfter (.vbscale { vd := 12, va := 2, vb := 3 }) 0x0082 8 8 [(2, [0, 0, 12, 125, 0, 1, 131, 0]), (3, [130])] 12 32 8
    = ([0, 0, 0x42C00000, 0x447A0000, 0, 0x41000000, 0xC47A0000, 0], 0) := by decide +kernel
/-- The example of R177. -/
theorem test_vtpack : eAfter (.vtpack { vd := 2, va := 1 }) 0x0002 8 8 [(1, [1, 255, 0, 0, 1, 255, 255, 3])] 2 8 8
    = ([0x58, 0x11, 0, 0, 0, 0, 0, 0], 4) := by decide +kernel
theorem test_vtunpk : eAfter (.vtunpk { vd := 3, va := 2 }) 0x0002 8 8 [(2, [0x58, 0x11])] 3 8 8 = ([1, 255, 0, 0, 1, 255, 255, 1], 0) := by
  decide +kernel
/-- R177: an illegal byte raises TERNBYTE (code 8) at its element, and the block can resume (R147). -/
theorem test_ternbyte : let t := (after (exec (.vtunpk { vd := 3, va := 2 }) (demoWith (vecTh 0x0002 8 8 [(2, [0x58, 0xF5])])))).me
    t.super = ⟨0x1000, 8, 0x2000, 1⟩ ∧ t.vr = true ∧ t.blk = none := by decide +kernel

/-- R19, R151, R152. -/
theorem test_vnop : (after (exec (.vnop {}) (demoWith (vecTh 0x0002 2 8 [])))).me.blk.map (·.epc) = some 0x2008 := by decide +kernel
theorem test_vstop : let t := (after (exec (.vstop {}) (demoWith (vecTh 0x0002 2 8 [])))).me
    t.blk = none ∧ t.pc = 0x1010 := by decide +kernel
theorem test_vpfetch : let t := (after (exec (.vpfetchDirect { f := 1, imm := 2, mask := some 0 })
      (demoWith { vecTh 0x0002 3 8 [] with m := [(1, true)] }))).me
    t.blk.map (fun b => (b.group, b.pending)) = some ([0, 2], [(0x2020, [1])]) := by decide +kernel
theorem test_vpfetch_indirect : let t := (after (exec (.vpfetchIndirect { va := 1 })
      (demoWith (vecTh 0x0005 2 64 [(1, [0x3000, 0x3000])])))).me
    t.blk.map (fun b => (b.group, b.epc)) = some ([0, 1], 0x3000) := by decide +kernel

/-! ## Units, system instructions and events -/

/-- R180: a load replaces the 13,312 bytes of one buffer; without a tile it raises ACCGRANT (code 9, R21). -/
theorem test_tlw : (CoreState.setWb { wb := [(2, 1), (13313, 2)] } 0 [0, 0x51] 0x10000 {}).wb = [(1, 0x51), (13313, 2)]
    ∧ (after (exec (.tlw false 9 0) demo)).me.super = ⟨0x1000, 9, 0xFFFFFFFFFFFFFFFF, 0⟩ := by decide +kernel
/-- R192: the state word of a torus tile with tag 3 and ν = 7. -/
theorem test_tstat : (after (exec (.tstat 5 1 3 0) ((demoWith { th0 with tiles := [1] }).modCore 0 fun c =>
    { c with tiles := [(1, { mode := .torus, tagValid := true, tag := 3, nu := 7 })] }))).me.rx 5 = 0x700000035
    ∧ (after (exec (.tstat 5 1 3 0) demo)).me.super.tcause = 9 ∧ (after (exec (.tstat 5 1 2 0) demo)).me.rx 5 = 0 := by
  decide +kernel
/-- R181: torus mode has scales of 1. -/
theorem test_tzero : ((after (exec (.tzero 1 .torus) (demoWith { th0 with tiles := [1] }))).tile 1).scales = [1, 1, 1, 1]
    ∧ (after (exec (.tzero 1 .torus) demo)).me.super.tcause = 9 := by decide +kernel
/-- R182: groups of 64 columns take four words. -/
theorem test_tscale : let t := after (exec (.tscale 1 9 0 3) ((demoWith { th0 with tiles := [1] }).performBytes (.thread 9) (numWrite 0x10000 16 0x400000003F800000)))
    (t.tile 1).group = 64 ∧ (t.tile 1).scales = [0x3F800000, 0x40000000, 0, 0] := by decide +kernel
/-- R185: the activations −1, −1, 3 against the first weights of columns 0 and 1 under a weight byte of 7. -/
theorem test_tmma : accInt 0 (fun k => wtAt #[7] k 0) (fun k => [-1, -1, 3].getD k 0) = 0xFFFFFFFF
    ∧ accInt 0 (fun k => wtAt #[7] k 1) (fun k => [-1, -1, 3].getD k 0) = 1 := by decide +kernel
/-- R190: an accumulator of 5 under a scale of 1.0 drains as the s8 value 5. -/
theorem test_tdrain : let s := (demoWith { th0 with tiles := [0], vtype := 0x0002, vl := 2 }).modCore 0 fun c =>
      { c with tiles := [(0, { acc := [(1, 5)] })] }
    (after (exec (.tdrain 0 9 0 0 none 0 1 0 0 0) s)).seeBytes 0 .vls 0x10000 3 = [0, 5, 0] := by decide +kernel
/-- R189: the rows of `TDRAINX` go to indexed places. -/
theorem test_tdrainx : let s := (demoWith { vecTh 0x0002 1 32 [(4, [8])] with tiles := [0], blk := none }).modCore 0 fun c =>
      { c with tiles := [(0, { acc := [(0, 5)] })] }
    (after (exec (.tdrainx 0 9 4 0 none 0 1 0 0 0) s)).seeBytes 0 .vls 0x10008 1 = [5] := by decide +kernel
/-- R193: an output that is no multiple of 4 raises DATAFAULT; else the ticket is 1. -/
theorem test_bgemv : (after (exec (.bgemv 5 9 9 9 1 1 1 0 4) demo)).me.rx 5 = 1
    ∧ (after (exec (.bgemv 5 9 9 6 1 1 1 0 4) demo)).me.super.tcause = 3 := by decide +kernel
theorem test_bwait : (after (exec (.bwait 0) demo)).me.pc = 0x1010
    ∧ (after (exec (.bwait 0) (after (exec (.bgemv 5 9 9 9 1 1 1 0 4) demo)))).me.pc = 0x1020 := by decide +kernel

/-- Slot 2 holds a keyset of dimension 1 with ceiling 2,000; c0 and c1 are the ciphertexts of the example of R198, and
c2 has an odd mask word. -/
def cipherDemo : State :=
  let s := demoWith { th0 with c := [(0, ⟨[0, 0x02000000], 64, 2, 1⟩), (1, ⟨[0, 0x04000000], 64, 2, 1⟩), (2, ⟨[3, 5], 1900, 2, 1⟩)] }
  s.modCluster 0 fun c => { c with keys := [(2, { bk := 0, ksk := 0, fresh := 64, ceil := 2000, n := 1, ctx := {} })] }

/-- The example of R198: 3 × c0 has noise 64 × 9 = 576. -/
theorem test_cmulk : ((after (exec (.cmulk 3 0 0 3) cipherDemo)).me.cipher 3) = ⟨[0, 0x06000000], 576, 2, 1⟩
    ∧ ((after (exec (.cmulk 3 1 0 (wordI (-2))) cipherDemo)).me.cipher 3) = ⟨[0, 0xF8000000], 256, 2, 1⟩ := by decide +kernel
theorem test_cadd : ((after (exec (.cadd 3 0 1) cipherDemo)).me.cipher 3) = ⟨[0, 0x06000000], 128, 2, 1⟩
    ∧ ((after (exec (.csub 3 0 1) cipherDemo)).me.cipher 3) = ⟨[0, 0xFE000000], 128, 2, 1⟩ := by decide +kernel
/-- R197: a word above the ceiling raises NOISE (code 6) with the word. -/
theorem test_cadd_noise : let t := (after (exec (.cadd 3 2 2) cipherDemo)).me
    t.super.tcause = 6 ∧ t.super.tval = 3800 ∧ t.c = cipherDemo.me.c := by decide +kernel
/-- R198: noise + tag × 2^32 + dimension × 2^36. -/
theorem test_cnoise : (after (exec (.cnoise 5 0) cipherDemo)).me.rx 5 = 0x1200000040 := by decide +kernel
theorem test_cneg : ((after (exec (.cneg 3 2) cipherDemo)).me.cipher 3).words = [0xFFFFFFFD, 0xFFFFFFFB]
    ∧ ((after (exec (.caddk 3 2 0 7) cipherDemo)).me.cipher 3).words = [3, 12]
    ∧ ((after (exec (.cmov 3 2) cipherDemo)).me.cipher 3).words = [3, 5]
    ∧ ((after (exec (.czero 3 2) cipherDemo)).me.cipher 3) = ⟨[0, 0], 0, 2, 1⟩ := by decide +kernel
theorem test_cnraise : ((after (exec (.cnraise 0 5) cipherDemo)).me.cipher 0).noise = 64
    ∧ ((after (exec (.cnraise 0 9) cipherDemo)).me.super.tcause) = 6 := by decide +kernel
/-- R200: a table register whose word 7 is no p raises ILLEGAL; with one, the destination is pending. -/
theorem test_cref : (after (exec (.cref 3 0 1 2) cipherDemo)).me.super.tcause = 1
    ∧ (after (exec (.cref 3 0 1 2) (cipherDemo.modMe fun th => { th with tb := [(264 + 7, 6)] }))).me.cPend = [3] := by decide +kernel
theorem test_drove : ((after (exec (.drove 2 4) demo)).cluster 0).droves = [{ slot := 2, count := 4 }]
    ∧ (after (exec (.drove 2 4) (after (exec (.drove 2 4) demo)))).me.pc = 0x1010 := by decide +kernel
/-- R196: an image whose tag word has a nonzero reserved bit raises ILLEGAL; a legal header loads. -/
theorem test_cld : ((after (exec (.cld 3 9 0) (demo.performBytes (.thread 9) (numWrite 0x10000 8 0x0000000700020001 ++ numWrite 0x10010 8 0x0000000600000005)))).me.cipher 3)
    = ⟨[5, 6], 7, 2, 1⟩ := by decide +kernel
theorem test_cst : leNat ((after (exec (.cst 0 9 0) cipherDemo)).seeBytes 0 .cop 0x10000 8) = 0x0000004000020001 := by decide +kernel
/-- R195: a base that is no multiple of 64 raises DATAFAULT. -/
theorem test_kset : (after (exec (.kset 1 9 8) demo)).me.super.tcause = 3 := by decide +kernel
theorem test_tbld : ((demo.setTb 2 [7, 0, 8]).me.tb) = [(528, 7), (530, 8)]
    ∧ (after (exec (.tbld 2 9 0) (demo.setX 9 0x10010))).me.super.tcause = 3
    ∧ (after (exec (.tbst 2 9 0) (demo.setX 9 0x10010))).me.super.tcause = 3 := by decide +kernel

/-- R208 and the errors of a loop; R99: the signature of the example. -/
theorem test_rlopen : (after (exec (.rlopen 10 4) (demoWith { th0 with x := [(10, 2)] }))).me.rl = ⟨true, false, 4, 2, 0⟩
    ∧ (after (exec (.rlopen 0 4) demo)).me.super.tcause = 1 ∧ sig 0x42018 3 = 0x0407 := by decide +kernel
/-- R210, the example: items 0 to 7 on bins 5, 9, 5, 2, 9, 7, 2, 2 admit 0, 1, 3 and 5. -/
theorem test_admission : (admitPosts 4096 [] (sortPosts ([(4, 9), (5, 7), (6, 2), (7, 2), (0, 5), (1, 9), (2, 5), (3, 2)].map fun p =>
    { item := wordN p.1, tid := p.1 / 4, elem := p.1 % 4, sig := sig (wordN (0x10000 + 8 * p.2)) 3 }))).map (·.item) = [0, 1, 3, 5] := by
  decide +kernel
theorem test_claim : ((after (exec (.claim 1 8 9 none) (demoWith { vecTh 0x000A 2 64 [(8, [0x40, 0x80])] with
      blk := none, rl := ⟨true, false, 3, 1, 0⟩ }))).cluster 0).fold.posts.map (fun p => (p.item, p.elem, p.sig))
    = [(0x10000, 0, 8), (0x10001, 1, 16)] := by decide +kernel
theorem test_claimdone : (after (exec .claimdone (demoWith { th0 with rl := ⟨true, true, 3, 1, 0⟩ }))).me.rl.posted = false
    ∧ (after (exec .claimdone demo)).me.super.tcause = 0x0A ∧ (after (exec .rlclose demo)).me.super.tcause = 0x0A := by decide +kernel

/-- The example of R213: bank 30 takes ring q0 of two banks, one 128-byte unit a slot, two consumers. -/
theorem test_bankcfg : let t := after (exec (.bankcfg 10) (demoWith { th0 with x := [(10, 0x0201105E)] }))
    (t.cluster 0).ring 0 = some { bank := 30, nb := 2, ss := 1, cursors := [0, 0] } ∧ (t.cluster 0).mode 31 = .fifo := by decide +kernel
/-- A ring of one bank with slots of 128 bytes and one consumer. -/
def ringDemo (push : Nat) : State := demo.modCluster 0 fun c => { c with rings := [(3, { bank := 4, nb := 1, ss := 1, push := push, cursors := [1] })] }
/-- R214: window address and sequence number of the slot at the cursor; a pop beyond the pushes raises RINGSEQ (code 0x0B). -/
theorem test_rpeek : (after (exec (.rpeek 5 3 0 false) (ringDemo 2))).me.rx 5 = 0x00FFFF0000080080
    ∧ (after (exec (.rpeek 5 3 0 true) (ringDemo 2))).me.rx 5 = 1 := by decide +kernel
theorem test_rpop : ((after (exec (.rpop 3 0) (ringDemo 2))).cluster 0).ring 3 = some { bank := 4, nb := 1, ss := 1, push := 2, cursors := [2] }
    ∧ (after (exec (.rpop 3 0) (ringDemo 1))).me.super.tcause = 0x0B := by decide +kernel
theorem test_rpush : ((after (exec (.rpush 3 9 0) (ringDemo 1))).cluster 0).ring 3 = some { bank := 4, nb := 1, ss := 1, push := 2, cursors := [1] }
    ∧ (after (exec (.rpush 3 9 0) (ringDemo 1025))).me.holds = .ring 3 false := by decide +kernel

/-- R215: a `BAR` of one thread passes; a count of 0 raises ILLEGAL. -/
theorem test_bar : (after (exec (.bar .clu 10 0) (demoWith { th0 with x := [(10, 1)] }))).me.pc = 0x1010
    ∧ (after (exec (.bar .clu 0 0) demo)).me.super.tcause = 1 := by decide +kernel
/-- R215, R233: a `FENCE` performs the pending writes; a `HEDGE` from CT to VLS those that a later VLS access meets, and it
does not hold back an access on another path. -/
theorem test_fence : let s := after (exec (.st .n8 .plain .dflt 6 9 0) demo)
    let h := after (exec (.hedge 1 2) s)
    s.byte 0x10000 = 0 ∧ (after (exec (.fence .sc .dflt) s)).byte 0x10000 = 7 ∧ (h.before 0 .vls).byte 0x10000 = 7
      ∧ (h.before 0 .arr).byte 0x10000 = 0 ∧ ((after (exec (.hedge 2 1) s)).before 0 .ct).byte 0x10000 = 0 := by decide +kernel
theorem test_waitm : (after (exec (.waitm .eq 5 9 0 0) demo)).me.pc = 0x1010
    ∧ (after (exec (.waitm .ne 5 9 0 0) demo)).me.waitm = some ⟨.ne, 5, 0x10000, 0⟩ := by decide +kernel
/-- R216: the upper half of the lanes goes to the child on context 1. -/
theorem test_tfork : let t := after (exec (.tfork 5 9 64) demo)
    t.me.rx 5 = 1 ∧ t.me.grant = 0x30 ∧ (t.thread 1).grant = 0x38 ∧ (t.thread 1).pc = 0x1040 ∧ (t.thread 1).rx 2 = 0x10000 := by decide +kernel
theorem test_tjoin : (after (exec (.tjoin 6) demo)).me.super.tcause = 1
    ∧ (after (exec (.tjoin 10) { demo with threads := [(0, { th0 with grant := 0x30, children := [1], x := [(10, 1)] }), (1, { run := .joinable, grant := 0x38 })] })).me.grant
      = 0x40 := by decide +kernel
theorem test_end : (after (exec .endTask demo)).me.run = .ending
    ∧ (after (exec (.endTakesEffect 0) (after (exec .endTask demo)))).thread 0 = {} := by decide +kernel

/-- R218: the first node of core 0 has ordinal 1 and id 1. -/
theorem test_cpy : let t := after (exec (.cpy false false 5 9 9 6) demo)
    t.me.rx 5 = 1 ∧ (mapFind (t.core 0).nodes 1).map (·.op) = some (.cpy 0x10000 0x10000 7) := by decide +kernel
theorem test_cpy2d : (after (exec (.cpy2d false false 5 9 9 6 0 0 0) demo)).me.super.tcause = 1
    ∧ (after (exec (.cpyg false true 5 9 9 6 128 6 false) demo)).me.super.tcause = 0x0B
    ∧ (after (exec (.gnode true 5 9) demo)).me.rx 5 = 1 := by decide +kernel
/-- R218, R220: a launched copy of seven bytes writes them when its reads have returned. -/
theorem test_copy_runs : let s := demo.modCore 0 fun c => { c with nodes := [(1, { op := .cpy 0x20000 0x10000 2, st := .launched, rows := [(0x20000, 2)], data := [(0, [5, 6])] })] }
    let t := after (exec (.copyNodeFinish 0 1) s)
    t.byte 0x20001 = 6 ∧ (t.core 0).nodes = [] := by decide +kernel
theorem test_glink : let s := after (exec (.gnode true 5 9) demo)
    (mapFind ((after (exec (.glink 0 5) s)).core 0).nodes 1).map (·.preds) = some 0 ∧ (after (exec (.glink 0 6) s)).me.super.tcause = 1 := by decide +kernel
theorem test_gwait : (after (exec (.gwait 5) (after (exec (.gnode true 5 9) demo)))).me.holds = .node 1
    ∧ (after (exec (.gwait 6) demo)).me.super.tcause = 1 := by decide +kernel

/-- R23, R24: `grant` is read-only, and a supervisor register raises PROT (code 4) in user mode. -/
theorem test_mfs : (after (exec (.mfs 5 5) demo)).me.rx 5 = 0x40 ∧ (after (exec (.mfs 5 0x26) demo)).me.super.tcause = 4
    ∧ (after (exec (.mfs 5 8) demo)).me.super.tcause = 1 := by decide +kernel
theorem test_mts : (after (exec (.mts 0x25 9) demo)).me.tvec = 0x10000 ∧ (after (exec (.mts 5 9) demo)).me.super.tcause = 1
    ∧ (after (exec (.mts 0 9) demo)).me.vl = 512 := by decide +kernel
/-- R336: PM is the mode returned to; outside a handler PROT. -/
theorem test_eret : (after (exec .eret (demoWith { th0 with sup := true, super := ⟨0x3000, 0, 0, 0⟩ }))).me.pc = 0x3000
    ∧ (after (exec .eret demo)).me.super.tcause = 4 := by decide +kernel
theorem test_halt : (after (exec .halt (demoWith { th0 with sup := true }))).me.run = .halted ∧ (after (exec .halt demo)).me.super.tcause = 4 := by
  decide +kernel
theorem test_tlbinv : ((after (exec (.tlbinv .dflt 9 0 true) (demoWith { th0 with sup := true }))).core 0).tlb = []
    ∧ ((after (exec (.tlbinv .dflt 9 6 true) (demoWith { th0 with sup := true }))).core 0).tlb.length = 1 := by decide +kernel
theorem test_cflush : (after (exec (.cflush .dflt 9 0 6) demo)).me.pc = 0x1010 ∧ (after (exec (.cpin 9 0) demo)).me.pc = 0x1010
    ∧ (after (exec (.cunpin 9 0) demo)).me.pc = 0x1010 := by decide +kernel
/-- R222: without a region that can be the target the launch raises PROT. -/
theorem test_spawn : (after (exec (.spawn 5 9 6) (demoWith { th0 with region := some { id := 3 } }))).me.super.tcause = 4 := by decide +kernel

/-! ### Events -/

/-- R327, R341: a task over its limit is stopped at its next instruction with WATCHDOG (code 0x0E). -/
theorem test_watchdog : let s := demoWith { th0 with task := some 1, used := 9, region := some { cycleLimit := 9 } }
    (after (exec .nop (after (exec (.watchdog 0 0) s)))).me.super = ⟨0x1010, 0x0E, 9, 0⟩ := by decide +kernel
/-- R289's example: entry 5 XOR-folds 16 slices from 32 on. -/
theorem test_slice_fold : rangeSlice (wordN (1 * 2 ^ 60 + 16 * 2 ^ 40 + 32 * 2 ^ 32)) 0x100004880 = 42 := by decide +kernel
/-- R371: a claim under the current epoch, then a heartbeat of another master is logged. -/
theorem test_ownclaim : let t := after (exec (.ownclaim 1 0) demo)
    t.hub.valid = true ∧ t.hub.owner = 1 ∧ t.hub.epoch = 1 ∧ (after (exec (.heartbeat 2 0x100000000) t)).hub.rasCount = 1 := by decide +kernel
/-- R385: a threshold below 64 becomes 64. -/
theorem test_channel : ((after (exec (.channelConfigWrite 1 .a 3 5) (after (exec (.ownclaim 1 0) demo)))).dieA.channel 3).thr = 64 := by decide +kernel
/-- R383: at most 8 refreshes are owed. -/
theorem test_refresh : ((after (exec (.perBankRefresh .a 0 0 true) ({ demo with dieA := { channels := [(0, { banks := [(0, { owed := 8 })] })] } }))).bank .a 0 0).owed = 8 := by
  decide +kernel
theorem test_memory_error : let t := after (exec (.memoryError 0x10003 true) demo)
    t.poisoned 0x10000 = true ∧ t.poisoned 0x10008 = false ∧ (mapFind t.hub.ras 0).map (·.code) = some 4 := by decide +kernel
/-- R382: without an access entry the reader is refused. -/
theorem test_remote_read : (after (exec (.remoteRead 0 5 0 64 []) demo)).out = [.remoteRefused 0 5 0] := by decide +kernel
theorem test_cxl : (after (exec (.cxlMemRead 0x10000 2) demo)).out = [.cxlData 0x10000 (some [0, 0])] := by decide +kernel
/-- R368: a reset zeroes the package's memory and forgets the owner, and every context is free. -/
theorem test_reset : let t := after (exec (.reset { slotA := none, slotB := none }) (demo.performBytes (.thread 9) (numWrite 0x10000 1 5)))
    t.byte 0x10000 = 0 ∧ t.me.run = .free ∧ t.hub.recovery = true ∧ t.hub.wiping = true := by decide +kernel
theorem test_version : (after (exec (.unsupportedRequest 0) demo)).out = [.spdm 0x7F [7]] := by decide +kernel
/-- A step runs the word at the pc: the word of `add x5, x6, x7` placed for the next step. -/
theorem test_step : (match step ((State.reset.withFetchWord 128 0x718510).modMe fun th => { th with x := [(6, 2), (7, 3)] }) with
    | .next t => t.me.rx 5 == 5 && t.me.pc == 0x200010
    | _ => false) = true := by decide +kernel


/-! ## A state and operands for every statement with hypotheses

One theorem for each statement of Sys2Proof/Certificates/Slice0/Obligations.lean, with a case for each of its clauses. -/

/-- A thread ready to issue: nothing diverts it and it may use its vector state. -/
theorem wit_clean : demo.me.clean = true ∧ demo.me.hasVector = true ∧ demo.me.pendGrant = none ∧ demo.me.waitm = none
    ∧ demo.me.pend = [] ∧ demo.poison = [] ∧ demo.old = [] ∧ demo.me.holds = .nothing ∧ demo.me.grantOk = true
    ∧ demo.me.blk = none ∧ demo.cur < 512 ∧ demo.me.va = false := by decide +kernel

theorem wit_EncodeDecode : (Instr.strip 5 8 9 63 0 0x80 0x7F 1 0 (wordI (-16))).wf = true
    ∧ (encode (.strip 5 8 9 63 0 0x80 0x7F 1 0 (wordI (-16)))).isSome = true := by decide +kernel

theorem wit_DecodeEncode : (decodeC 0x718510).toOption = some (.add 5 6 7) ∧ isDOp ((0x718510 : BitVec 128).setWidth 8) = false
    ∧ (decodeD 0x00000000000000000000040400000908FFFFFFFFFFFFFFC000000000000005C0).toOption = some (.strip 5 8 9 0 0 4 4 0 0 (wordI (-64)))
    ∧ isDOp ((0x00000000000000000000040400000908FFFFFFFFFFFFFFC000000000000005C0 : BitVec 256).setWidth 8) = true
    ∧ (encode (.vnop {})).all (fun c => match c with | .e w => (decodeE w).toOption == some (.vnop {}) | _ => false) = true
    ∧ (encode (.vnop {})).isSome = true := by
  decide +kernel

/-- The word of `add x5, x6, x7` at 0x1000 and the E-word of `vnop` at 0x2000. -/
def codeAt : State := { demo.performBytes (.thread 9) (numWrite 0x1000 3 0x718510
  ++ numWrite 0x2000 8 (match encode (.vnop {}) with | some (.e w) => w.toNat | _ => 1)) with old := [] }

theorem wit_StepRuns : codeAt.turns = [] ∧ codeAt.cluRuns (cluOf codeAt.cur) = true ∧ codeAt.me.run = .ready
    ∧ codeAt.fetchCtl.2 = .instr (.add 5 6 7) := by decide +kernel
theorem wit_StepRunsBlock : let b : Block := { vf := 0x1000, epc := 0x2000, start := 0x2000, group := [0] }
    let s := codeAt.modMe fun th => { th with vl := 1, blk := some b }
    s.turns = [] ∧ s.me.run = .ready ∧ s.me.blk = some b ∧ (s.fetchBlk b).2 = .instr (.vnop {}) := by decide +kernel
theorem wit_FetchReads : aligned16 codeAt.me.pc = true ∧ codeAt.poison = [] ∧ codeAt.old = []
    ∧ (match codeAt.xlate (codeAt.ctxOf codeAt.cur) .fetch codeAt.me.pc with
      | .ok p => p.pa == 0x1000 && p.pa % 8 == 0 && !isDOp (codeAt.byte p.pa)
      | .error _ => false) = true := by decide +kernel

/-- The outcome is a next state. -/
def goesOn (o : Host.Outcome State Fault Refusal) : Bool := match o with | .next _ => true | _ => false

theorem wit_StepKeepsMemoryForm : Memory.wf codeAt.mem = true ∧ codeAt.mem ≠ [] ∧ goesOn (step codeAt) = true := by decide +kernel

theorem wit_IntegerResult : (Instr.bfx 5 6 63 1).wf = true ∧ intResult demo.me (.bfx 5 6 63 1) = some (5, 0)
    ∧ (Instr.add 0 5 6).wf = true ∧ intResult demo.me (.add 0 5 6) = some (0, 47) := by decide +kernel
theorem wit_DivisionCorners : let s := demo.setX 10 0x8000000000000000
    s.me.clean = true ∧ s.me.rx 0 = 0 ∧ s.me.rx 10 = 0x8000000000000000
      ∧ ((s.setX 11 0xFFFFFFFFFFFFFFFF).me.rx 11 = 0xFFFFFFFFFFFFFFFF ∧ (s.setX 11 0xFFFFFFFFFFFFFFFF).me.rx 10 = 0x8000000000000000) := by
  decide +kernel
theorem wit_FloatResult : (floatResult demo.me (.fadd .f32 5 6 7)).isSome = true ∧ (floatResult demo.me (.fcvt .f64 .s8 5 7)).isSome = true := by
  decide +kernel
theorem wit_SlhashResult : inWindow (demo.me.rx 8 + 0).toNat = true ∧ inWindow (demo.me.rx 9 + 0).toNat = false
    ∧ (demo.me.rx 9 + 0).toNat < 2 ^ 56
    ∧ (match demo.lookup (demo.ctxOf demo.cur) (demo.me.rx 9 + 0).toNat with | .leaf _ _ => true | _ => false) = true := by decide +kernel

/-- The access answers data. -/
def reads (r : State × Except (Cause × Word) Nat) : Bool := r.2.toOption.isSome
/-- The translation answers an address of HBM4. -/
def inHbm (s : State) (acc : Acc) (va : Word) : Bool :=
  match s.xlate (s.ctxOf s.cur) acc va with | .ok p => s.physRow p.pa == .hbm | .error _ => false

theorem wit_LoadResult : Ty.ldOk .s16 = true ∧ (demo.me.rx 9 + 2).toNat % (Ty.s16.width / 8) = 0
    ∧ reads ((ldBefore demo .sc .sys).load .ct (demo.me.rx 9 + 2) (Ty.s16.width / 8)) = true
    ∧ reads ((ldBefore demo .plain .dflt).load .ct (demo.me.rx 8 + 0x1FFFF8 - 0x1000) 8) = true := by decide +kernel
theorem wit_StoreResult : inHbm demo .write (demo.me.rx 9 + 0x3FFF0000 - 8) = true ∧ (demo.me.rx 9 + 0x3FFF0000 - 8).toNat % 8 = 0
    ∧ (let s := demo.modMe fun th => { th with pend := [{ path := .ct, bytes := [(0x10000, 1, 0xFF)] }] }
       ∃ w ∈ s.me.pend, w.path = .ct ∨ w.path = .vls) := by decide +kernel
theorem wit_RangeStore : (0x1FFFE : Word).toNat % 65536 + 2 ≤ 65536 ∧ inHbm demo .write 0x1FFFE = true := by decide +kernel
theorem wit_PerformWrite : let w : PendW := { path := .ct, bytes := [(0x10000, 1, 0xFF)] }
    let s := demo.modMe fun th => { th with pend := [{ path := .vls, bytes := [(0x10008, 1, 0xFF)] }, w] }
    (s.thread 0).pend[1]? = some w ∧ ((s.thread 0).pend.take 1).any (fun p => p.blocks w) = false := by decide +kernel
theorem wit_AtomicResult : Ty.amoOk .n64 = true ∧ AmoOp.tyOk .max .n64 = true ∧ (demo.me.rx 9 + 8).toNat % (Ty.n64.width / 8) = 0
    ∧ inHbm demo .rmw (demo.me.rx 9 + 8) = true := by decide +kernel
theorem wit_MisalignedScalar : (demo.me.rx 9 + 1).toNat % (Ty.s16.width / 8) ≠ 0 := by decide +kernel

theorem wit_BranchResult : branchOf demo.me (.bz 5 (wordI (-16))) = some (false, wordI (-16))
    ∧ branchOf demo.me (.bcc .lt 7 6 32) = some (true, 32) := by decide +kernel
theorem wit_JumpRegister : demo.me.rx 9 &&& 0xF = 0 ∧ demo.me.rx 5 &&& 0xF ≠ 0 := by decide +kernel

/-- Tables of jump targets at 0x10000: aligned, misaligned. -/
def tableAt : State := demo.performBytes (.thread 9) (numWrite 0x10000 8 0x5550 ++ numWrite 0x10008 8 0x5551)
theorem wit_TableJump : let s := tableAt.setX 10 1
    (s.me.rx 10).toNat ≤ (s.me.rx 10).toNat ∧ (s.me.rx 0).toNat < (s.me.rx 10).toNat ∧ (s.me.rx 9 + 8 * s.me.rx 0).toNat % 8 = 0
      ∧ (s.load .ct (s.me.rx 9 + 8 * s.me.rx 0) 8).2.toOption = some 0x5550 ∧ aligned16 (wordN 0x5550) = true
      ∧ (s.me.rx 10).toNat < (s.me.rx 6).toNat ∧ (s.load .ct (s.me.rx 9 + 8 * s.me.rx 10) 8).2.toOption = some 0x5551
      ∧ aligned16 (wordN 0x5551) = false := by decide +kernel
theorem wit_TableJump_traps : let s := (demo.setX 10 1).setX 11 0x40000001
    (s.me.rx 0).toNat < (s.me.rx 10).toNat ∧ (s.me.rx 11 + 8 * s.me.rx 0).toNat % 8 ≠ 0
      ∧ (s.me.rx 10).toNat < (s.me.rx 6).toNat ∧ ((s.setX 11 0x40000000).me.rx 11 + 8 * s.me.rx 0).toNat % 8 = 0
      ∧ (match ((s.setX 11 0x40000000).load .ct (0x40000000 + 8 * s.me.rx 0) 8).2 with | .error _ => true | .ok _ => false) = true := by
  decide +kernel
theorem wit_CallResult : aligned16 (demo.me.pc + 0x100) = true ∧ aligned16 (demo.me.rx 9) = true ∧ aligned16 (demo.me.rx 2) = true
    ∧ (let sp := demo.me.rx 2 - 16
       let r1 := demo.store .ct false sp 8 (demo.me.pc + 16).toNat
       let r2 := r1.1.store .ct false (sp + 8) 8 demo.me.vsw.toNat
       r1.2 = none ∧ r2.2 = none ∧ r2.1.me.clean = true) := by decide +kernel
/-- Frames at the stack pointer: legal, with a misaligned return address, with an illegal vsw. -/
def frame (ra v : Nat) : State := demo.performBytes (.thread 9) (numWrite 0x4000 8 ra ++ numWrite 0x4008 8 v)
theorem wit_ReturnResult :
    [(0x5550, 0x24000003), (0x5551, 0x24000003), (0x5550, 0x0F00000000000000)].all (fun p =>
      ((frame p.1 p.2).load .ct ((frame p.1 p.2).me.rx 2) 8).2.toOption == some p.1
        && (((frame p.1 p.2).load .ct ((frame p.1 p.2).me.rx 2) 8).1.load .ct ((frame p.1 p.2).me.rx 2 + 8) 8).2.toOption == some p.2) = true
    ∧ aligned16 (wordN 0x5550) = true ∧ legalVsw (wordN 0x24000003) = true ∧ aligned16 (wordN 0x5551) = false
    ∧ legalVsw (wordN 0x0F00000000000000) = false := by decide +kernel

/-! ### Vector control and vector memory -/

theorem wit_SetvlResult : let s := demoWith { th0 with vtype := 0x0182, grant := 0x10, x := [(10, 100)] }
    s.me.clean = true ∧ s.me.hasVector = true ∧ s.me.pendGrant = none ∧ s.me.mvl = 256
      ∧ ¬ s.me.mvl ≤ (s.me.rx 10).toNat ∧ vtBlk s.me.vtype = 32 ∧ ¬ (s.me.rx 10).toNat < 32 ∧ demo.me.mvl ≤ (demo.me.rx 9).toNat := by
  decide +kernel
/-- Another strip follows; the last strip; x5 is both the count and a pointer's base in neither. -/
theorem wit_StripResult : let s := demoWith { th0 with vl := 39 }
    let s' := demoWith { th0 with vl := 40 }
    s.me.clean = true ∧ s.me.hasVector = true ∧ s.me.pendGrant = none ∧ 0 < sval (s.me.rx 5 - wordN s.me.vl)
      ∧ s'.me.clean = true ∧ sval (s'.me.rx 5 - wordN s'.me.vl) ≤ 0 := by decide +kernel
theorem wit_VectorControlResult : vtOk 0x0182 = true ∧ vtOk ((demo.me.rx 5).setWidth 16) = false ∧ vtOk 0xFFFF = false
    ∧ demo.me.regOk 31 demo.me.ew = true ∧ (let s := demoWith { th0 with vl := 4 }
      ¬ s.me.vl ≤ (s.me.rx 0 + 3).toNat ∧ s.me.vl ≤ (s.me.rx 0 + 4).toNat) := by decide +kernel

/-- The write succeeds and stores no register error. -/
def wrote (r : State × Option (Cause × Word)) : Bool := r.2.isNone && r.1.me.clean

theorem wit_VectorRecordResult : (demo.me.rx 9 + 0).toNat % 64 = 0 ∧ (demo.me.rx 9 + 63).toNat % 64 ≠ 0
    ∧ wrote (demo.writeRangeAt (demo.ctxOf demo.cur) .write .ct none false (demo.me.rx 9)
        (([demo.me.vsw, 0, 0, 0, 0, 0, 0, 0].flatMap fun w => leBytes 8 w.toNat).map fun b => (b, 0xFF))) = true
    ∧ (match (demo.readRange (demo.ctxOf demo.cur) .ct (demo.me.rx 9) 64).2 with
      | .ok bs => legalVsw (wordN (leNat (bs.take 8)))
      | .error _ => false) = true
    ∧ (let s := demo.performBytes (.thread 9) (numWrite 0x10000 8 0x0F00000000000000)
       match (s.readRange (s.ctxOf s.cur) .ct (s.me.rx 9) 64).2 with
       | .ok bs => !legalVsw (wordN (leNat (bs.take 8)))
       | .error _ => false) = true := by decide +kernel

/-- Four bytes at 0x10000 in n8, a stored register of three. -/
def loadS : State := (demoWith { vecTh 0x000A 3 8 [(1, [7, 8, 9]), (2, [5, 0, 5])] with blk := none }).performBytes (.thread 9)
  (numWrite 0x10000 4 0x04030201)
/-- The elements of a load from a state. -/
def loadRun (s : State) (i : Instr) : Option (Option (Nat × Cause × Word)) :=
  (loadForm s i).map fun f =>
    (runElems (loadOne f) (performed s.me f.gov) ((s.modMe fun th => th.dirty f.vd th.ew).chargeVec s.me.ew)).2

theorem wit_VectorLoadResult : loadS.me.clean = true ∧ loadS.me.hasVector = true
    ∧ loadRun loadS (.vld none .plain 1 9 0 none) = some none
    ∧ loadRun loadS (.vlds none .plain 1 9 6 0 (some 0)) = some none
    ∧ loadRun loadS (.vldx none .plain 1 9 2 0 0 0 none) = some none
    ∧ loadRun (loadS.setX 10 0x3FFFFFFE) (.vld none .plain 1 10 0 none) = some (some (2, .datafault, 0x40000000)) := by decide +kernel

/-- The elements of a store from a state. -/
def storeRun (s : State) (i : Instr) : Option (State × Option (Nat × Cause × Word)) :=
  (storeForm s i).map fun f =>
    runElems (storeOne f.1 (if f.2 = .u then none else some s.stamp) (if unitStore i then s.stamp + 1 else 0)) (performed s.me f.1.gov)
      (({ s with stamp := s.stamp + 1 } : State).chargeVec s.me.ew)


theorem wit_VectorStoreResult : [Instr.vst none .plain 1 9 0 none, .vst none .u 1 9 0 (some 0), .vsts none .plain 1 9 6 0 none,
      .vstx none .u 1 9 2 0 0 0 none].all (fun i => (storeRun loadS i).any fun r => r.2.isNone && r.1.me.clean) = true
    ∧ (storeRun (loadS.setX 10 0x3FFFFFFE) (.vst none .plain 1 10 0 none)).map (·.2) = some (some (2, .datafault, 0x40000000)) := by
  decide +kernel
/-- The stores of both elements stay within a page of HBM4. -/
theorem wit_VectorStoreResult_kept : let s := loadS.modMe fun th => { th with vl := 2 }
    performed s.me none = [0, 1] ∧ (storeForm s (.vst none .plain 1 9 0 none)).any (fun f =>
      [[], [0]].all fun l =>
        let s' := (runElems (storeOne f.1 (some s.stamp) (s.stamp + 1)) l (({ s with stamp := s.stamp + 1 } : State).chargeVec s.me.ew)).1
        inHbm s' .write (f.1.addr l.length).1 && (f.1.addr l.length).1.toNat % 65536 + 1 ≤ 65536) = true := by decide +kernel

theorem wit_ElementWrite : demo.me.grantOk = true ∧ demo.me.vPoison = [] ∧ demo.me.mvl = 512 ∧ (511 < 512)
    ∧ (511 % 128 / 8 < grantBase (0x30 : BitVec 7) ∨ grantBase (0x30 : BitVec 7) + grantLanes (0x30 : BitVec 7) ≤ 511 % 128 / 8) := by
  decide +kernel

/-- A first-fault load: no fault, a fault at the first element, a fault at the second. -/
def ffS (a : Word) : State := (loadS.setX 10 a).modMe fun th => { th with vl := 2 }
/-- The faults that the elements of a first-fault load meet before it starts. -/
def ffBad (s : State) : List (Option (Cause × Word)) :=
  let s1 := (s.modMe fun th => th.dirty 1 th.ew).chargeVec s.me.ew
  match loadForm s (.vld none .plain 1 10 0 none) with
  | some f => (performed s.me none).map fun e => (s1.pieces (s1.ctxOf s1.cur) .read (f.addr e).1 (((f.addr e).2 + f.t.memWidth + 7) / 8)).2
  | none => []
theorem wit_FirstFaultLoad : ffBad (ffS 0x10000) = [none, none] ∧ loadRun (ffS 0x10000) (.vld none .plain 1 10 0 none) = some none
    ∧ ffBad (ffS 0x40000000) = [some (.datafault, 0x40000000), some (.datafault, 0x40000001)]
    ∧ ffBad (ffS 0x3FFFFFFF) = [none, some (.datafault, 0x40000000)]
    ∧ loadRun ((ffS 0x3FFFFFFF).modMe fun th => { th with vl := 1 }) (.vld none .plain 1 10 0 none) = some none := by decide +kernel

/-- Two n32 elements that name one address, and two that name none. -/
def vamoS (a : Word) : State := demoWith { vecTh 0x0014 2 32 [(1, [3, 4]), (2, [0, 0])] with blk := none, x := [(9, a)] }
/-- The form of the atomic. -/
def vamoF (s : State) : Option VForm := vform s.me none 1 none false fun t e =>
  (s.me.rx 9 + 0 + wordI (sx (idxWidth t 0) (s.me.elem 2 (idxWidth t 0) e)) * wordN (t.width / 8), 0)
theorem wit_VectorAtomicResult : (vamoS 0x10000).me.clean = true ∧ (vamoS 0x10000).me.pend = [] ∧ (vamoS 0x10000).poison = []
    ∧ (vamoF (vamoS 0x10000)).any (fun f => (vamoS 0x10000).me.regOk 2 (idxWidth f.t 0) && vamoOk .add f.t
      && match vamoPlaces (vamoS 0x10000) f.t f.addr (performed (vamoS 0x10000).me none) with
        | .ok ps => ps.length == 2 && ps.all fun p => (vamoS 0x10000).physRow p.2.place.pa == .hbm
        | .error _ => false) = true
    ∧ (vamoF (vamoS 0x40000000)).any (fun f =>
      match vamoPlaces (vamoS 0x40000000) f.t f.addr (performed (vamoS 0x40000000).me none) with
      | .ok _ => false
      | .error x => x.1 == 0) = true := by decide +kernel

theorem wit_MaskMemoryResult : let s := demoWith { th0 with vl := 9, vstart := 1, m := [(8193, true)] }
    let get := fun (s' : State) b =>
      let r := s'.load .vls (s.me.rx 9 + wordN b) 1
      match r.2 with
      | .ok x => (r.1.modMe fun th => th.setMbits 1 ((maskBits s.me b).map fun e => (e, x.testBit (e % 8))), none)
      | .error c => (r.1, some c)
    let put := fun (s' : State) b => s'.writeRangeAt (s'.ctxOf s'.cur) .write .vls (some s.stamp) false (s.me.rx 9 + wordN b)
      [s'.me.maskByte 1 b s.me.vl] s'.stamp
    let w := runElems put (maskSpan s.me) (({ s with stamp := s.stamp + 1 } : State).chargeVec 1)
    maskSpan s.me = [0, 1] ∧ (runElems get (maskSpan s.me) (s.chargeVec 1)).2 = none ∧ w.2 = none
      ∧ w.1.me = { s.me with pend := w.1.me.pend, vt := w.1.me.vt } := by decide +kernel

/-- A register of three n8 elements, spilled to 0x10000, and a frame there of two elements or with another type. -/
def fillS (v : Nat) : State := (loadS.performBytes (.thread 9) (numWrite 0x10000 8 v ++ numWrite 0x10010 2 0x0605))
theorem wit_SpillResult : let s := loadS
    let f := frameForm s.me 1 (s.me.rx 9)
    let put := fun (s' : State) va bs => s'.writeRangeAt (s.ctxOf s.cur) .write .vls (some s.stamp) false va bs (s.stamp + 1)
    let h := put (({ s with stamp := s.stamp + 1 } : State).chargeVec s.me.ew) (s.me.rx 9)
      ((leBytes 8 s.me.vsw.toNat ++ leBytes 8 0).map fun b => (b, 0xFF))
    let r := runElems (storeOne f (some s.stamp) (s.stamp + 1)) ((List.range 3).filter fun e => decide (s.me.vstart.toNat ≤ e)) h.1
    let z := put r.1 (s.me.rx 9 + 16 + wordN (3 * f.t.width / 8)) (framePad 3 f.t.width)
    s.me.regOk 1 s.me.ew = true ∧ aligned16 (s.me.rx 9 + 0) = true ∧ min s.me.vl s.me.mvl = 3 ∧ h.2 = none ∧ r.2 = none
      ∧ h.1.me = { s.me with pend := h.1.me.pend, vt := h.1.me.vt } ∧ z.1.me = { s.me with pend := z.1.me.pend, vt := z.1.me.vt } := by
  decide +kernel
theorem wit_FillResult : let s := fillS 0x0A000002
    let vt : BitVec 16 := (wordN 0x0A000002).extractLsb' 24 16
    ((s.load .vls (s.me.rx 9) 8).2.toOption = some 0x0A000002 ∧ legalVsw (wordN 0x0A000002) = true
      ∧ vtEwCode vt = vtEwCode s.me.vtype ∧ vtFmt vt = vtFmt s.me.vtype ∧ vtGrp vt = vtGrp s.me.vtype ∧ s.me.grantOk = true)
    ∧ ((fillS 0x24000002).load .vls ((fillS 0x24000002).me.rx 9) 8).2.toOption = some 0x24000002
    ∧ vtEwCode ((wordN 0x24000002).extractLsb' 24 16) ≠ vtEwCode s.me.vtype := by decide +kernel
theorem wit_FillRun : let s := fillS 0x0A000002
    (runElems (fillOne s.me.vTy (frameForm s.me 1 (s.me.rx 9))) [0, 1]
      (((s.load .vls (s.me.rx 9) 8).1.modMe fun th => th.dirty 1 th.ew).chargeVec s.me.ew)).2 = none := by decide +kernel

/-! ### Blocks -/

/-- A thread whose block runs at 0x2000. -/
def blkS : State := demoWith (vecTh 0x0002 3 8 [(1, [0x80, 1, 5]), (3, [1, 1, 4])])
/-- The same under f32. -/
def blkF : State := demoWith (vecTh 0x0024 3 32 [(1, [0x3F800000, 1, 5]), (3, [1, 1, 4])])
/-- The block of these states. -/
def blkB : Block := { vf := 0x1000, epc := 0x2000, start := 0x2000, group := [0, 1, 2] }

theorem wit_VectorFetchResult : let s := demoWith { th0 with vl := 3 }
    demo.me.vl = 0 ∧ demo.me.vr = false ∧ 0 < s.me.vl ∧ s.me.vr = false
      ∧ (let r := demoWith { th0 with vl := 3, tstatus := 2, super := ⟨0x1000, 8, 0x2008, 0⟩, resume := some 0x2008 }
         0 < r.me.vl ∧ r.me.vr = true ∧ r.me.super.tpc = r.me.pc ∧ r.me.clean = true) := by decide +kernel

/-- The row exists and is legal, and no ternary byte stops it. -/
def rowRuns (s : State) (i : Instr) : Bool :=
  s.me.blk == some blkB && s.me.clean && (eRow s.me blkB i).any (fun r => r.legal s.me) && (badTrit s.me blkB i).isNone
theorem wit_EwordResult : rowRuns blkS (.vadd { vd := 2, va := 1, vb := 3 }) = true ∧ rowRuns blkS (.vwadd { vd := 4, va := 1, vb := 3 }) = true
    ∧ rowRuns blkF (.vfadd { vd := 2, va := 1, vb := 3 }) = true ∧ rowRuns blkF (.vcvt { vd := 2, va := 1, f := 15 }) = true := by
  decide +kernel
theorem wit_EwordTraps : (eRow blkS.me blkB (.vfadd { vd := 2, va := 1, vb := 3 })).any (fun r => !r.legal blkS.me) = true
    ∧ (let s := demoWith (vecTh 0x0002 3 8 [(1, [0xFF, 1, 5])])
       (eRow s.me blkB (.vtunpk { vd := 2, va := 1 })).any (fun r => r.legal s.me) = true
         ∧ badTrit s.me blkB (.vtunpk { vd := 2, va := 1 }) = some 0) := by decide +kernel
theorem wit_EwordMaskResult : (maskRow blkS.me (.vcmp { vd := 2, va := 1, vb := 3 })).any (fun r => r.legal blkS.me) = true
    ∧ (maskRow blkS.me (.mand { vd := 2, va := 1, vb := 3 })).any (fun r => r.legal blkS.me) = true := by decide +kernel
theorem wit_EwordReduceResult : blkS.me.vl ≤ 8192 ∧ [(blkS, Instr.vredsum { vd := 2, va := 1, vb := 3 }), (blkF, .vredmax { vd := 2, va := 1, vb := 3, f := 1 })].all (fun p =>
    (reduceRow p.1.me p.2).any fun r => r.ok && [r.e.va, r.e.vb, r.e.vd].all fun v => p.1.me.regOk v (p.1.me.eTy r.e).width) = true := by
  decide +kernel
theorem wit_EwordPairResult : isF blkF.me.vTy = true ∧ ([1, 2, 3].all fun r => blkF.me.regOk r 32) = true
    ∧ (let s := demoWith (vecTh 0x0182 3 8 [])
       s.me.eTy { vd := 1, vc := 2, va := 4 } = .s8 ∧ vtBlk s.me.vtype ≠ 0 ∧ (8 : Nat) = s.me.ew ∧ s.me.regOk 4 32 = true
         ∧ s.me.regOk 1 8 = true ∧ s.me.regOk 2 8 = true ∧ s.me.meet 1 8 2 8 = false ∧ s.me.meet 1 8 4 32 = false
         ∧ s.me.meet 2 8 4 32 = false) := by decide +kernel
/-- A `vpfetch` of some VPs by a mask, to an aligned target; an indirect one whose second target is misaligned. -/
theorem wit_BlockControlResult : blkB.group ≠ []
    ∧ (let s := demoWith { vecTh 0x0002 3 8 [] with m := [(1, true)] }
       eAct s.me blkB { mask := some 0 } ≠ blkB.group)
    ∧ (let s := demoWith (vecTh 0x0026 3 64 [(8, [0x3000, 0x3001, 0x3000])])
       s.me.regOk 8 64 = true ∧ eAct s.me blkB { va := 8 } = [0] ++ 1 :: [2] ∧ aligned16 (wordN (s.me.elem 8 64 0)) = true
         ∧ aligned16 (wordN (s.me.elem 8 64 1)) = false) := by decide +kernel

/-! ### Traps and privilege -/

/-- A thread in supervisor mode. -/
def supS : State := demoWith { th0 with sup := true }

theorem wit_BreakAndTrap : aligned16 demo.me.svec = true := by decide +kernel
theorem wit_TrapDelivery : let th := { th0 with tvec := 0x9000 }
    (th.tvec ≠ 0 ∧ th.sup = false ∧ th.uh = false ∧ aligned16 th.tvec = true) ∧ aligned16 (0x9001 : Word) = false
      ∧ aligned16 th0.svec = true ∧ Cause.illegal ≠ .noise ∧ Cause.illegal ≠ .keytag ∧ aligned16 (0x8001 : Word) = false := by decide +kernel
theorem wit_EretResult : supS.me.sup = true ∧ supS.me.clean = true
    ∧ (demoWith { th0 with tstatus := 8 }).me.uh = true ∧ (demoWith { th0 with tstatus := 8 }).me.sup = false
    ∧ demo.me.sup = false ∧ demo.me.uh = false := by decide +kernel
theorem wit_VabsentRaised : let s := demoWith { th0 with tstatus := 1 }
    s.me.va = true ∧ s.me.sup = false ∧ needsVector .ret = true ∧ needsVector (.mts 7 5) = true := by decide +kernel
theorem wit_SpecialAccessFails : (8 : BitVec 12).toNat ∉ [0, 1, 2, 3, 4, 5, 6, 7, 0x10, 0x20, 0x21, 0x22, 0x23, 0x24, 0x25, 0x26, 0x30, 0x31, 0x32, 0x33, 0x40, 0x50]
    ∧ (5 : BitVec 12).toNat ∈ [5, 6, 0x30, 0x31, 0x32, 0x33, 0x40, 0x50] ∧ demo.me.sup = false ∧ (0x20 : BitVec 12).toNat ∈ [0x20, 0x26]
    ∧ (4 : BitVec 12).toNat ∈ [4, 0x21, 0x22, 0x23, 0x24] := by decide +kernel
theorem wit_SpecialRegisterResult : specialValue demo 0x50 = some 0 ∧ supS.me.sup = true
    ∧ (specialWrite supS.me 0x20 5).isSome = true ∧ (specialWrite demo.me 0x25 5).isSome = true ∧ (0x25 ∉ [4, 0x20, 0x21, 0x22, 0x23, 0x24, 0x26])
    ∧ specialWrite demo.me 1 (demo.me.rx 5) = none ∧ specialWrite demo.me 7 (wordN (2 ^ 17)) = none := by decide +kernel
theorem wit_CacheAndHaltResult : demo.me.sup = false ∧ supS.me.sup = true
    ∧ (((demo.drain demo.cur (· == .ct)).noteSpan (demo.ctxOf demo.cur) .read (demo.me.rx 9 + 0) 7).pieces (demo.ctxOf demo.cur) .read
      (demo.me.rx 9 + 0) 7).2 = none := by decide +kernel

/-! ### The array and the bank units -/

/-- Thread 0 with tile 1 in a mode. -/
def tileS (vt : BitVec 16) (t : Tile) : State :=
  (demoWith { th0 with tiles := [1], vtype := vt, vl := 2, x := [(6, 0x10000), (8, 1), (9, 0x10000), (10, 0x300000000)] }).modCore 0 fun c =>
    { c with tiles := [(1, t)] }
/-- The read answers every byte. -/
def readsAll (s : State) (path : Path) (va : Word) (n : Nat) : Bool := (s.readRange (s.ctxOf s.cur) path va n).2.toOption.isSome

theorem wit_ArraySetup : demo.me.tiles = [] ∧ (tileS 0x24 {}).me.tiles ≠ [] ∧ (tileS 0x24 {}).me.clean = true
    ∧ (tileS 0x24 {}).me.tiles.contains (1 : AccReg).toNat = true ∧ (tileS 0x24 {}).me.tiles.contains (0 : AccReg).toNat = false
    ∧ ((tileS 0x24 {}).me.rx 9).toNat % 4 = 0 ∧ 256 / (8 * 2 ^ (3 : BitVec 2).toNat) = 4
    ∧ readsAll (tileS 0x24 {}) .arr ((tileS 0x24 {}).me.rx 9) 16 = true := by decide +kernel
/-- Scales of a torus tile: all within −128 to 127, and one of 128. -/
theorem wit_ArraySetup_scales : let s := tileS 0x24 { mode := .torus }
    let t := s.performBytes (.thread 9) (numWrite 0x10000 4 128)
    (s.readRange (s.ctxOf s.cur) .arr (s.me.rx 9) 16).2.toOption = some (List.replicate 16 0)
      ∧ (t.readRange (t.ctxOf t.cur) .arr (t.me.rx 9) 16).2.toOption = some (128 :: List.replicate 15 0)
      ∧ ¬ ((0 : BitVec 32).toInt < -128 ∨ 127 < (0 : BitVec 32).toInt) ∧ (127 < (128 : BitVec 32).toInt) := by decide +kernel
/-- The 13,312 bytes of a weight load lie in one readable page. -/
theorem wit_ArraySetup_weights : let s := tileS 0x24 {}
    (s.pieces (s.ctxOf s.cur) .read (s.me.rx 9) 13312).2 = none ∧ (s.pieces (s.ctxOf s.cur) .read (s.me.rx 9) 13312).1.length = 1
      ∧ ((242 : Byte).toNat < 243 ∧ 243 ≤ (243 : Byte).toNat) := by decide +kernel
theorem wit_ArrayRow : ({} : Tile).mode ≠ .float ∧ ({ mode := .torus } : Tile).mode ≠ .float := by decide +kernel
theorem wit_TmmaResult : let s := tileS 0x0002 {}
    s.me.clean = true ∧ s.me.hasVector = true ∧ s.me.tiles.contains (1 : AccReg).toNat = true
      ∧ s.me.tiles.contains (0 : AccReg).toNat = false ∧ actMode s.me.vTy = some (s.tile 1).mode ∧ (s.tile 1).mode ≠ .torus
      ∧ ¬ actMode (tileS 0x24 {}).me.vTy = some ((tileS 0x24 {}).tile 1).mode ∧ (s.me.rx 8).toNat ≤ 64 - 16 * (3 : BitVec 2).toNat
      ∧ s.rowFault s.me.vTy (fun i => s.me.rx 6 + 0 + wordN i * s.me.rx 0) 0 1 = none
      ∧ (s.rowFault s.me.vTy (fun i => 0x3FFFFF00 + wordN i * 0x100) 0 2).map (·.1) = some 1
      ∧ mapFind (s.core (coreOf s.cur)).wbBad 0 = none := by decide +kernel
/-- No row granted: the blocks run at once. A torus tile with the tag that x10 holds. -/
theorem wit_TmmaResult_torus : let s := tileS 0x0014 { mode := .torus, tagValid := true, tag := 3 }
    (s.tile 1).tag = (s.me.rx 10).extractLsb' 32 4
      ∧ (tmmaBlocks 1 s.me.vTy false #[] 0 0 (fun _ => 0) 0 ((List.range ((0 + 15) / 16)).drop 0) (12, 0) s).2.1 = none := by decide +kernel
theorem wit_TstatResult : ((5 : BitVec 4) ≠ 3 ∧ (5 : BitVec 4) ≠ 4) ∧ demo.me.tiles.contains (1 : AccReg).toNat = false := by decide +kernel

/-- One column of one row of an s8 drain. -/
def drainRun (s : State) (a : Word) : State × Option (Nat × Cause × Word) :=
  runElems (drainOne s 1 0 0 0 fun i => a + wordN i * 0) ((List.range 256).filter fun k =>
    decide (s.me.vstart.toNat ≤ k) && s.me.active (some 0) (k % 256)) { s with stamp := s.stamp + 1 }
/-- Column 1 is active. -/
def drainS : State := (tileS 0x0002 { acc := [(1, 5)] }).modMe fun th => { th with m := [(1, true)] }
theorem wit_DrainResult : drainS.me.clean = true ∧ drainS.me.hasVector = true ∧ drainS.me.tiles.contains (1 : AccReg).toNat = true
    ∧ (drainS.tile 1).mode ≠ .torus ∧ drainTy drainS.me.vTy = true ∧ drainS.me.regOk 4 32 = true ∧ (127 : BitVec 7).toNat ≤ drainS.me.mvl
    ∧ (drainRun drainS 0x10000).2 = none ∧ (drainRun drainS 0x10000).1.me.clean = true
    ∧ (drainRun drainS 0x3FFFFFFF).2 = some (1, .datafault, 0x40000000) := by decide +kernel

/-- A torus tile of tag 3 with a noise of 2 × 4 in column 1, with or without a keyset of a ceiling in slot 3. -/
def torusS (ceil : Option (BitVec 32)) : State :=
  ((tileS 0x0014 { mode := .torus, scales := [1, 1, 1, 1], acc := [(1, 5)], tagValid := true, tag := 3, nu := 4, cnt := [(1, 2)] }).modMe fun th =>
    { th with m := [(1, true)] }).modCluster 0 fun c =>
      { c with keys := match ceil with | some n => [(3, { bk := 0, ksk := 0, fresh := 64, ceil := n, n := 1, ctx := {} })] | none => [] }
theorem wit_TorusDrainResult : (torusS none).me.clean = true ∧ (torusS none).me.vTy = .t32 ∧ (torusS none).me.vstart = 0
    ∧ ((torusS none).tile 1).tagValid = true ∧ mapFind ((torusS none).cluster 0).keys 3 = none
    ∧ ((mapFind ((torusS (some 7)).cluster 0).keys 3).map fun k => k.ceil.toNat) = some 7
    ∧ (let s := torusS (some 8)
       let cols := (List.range 256).filter fun c => s.me.active (some 0) c
       cols = [1] ∧ (cols.map (s.tile 1).noiseOf).foldl max 0 = 8 ∧ ((mapFind (s.cluster 0).keys 3).map fun k => k.ceil.toNat) = some 8) := by
  decide +kernel
theorem wit_TorusDrain_runs : let s := torusS (some 8)
    let s1 : State := { s with stamp := s.stamp + 1 }
    let put := fun (s' : State) (va : Word) (x : Nat) => if va.toNat % 4 ≠ 0 then (s', some (Cause.datafault, va))
      else s'.writeRangeAt (s'.ctxOf s'.cur) .write .vls (some s.stamp) false va ((leBytes 4 x).map fun b => (b, 0xFF))
    let r := runElems (fun s' c => put s' (0x20000 + wordN (4 * c)) ((s.tile 1).noiseOf c)) [1] s1
    let q := runElems (drainOne s 1 0 0 0 fun i => 0x10000 + wordN i * 0) [1] r.1
    r.2 = none ∧ q.2 = none ∧ r.1.mem = s.mem ∧ q.1.mem = s.mem ∧ r.1.poison = [] ∧ q.1.poison = [] ∧ { r.1.me with pend := [] } = s.me
      ∧ { q.1.me with pend := [] } = s.me := by decide +kernel

/-- The operation of a `BGEMV` on three addresses. -/
def bgO (w x y : Word) : BgOp := bgemvOp (demoWith { th0 with x := [(10, w), (11, x), (12, y)] }) 10 11 12 1 1 1 0 4
theorem wit_BankUnitResult : (bgO 0x10000 0x20000 0x30000).ranges.all (fun q => meetsWindow q.1 q.2 == none) = true
    ∧ (bgO 0x00FFFF0000000000 0x20000 0x30000).ranges.any (fun q => (meetsWindow q.1 q.2).isSome) = true
    ∧ (bgO 0 0 0x30002).y.toNat % 4 ≠ 0 ∧ (bgO 0 0 0x30000).y.toNat % 4 = 0
    ∧ (let o := bgO 0x10000 0x20000 0x30000
       (demo.pieces o.ctx .read o.w 1).2 = none ∧ (demo.pieces o.ctx .read o.x 1).2 = none ∧ (demo.pieces o.ctx .write o.y 1).2 = none) := by
  decide +kernel
/-- The first GiB in TERNBANK pages. -/
def ternS (l : List BgOp) : State := (demoWith { th0 with bg := l, tickets := 1 }).modCore 0 fun c =>
  { c with tlb := [{ asid := 0, page := 0, log := 30, entry := 0x40000000000003F }] }
/-- One operation in flight that succeeds, one that fails; one that has failed and is to be reported. -/
theorem wit_BankUnit_ends : let o := { bgO 0x10000 0x20000 0x30000 with ticket := 1 }
    let f := { bgO 0x40000000 0x20000 0x30000 with ticket := 1 }
    let d := { f with failed := some (Cause.datafault, 0x40000000) }
    ((ternS [o]).thread 0).bg.find? (fun q => q.ticket == 1 && q.failed.isNone) = some o ∧ ((ternS [o]).runBg o).2 = none
      ∧ ((ternS [f]).runBg f).2 = some (.datafault, 0x40000000)
      ∧ ((ternS [o]).me.bg.filter fun o => o.ticket ≤ (ternS [o]).me.tickets) = [o]
      ∧ ((ternS [d]).me.bg.filter fun o => o.ticket ≤ (ternS [d]).me.tickets) = [d] ∧ (ternS []).me.bg = [] := by decide +kernel

/-! ### Ciphertexts, tables, the Coppice -/

theorem wit_CipherResult : (cipherRow cipherDemo (.cadd 3 0 1)).any (fun r => r.2.2.toOption.isSome) = true
    ∧ (cipherRow cipherDemo (.cadd 3 2 2)).any (fun r => r.2.2.toOption.isNone) = true
    ∧ (cipherRow cipherDemo (.czero 3 5)).any (fun r => r.2.2.toOption.isNone) = true
    ∧ cipherDemo.me.cPend = [] ∧ cipherDemo.me.cFail = [] ∧ cipherDemo.me.clean = true
    ∧ (let s := cipherDemo.modMe fun th => { th with cPend := [1] }
       (1 : CReg).toNat ∈ s.me.cPend) := by decide +kernel

/-- A keyset descriptor at 0x10000 for keys at 0x1000000 and 0x20000000. -/
def ksS : State := demo.performBytes (.thread 9) (numWrite 0x10000 8 0x1000000 ++ numWrite 0x10008 8 0x20000000 ++ numWrite 0x10010 8 0x000007D000000040
  ++ numWrite 0x10018 8 0x0800030000000000 ++ numWrite 0x10020 1 1)
theorem wit_KeyAndTableMoves_kset : ((ksS.cluster 0).slotBusy 1 = false ∧ (ksS.me.rx 9 + 0).toNat % 64 = 0 ∧ meetsWindow (ksS.me.rx 9 + 0) 256 = none)
    ∧ (match (ksS.readRange (ksS.ctxOf 0) .cop (ksS.me.rx 9 + 0) 256).2 with
      | .ok bs => (readKeyset bs (ksS.ctxOf 0)).any fun k => meetsWindow k.bk 150994944 == none && meetsWindow k.ksk 75595776 == none
      | .error _ => false) = true
    ∧ (let s := demo.modCluster 0 fun c => { c with droves := [{ slot := 1, count := 4 }] }
       (s.cluster (cluOf s.cur)).slotBusy 1 = true) := by decide +kernel
/-- A ciphertext image of dimension 1. -/
def imgS : State := demo.performBytes (.thread 9) (numWrite 0x10000 8 0x0000000700020001 ++ numWrite 0x10010 8 0x0000000600000005)
theorem wit_KeyAndTableMoves : aligned16 (imgS.me.rx 9 + 0) = true
    ∧ (match (imgS.readRange (imgS.ctxOf 0) .cop 0x10000 16).2 with
      | .ok hb => !headerBad (leNat hb) && meetsWindow 0x10000 (16 + 4 * (leNat hb % 1024 + 1)) == none && meetsWindow 0x10000 16 == none
        && ((imgS.readRange (imgS.ctxOf 0) .cop 0x10000 16).1.readRange (imgS.ctxOf 0) .cop (0x10000 + 16)
          (4 * (leNat hb % 1024 + 1))).2.toOption.isSome
      | .error _ => false) = true
    ∧ wrote (imgS.writeRangeAt (imgS.ctxOf 0) .write .cop none false 0x10000 ((leBytes 20 7).map fun b => (b, 0xFF))) = true
    ∧ (imgS.me.rx 9 + 0).toNat % 32 = 0 ∧ readsAll imgS .vls 0x10000 1056 = true
    ∧ wrote (imgS.writeRangeAt (imgS.ctxOf 0) .write .vls none false 0x10000 ((leBytes 1056 7).map fun b => (b, 0xFF))) = true := by
  decide +kernel

theorem wit_CoppiceResult_cref : cipherDemo.me.clean = true ∧ (cipherDemo.me.cipher 0).tag ≠ 3 ∧ (cipherDemo.me.cipher 0).tag = 2
    ∧ (demoWith { th0 with c := [(0, ⟨[0, 1], 64, 5, 1⟩)] }).slot 5 = none ∧ (cipherDemo.slot 2).any (fun k => k.n == (cipherDemo.me.cipher 0).dim.toNat) = true
    ∧ (cipherDemo.me.tbWord 1 7).toNat < 1
    ∧ (let s := cipherDemo.modMe fun th => { th with tb := [(264 + 7, 6)] }
       1 ≤ (s.me.tbWord 1 7).toNat ∧ (s.me.tbWord 1 7).toNat ≤ 6 ∧ (s.me.cipher 0).tag = 2) := by decide +kernel
/-- A drove with one member from cycle 0 on, in a cluster at a cycle. -/
def droveS (cycle : Nat) (running : Bool) : State :=
  let d : Drove := { slot := 2, count := 4, members := [{ tid := 0, cd := 3, src := ⟨[0, 1], 64, 2, 1⟩, p := 1, entries := [] }], first := some 0 }
  let k : KeySlot := { bk := 0x1000000, ksk := 0x20000000, fresh := 64, ceil := 2000, n := 1, ctx := {} }
  demo.modCluster 0 fun c =>
    if running then { c with cycle := cycle, running := some (d, k, 0) } else { c with cycle := cycle, droves := [d], started := [(d, k)] }
theorem wit_CoppiceResult : (demo.cluster 0).droves.find? (fun d => d.slot == 2) = none
    ∧ ((droveS 3500 false).cluster 0).droves.find? (fun d => d.slot == 2) ≠ none
    ∧ (((droveS 3500 false).cluster 0).droves.find? (fun d => d.slot == 2)).any (fun d => d.first == some 0) = true
    ∧ 0 + 3500 ≤ ((droveS 3500 false).cluster 0).cycle ∧ ((droveS 3499 false).cluster 0).cycle < 0 + 3500
    ∧ ((droveS 3500 false).cluster 0).running = none
    ∧ (match ((droveS 3500 false).cluster 0).started with | d :: _ => (droveS 3500 false).admits 0 d.2 | [] => false) = true := by decide +kernel
/-! ### Loops, synchronisation, threads -/

theorem wit_AdmissionOrder : ∃ p r, ([{ item := 0, tid := 0, elem := 0, sig := 3 }] : List Post) = p :: r ∧ (4096 : Nat) ≠ 0 :=
  ⟨_, _, rfl, by decide⟩
/-- Thread 0 in a loop; its cluster's Fold. -/
def loopS (rl : RlState) (f : Fold) : State :=
  (demoWith { vecTh 0x000A 2 64 [(8, [0x40, 0x80])] with blk := none, rl := rl, x := [(9, 0x10000), (10, 1), (11, 33), (12, 32)] }).modCluster 0 fun c =>
    { c with fold := f }
theorem wit_ReservingLoop_open : let s := loopS {} {}
    s.me.rx 0 = 0 ∧ 32 < (s.me.rx 11).toNat ∧ (loopS ⟨true, false, 3, 1, 0⟩ {}).me.rl.isOpen = true
      ∧ 1 ≤ (s.me.rx 10).toNat ∧ (s.me.rx 12).toNat ≤ 32 ∧ s.me.rl.isOpen = false ∧ 2 ≤ (2 : BitVec 4).toNat ∧ (12 : BitVec 4).toNat ≤ 12
      ∧ (s.cluster 0).fold.isOpen = false
      ∧ (let f := ((loopS {} { isOpen := true, c := 32, g := 12, joined := [4] }).cluster 0).fold
         f.isOpen = true ∧ f.joined.length < f.c ∧ f.c = (s.me.rx 12).toNat ∧ f.g = (12 : BitVec 4).toNat ∧ f.c ≠ (s.me.rx 10).toNat)
      ∧ (let f := ((loopS {} { isOpen := true, c := 1, g := 2, joined := [4] }).cluster 0).fold
         f.isOpen = true ∧ f.c ≤ f.joined.length) := by decide +kernel
theorem wit_ReservingLoop : let s := loopS ⟨true, false, 3, 1, 0⟩ {}
    let p := loopS ⟨true, true, 3, 1, 0⟩ {}
    let a := loopS ⟨true, true, 3, 1, 0⟩ { answers := [(0, { posted := [0, 1], admitted := [0] })] }
    s.me.clean = true ∧ s.me.hasVector = true ∧ s.me.regOk 8 64 = true ∧ s.me.rl.isOpen = true ∧ s.me.rl.posted = false
      ∧ mapFind (s.cluster 0).fold.answers s.cur = none ∧ s.cur ∉ (s.cluster 0).fold.posted ∧ s.me.elem 8 64 0 < 2 ^ 56 ∧ s.me.elem 8 64 1 < 2 ^ 56
      ∧ mapFind (a.cluster 0).fold.answers a.cur = some { posted := [0, 1], admitted := [0] } ∧ a.me.rl.isOpen = true
      ∧ p.me.rl.posted = true ∧ p.me.rl.isOpen = true ∧ mapFind (p.cluster 0).fold.answers p.cur = none
      ∧ demo.me.rl.posted = false ∧ demo.me.rl.isOpen = false := by decide +kernel
theorem wit_ReservingLoop_wave : ((demo.modCluster 0 fun c => { c with cycle := 9, fold := { due := some 9 } }).cluster 0).fold.due = some 9
    ∧ 9 ≤ ((demo.modCluster 0 fun c => { c with cycle := 9, fold := { due := some 9 } }).cluster 0).cycle
    ∧ ((demo.modCluster 0 fun c => { c with cycle := 8, fold := { due := some 9 } }).cluster 0).cycle < 9 := by decide +kernel

theorem wit_FenceAndHedge : demo.me.holds = .nothing ∧ demo.hedgeNodes (fun _ => true) = [] ∧ demo.me.cPend = [] ∧ demo.me.bg = []
    ∧ (0x10 : BitVec 7).getLsbD 3 = false ∧ (0x10 : BitVec 7).getLsbD 4 = true
    ∧ (demoWith { th0 with cPend := [1] }).me.cPend ≠ [] := by decide +kernel
/-- Cluster 0 with a barrier of id 3 of its cluster. -/
def barS (b : Barrier) : State := (demoWith { th0 with x := [(10, 2), (11, 1)] }).modCluster 0 fun c => { c with bars := [(barKey 0 .clu 3, b)] }
/-- That barrier. -/
def barB (b : Barrier) : Barrier := mapGet ({ count := 0 } : Barrier) ((barS b).cluster 0).bars (barKey (coreOf (barS b).cur) .clu 3)
theorem wit_BarrierResult : (barS { count := 2 }).cur ∈ (barB { count := 2, released := [0] }).released
    ∧ (barS { count := 2 }).cur ∈ (barB { count := 2, arrived := [0] }).arrived ∧ (barS { count := 2 }).cur ∉ (barB { count := 2, arrived := [0] }).released
    ∧ (barS { count := 2 }).me.rx 0 = 0 ∧ (barS { count := 2 }).threadsIn .core < 5 ∧ (barB { count := 2, arrived := [4] }).count ≠ ((barS { count := 2 }).me.rx 11).toNat
    ∧ (barS { count := 2 }).me.rx 10 ≠ 0 ∧ ((barS { count := 2 }).me.rx 10).toNat ≤ (barS { count := 2 }).threadsIn .clu
    ∧ (barB { count := 2, arrived := [4] }).arrived.length + 1 = ((barS { count := 2 }).me.rx 10).toNat
    ∧ (barB { count := 0 }).arrived = [] ∧ (barB { count := 0 }).arrived.length + 1 ≠ ((barS { count := 2 }).me.rx 10).toNat
    ∧ (barS { count := 2 }).me.clean = true := by decide +kernel
theorem wit_WaitMemoryResult : (demo.me.rx 9 + 8).toNat % 8 = 0 ∧ (demo.load .ct (demo.me.rx 9 + 8) 8).2.toOption = some 0
    ∧ condX .eq (wordN 0) (demo.me.rx 0) = true ∧ condX .ne (wordN 0) (demo.me.rx 0) = false
    ∧ (let s := demoWith { th0 with waitm := some ⟨.eq, 5, 0x10000, 0⟩ }
       (s.thread 0).waitm = some ⟨.eq, 5, 0x10000, 0⟩ ∧ (s.thread 0).run = .ready ∧ (s.thread 0).clean = true ∧ s.cluRuns (cluOf 0) = true
         ∧ readsAll s .ct 0x10000 8 = true) := by decide +kernel

theorem wit_ForkAndJoin : (demoWith { th0 with grant := 0x10 }).me.clean = true ∧ grantLanes (0x10 : BitVec 7) ≤ 2
    ∧ 2 < grantLanes demo.me.grant ∧ demo.me.grantOk = true ∧ demo.freeSibling = some 1
    ∧ (demo.me.rx 6).toNat ∉ demo.me.children
    ∧ (let s := { demo with threads := [(0, { th0 with grant := 0x30, children := [1], x := [(10, 1)] }), (1, { run := .ready })] }
       (s.me.rx 10).toNat ∈ s.me.children ∧ (s.thread (s.me.rx 10).toNat).run ≠ .joinable)
    ∧ (let s := { demo with threads := [(0, { th0 with grant := 0x30, children := [1], x := [(10, 1)] }), (1, { run := .joinable })] }
       (s.me.rx 10).toNat ∈ s.me.children ∧ (s.me.rx 10).toNat ≠ s.cur ∧ (s.thread (s.me.rx 10).toNat).run = .joinable) := by decide +kernel
/-- A full core, and an ended thread of a packet's task. -/
theorem wit_EndResult : demo.me.rl.isOpen = false ∧ demo.me.children = []
    ∧ (let s := { demo with threads := [(0, { th0 with children := [1] }), (1, { run := .joinable })] }
       s.me.children = 1 :: [] ∧ (1 : Nat) ≠ s.cur ∧ (s.thread 1).run = .joinable ∧ s.me.rl.isOpen = false)
    ∧ (let s := demoWith { th0 with run := .ending, region := some {}, task := some 1 }
       (s.thread 0).run = .ending ∧ s.cluRuns (cluOf 0) = true ∧ (s.thread 0).bg = [] ∧ (s.thread 0).cFail = [] ∧ (s.thread 0).cPend = []
         ∧ (s.thread 0).parent = none ∧ (s.thread 0).region = some {} ∧ (s.thread 0).task = some 1)
    ∧ ({ th0 with parent := some 1 } : Thread).parent ≠ none := by decide +kernel

/-! ### Copies, the graph, rings, launches -/

/-- Core 0 with nodes under ordinals 1 and 2 and the next one 3. -/
def nodeS (l : List (Nat × Node)) : State :=
  (demoWith { th0 with x := [(10, 1), (11, 2), (12, 9), (13, 0x20000)], region := some {} }).modCore 0 fun c => { c with nodes := l, nextOrd := 3 }
/-- A live copy of two bytes. -/
def cpyN (st : NodeSt) : Node := { op := .cpy 0x20000 0x10000 2, st := st }

theorem wit_CopyCreation : ((demo.core 0).nodes.filter fun n => n.2.live).length < 256
    ∧ 256 ≤ (((demo.modCore 0 fun c => { c with nodes := (List.range 256).map fun i => (i + 1, cpyN .waiting) }).core 0).nodes.filter fun n => n.2.live).length
    ∧ (demo.cluster 0).ring 9 = none ∧ ((ringDemo 1).cluster 0).ring 3 = some { bank := 4, nb := 1, ss := 1, push := 1, cursors := [1] }
    ∧ ((ringDemo 1).me.rx 9).toNat % (1 * 128) = 0 ∧ ((ringDemo 1).me.rx 6).toNat % (1 * 128) ≠ 0 := by decide +kernel
/-- No translation is cached, so every cached one is what a walk finds. -/
theorem fresh_of_nil (s : State) (ctx : Ctx) (h : (s.core (coreOf ctx.tid)).tlb ++ (s.cluster (cluOf ctx.tid)).tlb = []) :
    tlbFresh s ctx := by
  intro x hx
  rw [h] at hx
  cases hx
/-- A state without cached translations, whose page tables at 0x200000 map the first GiB, and an address space of it. -/
def walkS (l : List (Nat × Node)) : State :=
  ((nodeS l).modCore 0 fun c => { c with tlb := [] }).performBytes (.thread 9) (numWrite 0x200000 8 0x10000F ++ numWrite 0x100000 8 0x3F)
/-- That address space. -/
def walkCtx : Ctx := { root := 0x200000 }
/-- A copy to memory, a gather of two items by 4-byte indices at 0x40000, one whose list cannot be read. -/
def launchN : Node := { cpyN .waiting with ctx := walkCtx }
/-- The gather. -/
def gatherN (l : Word) : Node := { op := .cpyg 0x20000 0x10000 2 16 l false, ctx := walkCtx }
theorem wit_CopyLaunch : let s := walkS [(1, launchN), (2, gatherN 0x40000), (3, gatherN 0x40000000)]
    tlbFresh s walkCtx ∧ mapFind (s.core 0).nodes 1 = some launchN ∧ mapFind (s.core 0).nodes 2 = some (gatherN 0x40000)
      ∧ [launchN, gatherN 0x40000].all (fun n => n.preds == 0 && decide (n.st = .waiting)) = true ∧ s.cluRuns (0 / 8) = true
      ∧ s.heldBack 0 1 launchN = false ∧ s.heldBack 0 2 (gatherN 0x40000) = false
      ∧ ((s.core 0).nodes.filter fun p => p.2.copying).length < 2
      ∧ (s.thread 0).pend = [] ∧ (s.thread 0).late = []
      ∧ (s.readRange walkCtx .cpy 0x40000 8).2.toOption = some (List.replicate 8 0)
      ∧ (match (s.readRange walkCtx .cpy 0x40000000 8).2 with | .error x => x == (Cause.datafault, 0x40000000) | .ok _ => false) = true
      ∧ (s.readRange walkCtx .cpy 0x10000 2).2.toOption = some [0, 0] := by
  refine ⟨fresh_of_nil _ _ (by decide +kernel), ?_⟩
  decide +kernel
/-- Two engines are busy: a third copy does not launch. -/
theorem wit_CopyLaunch_busy : let s := walkS [(1, launchN), (2, { launchN with st := .launched }), (3, { launchN with st := .launched })]
    ¬ ((s.core 0).nodes.filter fun p => p.2.copying).length < 2 ∧ (cpyN .launched).st ≠ .waiting := by decide +kernel
/-- A copy of two rows of two bytes whose lines have returned, and one whose second row has failed. -/
def ranN : Node := { cpyN .launched with rows := [(0x20000, 2), (0x20100, 2)], data := [(0, [5, 6]), (2 ^ 64, [7, 8])], succs := [2] }
theorem wit_CopyFinish : let s := nodeS [(1, ranN), (2, { cpyN .waiting with preds := 1 }), (3, cpyN .waiting)]
    ranN.todo = [] ∧ ranN.out = [] ∧ ranN.bad = none ∧ ranN.st = .launched ∧ ranN.succs.Nodup ∧ ranN.ring = none ∧ ranN.wrote = []
      ∧ ([0x20000, 0x20100] : List Nat).length = ranN.rows.length
      ∧ [(0, 0x20000), (1, 0x20100)].all (fun p => 2 == (ranN.rowData p.1).length && (p.2 % 65536 + 2 ≤ 65536 : Bool)
        && (tlbFind (s.core (coreOf ranN.ctx.tid)).tlb ranN.ctx.asid p.2).isSome
        && match s.xlate ranN.ctx .write (wordN p.2) with | .ok q => q.pa == p.2 && s.physRow q.pa == .hbm | .error _ => false) = true
      ∧ (0x20000 + 2 ≤ 0x20100)
      ∧ (cpyN .waiting).st ≠ .launched := by decide +kernel
theorem wit_CopyFinish_failed : let n : Node := { ranN with bad := some (2 ^ 64, .datafault, 0x10000), ring := none }
    let s := nodeS [(1, n), (2, { cpyN .waiting with preds := 1 }), (3, cpyN .waiting)]
    n.todo = [] ∧ n.out = [] ∧ n.bad = some (2 ^ 64, .datafault, 0x10000) ∧ (s.core 0).nodes.length ≤ 256
      ∧ LeadsTo (s.core 0).nodes 1 2 ∧ mapFind (s.core 0).nodes 2 = some { cpyN .waiting with preds := 1 } ∧ (cpyN .waiting).live = true
      ∧ ¬ LeadsTo (s.core 0).nodes 1 3 := by
  have h : ∀ o, LeadsTo [(1, { ranN with bad := some (2 ^ 64, Cause.datafault, 0x10000), ring := none }), (2, { cpyN .waiting with preds := 1 }), (3, cpyN .waiting)] 1 o → o = 1 ∨ o = 2 := by
    intro o h
    induction h with
    | self => exact .inl rfl
    | edge p q n _ hp hq ih =>
      obtain rfl | rfl := ih <;> (injection hp with hp; subst hp; revert hq; simp +contextual [ranN, cpyN])
  exact ⟨rfl, rfl, rfl, by decide, .edge 1 2 _ .self rfl (by decide), rfl, rfl, fun hc => by have := h 3 hc; omega⟩
/-- A failed gather of a region, with and without a ring of two records at 0x70000, with room and full. -/
theorem wit_CopyFinish_event : let n := fun (ring : Option (Nat × Nat)) => ({ gatherN 0x40000000 with
        st := .launched, bad := some (0, .datafault, 0x40000000), region := some { id := 3, rcb := 0x50000, ring := ring } } : Node)
    let s := fun (ix : Nat) => (nodeS [(1, n (some (0x70000, 1)))]).performBytes (.thread 9) (numWrite 0x50068 8 ix)
    (n none).rows = [] ∧ (n none).succs = [] ∧ (s 0).me.holds ≠ .node 1
      ∧ ((List.range 32).all fun k => (s 0).physMem .read (0x50058 + k) && (s 0).physMem .write (0x50058 + k)) = true
      ∧ ((List.range 72).all fun k => (s 0).physMem .read (0x70000 + k) && (s 0).physMem .write (0x70000 + k)) = true
      ∧ (0x50000 + 128 ≤ 0x70000) ∧ [0, 1, 2].map (fun ix => decide (2 ^ 1 ≤ ((s ix).readPhys (0x50000 + 104) 8 + 2 ^ 64
          - (s ix).readPhys (0x70000 + 32 * 2 ^ 1) 8) % 2 ^ 64)) = [false, false, true] := by decide +kernel
/-- A ring-destination copy with one slot published of one row of one slot, and with none. -/
theorem wit_CopyFinish_ring : let n := fun (l : List Nat) => ({ op := .cpy 3 0x10000 128, ring := some 3, st := .launched, slots := l, rows := [(3, 128)] } : Node)
    ((ringDemo 1).cluster (0 / 8)).ring 3 = some { bank := 4, nb := 1, ss := 1, push := 1, cursors := [1] }
      ∧ (n [0]).slots.length * (1 * 128) = (n [0]).rows.length * 128 ∧ (n []).slots.length * (1 * 128) ≠ (n []).rows.length * 128 := by decide +kernel
/-- A `GNODE` for a region with its control block at 0x50000 and its list of two at 0x60000: with room, and full; and one
whose packet cannot be read. -/
def gnN (pkt : Word) : Node := { op := .gnode pkt, region := some { rcb := 0x50000, listBase := 0x60000, listLog := 1 }, ctx := walkCtx }
/-- Core 0 with that node and a tail of the list. -/
def gnS (pkt : Word) (tail : Nat) : State := (walkS [(1, gnN pkt)]).performBytes (.thread 9) (numWrite 0x50040 8 tail)
theorem wit_CopyLaunch_gnode : let r : Region := { rcb := 0x50000, listBase := 0x60000, listLog := 1 }
    let e := fun (tail : Nat) => (gnS 0x20000 tail).readRange walkCtx .cpy 0x20000 128
    tlbFresh (gnS 0x20000 1) walkCtx ∧ mapFind ((gnS 0x20000 1).core 0).nodes 1 = some (gnN 0x20000) ∧ (gnS 0x20000 1).heldBack 0 1 (gnN 0x20000) = false
      ∧ (e 1).2.toOption.isSome = true ∧ ((e 1).1.liveRegion r).getD r = r ∧ (e 1).1.listRoom r = true ∧ (e 2).1.listRoom r = false
      ∧ (match ((gnS 0x40000000 1).readRange walkCtx .cpy 0x40000000 128).2 with | .error x => x == (Cause.datafault, 0x40000000) | .ok _ => false) = true := by
  refine ⟨fresh_of_nil _ _ (by decide +kernel), ?_⟩
  decide +kernel
/-- The line of HBM4 at 0x10000, and one of cluster 0's SRAM, as the read of a copy. -/
def partAt (va : Word) (pa n : Nat) : CopyPart := ⟨0, ⟨va, { pa := pa }, n⟩⟩
/-- A running copy with one line left to issue, the next step being a cycle. -/
def lineN (p : CopyPart) : Node := { cpyN .launched with rows := [(0x20000, p.piece.len)], todo := [p] }
/-- The state of that copy, with a queue of its slice. -/
def lineS (n : Node) (q : List SliceReq) : State :=
  { (ringDemo 1).modCore 0 fun c => { c with nodes := [(1, n)] } with
    turns := [.tick .fab 1], fab := 5, dieA := { slices := [(4, q)] } }
/-- A request of another node. -/
def reqOf (ord : Nat) (p : CopyPart) (hit : Bool) : SliceReq := { core := 0, ord := ord, part := p, hit := hit, arr := 2, head := 3, acc := 3 }
theorem wit_CopyCycle : let p := partAt 0x10000 0x10000 2
    let w := partAt 0x00FFFF0000001000 (sramBase + 0x1000) 2
    let s := lineS (lineN p) [reqOf 9 p true]
    mapFind (s.core 0).nodes 1 = some (lineN p) ∧ s.copies = [(0, 1, lineN p)] ∧ (lineN p).out = [] ∧ s.turns = .tick .fab 1 :: []
      ∧ (lineN p).ring = none ∧ homeDie 0x10000 = .a ∧ (s.homeSlice 0x10000).1 = 4 ∧ s.physRow p.piece.place.pa = .hbm
      ∧ (∀ c ∈ (s.cluster (0 / 8)).lines, c.line ≠ 0x10000 / 128) ∧ ((s.die .a).queue 4).length < 8 ∧ (∀ x ∈ (s.die .a).queue 4, x.arr ≠ 6)
      ∧ mapFind (s.die .a).freed 4 ≠ some 6
      ∧ 8 ≤ (((lineS (lineN p) (List.replicate 8 (reqOf 9 p true))).die .a).queue 4).length
      ∧ (lineS (lineN w) []).physRow w.piece.place.pa = .sram ∧ mapGet 0 ((lineS (lineN w) []).cluster (0 / 8)).served ((w.piece.place.pa - sramAt (0 / 8) 0) / 2 ^ 17) ≤ 6 := by
  decide +kernel
/-- A ring-destination copy of one slot whose bytes returned in cycle 4, with room; in cycle 6; and without room. -/
theorem wit_CopyCycle_ring : let n := fun (c : Nat) => ({
      op := .cpy 3 0x10000 128, ring := some 3, st := .launched, rows := [(3, 128)], data := [(0, List.replicate 128 7)],
      whole := [(0, c)] } : Node)
    let g : Ring := { bank := 4, nb := 1, ss := 1, push := 1, cursors := [1] }
    let s := lineS (n 4) []
    mapFind (s.core 0).nodes 1 = some (n 4) ∧ s.copies = [(0, 1, n 4)] ∧ (n 4).out = [] ∧ (n 4).todo = [] ∧ s.fab + 1 = 6
      ∧ (s.cluster (0 / 8)).ring 3 = some g ∧ 0 < g.ss ∧ (mapFind (n 4).whole (0 / 128) = some 4 ∧ 4 < 6 ∧ 0 < (n 4).rows.length ∧ (n 4).bad = none)
      ∧ (∀ c ∈ g.cursors, g.push < c + g.nb * 1024 / g.ss) ∧ (n 4).rows.length * 128 = (n 4).slots.length * 128 + 128
      ∧ (mapFind (n 6).whole 0 = some 6 ∧ ¬ 6 < 6)
      ∧ (((ringDemo 1025).cluster 0).ring 3).any (fun g => g.cursors.all fun c => decide (g.push < c + g.nb * 1024 / g.ss)) = false
      ∧ ((List.range 128).all fun c => ((n 4).rowData 0)[c]?.isSome) = true := by decide +kernel
/-- The head of a slice's queue, under way since an earlier cycle: held by the slice, or accepted 64 cycles ago; not yet;
and a line after which the row has more. -/
theorem wit_LineReturns : let p := partAt 0x10000 0x10000 2
    let n : Node := { lineN p with todo := [], out := [(p, none)] }
    let s := lineS n [reqOf 1 p true, reqOf 9 p true]
    (s.die .a).queue 4 = reqOf 1 p true :: [reqOf 9 p true] ∧ ((reqOf 1 p true).head < s.fab ∧ (reqOf 1 p true).hit = true)
      ∧ ¬ (reqOf 1 p false).acc + 64 ≤ s.fab ∧ (reqOf 1 p false).acc + 64 ≤ ({ s with fab := 67 } : State).fab
      ∧ mapFind (s.core 0).nodes 1 = some n ∧ n.copying = true ∧ s.physRow p.piece.place.pa = .hbm ∧ s.poison = []
      ∧ (s.thread n.ctx.tid).pend = [] ∧ (s.thread n.ctx.tid).late = []
      ∧ ({ n with todo := [{ p with ix := 1 }] } : Node).todo.any (fun q => q.ix / 2 ^ 64 == 0) = true := by decide +kernel
theorem wit_GraphResult : let s := nodeS [(1, { cpyN .waiting with preds := 1, held := true }), (2, cpyN .waiting)]
    s.me.clean = true ∧ s.cur < 512 ∧ (1 ≤ 2 ∧ 2 < 2 ^ 32 ∧ 2 < (s.core 0).nextOrd) ∧ s.me.rx 10 = wordN (0 * 2 ^ 32 + 1) ∧ s.me.rx 11 = wordN (0 * 2 ^ 32 + 2)
      ∧ mapFind (s.core 0).nodes 1 = some { cpyN .waiting with preds := 1, held := true } ∧ (cpyN .waiting).held = false
      ∧ mapFind ((nodeS [(2, cpyN .waiting)]).core 0).nodes 1 = none ∧ (cpyN .waiting).live = true
      ∧ mapFind ((nodeS [(1, cpyN (.failed .datafault 7)), (2, cpyN .waiting)]).core 0).nodes 1 = some (cpyN (.failed .datafault 7))
      ∧ s.me.rx 12 ≠ wordN (0 * 2 ^ 32 + 1) ∧ s.me.rx 12 ≠ wordN (0 * 2 ^ 32 + 2) := by decide +kernel
theorem wit_RingMoves : let r : Ring := { bank := 4, nb := 1, ss := 1, push := 2, cursors := [1] }
    mapFind ((ringDemo 2).cluster 0).rings 3 = some r ∧ (ringDemo 2).me.holds ≠ .ring 3 true ∧ r.cursors ≠ [] ∧ (r.push < 1 + r.nb * 1024 / r.ss)
      ∧ readsAll (ringDemo 2) .cpy 0x10000 (r.ss * 128) = true ∧ r.cursors[(0 : BitVec 3).toNat]? = some 1 ∧ 1 < r.push
      ∧ 1 + r.nb * 1024 / r.ss ≤ 1025 ∧ (mapFind ((ringDemo 1025).cluster 0).rings 3).map (·.push) = some 1025
      ∧ (mapFind ((ringDemo 1).cluster 0).rings 3).map (·.push) = some 1 ∧ mapFind (demo.cluster 0).rings 3 = none
      ∧ r.cursors.length ≤ (1 : BitVec 3).toNat ∧ ((ringDemo 2).core 7).nodes = [] := by decide +kernel
/-- Bank settings: scratchpad to FIFO, to a cache way; an illegal one; one while a write to the bank is pending. -/
theorem wit_BankSetting : (0x0201105E / 32 % 4 = 2 ∧ 0x0201105E / 2 ^ 30 = 0 ∧ 0x0201105E / 2 ^ 24 % 64 = 2 ∧ 0x0201105E % 32 + 2 ≤ 32)
    ∧ demo.banksBusy 0 (bankNamed 0x0201105E ++ ((demo.cluster 0).tornBy 0x0201105E).flatMap (·.2.banks)) (((demo.cluster 0).tornBy 0x0201105E).map (·.1)) = false
    ∧ (0x0211105E / 32 % 4 = 2) ∧ (0x7F / 32 % 4 = 3) ∧ (demo.cluster 0).mode 31 ≠ .fifo
    ∧ (let s := demo.modMe fun th => { th with pend := [{ path := .ct, bytes := [(sramBase + 30 * 2 ^ 17, 1, 0xFF)] }] }
       s.banksBusy 0 (bankNamed 0x0201105E ++ ((s.cluster 0).tornBy 0x0201105E).flatMap (·.2.banks)) (((s.cluster 0).tornBy 0x0201105E).map (·.1)) = true) := by
  decide +kernel
/-- Regions 3 (the thread's, a list of two) and 4 (its descendant). -/
def spS (tail : Nat) : State :=
  ((demoWith { th0 with region := some { id := 3, rcb := 0x50000, listBase := 0x60000, listLog := 1 }, x := [(9, 0x10000), (10, 4), (11, 5)] }).modDie .a
    fun d => { d with regions := [(1, { id := 4, rcb := 0x70000, listBase := 0x80000, listLog := 1, chain := [0x70000, 0x50000] })] }).performBytes (.thread 9)
      (numWrite 0x50040 8 tail)
theorem wit_SpawnResult : let own : Region := { id := 3, rcb := 0x50000, listBase := 0x60000, listLog := 1 }
    (spS 1).me.clean = true ∧ (spS 1).me.region = some own ∧ (spS 1).me.rx 0 = 0
      ∧ ((spS 1).me.rx 10 ≠ 0 ∧ (spS 1).me.rx 10 ≠ own.id.setWidth 64 ∧ ((spS 1).spawnRegion own ((spS 1).me.rx 10)).map (·.id) = some 4)
      ∧ readsAll ((spS 1).drain 0 fencedPath) .ct 0x10000 128 = true
      ∧ (2 ^ own.listLog ≤ (((spS 2).drain 0 fencedPath).listTail own + 2 ^ 64 - ((spS 2).drain 0 fencedPath).listHead own) % 2 ^ 64)
      ∧ ¬ (2 ^ own.listLog ≤ (((spS 1).drain 0 fencedPath).listTail own + 2 ^ 64 - ((spS 1).drain 0 fencedPath).listHead own) % 2 ^ 64)
      ∧ own.rcb + 72 ≤ own.listBase + 1 % 2 ^ own.listLog * 128 ∧ (spS 1).spawnRegion own ((spS 1).me.rx 11) = none := by decide +kernel

/-! ### The scheduler and the vector sequencer -/

/-- A region of die A in the resident partition 0 of clusters 0 and 1, control block at 0x50000, list of two at 0x60000;
its page table at 0x200000 maps the first GiB onto itself. -/
def rgn : Region := { id := 3, rcb := 0x50000, listBase := 0x60000, listLog := 1, roles := 0x20100804, root := 0x200000, stackSize := 0x1000, idx := 1 }
/-- A die that holds the region, with packets; head 0 and tail 1 of the list, and bytes of slot 0. -/
def schedS (ps : List Packet) (slot : List (Nat × Byte × Byte)) : State :=
  let part : Part := { en := true, st := .resident, clu := 3 }
  ({ State.reset with dieA := { parts := [(0, part)], regions := [(1, rgn)], packets := ps }, cores := demo.cores }).performBytes (.thread 9)
    (numWrite 0x50040 8 1 ++ numWrite 0x200000 8 0x10000F ++ numWrite 0x100000 8 0x3F ++ slot)
/-- A legal packet of form 1, and of form 2 with a loop nest at 0x20000. -/
def slot1 (form : Nat) : List (Nat × Byte × Byte) :=
  numWrite 0x60008 8 (form + 0xFF0000) ++ numWrite 0x60060 8 (if form = 2 then 0x20000 else 0)
/-- A loop nest of one dimension of two iterations. -/
def nestAt : List (Nat × Byte × Byte) := numWrite 0x20000 8 1 ++ numWrite 0x20018 8 0x100000002
/-- A packet of that region. -/
def pkt : Packet := { uid := 7, region := rgn, addr := 0x60000, role := 0, clu := none, evMiss := false, deadline := 5, entry := 0x9000,
                      args := [], nest := none, compAddr := 0, compVal := 9, total := 1 }

/-- R319, decided. -/
def pktLegal (s : State) (r : Region) (pa : Nat) : Bool :=
  let f := fun off n => s.readPhys (pa + off) n
  (f 8 1 == 1 || f 8 1 == 2) && f 9 1 ≤ 3 && (List.range 4).any (fun k => r.role k == f 9 1)
    && (f 10 1 == 255 && s.regionClus r != [] || (s.regionClus r).contains (f 10 1)) && f 11 1 ≤ 1 && f 12 4 == 0 && f 24 8 % 16 == 0
    && f 104 8 % 8 == 0 && f 120 8 == 0 && (f 8 1 == 2 || f 96 8 == 0)
theorem wit_PacketConsumed : let s := schedS [] (slot1 1)
    mapFind (s.die .a).regions 1 = some rgn ∧ s.resident rgn = true ∧ s.listHead rgn = 0 ∧ s.listTail rgn = 1 ∧ s.readPhys 0x60000 8 = 0
      ∧ pktLegal s rgn 0x60000 = true ∧ s.poison = [] ∧ s.readPhys 0x60008 1 = 1
      ∧ ((List.range 48).all fun k => s.physMem .read (0x50000 + 64 + k) && s.physMem .write (0x50000 + 64 + k)) = true := by decide +kernel
theorem wit_PacketConsumed_nest : let s := schedS [] (slot1 2 ++ nestAt)
    pktLegal s rgn 0x60000 = true ∧ s.readPhys 0x60008 1 = 2 ∧ (s.readNest rgn (wordN (s.readPhys (0x60000 + 96) 8))).2.isSome = true
      ∧ (let t := schedS [] (slot1 3)
         pktLegal t rgn 0x60000 = false ∧ t.resident rgn = true ∧ t.readPhys 0x60000 8 = t.listHead rgn)
      ∧ (schedS [] []).listHead { rgn with rcb := 0x90000 } = (schedS [] []).listTail { rgn with rcb := 0x90000 } := by decide +kernel
/-- A bad packet of a region with a fault domain of two records at 0x70000: with room, and full. -/
theorem wit_PacketConsumed_bad : let r : Region := { rgn with ring := some (0x70000, 1) }
    let s := fun (ix : Nat) => (schedS [] (slot1 3 ++ numWrite 0x50068 8 ix)).modDie .a fun d => { d with regions := [(1, r)] }
    let room := fun (ix : Nat) => decide ((s ix).readPhys (0x50000 + 104) 8 = ix
      ∧ (ix + 2 ^ 64 - (s ix).readPhys (0x70000 + 32 * 2 ^ 1) 8) % 2 ^ 64 < 2 ^ 1)
    pktLegal (s 0) r 0x60000 = false ∧ (s 0).resident r = true ∧ r.rcb + 128 ≤ 0x70000 ∧ room 0 = true ∧ room 1 = true ∧ room 2 = false
      ∧ ((List.range 72).all fun k => (s 0).physMem .read (0x70000 + k) && (s 0).physMem .write (0x70000 + k)) = true ∧ rgn.ring = none := by decide +kernel
theorem wit_Placement : let s := schedS [pkt] []
    s.nextPlace .a (fun p => p.bound.isNone) = some (pkt, 0) ∧ pkt.region.die = .a ∧ pkt.nest = none ∧ pkt.missed = false
      ∧ s.time.toNat < pkt.deadline.toNat ∧ (s.thread 0).run = .free
      ∧ (({ s with time := 5 } : State).nextPlace .a fun p => p.bound.isNone) = some (pkt, 0)
      ∧ pkt.deadline.toNat ≤ ({ s with time := 5 } : State).time.toNat ∧ ({ s with time := 5 } : State).dieA.packet pkt.uid = some pkt
      ∧ (schedS [] []).nextPlace .a (fun p => p.bound.isNone) = none := by decide +kernel
/-- Two candidates: the one with the earlier deadline gets context 0, and none is left to the other where it has all. -/
theorem wit_Placement_order : let q : Packet := { pkt with uid := 8, deadline := 9 }
    let s := schedS [q, pkt] []
    s.nextPlace .a (fun p => p.bound.isNone) = some (pkt, 0) ∧ (((s.die .a).packets.map (·.uid)).Nodup) ∧ s.candidate q = true
      ∧ pkt.deadline.toNat < q.deadline.toNat ∧ 0 ∈ s.choices q := by decide +kernel
/-- A loop nest of two iterations bound to cluster 0, whose walker handed one out 8 cycles ago. -/
theorem wit_Placement_nest : let p : Packet := { pkt with nest := some { addr := 0x20000, dims := [(0, 2, 1)] }, total := 2, placed := 1, bound := some 0 }
    let s := (schedS [p] []).modCluster 0 fun c => { c with walked := some 1, cycle := 9 }
    s.nextPlace .a (fun p => decide (p.bound = some 0)) = some (p, 0) ∧ dieOf 0 = .a ∧ (s.cluster (cluOf 0)).walked = some 1
      ∧ 1 + 8 ≤ (s.cluster (cluOf 0)).cycle ∧ 0 ∈ s.choices p ∧ p.nest ≠ none := by decide +kernel
/-- The context's own task has issued its `END`, and the other contexts of its slot are taken: it gets the next iteration. -/
theorem wit_Placement_ahead : let p : Packet := { pkt with nest := some { addr := 0x20000, dims := [(0, 2, 1)] }, total := 2, placed := 1, bound := some 0, running := 1 }
    let s0 := (schedS [p] []).modCluster 0 fun c => { c with walked := some 1, cycle := 9 }
    let busy : Thread := { th0 with task := some 99, region := some {} }
    let s := { s0 with threads := (List.range 32).map fun k =>
      (k, if k = 4 then { th0 with run := .ending, task := some 7, region := some rgn } else busy) }
    s.nextPlace .a (fun p => decide (p.bound = some 0)) = some (p, 4) ∧ (s.thread 4).run = .ending ∧ (s.thread 4).task = some p.uid := by
  decide +kernel
theorem wit_DeadlineMissed : let s := { schedS [pkt] [] with time := 5 }
    (s.die .a).packet 7 = some pkt ∧ s.candidate pkt = true ∧ pkt.missed = false ∧ pkt.deadline.toNat ≤ s.time.toNat ∧ pkt.evMiss = false
      ∧ ({ s with time := 4 } : State).time.toNat < pkt.deadline.toNat := by decide +kernel
theorem wit_DeadlineMissed_ring : let p : Packet := { pkt with evMiss := true, region := { rgn with ring := some (0x70000, 1) } }
    let s := { schedS [p] [] with time := 5 }
    (s.die .a).packet 7 = some p ∧ s.candidate p = true ∧ ((List.range 72).all fun k => s.physMem .read (0x70000 + k) && s.physMem .write (0x70000 + k)) = true ∧ p.region.ring = some (0x70000, 1) ∧ p.region.rcb + 128 ≤ 0x70000
      ∧ (s.readPhys (p.region.rcb + 104) 8 + 2 ^ 64 - s.readPhys (0x70000 + 32 * 2 ^ 1) 8) % 2 ^ 64 < 2 ^ 1 := by decide +kernel
theorem wit_PacketCompleted : let p : Packet := { pkt with placed := 1 }
    let s := schedS [p] []
    (s.die .a).packet 7 = some p ∧ p.region.die = .a ∧ p.placed = p.total ∧ p.running = 0 ∧ p.compAddr = 0 ∧ ({ p with running := 1 } : Packet).running ≠ 0 := by
  decide +kernel
theorem wit_PacketCompleted_write : let p : Packet := { pkt with placed := 1, compAddr := 0x20000 }
    let s := schedS [p] []
    (s.die .a).packet 7 = some p ∧ p.compAddr ≠ 0 ∧ p.compAddr.toNat % 65536 + 8 ≤ 65536
      ∧ (match s.xlate p.region.schedCtx .write p.compAddr with
        | .ok q => !s.poisoned q.pa && ((List.range 8).all fun k => s.physMem .read (q.pa + k) && s.physMem .write (q.pa + k))
        | .error _ => false) = true := by decide +kernel

theorem wit_WatchdogStops : let s := demoWith { th0 with task := some 1, used := 9, region := some { cycleLimit := 9 } }
    (s.thread 0).placed = true ∧ (s.thread 0).cycleCap ≠ 0 ∧ (s.thread 0).cycleCap ≤ (s.thread 0).used ∧ (s.thread 0).stop = none
      ∧ (demo.thread 0).placed = false
      ∧ (let t := s.modMe fun th => { th with stop := some 3 }
         t.me.stop = some 3 ∧ t.me.run = .ready ∧ t.me.blk = none ∧ t.me.region = some { cycleLimit := 9 } ∧ t.me.sup = false) := by decide +kernel
/-- Two threads of a core on the same lanes: only one of them gets a turn. A turn that is idle, and one that is not; a
window of beats that has ended, and one that runs. -/
theorem wit_SequencerTurns : let s : State := { demo with threads := [(0, th0), (1, th0)] }
    (s.thread 1).run ≠ .free ∧ grantsMeet (s.thread 0).grant (s.thread 1).grant = true ∧ (s.core 0).turn = []
      ∧ (let t := after (exec (.vectorSequencerTurn 0 [0, 1]) s)
         (t.core 0).turn = [0] ∧ t.turnAhead 0 1 = true)
      ∧ (let i := s.modCluster 0 fun c => { c with cycle := 65544 }
         (i.thread 0).blk = none ∧ (i.thread 0).entryAt + 8 ≤ (i.cluster 0).cycle ∧ (i.core 3).beatsWin ≠ (i.cluster (3 / 8)).cycle / 65536)
      ∧ ¬ (s.thread 0).entryAt + 8 ≤ (s.cluster 0).cycle ∧ (s.core 3).beatsWin = (s.cluster (3 / 8)).cycle / 65536 := by decide +kernel
/-! ### Controllers and outside parties -/

/-- Bank 0 of channel 0 of die A with tracked rows. -/
def rowS (b : Bank) (thr : Nat) : State := { demo with dieA := { channels := [(0, { thr := thr, banks := [(0, b)] })] } }
theorem wit_Controllers : ((rowS { held := true } 64).bank .a 0 0).held = true ∧ ((rowS { rows := [(5, 62)] } 64).bank .a 0 0).held = false
    ∧ mapFind ((rowS { rows := [(5, 62)] } 64).bank .a 0 0).rows 5 = some 62 ∧ 62 + 1 < (((rowS { rows := [(5, 62)] } 64).die .a).channel 0).thr
    ∧ mapFind ((rowS { rows := [(5, 63)] } 64).bank .a 0 0).rows 5 = some 63 ∧ (((rowS { rows := [(5, 63)] } 64).die .a).channel 0).thr ≤ 63 + 1
    ∧ mapFind ((rowS {} 64).bank .a 0 0).rows 5 = none ∧ ((rowS {} 64).bank .a 0 0).rows.length < 16 ∧ 1 < (((rowS {} 64).die .a).channel 0).thr
    ∧ mapFind ((rowS { rows := (List.range 16).map fun i => (i + 10, 1) } 64).bank .a 0 0).rows 5 = none
    ∧ 16 ≤ ((rowS { rows := (List.range 16).map fun i => (i + 10, 1) } 64).bank .a 0 0).rows.length := by decide +kernel
/-- Page numbers as tracked: twice the 64-page number's code, and 1 for PEERDST. -/
theorem wit_HotPages : let x : DieState := { cycle := 2 ^ 20, hot := [(0x122, 10, 4096), (0x123, 0, 5000)] }
    x.hotEpoch + 2 ^ 20 ≤ x.cycle ∧ (x.hot.map (·.1)).Nodup ∧ (0x122, 10, 4096) ∈ x.hot ∧ x.hotThr ≤ 4096 ∧ 2 * 10 < 4096 ∧ 0x122 % 2 = 0
      ∧ (0x123, 0, 5000) ∈ x.hot ∧ 0x123 % 2 = 1 ∧ (∀ k ∈ x.hotSkip, k.1 = 0x123 → k.2 ≤ x.cycle)
      ∧ ({ x with cycle := 2 ^ 20 - 1 } : DieState).cycle < x.hotEpoch + 2 ^ 20 := by decide +kernel
theorem wit_Errors : demo.physRow 0x10003 = .hbm ∧ demo.physRow (sramBase + 5) = .sram ∧ demo.physRow (2 ^ 50) ≠ .hbm ∧ demo.physRow (2 ^ 50) ≠ .sram := by
  decide +kernel

/-- Entry 255 of stack 0 grants 64 KiB at 0x10000 to reader 5. -/
def accS : State := { demo with dieA := { access := [(510, 0x10000), (511, 0x8000000500000001)] } }
theorem wit_RemoteReads : accS.hub.wiping = false ∧ 0x1FF80 / 2 ^ 36 = 0 ∧ (0x1FF80 + 128 - 1) / 2 ^ 36 = 0 ∧ accS.physRow 0x1FF80 = .hbm
    ∧ accS.physRow (0x1FF80 + 128 - 1) = .hbm
    ∧ (let w := fun i => (mapGet 0 (accS.die (homeDie 0x1FF80)).access ((0 % 4 * 256 + 255) * 2 + i)).toNat
       w 1 / 2 ^ 63 = 1 ∧ w 1 / 2 ^ 32 % 65536 = 5 ∧ (w 0 / 65536 * 65536) % 2 ^ 36 ≤ 0x1FF80 % 2 ^ 36
         ∧ 0x1FF80 % 2 ^ 36 + 128 ≤ (w 0 / 65536 * 65536) % 2 ^ 36 + w 1 % 2 ^ 32 * 65536) := by decide +kernel
/-- The host owns the device. -/
def ownS : State := { demo with hub := { valid := true, owner := 1, linksUp := [2], windows := [(30, 0x10000), (31, 0xE000070000000001)] } }
theorem wit_CxlMemory : ownS.hub.wiping = false ∧ ownS.hub.recovery = false ∧ ownS.physRow 0x10000 = .hbm ∧ ownS.poisoned 0x10000 = false
    ∧ ownS.hub.valid = true ∧ ownS.hub.owner = 1 ∧ ownS.time.toNat < ownS.hub.timer + 2000000000 ∧ State.reset.hub.wiping = true := by decide +kernel
/-- Window 15 admits node 7 to 64 KiB at 0x10000 with both rights. -/
theorem wit_HoltPeers : ownS.hub.linksUp ≠ [] ∧ 0x1FFF8 % 128 + 8 ≤ 128 ∧ 0x1FFF8 % 8 = 0
    ∧ (let base := (mapGet 0 ownS.hub.windows (2 * 15)).toNat / 65536 % 2 ^ 36 * 65536
       let v := (mapGet 0 ownS.hub.windows (2 * 15 + 1)).toNat
       v.testBit 63 = true ∧ v.testBit 62 = true ∧ v.testBit 61 = true ∧ v / 2 ^ 40 % 2048 = 7 ∧ base ≤ 0x1FFF8 ∧ 0x1FFF8 + 8 ≤ base + v % 2 ^ 32 * 65536)
    ∧ Ty.n64.width / 8 = 8 ∧ AmoOp.tyOk .add .n64 = true ∧ Ty.amoOk .n64 = true ∧ 2 ∈ ownS.hub.linksUp ∧ 3 ∉ ownS.hub.linksUp
    ∧ (List.range 8).all (fun i => ownS.physRow (0x1FFF8 + i) == .hbm) = true := by decide +kernel
/-- Two ranks have arrived in group 5: an s32 sum of one element, a landing zone at 0x10000. -/
theorem wit_Reductions : let r : RedGroup := { reg := 0x8000000000000000, ty := .s32, ranks := 2, count := 1, landing := 0x10000, arrival := 0x20000, compAddr := 0x20008 }
    let s := ({ demo with hub := { redg := [(5, r)] } }).performBytes (.thread 9) (numWrite 0x20000 8 3)
    mapFind s.hub.redg 5 = some r ∧ r.reg.getLsbD 63 = true ∧ (∀ k, k < r.ranks → (s.readPhys r.arrival 8).testBit k = true) ∧ redTyOk r.ty = true
      ∧ 1 ≤ r.ranks ∧ r.landing + 2 * 128 + 4 ≤ r.arrival ∧ r.arrival + 8 ≤ r.compAddr
      ∧ (demo.readPhys r.arrival 8).testBit 1 = false := by decide +kernel

/-! ### Tables, partitions, ownership, Ciros -/

theorem wit_Ownership : (demo.hub.valid = false ∧ (0x000000000001 : Word).toNat / 2 ^ 32 = demo.hub.epoch) ∧ (0x100000001 : Word).toNat / 2 ^ 32 ≠ demo.hub.epoch
    ∧ (ownS.hub.valid = true ∧ ownS.hub.owner = 1 ∧ ownS.time.toNat < ownS.hub.timer + 2000000000 ∧ (1 : Word).toNat / 2 ^ 32 = ownS.hub.epoch)
    ∧ ({ ownS with time := 2000000000 } : State).hub.timer + 2000000000 ≤ ({ ownS with time := 2000000000 } : State).time.toNat := by decide +kernel
theorem wit_OwnerGate : (ownS.hub.valid = true ∧ ownS.time.toNat < ownS.hub.timer + 2000000000) ∧ ownS.hub.owner ≠ 2 ∧ demo.hub.valid = false := by
  decide +kernel

/-- A root control block at 0x50000 (size 8 KiB stack and a list), and a child of it at 0x50080. -/
def rcbS : State := { (ownS.performBytes (.thread 9) (numWrite 0x50008 4 3 ++ numWrite 0x5000C 4 0x21 ++ numWrite 0x50010 1 2 ++ numWrite 0x50028 4 0x2000
  ++ numWrite 0x50050 8 0x60001)) with old := [] }
theorem wit_TableWrites : (0x8000000000050000 : Word).getLsbD 63 = true ∧ rcbS.rcbChain 8 0x50000 = some [0x50000]
    ∧ rcbS.regionOk .a 4 0x8000000000050000 [0x50000] = true
    ∧ rcbS.regionOk .a 4 0x8000000000050080 [0x50080, 0x50000] = false
    ∧ (rcbS.performBytes (.thread 9) (numWrite 0x50000 8 0x50000)).rcbChain 8 0x50000 = none
    ∧ [0x50000].find? (fun c => (rcbS.readPhys (c + 12) 4).testBit 0) = some 0x50000
    ∧ [0x50000].find? (fun c => (rcbS.readPhys (c + 12) 4).testBit 2) = none
    ∧ (0 : Word).getLsbD 63 = false ∧ rcbS.readRed (0x8000000000010000 &&& ~~~0x4000000000000000) = none := by decide +kernel
theorem wit_TableWrites_red : let s := ownS.performBytes (.thread 9) (numWrite 0x10000 8 0x0000000100000205 ++ numWrite 0x10008 8 0x20000 ++ numWrite 0x10010 8 0x30000
      ++ numWrite 0x10018 8 0x30008)
    (s.readRed (0x8000000000010000 &&& ~~~0x4000000000000000)).isSome = true := by decide +kernel

/-- Die A with partition 0 in a state. -/
def partS (p : Part) (w : Swap) : State := { ownS with dieA := { parts := [(0, p)], swap := w } }
theorem wit_PartitionTable : ((partS {} {}).dieA.partOf 0).en = false ∧ ((partS { en := true } {}).dieA.partOf 0).en = true
    ∧ ((partS { en := true } {}).dieA.partOf 0).st = .out ∧ ((partS { en := true, st := .resident, clu := 1 } {}).dieA.partOf 0).st ≠ .out
    ∧ (0x8000000000000003 : Word).getLsbD 63 = true ∧ (partS {} {}).partOk .a 0 0 {} = false
    ∧ (partS { w2 := 0, w3 := 0x100000000 } {}).partOk .a 0 ((0x8000000000000003 : Word).setWidth 8) { w2 := 0, w3 := 0x100000000 } = true
    ∧ cluList .a ((0x8000000000000003 : Word).setWidth 8) = [0, 1]
    ∧ (partS {} {}).heldIn 1 [.resident, .halting, .restoring] = false
    ∧ ({ ownS with dieA := { parts := [(1, { en := true, st := .resident, clu := 2 })] } } : State).heldIn 1 [.resident, .halting, .restoring] = true := by
  decide +kernel
/-- Partition 0 goes out; partition 0 comes in; a swap in its first part; one whose outgoing partition is saved. -/
theorem wit_Swaps : (partS { en := true, st := .resident, clu := 1 } {}).swapOk .a 0x10 = true ∧ (partS { en := true, clu := 1 } {}).swapOk .a 0x1000 = true
    ∧ (partS {} {}).swapOk .a 0x10 = false
    ∧ (let s := (partS { en := true, st := .halting, clu := 1 } { busy := true, outP := some 0 }).modThread 0 fun th => { th with halt := .saved }
       s.dieA.swap.outP = some 0 ∧ s.dieA.swap.busy = true ∧ s.dieA.swap.saved = false ∧ (s.dieA.partOf 0).st = .halting
         ∧ s.quiet (cluList .a (s.dieA.partOf 0).clu) = true)
    ∧ (let s := partS { en := true, st := .restoring, clu := 1, saved := { threads := [(0, th0)], cores := [(0, {})], sram := [(sramBase, 1)], poison := [(sramBase / 8, true)] } }
         { busy := true, saved := true, inP := some 0 }
       let p := s.dieA.partOf 0
       s.dieA.swap.inP = some 0 ∧ s.dieA.swap.saved = true ∧ p.st = .restoring ∧ (p.saved.threads.map (·.1)).Nodup
         ∧ (∀ e ∈ p.saved.threads, cluOf e.1 ∈ cluList .a p.clu) ∧ (∀ e ∈ p.saved.cores, e.1 / 8 ∈ cluList .a p.clu)
         ∧ (p.saved.cores.map (·.1)).Nodup ∧ (p.saved.sram.map (·.1)).Nodup ∧ (p.saved.poison.map (·.1)).Nodup
         ∧ (∀ e ∈ p.saved.sram, sramBase ≤ e.1 ∧ (e.1 - sramBase) / 2 ^ 22 ∈ cluList .a p.clu)
         ∧ ∀ e ∈ p.saved.poison, sramBase ≤ 8 * e.1 ∧ (8 * e.1 - sramBase) / 2 ^ 22 ∈ cluList .a p.clu) := by
  decide +kernel

/-- A header of 304 bytes and the zero bytes after it (R363). -/
def imageOf (head : Nat) : Image := { header := beBytes 304 head ++ List.replicate 208 0, body := [] }
/-- A boot image of version 1 with an empty body, signed with the key whose public point is the base point; digests and signature are computed outside Lean. -/
def bootImg : Image := imageOf 0x4b5a494d0100000001000000000000000000000000000000000000000000000004aa87ca22be8b05378eb1c71ef320ad746e1d3b628ba79b9859f741e082542a385502f25dbf55296c3a545e3872760ab73617de4a96262c6f5d9e98bf9292dc29f8f41dbd289a147ce9da3113b5f0b8c00a60b1ce1d7e819d7a431d7c90ea0e5f0000000000000000000000000000000000000000000000000000000000000038b060a751ac96384cd9327eb1b1e36a21fdb71114be07434c0cc7bf63f6e1da274edebfe76f65fbd51ad2f14898b95b08d999057ba3d2d969260045c55b97f089025959a6f434d651d207d19fb96e9e4fe0e86ebe0e64f85b96a9c75295df61b69feb2d631ab857095a02547d13cdcc4b048f7bc13e4d919d4aeea8622758bcadab66d6cad089f29511d2a34903a989
/-- The same for a later stage. -/
def stageImg : Image := imageOf 0x4b5a494d0100000001000000000000000001000000000000000000000000000004aa87ca22be8b05378eb1c71ef320ad746e1d3b628ba79b9859f741e082542a385502f25dbf55296c3a545e3872760ab73617de4a96262c6f5d9e98bf9292dc29f8f41dbd289a147ce9da3113b5f0b8c00a60b1ce1d7e819d7a431d7c90ea0e5f0000000000000000000000000000000000000000000000000000000000000038b060a751ac96384cd9327eb1b1e36a21fdb71114be07434c0cc7bf63f6e1da274edebfe76f65fbd51ad2f14898b95b08d999057ba3d2d969260045c55b97f089025959a6f434d651d207d19fb96e9e4fe0e86ebe0e64f85b96a9c75295df6144e8522cce854fa87aecfa0b71f0796435f55846f387d1a4815809a7732a96036017fa9658d6638383b0d78e3ed0fcac
/-- The same for an image that firmware measures into MEAS4. -/
def fwImg : Image := imageOf 0x4b5a494d0100000001000000000000000004000000000000000000000000000004aa87ca22be8b05378eb1c71ef320ad746e1d3b628ba79b9859f741e082542a385502f25dbf55296c3a545e3872760ab73617de4a96262c6f5d9e98bf9292dc29f8f41dbd289a147ce9da3113b5f0b8c00a60b1ce1d7e819d7a431d7c90ea0e5f0000000000000000000000000000000000000000000000000000000000000038b060a751ac96384cd9327eb1b1e36a21fdb71114be07434c0cc7bf63f6e1da274edebfe76f65fbd51ad2f14898b95b08d999057ba3d2d969260045c55b97f089025959a6f434d651d207d19fb96e9e4fe0e86ebe0e64f85b96a9c75295df61c691fc5dd183e412deb7ebf5db3c268fbba545682e94eb7069cb664cca5d9fe93a15d1b387eebbd72c0bca39e0bc0f8b
/-- A hub that holds the hash of that key. -/
def keyed (h : Hub) : Hub := { h with keyHash := [(0, beBytes 48 0x8c4f262412b7f9ed867606705a130de5212fd048fbaf8c3842f4a240f4b45ba0c90f82194ccdda3ed89c96b0afe1d51d)] }
/-- SHA-384 of "abc" is that of FIPS 180-4. -/
theorem test_sha384 : sha384 [0x61, 0x62, 0x63] = beBytes 48 0xcb00753f45a35e8bb5a03d699ac65007272c32ab0eded1631a8b605a43ff5bed8086072ba1e7cc2358baeca134c825a7 := by decide +kernel
/-- R363, R364: images pass for the roles of their measurement registers, and not for another key. -/
theorem wit_images : (keyed {}).passes (fun r => r == 0) bootImg = true ∧ (keyed {}).passes (fun r => r == 1) stageImg = true
    ∧ (keyed {}).passes (fun r => decide (4 ≤ r ∧ r ≤ 7)) fwImg = true ∧ ({} : Hub).passes (fun r => r == 0) bootImg = false
    ∧ (1 : Word).toNat ≤ imageVersion bootImg := by decide +kernel
/-- A boot image passes (`wit_images`), and the other hypotheses. -/
theorem wit_BootAndWipe : State.reset.hub.wiping = true ∧ demo.hub.wiping = false ∧ ownS.hub.life = 0
    ∧ ({ ownS.hub with life := 1 } : Hub).life = 1 ∧ ({ ownS.hub with life := 2 } : Hub).life = 2
    ∧ (let h : Hub := keyed { valid := true, owner := 2, recovery := true }
       h.passes (fun r => r == 0) bootImg = true ∧ h.valid = true ∧ h.owner = 2 ∧ (0 : Word).toNat < h.timer + 2000000000 ∧ h.recovery = true ∧ h.booted = false ∧ h.wipe.failed = 0) := by
  decide +kernel
theorem wit_Spdm : ({ life := 3 } : Hub).life = 3 ∧ demo.hub.life ≠ 3 ∧ ({ identity := true } : Hub).identity = true ∧ demo.hub.identity = false
    ∧ 1 ≤ 8 ∧ 8 < 9 := by decide +kernel
/-- Images of each role pass (`wit_images`): the hypotheses beside that. -/
theorem wit_Firmware : (keyed { booted := true }).booted = true ∧ demo.hub.booted = false ∧ ({ verifying := true } : Hub).verifying = true
    ∧ demo.hub.verifying = false ∧ ownS.hub.minVersion < (1 : Word).toNat ∧ (0 : Word).toNat ≤ ownS.hub.minVersion
    ∧ (List.range 64).find? (fun k => (mapFind ownS.hub.retired k).isNone) = some 0
    ∧ retireOk ownS.hub (mapSet ownS.hub.retired 0 (0x8000000000000000 ||| ((0x1 : Word) &&& 0x3FF))) = true
    ∧ (let h : Hub := { clu := 1, fclu := 1 }
       retireOk h (mapSet h.retired 0 (0x8000000000000000 ||| ((0x0 : Word) &&& 0x3FF))) = false)
    ∧ (let h : Hub := { retired := (List.range 64).map fun i => (i, wordN (2 ^ 63 + i)) }
       (List.range 64).all (fun k => (mapFind h.retired k).isSome) = true
         ∧ (h.retired.find? (fun e => e.2 == (0x8000000000000000 ||| ((0x3 : Word) &&& 0x3FF)))).map (·.1) = some 3)
    ∧ ownS.hub.retired.find? (fun e => e.2 == 0x8000000000000000) = none := by decide +kernel
/-- No island above 115 °C, and one above it; island 0 above 100 °C and above 875 MHz; a power above and below the cap. -/
theorem wit_PowerCap : (∀ i, i < 32 → (demo.hub.island i).prio < 8) ∧ (∀ i, i < 32 → ([1601].getD i 0) ≤ 1840) ∧ 1840 < [1841].getD 0 0
    ∧ 1600 < [1601].getD 0 0 ∧ 875 < (demo.hub.island 0).clk ∧ demo.hub.cap < 1501 ∧ 1425 * 100 ≤ demo.hub.cap * 95
    ∧ (({ islands := [(0, { clk := 900 })] } : Hub).island 0).clk < (({ islands := [(0, { clk := 900 })] } : Hub).island 0).fmax := by decide +kernel
theorem wit_CirosContexts : (∃ e ∈ (schedS [] []).dieA.regions ++ (schedS [] []).dieB.regions, e.2.rcb = 0x50000)
    ∧ (∀ e ∈ (schedS [] []).dieA.regions ++ (schedS [] []).dieB.regions, e.2.rcb ≠ 0x90000)
    ∧ (schedS [] []).rcbChain 8 0x90000 = some [0x90000] ∧ ((schedS [] []).thread 511).run = .free ∧ (schedS [] []).cluRuns (cluOf 511) = true ∧ (schedS [] []).coreUp (coreOf 511) = true
    ∧ (0x9000 : Word).toNat % 16 = 0 ∧ (schedS [] []).hub.recovery = false ∧ (0x9001 : Word).toNat % 16 ≠ 0
    ∧ ({ ciros := true, run := .halted } : Thread).ciros = true ∧ ({ run := .halted } : Thread).run = .halted ∧ demo.me.ciros = false
    ∧ demo.me.run ≠ .halted := by decide +kernel
theorem wit_RegisterWrites : (0x4000000000000000 : Word).getLsbD 62 = true ∧ (0 : Word).getLsbD 62 = false ∧ ownS.hub.valid = true
    ∧ demo.physRow 0x000FFFF000000108 = .reg ∧ 0x000FFFF000000108 % 8 = 0 ∧ 0x000FFFF000000109 % 8 ≠ 0 ∧ demo.physRow 0x10000 ≠ .reg := by decide +kernel

/-! ### Issue, fetch and translation -/

/-- A vector entry with its lanes free, and one whose lanes another thread's turn holds. -/
theorem wit_IssueRuns : demo.me.hedges = [] ∧ Instr.usesLanes (.vld none .plain 1 9 0 none) = true
    ∧ (demo.core 0).turn ++ (demo.core 0).want = [] ∧ Instr.readsLate (.vst none .plain 1 9 0 none) = false
    ∧ goesOn (exec (.vst none .plain 1 9 0 none) (issueState (demo.seekTurn 0) (.vst none .plain 1 9 0 none))) = true
    ∧ (let s := ({ demo with threads := [(0, th0), (1, th0)] } : State).modCore 0 fun c => { c with turn := [1] }
       grantsMeet (s.thread 1).grant s.me.grant = true ∧ s.hasTurn 0 = false ∧ s.me.stop = none ∧ s.me.halt = .none) := by decide +kernel
/-- A `HEDGE` to CT that waits for a live copy node. -/
theorem wit_IssueHeld : let h : Hedge := { dst := 1, nodes := [1] }
    let s := (nodeS [(1, cpyN .waiting)]).modMe fun th => { th with hedges := [h] }
    h ∈ s.me.hedges ∧ s.hedgeLive s.cur h = true ∧ .ct ∈ Instr.classes (.ld .n8 .plain .dflt 5 9 0) ∧ maskHas h.dst .ct = true
      ∧ s.me.halt = .none := by decide +kernel

/-- The word of the `STRIP` of R108 at an address. -/
def stripAt (a : Nat) : State := { demo.performBytes (.thread 9)
    (numWrite a 32 0x00000000000000000000040400000908FFFFFFFFFFFFFFC000000000000005C0) with old := [], threads := [(0, { th0 with pc := wordN a })] }
theorem wit_FetchReadsWord : isDOp ((stripAt 0x1000).byte 0x1000) = true ∧ 0x1000 % 128 ≠ 112 ∧ isDOp ((stripAt 0x1070).byte 0x1070) = true
    ∧ 0x1070 % 128 = 112 ∧ (stripAt 0x1000).fetchCtl.2 = .instr (.strip 5 8 9 0 0 4 4 0 0 (wordI (-64)))
    ∧ (let b : Block := { vf := 0x1000, epc := 0x2000, start := 0x2000, group := [0] }
       b.epc.toNat % 8 = 0 ∧ (b.epc - b.start).toNat < 2048 ∧ 2048 ≤ ({ b with start := 0x1800 } : Block).epc.toNat - 0x1800
         ∧ (match codeAt.xlate (codeAt.ctxOf 0) .fetch b.epc with | .ok p => p.pa == 0x2000 | .error _ => false) = true
         ∧ (decodeE (BitVec.ofNat 64 (codeAt.readPhys 0x2000 8))).toOption = some (.vnop {})) := by decide +kernel
theorem wit_FetchFaults : aligned16 (0x1001 : Word) = false
    ∧ (match demo.xlate (demo.ctxOf 0) .fetch 0x40000000 with | .ok _ => false | .error c => c == .fetchfault) = true
    ∧ (let s := { codeAt with poison := [(0x1008 / 8, true)] }
       s.poisoned (0x1000 + 8) = true ∧ ((List.range 8).all fun j => !s.poisoned (0x1000 + j)) = true)
    ∧ codeAt.mayIssue = true ∧ codeAt.me.entering = false
    ∧ (match (codeAt.modMe fun th => { th with pc := 0x40000000 }).fetchCtl.2 with | .trap t => t.cause == .fetchfault | .instr _ => false) = true := by
  decide +kernel

/-- Page tables at 0x200000 (root), 0x100000, 0x110000 and 0x120000: a leaf of 1 GiB and one of 64 KiB, an entry that is not
valid, and a malformed one. -/
def tableS : State := State.reset.performBytes (.thread 9) (numWrite 0x200000 8 0x100001 ++ numWrite 0x100000 8 0x3F
  ++ numWrite 0x100008 8 0x110001 ++ numWrite 0x110000 8 0x120001 ++ numWrite 0x120000 8 0x30001F ++ numWrite 0x120008 8 0x31003F
  ++ numWrite 0x100010 8 0x1000000000000001)
theorem wit_Walks : (tableS.readPhys (0x200000 + 8 * walkIndex 0 3) 8).testBit 5 = false ∧ tableS.walk 0x12345 3 0x200000 = .leaf 0x3F 30
    ∧ tableS.walk 0x40010000 3 0x200000 = .leaf 0x31003F 16 ∧ tableS.walk 0x40000000 3 0x200000 = .malformed 0x120000
    ∧ tableS.walk 0x80000000 3 0x200000 = .malformed 0x100010 ∧ tableS.walk 0xC0000000 3 0x200000 = .fault := by decide +kernel

/-- Cluster 0 with a bank of each kind, and translations of seven pages of 64 KiB at 0x40000000: to HBM4, read-only, to
host memory, a peer, a register block, a hole and a ternary page. -/
def pagesS (sup : Bool) : State :=
  let e := fun (k : Nat) (w : Word) => ({ asid := 0, page := 0x4000 + k, log := 16, entry := w } : TlbEntry)
  let s := demoWith { th0 with sup := sup, x := [(9, 0x40000000), (10, 0x40040000)] }
  { s with
    clusters := [(0, { modes := [(1, .scratch), (2, .fifo)] })],
    hub := { linksUp := [2] },
    cores := [(0, { tlb := [e 0 0x1003F, e 1 0x20033, e 2 0x400000000003F, e 3 0x800000000003F, e 4 0xFFFF00000003F, e 5 0x1000000003F,
      e 6 0x40000000003003F] })] }
/-- The translation of an address in that state. -/
def placeOf (s : State) (acc : Acc) (va : Word) : Cause ⊕ Nat :=
  match s.xlate (s.ctxOf s.cur) acc va with
  | .ok p => .inr p.pa
  | .error c => .inl c
theorem wit_Translation : let s := pagesS false
    placeOf s .read 0x0100000000000000 = .inl .datafault ∧ placeOf s .read 0x00FFFF0000000000 = .inl .datafault
      ∧ placeOf s .read 0x00FFFF0000020008 = .inr (sramBase + 0x20008) ∧ placeOf s .write 0x00FFFF0000040000 = .inl .prot
      ∧ placeOf s .read 0x00FFFF0000040000 = .inr (sramBase + 0x40000) ∧ placeOf s .fetch 0x50000000 = .inl .fetchfault
      ∧ placeOf s .read 0x40000008 = .inr 0x10008 ∧ placeOf s .write 0x40010000 = .inl .prot
      ∧ placeOf s .read 0x40020000 = .inr 0x4000000000000 ∧ placeOf s .read 0x40040000 = .inl .prot
      ∧ placeOf (pagesS true) .read 0x40040000 = .inr 0xFFFF000000000 ∧ placeOf s .read 0x40050000 = .inl .datafault
      ∧ placeOf s .read 0x40060000 = .inl .prot ∧ placeOf { s with hub := {} } .read 0x40030000 = .inl .datafault
      ∧ placeOf s .read 0x40030000 = .inl .prot := by decide +kernel
theorem wit_Translation_leaf : leafAllows 0x1003F 16 .rmw true ∧ ¬ leafAllows 0x20033 16 .write true := by
  constructor <;> unfold leafAllows <;> decide
theorem wit_PhysicalMap : demo.hub.stk.getLsbD 0 = true ∧ 0x10000 % 2 ^ 36 < demo.stackCap 0 ∧ demo.physRow 0x10000 = .hbm
    ∧ demo.physRow (2 ^ 50) = .host ∧ demo.physRow (2 ^ 51 + 2 ^ 40 + 5) = .peer ∧ demo.physRow (2 ^ 51 + 2 ^ 39) = .hole
    ∧ demo.physRow 0x000FFFF000000000 = .reg ∧ demo.physRow (2 ^ 40) = .hole := by decide +kernel
/-- The owner register of the hub, and half of it. -/
theorem wit_RegisterRead : let s := pagesS true
    s.me.clean = true ∧ s.me.sup = true ∧ s.poison = [] ∧ (s.me.rx 10 + 0x108).toNat % 8 = 0
      ∧ placeOf s .read (s.me.rx 10 + 0x108) = .inr 0xFFFF000000108 ∧ s.physRow 0xFFFF000000108 = .reg ∧ 0xFFFF000000108 % 8 = 0
      ∧ Ty.n64.width / 8 = 8 ∧ Ty.n32.width / 8 < 8 := by decide +kernel
theorem wit_AccessFaults : let s := pagesS false
    (s.me.rx 9 + 0x10000).toNat % 8 = 0 ∧ placeOf s .read (s.me.rx 9 + 0x10000) = .inr 0x20000 ∧ placeOf s .rmw (s.me.rx 9 + 0x10000) = .inl .prot
      ∧ (let t := { tableS with threads := [(0, { th0 with region := some { root := 0x200000 }, x := [(9, 0x80000000)] })] }
         t.lookup (t.ctxOf 0) 0x80000000 = .malformed 0x100010 ∧ inWindow 0x80000000 = false)
      ∧ (let p := { s with poison := [(0x10008 / 8, true)] }
         p.poisoned (0x10000 + 8) = true ∧ ((List.range 8).all fun j => !p.poisoned (0x10000 + j)) = true ∧ p.me.pend = []
           ∧ (Ty.n64.width / 8 = 8)) := by decide +kernel

/-- Cluster 0 with a cache way and lines: line 0x200 (address 0x10000) held or not, and a pinned line of its set. -/
def linesS (ls : List CacheLine) : State := demo.modCluster 0 fun c => { c with modes := (List.range 32).map fun b => (b, if b = 3 then .cache else .scratch), lines := ls }
theorem wit_Pins : let l : CacheLine := { line := 0x200, way := 3 }
    let o : CacheLine := { line := 0x600, way := 3, pinned := true }
    inWindow (demo.me.rx 8 + 0).toNat = true ∧ inWindow (demo.me.rx 9 + 0).toNat = false ∧ inHbm (linesS [l]) .read 0x10000 = true
      ∧ ((linesS [l]).cluster 0).ways = [3] ∧ l.line = 0x10000 / 128 ∧ o.line % 1024 = l.line % 1024
      ∧ (((after (exec (.cpin 9 0) (linesS [l]))).cluster 0).lines.any fun x => x.line == 0x200 && x.pinned) = true
      ∧ (((after (exec (.cpin 9 0) (linesS []))).cluster 0).lines.any fun x => x.line == 0x200 && x.pinned) = true
      ∧ ((after (exec (.cpin 9 0) (linesS [o]))).cluster 0).lines = [o] := by decide +kernel

/-! ### Values and rounding -/

theorem wit_PatternValues : 31 < 2 ^ 5 ∧ 512 < 2 ^ 10 ∧ decodeVal .h16 (31 * 2 ^ 10 + 512) = .nan false ∧ (3, 120, 4, 2, 0) ∈ g8Rows
    ∧ (1, 24, 4, 1, 1) ∈ g6Rows ∧ isSN .s8 = true ∧ 0xC0000000 < 2 ^ 32 := by decide +kernel
theorem wit_FloatSpecials : let d := decodeVal .f32
    isF .f32 = true ∧ d 0x7FC00000 = .nan false ∧ d 0x7F800001 = .nan true ∧ d 0x7F800000 = .inf false ∧ d 0xFF800000 = .inf true
      ∧ d 0x3F800000 = .fin false 8388608 (-23) ∧ d 0x80000000 = .fin true 0 (-149) ∧ d 0xBF800000 = .fin true 8388608 (-23)
      ∧ sigAt false 8388608 (-23) (-23) + sigAt true 8388608 (-23) (-23) = 0
      ∧ fAdd .f32 .rdn 0x3F800000 0xBF800000 = (0x80000000, 0) := by decide +kernel
theorem wit_Conversions : isSN .s32 = true ∧ isSN .n8 = true ∧ 0x43804000 < 2 ^ 32 ∧ convert .f32 .n8 .rne 0x43804000 = (255, 17)
    ∧ decodeVal .f32 0xFF800000 = .inf true ∧ decodeVal .f32 0x7FC00000 = .nan false ∧ (0x5B < 2 ^ 8) := by decide +kernel
/-- Operands of each clause; a value below 2^128 and one beyond; the four ranges of R55 for g8. -/
theorem wit_CorrectRounding : (∃ n k e, decodeVal .f32 0x3F800000 = .fin n k e ∧ k ≠ 0 ∧ n = false)
    ∧ cmpVal (powOf false (topExp .f32)) (.fin false 3 0) > 0 ∧ cmpVal (powOf false (topExp .f32)) (.fin false 3 127) ≤ 0
    ∧ cmpVal (powOf false 24) (.fin false 1 25) < 0 ∧ cmpVal (.fin false 1 (-26)) (powOf false (-25)) < 0
    ∧ (0 ≤ cmpVal (.fin false 1 (-25)) (powOf false (-25)) ∧ cmpVal (.fin false 1 (-25)) (powOf false (-24)) < 0)
    ∧ (0 ≤ cmpVal (.fin false 25 2) (powOf false (-24)) ∧ cmpVal (.fin false 25 2) (powOf false 24) ≤ 0) := by
  refine ⟨⟨false, 8388608, -23, by decide +kernel⟩, by decide +kernel⟩

/-! ### Grants, traps and forced saves -/

/-- Elements of v1 under 16 lanes, and the thread as a grant of 8 lanes finds it. -/
def layS (pending : Option (BitVec 7)) : State :=
  demoWith { vecTh 0x0002 300 8 [(1, (List.range 300).map fun k => k % 251)] with blk := none, pendGrant := pending, x := [(10, 100)] }
theorem wit_Relayout : let th := (layS none).thread 0
    mapWf 0 th.v = true ∧ th.vErr = [] ∧ th.vPoison = [] ∧ th.regErr = [] ∧ vtOk th.vtype = true ∧ th.grantOk = true
      ∧ grantBase (0x38 : BitVec 7) + grantLanes (0x38 : BitVec 7) ≤ 16 ∧ th.grant ≠ 0x38
      ∧ (let u := ((layS none).regrant 0 0x38).thread 0
         u.mvl = 1024 ∧ ((List.range 300).all fun e => u.elem 1 8 e == e % 251) = true) := by decide +kernel
theorem wit_SetvlResult_pending : let s := layS (some 0x38)
    s.me.clean = true ∧ s.me.hasVector = true ∧ s.me.pendGrant = some 0x38 ∧ (granted s).mvl = 1024 ∧ (granted s).grant = 0x38 := by
  decide +kernel
theorem wit_VabsentRaised_type : typeTaken (.vlds (some .s4) .plain 1 9 6 0 none) = false ∧ typeTaken (.vamo .add (some .s8) .plain .dflt 1 9 2 0 0 none) = false
    ∧ typeTaken (.vamo .and (some .f32) .plain .dflt 1 9 2 0 0 none) = false := by decide +kernel
theorem wit_VectorIllegal : loadS.me.hasVector = true ∧ memLegal loadS.me (.vld (some .f32) .plain 1 9 0 none) = some false
    ∧ memLegal loadS.me (.vldx none .plain 1 9 1 0 0 0 none) = some false ∧ memLegal loadS.me (.vfill (some .s16) .plain 1 9 0) = some false
    ∧ blkS.me.blk = some blkB ∧ otherLegal blkS.me (.vmeanvar { vd := 1, vc := 2, va := 3 }) = some false
    ∧ otherLegal blkS.me (.vredsum { vd := 1, va := 2, vb := 3, f := 1, ty := some .g8 }) = some false
    ∧ otherLegal blkS.me (.vfcmp { vd := 1, va := 2, vb := 3 }) = some false
    ∧ otherLegal blkS.me (.vpfetchIndirect { va := 3 }) = some false := by decide +kernel
/-- The whole group leaves; all its targets are aligned. -/
theorem wit_BlockControlResult_leave : eAct blkS.me blkB { f := 1, imm := 2 } = blkB.group ∧ keysRise none blkB.pending = true
    ∧ aligned16 (blkB.epc - (blkB.epc &&& 0xF) + wordI (sx 16 2 * 16)) = true ∧ blkB.pending = [] := by decide +kernel

/-- A thread of a region with a limit of 9 whose WATCHDOG is requested. -/
def dogged (th : Thread) (el : Nat) : State := demoWith { th with stop := some el, region := some { cycleLimit := 9 } }
theorem wit_ForcedWaits : let s := (dogged { th0 with x := [(5, wordN 1)] } 0).modCore 0 fun c => { c with nodes := [(1, cpyN .waiting)], nextOrd := 3 }
    dogAsked s 0 { cycleLimit := 9 } ∧ s.me.blk = none
      ∧ (let t := after (exec (.gwait 5) (s.modMe fun th => { th with stop := none }))
         t.me.pc = s.me.pc ∧ t.me.sup = false ∧ t.me.uh = s.me.uh ∧ t.me.run ∈ [Run.ready, .ending])
      ∧ stopsWaiting (.gwait 5) = true ∧ waitsOn .endTask = true
      ∧ (let t := after (exec .endTask (s.modMe fun th => { th with stop := none }))
         t.me.pc = s.me.pc ∧ t.me.run = .ending) := by decide +kernel
/-- Three elements of which two are performed when the save comes, or all. -/
theorem wit_ForcedElements : let s := fun (el : Nat) => (dogged { vecTh 0x000A 3 8 [(1, [7, 8, 9])] with blk := none } el)
    dogAsked (s 2) 2 { cycleLimit := 9 } ∧ (s 2).me.blk = none ∧ (s 2).me.hasVector = true ∧ max 2 (s 2).me.vstart.toNat < (s 2).me.vl
      ∧ (s 9).me.vl ≤ max 9 (s 9).me.vstart.toNat
      ∧ (loadForm (s 2) (.vld none .plain 1 9 0 none)).any (fun f => ((runElems (loadOne f) ((performed (s 2).me f.gov).filter (· < 2))
          (((s 2).modMe fun th => th.dirty f.vd th.ew).chargeVec 8)).2).isNone) = true
      ∧ (storeForm (s 2) (.vst none .plain 1 9 0 none)).any (fun f =>
          let q := runElems (storeOne f.1 (some (s 2).stamp) ((s 2).stamp + 1)) ((performed (s 2).me f.1.gov).filter (· < 2))
            (({ s 2 with stamp := (s 2).stamp + 1 } : State).chargeVec 8)
          q.2.isNone && decide (q.1.me = { (s 2).me with pend := q.1.me.pend, vt := q.1.me.vt })) = true := by decide +kernel
theorem wit_ForcedBlocks : let s := dogged (vecTh 0x0002 3 8 [(1, [1, 2, 3])]) 1
    dogAsked s 1 { cycleLimit := 9 } ∧ s.me.blk = some blkB ∧ blkB.group ≠ [] ∧ blkB.pending = [] ∧ blkB.diverged = false
      ∧ ({ blkB with diverged := true } : Block).diverged = true ∧ ¬ (s.me.stopCycle + 65536 ≤ (s.cluster 0).cycle)
      ∧ ((s.modCluster 0 fun c => { c with cycle := 65536 }).me.stopCycle + 65536 ≤ ((s.modCluster 0 fun c => { c with cycle := 65536 }).cluster 0).cycle)
      ∧ (reduceRow s.me (.vredsum { vd := 2, va := 1, vb := 3, f := 1 })).any (fun q => q.ok && q.e.f == 1
          && [q.e.va, q.e.vb, q.e.vd].all fun v => s.me.regOk v 8) = true
      ∧ max 1 s.me.vstart.toNat < s.me.vl ∧ s.me.vl ≤ 8192 := by decide +kernel

/-! ### Completion of array instructions; ends and hedges -/

/-- A write of n bytes reaches the package's memory, decided. -/
def stores (s : State) (va : Word) (n : Nat) : Bool :=
  (s.pieces (s.ctxOf s.cur) .write va n).2.isNone
    && (s.pieces (s.ctxOf s.cur) .write va n).1.all fun p => s.physRow p.place.pa == .hbm || s.physRow p.place.pa == .sram
/-- A live copy of the thread, with CT stores pending; operations at the bank unit in flight, and failed. -/
theorem wit_FenceAndHedge_nodes : let s := nodeS [(1, cpyN .waiting)]
    1 ∈ s.hedgeNodes (fun _ => true) ∧ mapFind (s.core (coreOf s.cur)).nodes 1 = some (cpyN .waiting) ∧ (cpyN .waiting).live = true
      ∧ (0x08 : BitVec 7).getLsbD 3 = true ∧ (0x20 : BitVec 7).getLsbD 5 = true
      ∧ (let o := { bgO 0x10000 0x20000 0x30000 with ticket := 1 }
         ((ternS [o]).me.bg.filter fun q => q.ticket ≤ (ternS [o]).me.tickets) = [o] ∧ o.failed = none
           ∧ ({ o with failed := some (Cause.datafault, 5) } : BgOp).failed ≠ none) := by decide +kernel
/-- A context of Ciros, and one that was handed the next iteration of its loop nest. -/
theorem wit_EndResult_kept : let p : Packet := { pkt with nest := some { addr := 0x20000, dims := [(0, 2, 1)] }, total := 2, placed := 2, bound := some 0, running := 2 }
    let s := { schedS [p] [] with threads := [(0, { th0 with run := .ending, region := some rgn, task := some 7, ahead := some [1, 0, 0, 0, 0, 0, 1, 0x20000] }),
      (1, { th0 with run := .ending, ciros := true })] }
    (s.thread 0).run = .ending ∧ s.cluRuns (cluOf 0) = true ∧ (s.thread 0).parent = none ∧ (s.thread 0).ciros = false
      ∧ (s.thread 0).ahead = some [1, 0, 0, 0, 0, 0, 1, 0x20000] ∧ (s.die .a).packets.find? (fun q => some q.uid == some 7) = some p
      ∧ (s.thread 1).ciros = true ∧ (s.thread 1).parent = none ∧ ((after (exec (.endTakesEffect 0) s)).thread 0).run = .ready
      ∧ ((after (exec (.endTakesEffect 1) s)).thread 1).run = .halted := by decide +kernel

/-! ### Loads taken late, faults, copies, passes and events: the further clauses -/

/-- A load that the thread has taken and may take again, and an instruction issued while it may. -/
theorem wit_IssueRuns_late : let i : Instr := .ld .n8 .plain .dflt 5 9 0
    let w := (issueState demo i).traced i
    Instr.readsLate i = true ∧ (issueState demo i).me.late = [] ∧ goesOn (exec i w) = true ∧ (after (exec i w)).trace.isSome = true
      ∧ (after (demo.issueInstr i)).me.late.map (·.instr) = [i]
      ∧ (let s := after (demo.issueInstr i)
         let v := (issueState s (.addi 10 6 1)).traced (.addi 10 6 1)
         s.me.hedges = [] ∧ v.me.late ≠ [] ∧ goesOn (exec (.addi 10 6 1) v) = true ∧ (after (exec (.addi 10 6 1) v)).trace.isSome = true
           ∧ (after (s.issueInstr (.addi 10 6 1))).me.late.length = 1) := by decide +kernel
/-- The hedge before a load of HBM4, which is CT, and one to EXT before a load of host memory. -/
theorem wit_IssueHeld_load : let h := fun (d : BitVec 7) => ({ dst := d, nodes := [1] } : Hedge)
    let s := fun (d : BitVec 7) => { pagesS false with cores := [(0, { (pagesS false).core 0 with nodes := [(1, cpyN .waiting)] })] }.modMe
      fun th => { th with hedges := [h d] }
    (s 1).me.hedges = [h 1] ∧ (s 1).hedgeLive 0 (h 1) = true ∧ maskHas (1 : BitVec 7) .ct = true ∧ (s 1).me.halt = .none ∧ (s 1).me.clean = true
      ∧ (s 1).poison = [] ∧ Ty.ldOk .n8 = true ∧ placeOf (s 1) .read ((s 1).me.rx 9 + 0) = .inr 0x10000 ∧ (s 1).physRow 0x10000 = .hbm
      ∧ (s 0x40).hedgeLive 0 (h 0x40) = true ∧ maskHas (0x40 : BitVec 7) .ext = true ∧ placeOf (s 0x40) .read ((s 0x40).me.rx 9 + 0x20000) = .inr 0x4000000000000
      ∧ (s 0x40).physRow 0x4000000000000 = .host
      ∧ .vls ∈ ((loadS.pruneHedges 0).pathsOf (.vst none .plain 1 9 0 none)) := by decide +kernel
/-- A supervisor fetches from a register block. -/
theorem wit_FetchFaults_reg : let s := (pagesS true).modMe fun th => { th with pc := 0x40040000 }
    aligned16 s.me.pc = true ∧ s.poison = [] ∧ (match s.xlate (s.ctxOf s.cur) .fetch s.me.pc with | .ok p => s.physRow p.pa == .reg | .error _ => false) = true := by
  decide +kernel
/-- An older value of the code that a thread may still fetch, R90. -/
theorem wit_FetchReadsWord_old : let s := { codeAt with old := [(0x1000 / 8, [{ old := 7, writer := .thread 0 }])] }
    s.fetchesOld 0 { old := 7, writer := .thread 0 } = true := by decide +kernel
/-- The values are those of the thread's own pending writes or of memory. -/
theorem wit_RegisterRead_own : (pagesS true).ownValues := by
  intro t h
  cases (show none = some t from h)
/-- A range table whose entry 0 covers the first 64 KiB, in each mode, and an address that no entry matches. -/
def rangeS (mode : Nat) : State :=
  { demo with dieA := { range := [(0, 0), (1, wordN (2 ^ 63 + mode * 2 ^ 60 + 16 * 2 ^ 40 + 32 * 2 ^ 32 + 1))] } }
theorem wit_HomeSlice : (List.range 3).all (fun m =>
      let x := (rangeS m).die .a
      let w1 := (x.rangeWord 0 1).toNat
      decide (2 ^ 63 ≤ w1) && (w1 / 2 ^ 60 % 4 == m) && (x.rangeWord 0 0).toNat / 2 ^ 16 % 2 ^ 36 == 0 && decide (0x8080 < w1 % 2 ^ 32 * 65536)
        && (List.range 64).all fun e => e == 0 || decide ((x.rangeWord e 1).toNat < 2 ^ 63)) = true
    ∧ ¬ 0x10000 < ((rangeS 0).die .a |>.rangeWord 0 1).toNat % 2 ^ 32 * 65536 ∧ (rangeS 0).homeSlice 0x8080 = (32 + 0x8080 / 128 % 16, some 0) := by
  decide +kernel
/-- An address without a translation. -/
theorem wit_SlhashResult_fault : inWindow (demo.me.rx 9 + 0x40000000).toNat = false
    ∧ (match demo.lookup (demo.ctxOf demo.cur) (demo.me.rx 9 + 0x40000000).toNat with | .leaf _ _ => false | _ => true) = true
    ∧ 2 ^ 56 ≤ (demo.me.rx 9 + 0x0100000000000000).toNat := by decide +kernel
/-- Frames: a stack of no multiple of 16; a stack whose first, and whose second access fails; a poisoned second word. -/
theorem wit_FrameFaults : let sp := fun (a : Word) => demo.setX 2 a
    demo.me.clean = true ∧ demo.me.hasVector = true ∧ aligned16 (demo.me.pc + 8) = false ∧ aligned16 (demo.me.rx 5) = false
      ∧ aligned16 ((sp 0x4008).me.rx 2) = false ∧ aligned16 ((sp 0x40001000).me.rx 2) = true
      ∧ ((sp 0x40001000).store .ct false (0x40001000 - 16) 8 7).2 = some (.datafault, 0x40000FF0)
      ∧ (match ((sp 0x40001000).load .ct 0x40001000 8).2 with | .error x => x == (Cause.datafault, 0x40001000) | .ok _ => false) = true
      ∧ (let p := { frame 0x5550 3 with poison := [(0x4008 / 8, true)] }
         (p.load .ct (p.me.rx 2) 8).2.toOption = some 0x5550
           ∧ (match ((p.load .ct (p.me.rx 2) 8).1.load .ct (p.me.rx 2 + 8) 8).2 with | .error x => x == (Cause.memue, 0x4008) | .ok _ => false) = true) := by
  decide +kernel

/-- Mask bytes of which the first, and of which the second, lies past the mapped memory. -/
theorem wit_MaskMemory_faults : let s := fun (a : Word) => (demoWith { th0 with vl := 9, m := [(8193, true)] }).setX 10 a
    let get := fun (base : Word) (s' : State) (b : Nat) =>
      let r := s'.load .vls (base + wordN b) 1
      match r.2 with
      | .ok x => (r.1.modMe fun th => th.setMbits 1 ((maskBits (s base).me b).map fun e => (e, x.testBit (e % 8))), none)
      | .error c => (r.1, some c)
    let put := fun (o : Option Nat) (base : Word) (s' : State) (b : Nat) => s'.writeRangeAt (s'.ctxOf s'.cur) .write .vls o false (base + wordN b)
      [s'.me.maskByte 1 b (s base).me.vl] s'.stamp
    [0x40000000, 0x3FFFFFFF].map (fun a => (runElems (get a) (maskSpan (s a).me) ((s a).chargeVec 1)).2)
        = [some (0, .datafault, 0x40000000), some (1, .datafault, 0x40000000)]
      ∧ [0x40000000, 0x3FFFFFFF].map (fun a => (runElems (put (some (s a).stamp) a) (maskSpan (s a).me)
          (({ s a with stamp := (s a).stamp + 1 } : State).chargeVec 1)).2)
        = [some (0, .datafault, 0x40000000), some (1, .datafault, 0x40000000)] := by decide +kernel
/-- A misaligned base; frames that begin past the mapped memory, and whose first element does. -/
theorem wit_SpillFault : let s := fun (a : Word) => loadS.setX 10 a
    let f := fun (a : Word) => frameForm (s a).me 1 a
    let h := fun (a : Word) => (({ s a with stamp := (s a).stamp + 1 } : State).chargeVec (s a).me.ew).writeRangeAt ((s a).ctxOf 0) .write .vls
      (some (s a).stamp) false a ((leBytes 8 (s a).me.vsw.toNat ++ leBytes 8 0).map fun b => (b, 0xFF)) ((s a).stamp + 1)
    aligned16 ((s 0x10001).me.rx 10) = false ∧ (some Ty.s8).getD loadS.me.vTy = .s8 ∧ Ty.s8.width = loadS.me.ew
      ∧ (h 0x40000000).2 = some (.datafault, 0x40000000) ∧ (h 0x3FFFFFF0).2 = none
      ∧ (h 0x3FFFFFF0).1.me = { (s 0x3FFFFFF0).me with pend := (h 0x3FFFFFF0).1.me.pend, vt := (h 0x3FFFFFF0).1.me.vt }
      ∧ (runElems (storeOne (f 0x3FFFFFF0) (some 0) 1) [0, 1, 2] (h 0x3FFFFFF0).1).2 = some (0, .datafault, 0x40000000) := by decide +kernel
theorem wit_FillFault : let s := (loadS.setX 10 0x3FFFFFF0).performBytes (.thread 9) (numWrite 0x3FFFFFF0 8 0x0A000002)
    (match ((loadS.setX 10 0x40000000).load .vls 0x40000000 8).2 with | .error x => x == (Cause.datafault, 0x40000000) | .ok _ => false) = true
      ∧ (s.load .vls (s.me.rx 10) 8).2.toOption = some 0x0A000002 ∧ legalVsw (wordN 0x0A000002) = true
      ∧ (runElems (fillOne s.me.vTy (frameForm s.me 1 0x3FFFFFF0)) [0, 1]
        (((s.load .vls (s.me.rx 10) 8).1.modMe fun th => th.dirty 1 th.ew).chargeVec s.me.ew)).2 = some (0, .datafault, 0x40000000) := by decide +kernel
/-- A `VF` that a WATCHDOG stopped: its tval stands, or has been written since. -/
theorem wit_VectorFetch_dog : let s := demoWith { th0 with vl := 3, tstatus := 2, super := ⟨0x1000, 0x0E, 9, 0⟩, dogAt := some (0x1000, 9, 0x2010) }
    s.me.vr = true ∧ s.me.resume = none ∧ s.me.super.tpc = s.me.pc ∧ s.me.dogAt = some (0x1000, s.me.super.tval, 0x2010)
      ∧ ({ s.me.super with tval := 0x2008 } : TrapBank).tval ≠ 9 ∧ s.me.clean = true := by decide +kernel
/-- More rows than the quarter has; a first row that fails; a buffer with an illegal byte; another tag. -/
theorem wit_TmmaResult_traps : let s := (tileS 0x0002 {}).modMe fun th => { th with x := [(6, 0x10000), (8, 65)] }
    let t := tileS 0x0014 { mode := .torus, tagValid := true, tag := 2 }
    let b := (tileS 0x0002 {}).modCore 0 fun c => { c with wbBad := [(0, 5)] }
    s.me.tiles.contains (1 : AccReg).toNat = true ∧ actMode s.me.vTy = some (s.tile 1).mode ∧ (s.tile 1).mode ≠ .torus ∧ 64 - 0 < (s.me.rx 8).toNat
      ∧ s.rowFault s.me.vTy (fun i => 0x40000000 + wordN i * 0x100) 0 2 = some (0, .datafault, 0x40000000)
      ∧ mapFind (b.core (coreOf b.cur)).wbBad 0 = some 5 ∧ actMode b.me.vTy = some (b.tile 1).mode
      ∧ b.rowFault b.me.vTy (fun i => b.me.rx 6 + 0 + wordN i * b.me.rx 0) 0 1 = none
      ∧ actMode t.me.vTy = some (t.tile 1).mode ∧ mapFind (t.core (coreOf t.cur)).wbBad 0 = none ∧ (t.tile 1).tagValid = true
      ∧ (t.tile 1).tag ≠ (t.me.rx 10).extractLsb' 32 4 := by decide +kernel
/-- The tile state of a test with page tables and no cached translation. -/
def coldS (s : State) : State :=
  (((s.modCore 0 fun c => { c with tlb := [] }).modMe fun th => { th with region := some { root := 0x200000 } }).performBytes (.thread 9)
    (numWrite 0x200000 8 0x10000F ++ numWrite 0x100000 8 0x3F))
theorem wit_TmmaCompletes : let s := coldS ((tileS 0x0002 {}).modMe fun th => { th with x := [(6, 0x10000), (7, 0x100), (8, 2)] })
    tlbFresh s (s.ctxOf s.cur) ∧ s.me.clean = true ∧ s.me.hasVector = true ∧ s.poison = [] ∧ (s.core (coreOf s.cur)).accErr = [] ∧ s.me.tiles.contains (1 : AccReg).toNat = true
      ∧ actMode s.me.vTy = some (s.tile 1).mode ∧ (s.tile 1).mode ≠ .torus ∧ 16 * 0 + (s.me.rx 8).toNat ≤ 64
      ∧ mapFind (s.core (coreOf s.cur)).wbBad 0 = none
      ∧ ((List.range 2).all fun k =>
          let a : Word := s.me.rx 6 + 0 + wordN k * s.me.rx 7
          a.toNat % rowAlign s.me.vTy == 0 && (s.pieces (s.ctxOf s.cur) .read a (32 * s.me.vTy.memWidth)).2.isNone) = true := by
  refine ⟨fresh_of_nil _ _ (by decide +kernel), ?_⟩
  decide +kernel
/-- Column 1 of an s8 tile; column 1 of a torus tile with a bound slot. -/
theorem wit_DrainCompletes : let s := coldS drainS
    let t := coldS (torusS (some 8))
    (tlbFresh s (s.ctxOf s.cur) ∧ tlbFresh t (t.ctxOf t.cur)) ∧ s.me.clean = true ∧ t.me.clean = true ∧ drainTy s.me.vTy = true ∧ (s.tile 1).mode ≠ .torus
      ∧ ((List.range 256).filter fun c => s.me.active (some 0) c) = [1]
      ∧ stores s (s.me.rx 9 + 0 + wordN (0 + 1)) 1 = true
      ∧ t.me.vTy = .t32 ∧ (t.tile 1).mode = .torus ∧ t.me.vstart = 0 ∧ (t.tile 1).noiseOf 1 ≤ 8
      ∧ ((mapFind (t.cluster (cluOf t.cur)).keys (t.tile 1).tag.toNat).map fun k => k.ceil.toNat) = some 8
      ∧ (t.me.rx 9 + wordN (4 * 1)).toNat % 4 = 0 ∧ stores t (t.me.rx 9 + wordN (4 * 1)) 4 = true
      ∧ s.me.regOk 4 32 = true ∧ (1 : BitVec 7).toNat ≤ s.me.mvl := by
  refine ⟨⟨fresh_of_nil _ _ (by decide +kernel), fresh_of_nil _ _ (by decide +kernel)⟩, ?_⟩
  decide +kernel
/-- A float and an integer tile; scales of each kind. -/
theorem wit_DrainedValue : ({ mode := .float } : Tile).mode = .float ∧ ({ mode := .int } : Tile).mode = .int ∧ drainTy .s8 = true
    ∧ decodeVal .f32 0x3F800000 = .fin false 8388608 (-23) ∧ decodeVal .f32 0x7FC00000 = .nan false ∧ decodeVal .f32 0xFF800000 = .inf true := by
  decide +kernel
/-- One product of a weight and an activation, in a TERNBANK page of weights: with a legal byte, and with 243. -/
theorem wit_BankProduct : let o := { bgO 0x10000 0x20000 0x30000 with ticket := 1 }
    let s := fun (b : Nat) => (ternS [o]).performBytes (.thread 9) (numWrite 0x10000 1 b ++ numWrite 0x20000 1 7)
    let r := (s 2).readPrefix o.ctx .bnk o.w o.wBytes
    r.2.2 = none ∧ r.2.1.length = o.wBytes ∧ r.1.notTern o = none ∧ (r.2.1.all fun x => decide (x.toNat < 243)) = true ∧ o.b = 1
      ∧ (match (r.1.readActs o (List.range o.b)).2 with | .ok xs => xs.length == 1 | .error _ => false) = true
      ∧ (r.1.readRange o.ctx .bnk o.x o.k).2.toOption = some [7] ∧ 0 < o.n ∧ o.y.toNat % 65536 + 4 * o.n ≤ 65536
      ∧ (match (r.1.readRange o.ctx .bnk o.x o.k).1.xlate o.ctx .write o.y with
        | .ok p => (r.1.readRange o.ctx .bnk o.x o.k).1.physRow p.pa == .hbm
        | .error _ => false) = true
      ∧ ((s 243).runBg o).2.map (·.1) = some .ternbyte := by decide +kernel
/-- Descriptors that are misaligned, in the window, unreadable, that fail a check, and whose keys meet the window. -/
theorem wit_KeysetResult_traps : let s := fun (l : List (Nat × Byte × Byte)) => ksS.performBytes (.thread 9) l
    let ok := fun (s : State) => (match (s.readRange (s.ctxOf 0) .cop 0x10000 256).2 with
      | .ok bs => let f := fun off n => leNat ((bs.drop off).take n)
        f 0 8 != 0 && f 0 8 % 64 == 0 && f 8 8 != 0 && f 8 8 % 64 == 0 && f 28 2 == 768 && f 30 2 == 2048 && f 32 1 == 1
          && (bs.drop 33).all (· == 0) && f 20 4 != 0 && decide (f 16 4 ≤ f 20 4)
      | .error _ => false)
    (ksS.me.rx 9 + 8).toNat % 64 ≠ 0 ∧ meetsWindow (ksS.me.rx 8 + 0) 256 = some (ksS.me.rx 8) ∧ (ksS.me.rx 8 + 0).toNat % 64 = 0
      ∧ (match (ksS.readRange (ksS.ctxOf 0) .cop 0x40000000 256).2 with | .error x => x == (Cause.datafault, 0x40000000) | .ok _ => false) = true
      ∧ ok (s []) = true ∧ ok (s (numWrite 0x10020 1 2)) = false ∧ (ksS.cluster 0).slotBusy 1 = false
      ∧ ok (s (numWrite 0x10000 8 0x00FFFF0000000040)) = true ∧ (meetsWindow (wordN 0x00FFFF0000000040) 150994944).isSome = true
      ∧ ok (s (numWrite 0x10008 8 0x00FFFF0000000040)) = true ∧ (meetsWindow (wordN 0x00FFFF0000000040) 75595776).isSome = true
      ∧ meetsWindow (wordN 0x1000000) 150994944 = none := by decide +kernel
/-- Images: misaligned, in the window, ending in it, unreadable at the header or after it, and with a reserved bit. -/
theorem wit_CipherImages : let bad := fun (h : Nat) => h / 2 ^ 10 % 2 ^ 6 ≠ 0 ∨ h / 2 ^ 20 % 2 ^ 12 ≠ 0 ∨ h / 2 ^ 64 % 2 ^ 64 ≠ 0
    imgS.me.clean = true ∧ imgS.me.cPend = [] ∧ imgS.me.cFail = [] ∧ (imgS.me.rx 9 + 8).toNat % 16 ≠ 0 ∧ (imgS.me.rx 9 + 0).toNat % 16 = 0
      ∧ meetsWindow (imgS.me.rx 8) 16 = some (imgS.me.rx 8) ∧ meetsWindow (imgS.me.rx 9) 16 = none
      ∧ meetsWindow 0x00FFFEFFFFFFFFF0 16 = none ∧ (meetsWindow 0x00FFFEFFFFFFFFF0 24).isSome = true
      ∧ (match (imgS.readRange (imgS.ctxOf 0) .cop 0x40000000 16).2 with | .error x => x == (Cause.datafault, 0x40000000) | .ok _ => false) = true
      ∧ (match (imgS.readRange (imgS.ctxOf 0) .cop 0x10000 16).2 with
        | .ok hb => leNat hb == 0x0000000700020001 && (imgS.readRange (imgS.ctxOf 0) .cop 0x10010 8).2.toOption.isSome
        | .error _ => false) = true
      ∧ ¬ bad 0x0000000700020001 ∧ bad 0x00020401
      ∧ (let s := imgS.performBytes (.thread 9) (numWrite 0x3FFFFFF0 8 0x0000000700020001)
         (s.readRange (s.ctxOf 0) .cop 0x3FFFFFF0 16).2.toOption.isSome = true
           ∧ (match (s.readRange (s.ctxOf 0) .cop 0x40000000 8).2 with | .error x => x == (Cause.datafault, 0x40000000) | .ok _ => false) = true)
      ∧ (imgS.writeRangeAt (imgS.ctxOf 0) .write .cop none false 0x40000000 ((leBytes 20 7).map fun b => (b, 0xFF))).2
        = some (.datafault, 0x40000000) := by decide +kernel
theorem wit_TableMoves : (imgS.me.rx 9 + 8).toNat % 32 ≠ 0
    ∧ (match (imgS.readRange (imgS.ctxOf 0) .vls 0x40000000 1056).2 with | .error x => x == (Cause.datafault, 0x40000000) | .ok _ => false) = true
    ∧ (imgS.writeRangeAt (imgS.ctxOf 0) .write .vls none false 0x40000000 ((leBytes 1056 7).map fun b => (b, 0xFF))).2 = some (.datafault, 0x40000000)
    ∧ (1 ≤ (6 : BitVec 8).toNat ∧ (6 : BitVec 8).toNat ≤ 6 ∧ (0 : BitVec 4).toNat ≤ 10) ∧ (16 = 2 ^ 4 ∧ 64 = 4 ^ 3) := by decide +kernel
/-- The one cached translation, of the first GiB, is the one that the page tables give. -/
theorem fresh_of_gib (s : State) (ctx : Ctx)
    (h : (s.core (coreOf ctx.tid)).tlb ++ (s.cluster (cluOf ctx.tid)).tlb = [{ asid := 0, page := 0, log := 30, entry := 0x3F }])
    (h3 : s.readAt ctx.root 8 = 0x10000F) (h2 : s.readAt 0x100000 8 = 0x3F) : tlbFresh s ctx := by
  intro x hx _ va hva
  rw [h, List.mem_singleton] at hx
  subst hx
  have i3 : vaIndex va 3 = 0 := by simp only [vaIndex, bitsN] at *; omega
  have i2 : vaIndex va 2 = 0 := by simp only [vaIndex, bitsN] at *; omega
  rw [State.walk, State.walk, i3]
  simp [h3, i2, show bitsN 0x10000F 51 8 * 256 = 0x100000 from rfl, h2, show malformed 0x10000F 3 = false by decide,
    show malformed 0x3F 2 = false by decide, show Nat.testBit 0x10000F 0 = true by decide, show Nat.testBit 0x10000F 5 = false by decide,
    show Nat.testBit 0x3F 0 = true by decide, show Nat.testBit 0x3F 5 = true by decide, show pageLog 2 = 30 from rfl]
/-- A member whose mask is zero, and a key stream that the die does not admit. -/
def zeroS (cycle : Nat) : State :=
  let d : Drove := { slot := 2, count := 4, members := [{ tid := 0, cd := 3, src := ⟨List.replicate 768 0 ++ [5], 64, 2, 768⟩, p := 1, entries := [] }], first := some 0 }
  let k : KeySlot := { bk := 0x1000000, ksk := 0x20000000, fresh := 64, ceil := 2000, n := 768, ctx := walkCtx }
  ((walkS []).modCore 0 fun c => { c with tlb := (demo.core 0).tlb }).modCluster 0 fun c => { c with cycle := cycle, running := some (d, k, 0) }
theorem wit_PassResult : tlbFresh (zeroS 131250) walkCtx ∧ (((zeroS 131250).cluster 0).running).any (fun r =>
      r.2.2 + max 131250 (10775 * r.1.members.length) ≤ ((zeroS 131250).cluster 0).cycle && r.2.1.ctx == walkCtx
      && (r.1.members.map fun m => (m.tid, m.cd)).Nodup && r.1.members.all fun m => m.cd < 8 && m.src.dim == 768
        && (List.range 768).all (fun i => m.src.words[i]? == some 0)) = true
    ∧ ((zeroS 131250).thread 0).pend = [] ∧ ((zeroS 131250).thread 0).late = []
    ∧ (((zeroS 131249).cluster 0).cycle < 0 + max 131250 (10775 * 1)) := by
  refine ⟨fresh_of_gib _ _ (by decide +kernel) (by decide +kernel) (by decide +kernel), ?_⟩
  decide +kernel
theorem wit_PassResult_keys : let bad := fun (k : KeySlot) => (zeroS 131250).rangeFaults k.ctx k.bk 150994944 ++ (zeroS 131250).rangeFaults k.ctx k.ksk 75595776
    let k : KeySlot := { bk := 0x1000000, ksk := 0x20000000, fresh := 64, ceil := 2000, n := 768, ctx := walkCtx }
    (bad k).isEmpty = true ∧ (bad { k with ksk := 0x3FFF0000 }).isEmpty = false ∧ 0 ∉ (zeroS 131250).keyHit := by decide +kernel
/-- Four clusters of the die read other key streams: the pass does not begin. -/
theorem wit_PassResult_admits : let d : Drove := { slot := 2, count := 4 }
    let k := fun (b : Nat) => ({ bk := wordN (b * 0x10000000), ksk := 0x20000000, fresh := 64, ceil := 2000, n := 768, ctx := {} } : KeySlot)
    let s := { demo with clusters := (0, { started := [(d, k 9)] }) :: ([1, 2, 3, 4].map fun c => (c, { running := some (d, k c, 0) })) }
    (s.cluster 0).running = none ∧ (s.cluster 0).started = [(d, k 9)] ∧ s.admits 0 (k 9) = false := by decide +kernel

/-- A thread with pending CT and VLS writes. -/
def pendS : State := demo.modMe fun th => { th with pend := [{ path := .ct, bytes := [(0x10000, 1, 0xFF)] }, { path := .vls, bytes := [(0x10008, 1, 0xFF)] }] }
theorem wit_FenceResult : pendS.me.clean = true ∧ (∃ w ∈ pendS.me.pend, fencedPath w.path = true ∧ ∃ q ∈ pendS.me.pend, w.meets q = true)
    ∧ ((after (exec (.fence .acq .thr) pendS)).me.pend.map (·.joined)) = [true, true]
    ∧ ((after (exec (.fence .rel .sys) pendS)).me.pend.map fun w => w.hedged) = [3, 3]
    ∧ (after (exec (.fence .sc .sys) pendS)).me.pend = [] := by decide +kernel
/-- A `HEDGE` from CPY and COP with a live copy and a pending pass; from EXT, with a copy of host memory. -/
theorem wit_HedgeResult : let s := (nodeS [(1, cpyN .waiting)]).modMe fun th => { th with cPend := [1] }
    let x := { pagesS false with cores := [(0, { (pagesS false).core 0 with nodes := [(1, { op := .cpy 0x40000000 0x40020000 2 })] })] }
    s.me.clean = true ∧ (s.core (coreOf s.cur)).nodes = [(1, cpyN .waiting)] ∧ (cpyN .waiting).live = true ∧ (cpyN .waiting).preds = 0 ∧ (cpyN .waiting).ctx.tid = s.cur
      ∧ ((after (exec (.hedge 0x18 1) s)).me.hedges.map fun h => (h.nodes, h.passes)) = [([1], [1])]
      ∧ (let t := after (exec (.hedge 0x18 1) s)
         t.me.hedges.all (fun h => t.hedgeLive 0 h) = true ∧ .ct ∈ ((t.pruneHedges 0).pathsOf (.st .n8 .plain .dflt 5 9 0)) ∧ maskHas (1 : BitVec 7) .ct = true)
      ∧ x.nodeOutside { op := .cpy 0x40000000 0x40020000 2 } = true ∧ (nodeS []).nodeOutside (cpyN .waiting) = false
      ∧ ((after (exec (.hedge 0x40 1) x)).me.hedges.map fun h => h.nodes) = [[1]] := by decide +kernel
/-- A `BGEMV` on host memory, which a `HEDGE` from EXT names. -/
theorem wit_HedgeResult_bank : let o := { bgO 0x40020000 0x40000000 0x40000000 with ticket := 1 }
    let s := (pagesS false).modMe fun th => { th with bg := [o], tickets := 1 }
    o ∈ s.me.bg ∧ o.failed = none ∧ s.bgOutside o = true ∧ (demoWith { th0 with bg := [bgO 0x10000 0x20000 0x30000] }).bgOutside (bgO 0x10000 0x20000 0x30000) = false
      ∧ (let d := { o with failed := some (Cause.datafault, 0x40000000) }
         ([d].filter fun q => q.ticket ≤ 1) = [d] ∧ (∀ q ∈ [d], q.failed ≠ none) ∧ (0x20 : BitVec 7).getLsbD 5 = true) := by decide +kernel
/-- An arrival of an ended task beside one of a running thread. -/
theorem wit_BarrierResult_ended : (barS { count := 3, arrived := [4, 512] }).me.rx 10 = 2
    ∧ (barB { count := 2, arrived := [515] }).arrived = [515] ∧ (barB { count := 2, arrived := [515] }).arrived.length + 1 = ((barS { count := 2 }).me.rx 10).toNat
    ∧ (barS { count := 2 }).cur ∉ (barB { count := 2, arrived := [515] }).arrived := by decide +kernel
/-- The region as its table holds it now; a packet that cannot be read. -/
theorem wit_SpawnResult_target : let own : Region := { id := 3, rcb := 0x50000, listBase := 0x60000, listLog := 1 }
    let heir : Region := { id := 4, rcb := 0x70000, listBase := 0x80000, listLog := 1, chain := [0x70000, 0x50000] }
    let live := { spS 1 with dieA := { (spS 1).dieA with regions := (2, { own with listBase := 0x90000 }) :: (spS 1).dieA.regions } }
    ((spS 1).liveRegion own).getD own = own ∧ (live.liveRegion own).getD own = { own with listBase := 0x90000 }
      ∧ (spS 1).dieA.regions = [(1, heir)] ∧ (spS 1).dieB.regions = [] ∧ heir.id.setWidth 64 = (spS 1).me.rx 10 ∧ own.rcb ∈ heir.chain
      ∧ (spS 1).dieA.regions.all (fun x => x.2.id.setWidth 64 != (spS 1).me.rx 11) = true
      ∧ (match (((spS 1).drain 0 fencedPath).readRange ((spS 1).ctxOf 0) .ct 0x40000000 128).2 with | .error x => x == (Cause.datafault, 0x40000000) | .ok _ => false) = true
      ∧ ((List.range 8).all fun k => (spS 1).physMem .read (0x50040 + k) && (spS 1).physMem .write (0x50040 + k)) = true
      ∧ ((List.range 128).all fun k => (spS 1).physMem .read (0x60080 + k) && (spS 1).physMem .write (0x60080 + k)) = true := by decide +kernel
/-- The slot lies where the die reaches memory; the die held in reset. -/
theorem wit_PacketConsumed_mapped : (schedS [] (slot1 1)).hub.recovery = false
    ∧ ((List.range 128).all fun k => (schedS [] (slot1 1)).physMem .read (0x60000 + k) && (schedS [] (slot1 1)).physMem .write (0x60000 + k)) = true
    ∧ ({ schedS [] (slot1 1) with hub := { recovery := true } } : State).hub.recovery = true := by decide +kernel
/-- What a candidate claims: a free context, and one whose task has issued its `END`. -/
theorem wit_Placement_claims : let s := schedS [pkt] []
    0 ∈ s.claims pkt ∧ (s.thread 0).run = .free ∧ s.hub.recovery = false
      ∧ (let t := { s with threads := [(0, { th0 with run := .ending, region := some rgn, task := some 99 })] }
         0 ∈ t.claims pkt ∧ 0 ∉ t.choices pkt) := by decide +kernel
theorem wit_DeadlineMissed_mapped : let s := { schedS [pkt] [] with time := 5 }
    ((List.range 48).all fun k => s.physMem .read (0x50040 + k) && s.physMem .write (0x50040 + k)) = true ∧ pkt.region.rcb = 0x50000
      ∧ s.hub.recovery = false := by decide +kernel
/-- A completion write that fails: without a node and with and without a ring, and with the `GNODE` that placed it. -/
theorem wit_PacketCompleted_fails : let r : Region := { rgn with ring := some (0x70000, 1) }
    let p := fun (r : Region) (n : Option (Nat × Nat)) => ({ pkt with placed := 1, compAddr := 0x40000000, region := r, node := n } : Packet)
    let s := fun (p : Packet) (ix : Nat) => ((schedS [p] (numWrite 0x50068 8 ix)).modCore 0 fun c => { c with nodes := [(1, { op := .gnode 0x20000, st := .launched })] })
    ((s (p rgn none) 0).die .a).packet 7 = some (p rgn none) ∧ (p rgn none).placed = (p rgn none).total ∧ (p rgn none).running = 0
      ∧ (s (p rgn none) 0).resident rgn = true ∧ rgn.ring = none
      ∧ (match (s (p rgn none) 0).xlate rgn.schedCtx .write 0x40000000 with | .error c => c == .datafault | .ok _ => false) = true
      ∧ ((List.range 32).all fun k => (s (p r none) 0).physMem .read (0x50058 + k) && (s (p r none) 0).physMem .write (0x50058 + k)) = true
      ∧ ((List.range 72).all fun k => (s (p r none) 0).physMem .read (0x70000 + k) && (s (p r none) 0).physMem .write (0x70000 + k)) = true
      ∧ (s (p r none) 0).resident r = true
      ∧ [0, 2].map (fun ix => decide (2 ^ 1 ≤ ((s (p r none) ix).readPhys (0x50000 + 104) 8 + 2 ^ 64 - (s (p r none) ix).readPhys (0x70000 + 32 * 2 ^ 1) 8) % 2 ^ 64)) = [false, true]
      ∧ (mapFind ((s (p rgn (some (0, 1))) 0).core 0).nodes 1).any (fun m => m.live) = true
      ∧ (let q := { p rgn none with compAddr := 0x20000 }
         let t := { s q 0 with poison := [(0x20000 / 8, true)] }
         q.compAddr.toNat % 65536 + 8 ≤ 65536 ∧ (match t.xlate rgn.schedCtx .write 0x20000 with | .ok x => t.poisoned x.pa | .error _ => false) = true) := by
  decide +kernel
/-- A `VF` to resume stands at the next pc: its block resumes at the E-word that tval names. -/
def atVfS : State := (codeAt.performBytes (.thread 9) (numWrite 0x1000 16 (match encode (.vf 0x1000) with | some (.c w) => w.toNat | _ => 1))).modMe fun th =>
  { th with pc := 0xFF0, stop := some 3, tstatus := 2, super := ⟨0x1000, 8, 0x2008, 0⟩, region := some { cycleLimit := 9 } }
theorem wit_WatchdogStops_vf : let u := atVfS.modMe fun th => { th with pc := th.pc + 16 }
    atVfS.me.stop = some 3 ∧ atVfS.me.halt = .none ∧ atVfS.me.run = .ready ∧ atVfS.me.blk = none ∧ atVfS.me.sup = false ∧ u.atVf u.cur = true ∧ u.me.resumesAt = some 0x2008 := by
  decide +kernel
/-- Threads that differ in floor, in priority, in vt, and in number only. -/
theorem wit_TurnBefore : let reg := fun (p f : Nat) => some ({ prio := p, floor := f, rcb := p * 128 } : Region)
    let s := fun (a b : Thread) => ({ demo with threads := [(0, a), (1, b)] } : State)
    TurnBefore (s { th0 with region := reg 0 1 } { th0 with region := reg 9 0 }) 0 1 ∧ TurnBefore (s { th0 with region := reg 3 0 } { th0 with region := reg 2 0 }) 0 1
      ∧ TurnBefore (s { th0 with vt := 1 } { th0 with vt := 2 }) 0 1 ∧ TurnBefore (s th0 th0) 0 1 := by
  refine ⟨.inl ⟨⟨_, rfl, by decide +kernel⟩, ?_⟩, .inr ⟨?_, .inl (by decide +kernel)⟩, .inr ⟨?_, .inr ⟨by decide +kernel, .inl (by decide +kernel)⟩⟩,
    .inr ⟨?_, .inr ⟨by decide +kernel, .inr ⟨by decide +kernel, by decide⟩⟩⟩⟩
  · rintro ⟨r, hr, h⟩
    cases (show some _ = some r from hr)
    exact Nat.not_lt_zero _ h
  · constructor <;> (rintro ⟨r, hr, h⟩; cases (show some _ = some r from hr); exact absurd h (Nat.not_lt_zero _))
  · constructor <;> (rintro ⟨r, hr, _⟩; cases (show none = some r from hr))
  · constructor <;> (rintro ⟨r, hr, _⟩; cases (show none = some r from hr))
/-- Thread 1 with 16 lanes shares them with the exclusive task of thread 0, of higher priority, on the lower 8. -/
def exclS : State := { demo with threads := [(0, { th0 with grant := 0x30, task := some 1, region := some { excl := true, prio := 2 } }), (1, { th0 with reform := true })] }
theorem wit_GrantReformed : (exclS.thread 1).reform = true ∧ (exclS.thread 0).reform = false ∧ TakesLanesOf exclS 1 0 ∧ (∀ k, TakesLanesOf exclS 1 k → k = 0)
    ∧ grantOk (exclS.thread 1).grant = true ∧ grantOk (exclS.thread 0).grant = true
    ∧ grantLanes (exclS.thread 0).grant < grantLanes (exclS.thread 1).grant ∧ 4 ≤ grantLanes (exclS.thread 1).grant
    ∧ (∀ e, ¬ TakesLanesOf demo 1 e) := by
  refine ⟨by decide +kernel, by decide +kernel, ⟨by decide, by decide, by decide +kernel, by decide +kernel, ⟨_, rfl, rfl⟩, by decide +kernel,
    by decide +kernel, by decide +kernel⟩, ?_, by decide +kernel, by decide +kernel, by decide +kernel, by decide +kernel, ?_⟩
  · rintro k ⟨h1, h2, h3, -⟩
    have h : k = 0 ∨ k = 2 ∨ k = 3 := by omega
    rcases h with rfl | rfl | rfl
    · rfl
    · exact absurd (show (exclS.thread 2).task = none by decide +kernel) h3
    · exact absurd (show (exclS.thread 3).task = none by decide +kernel) h3
  · rintro k ⟨h1, h2, h3, -⟩
    have h : k = 0 ∨ k = 2 ∨ k = 3 := by omega
    rcases h with rfl | rfl | rfl <;> exact h3 (by decide +kernel)

/-- A page left out until after this test, and one whose time has come. -/
theorem wit_HotPages_skip : let x : DieState := { cycle := 2 ^ 20, hot := [(0x123, 0, 5000)], hotSkip := [(0x123, 2 ^ 20 - 1)] }
    (∀ k ∈ x.hotSkip, k.1 = 0x123 → k.2 < x.hotEpoch + 2 ^ 20) ∧ ¬ (∀ k ∈ ({ x with hotSkip := [(0x123, 2 ^ 20)] } : DieState).hotSkip, k.1 = 0x123 → k.2 < x.hotEpoch + 2 ^ 20)
      ∧ ((after (exec (.hotPageEpochEnd .a) { demo with dieA := x })).hub.rasCount) = 1 := by decide +kernel
/-- Clusters and cores in service and out of it. -/
theorem wit_Errors_service : (sramBase + 5 - sramBase) / 2 ^ 22 = 0 ∧ demo.hub.clu.getLsbD 0 = true ∧ ({ clu := 0xFFFE } : Hub).clu.getLsbD 0 = false
    ∧ (mapGet 0xFF demo.hub.cores (0 / 32)).getLsbD (0 / 4 % 8) = true
    ∧ (let s := ({ demo with hub := { clu := 0xFFFE } } : State)
       ¬ ((sramBase + 5 - sramBase) / 2 ^ 22 < 16 ∧ s.hub.clu.getLsbD ((sramBase + 5 - sramBase) / 2 ^ 22) = true) ∧ s.physRow (sramBase + 5) = .sram)
    ∧ ¬ 512 < 512 := by decide +kernel
/-- A late load of the core's thread when the error arises. -/
theorem wit_Errors_late : (after (demo.issueInstr (.ld .n8 .plain .dflt 5 9 0))).me.late ≠ [] := by decide +kernel
theorem wit_RemoteReads_ports : 8 ≤ 8 ∧ 7 < 8 ∧ ((5 : Nat) :: []).getD 1 0 = 0 ∧ (mapGet [] accS.stale 0 : List Word) = [] := by decide +kernel
/-- A copy with a line of a peer still to read, one with a line to write there, and a thread's write pending to a peer. -/
theorem wit_HoltPeers_copies : let q := partAt 0x40030000 0x8000000000000 2
    let r : Node := { lineN q with ctx := { user := true } }
    let w : Node := { cpyN .launched with rows := [(0x40030000, 2)], data := [(0, [5, 6])] }
    let s := { pagesS false with
      hub := { linksUp := [2], windows := [(0, 0), (1, 0xE000000000010000)] },
      cores := [(0, { (pagesS false).core 0 with nodes := [(1, r), (2, w)] })],
      threads := [(0, { th0 with pend := [{ path := .ct, bytes := [(0x8000000000000, 1, 0xFF)] }] })] }
    2 ∈ s.hub.linksUp ∧ r.copying = true ∧ w.copying = true ∧ s.physRow 0x8000000000000 = .peer ∧ q ∈ r.todo
      ∧ (∃ c ∈ w.linesLeft, c = (0x40030000, 2)) ∧ mapFind (s.core 0).nodes 2 = some w
      ∧ (s.thread 0).pend.any (fun x => x.bytes.any fun b => s.physRow b.1 == .peer) = true := by decide +kernel
/-- A core out of service, and the dies held in reset. -/
theorem wit_Reductions_up : demo.coreUp ({} : RedGroup).core = true ∧ demo.hub.recovery = false
    ∧ ({ demo with hub := { clu := 0 } } : State).coreUp ({} : RedGroup).core = false ∧ ({ recovery := true } : Hub).recovery = true := by decide +kernel
/-- `NoDeadlineDue`, decided. -/
theorem noDue_of_all (s : State) (die : DieId) (h : ((s.die die).packets.all fun p => !s.candidate p || p.missed || decide (s.time.toNat < p.deadline.toNat)) = true) :
    NoDeadlineDue s die := by
  intro p hp hc hm
  have := List.all_eq_true.mp h p hp
  simpa [hc, hm] using this
/-- A deadline that comes due at a write of the region table, and none. -/
theorem wit_TableWrites_due : let s := { schedS [pkt] [] with time := 5, hub := ownS.hub }
    s.hub.recovery = false ∧ ((s.die .a).packets.map (·.uid)).Nodup ∧ pkt ∈ (s.die .a).packets ∧ s.candidate pkt = true ∧ pkt.missed = false
      ∧ pkt.deadline.toNat ≤ s.time.toNat ∧ pkt.region.die = .a ∧ goesOn (exec (.deadlineMiss .a pkt.uid) s) = true
      ∧ NoDeadlineDue { s with time := 4 } .a ∧ NoDeadlineDue rcbS .a ∧ s.hub.valid = true := by
  refine ⟨by decide +kernel, by decide +kernel, by decide +kernel, by decide +kernel, by decide +kernel, by decide +kernel, by decide +kernel,
    by decide +kernel, ?_, ?_, by decide +kernel⟩
  · exact noDue_of_all _ _ (by decide +kernel)
  · exact noDue_of_all _ _ (by decide +kernel)
theorem wit_TableWrites_bounds : (4 ≤ 4 ∧ 256 ≤ 256) ∧ (3 < 4 ∧ 255 < 256) ∧ (16 ≤ 16 ∧ 15 < 16) := by decide
theorem wit_Swaps_due : NoDeadlineDue (partS { en := true, st := .resident, clu := 1 } {}) .a := by
  exact noDue_of_all _ _ (by decide +kernel)
theorem wit_ForcedElements_tmma : let s := coldS ((tileS 0x0002 {}).modMe fun th => { th with stop := some 3, x := [(6, 0x10000), (7, 0x100), (8, 20)] })
    let r : Region := { root := 0x200000, cycleLimit := 9 }
    let s := s.modMe fun th => { th with region := some r }
    tlbFresh s (s.ctxOf s.cur) ∧ dogAsked s 3 r ∧ s.me.blk = none ∧ s.me.hasVector = true ∧ s.me.tiles.contains (1 : AccReg).toNat = true
      ∧ (s.core (coreOf s.cur)).accErr = [] ∧ actMode s.me.vTy = some (s.tile 1).mode ∧ (s.tile 1).mode ≠ .torus ∧ 16 * 0 + (s.me.rx 8).toNat ≤ 64
      ∧ mapFind (s.core (coreOf s.cur)).wbBad 0 = none ∧ s.poison = []
      ∧ s.rowFault s.me.vTy (fun k => s.me.rx 6 + 0 + wordN k * s.me.rx 7) 0 20 = none ∧ max 3 s.me.vstart.toNat < (s.me.rx 8).toNat := by
  refine ⟨fresh_of_nil _ _ (by decide +kernel), ?_⟩
  decide +kernel

end Sys2Proof.Tests
end

section
/-!
The proof of O6. Of all operations of the model only a few write memory: a byte write (`State.putByte`), the clearing
of a range of addresses, the restore of a saved context and the wipe after reset. The lemmas of `Laws/Memory` say that
each of them keeps the canonical form. What follows carries this through the operations that are built of them, in the
order of the model: a lemma `f_mem` says that `f` leaves memory as it is, a lemma `f_wf` that `f` keeps the canonical
form. `exec_wf` then goes through the instructions and events, and `step_wf` through the turns.
-/
namespace Sys2Proof.Machine

/-! ## Outcomes -/

/-- The state with which the body of a meaning ends. -/
def Out.state : Out → State
  | .done s | .goto _ s | .trap _ s | .stop s | .wait s | .hold s => s

/-- The state with which the body of an E-word ends. -/
def EOut.state : EOut → State
  | .done s | .trap _ s | .stop s => s

/-- The next state, where there is one, has a canonical memory. -/
def NextWf : Host.Outcome State Fault Refusal → Prop
  | .next s => Memory.wf s.mem
  | .fault _ | .refused _ => True

@[simp] theorem Out.state_done (s : State) : (Out.done s).state = s := rfl
@[simp] theorem Out.state_goto (pc : Word) (s : State) : (Out.goto pc s).state = s := rfl
@[simp] theorem Out.state_trap (t : Trap) (s : State) : (Out.trap t s).state = s := rfl
@[simp] theorem Out.state_stop (s : State) : (Out.stop s).state = s := rfl
@[simp] theorem Out.state_wait (s : State) : (Out.wait s).state = s := rfl
@[simp] theorem Out.state_hold (s : State) : (Out.hold s).state = s := rfl
@[simp] theorem EOut.state_done (s : State) : (EOut.done s).state = s := rfl
@[simp] theorem EOut.state_trap (t : Trap) (s : State) : (EOut.trap t s).state = s := rfl
@[simp] theorem EOut.state_stop (s : State) : (EOut.stop s).state = s := rfl
@[simp] theorem nextWf_next (s : State) : NextWf (.next s) ↔ Memory.wf s.mem := Iff.rfl

/-! ## Branches, pairs and folds -/

section
variable (c : Prop) [Decidable c]

@[simp] theorem State.mem_ite (s t : State) : (if c then s else t).mem = if c then s.mem else t.mem := apply_ite ..
@[simp] theorem Out.state_ite (s t : Out) : (if c then s else t).state = if c then s.state else t.state := apply_ite ..
@[simp] theorem EOut.state_ite (s t : EOut) :
    (if c then s else t).state = if c then s.state else t.state :=
  apply_ite ..
@[simp] theorem fst_ite {α β : Type} (s t : α × β) : (if c then s else t).1 = if c then s.1 else t.1 := apply_ite ..
@[simp] theorem Memory.wf_ite (m n : List (Nat × Byte)) :
    Memory.wf (if c then m else n) = if c then Memory.wf m else Memory.wf n := apply_ite ..
@[simp] theorem nextWf_ite (o p : Host.Outcome State Fault Refusal) :
    NextWf (if c then o else p) ↔ if c then NextWf o else NextWf p := by split <;> rfl

end

@[simp] theorem foldl_mem {β : Type} {f : State → β → State} {l : List β} {s : State}
    (hf : ∀ a b, (f a b).mem = a.mem) :
    (l.foldl f s).mem = s.mem :=
  foldl_keeps State.mem f hf l s

theorem foldl_wf {β : Type} {f : State → β → State} {l : List β} {s : State} (hs : Memory.wf s.mem)
    (hf : ∀ a b, Memory.wf a.mem → Memory.wf (f a b).mem) : Memory.wf (l.foldl f s).mem :=
  foldl_holds (fun s => Memory.wf s.mem) f hf l s hs

/-- The first part of a pair that a match has taken apart. -/
theorem mem_of_eq {α : Type} {p : State × α} {t : State} {x : α} {m : List (Nat × Byte)} (h : p = (t, x))
    (hp : p.1.mem = m) : t.mem = m := by subst h; exact hp

theorem wf_of_eq {α : Type} {p : State × α} {t : State} {x : α} (h : p = (t, x)) (hp : Memory.wf p.1.mem) :
    Memory.wf t.mem := by subst h; exact hp

section
variable {s : State}

/-! ## Operations that write memory

The lemmas of `Laws/Memory` in the form that the simplifier uses. -/

@[simp] theorem State.performBytes_wf (hs : Memory.wf s.mem) (w : Party) (bs : List (Nat × Byte × Byte)) :
    Memory.wf (s.performBytes w bs).mem := State.performBytes_memOk s w bs hs
@[simp] theorem State.performNth_wf (hs : Memory.wf s.mem) (tid n : Nat) : Memory.wf (s.performNth tid n).mem :=
  State.performNth_memOk s tid n hs
@[simp] theorem State.drainW_wf (hs : Memory.wf s.mem) (tid : Nat) (which : PendW → Bool) :
    Memory.wf (s.drainW tid which).mem := State.drainW_memOk s tid which hs
@[simp] theorem State.drain_wf (hs : Memory.wf s.mem) (tid : Nat) (which : Path → Bool) :
    Memory.wf (s.drain tid which).mem := State.drain_memOk s tid which hs
@[simp] theorem State.drainAll_wf (hs : Memory.wf s.mem) (tid : Nat) : Memory.wf (s.drainAll tid).mem :=
  State.drainAll_memOk s tid hs
@[simp] theorem State.zeroBank_wf (hs : Memory.wf s.mem) (clu b : Nat) : Memory.wf (s.zeroBank clu b).mem :=
  State.zeroBank_memOk s clu b hs
@[simp] theorem State.resetClusters_wf (hs : Memory.wf s.mem) (cs : List Nat) : Memory.wf (s.resetClusters cs).mem :=
  State.resetClusters_memOk s cs hs
@[simp] theorem State.restore_wf (hs : Memory.wf s.mem) (cs : List Nat) (x : Snapshot) :
    Memory.wf (s.restore cs x).mem :=
  State.restore_memOk s cs x hs
@[simp] theorem State.wipedMem_wf (hs : Memory.wf s.mem) : Memory.wf s.wipedMem.mem := State.wipedMem_memOk s hs
@[simp] theorem State.afterReset_wf (hs : Memory.wf s.mem) : Memory.wf s.afterReset.mem := State.afterReset_memOk s hs
@[simp] theorem State.takeTrap_wf (hs : Memory.wf s.mem) (tid : Nat) (tpc : Word) (vr : Bool) (t : Trap) :
    Memory.wf (s.takeTrap tid tpc vr t).mem := State.takeTrap_memOk s tid tpc vr t hs
@[simp] theorem wf_mapDropRange (m : List (Nat × Byte)) (lo hi : Nat) (h : Memory.wf m) :
    Memory.wf (mapDropRange m lo hi) :=
  mapWf_mapDropRange _ _ _ _ h

/-! ## Operations on the state -/

@[simp] theorem State.tookBytes_mem : s.tookBytes.mem = s.mem := by simp [State.tookBytes]

@[simp] theorem State.beforeWrite_wf (hs : Memory.wf s.mem) (tid : Nat) (w : PendW) :
    Memory.wf (s.beforeWrite tid w).mem := by simp [State.beforeWrite, hs]

@[simp] theorem State.notePut_mem (path : Path) (pas : List Nat) : (s.notePut path pas).mem = s.mem := by
  unfold State.notePut
  split <;> simp

@[simp] theorem State.issue_mem (tid : Nat) (w : PendW) : (s.issue tid w).mem = s.mem := by simp [State.issue]

@[simp] theorem State.fixLate_mem (tid : Nat) (which : Taken → Bool) : (s.fixLate tid which).mem = s.mem := by
  simp [State.fixLate]

@[simp] theorem State.bindIn_mem (which : Late → Bool) (t : Nat) : (s.bindIn which t).mem = s.mem := by
  simp [State.bindIn]

@[simp] theorem State.before_wf (hs : Memory.wf s.mem) (tid : Nat) (p : Path) : Memory.wf (s.before tid p).mem := by
  simp [State.before, hs]

@[simp] theorem State.writePhys_wf (hs : Memory.wf s.mem) (who : Party) (bs : List (Nat × Byte × Byte)) :
    Memory.wf (s.writePhys who bs).mem := by simp [State.writePhys, hs]

@[simp] theorem State.noteTern_mem (e log : Nat) : (s.noteTern e log).mem = s.mem := (State.noteTern_kept s e log).2.1.1

@[simp] theorem State.logMalformed_mem (tid pa : Nat) : (s.logMalformed tid pa).mem = s.mem := by
  simp [State.logMalformed]

@[simp] theorem State.noteXlate_mem (ctx : Ctx) (va : Word) : (s.noteXlate ctx va).mem = s.mem := by
  simp only [State.noteXlate]
  (repeat' split) <;> simp

@[simp] theorem State.noteSpan_mem (ctx : Ctx) (acc : Acc) (va : Word) (n : Nat) :
    (s.noteSpan ctx acc va n).mem = s.mem := by simp [State.noteSpan]

@[simp] theorem State.takeDog_wf (hs : Memory.wf s.mem) (tid : Nat) : Memory.wf (s.takeDog tid).mem := by
  simp only [State.takeDog]
  (repeat' split) <;> simp [hs]

@[simp] theorem State.saveHalt_wf (hs : Memory.wf s.mem) (tid : Nat) : Memory.wf (s.saveHalt tid).mem := by
  simp [State.saveHalt, hs]

@[simp] theorem State.settledHalt_wf (hs : Memory.wf s.mem) (tid : Nat) : Memory.wf (s.settledHalt tid).mem := by
  simp [State.settledHalt, hs]

@[simp] theorem State.settled_wf (hs : Memory.wf s.mem) (tid : Nat) : Memory.wf (s.settled tid).mem := by
  simp [State.settled, hs]

@[simp] theorem State.forcedSave_wf (hs : Memory.wf s.mem) (tid : Nat) : Memory.wf (s.forcedSave tid).mem := by
  simp [State.forcedSave, hs]

/-- However a control instruction ends, what follows performs pending writes or takes a trap (R335, R341). -/
@[simp] theorem finishCtl_wf {size : Nat} {o : Out} (ho : Memory.wf o.state.mem) : NextWf (finishCtl size o) := by
  cases o with
  | done | goto | trap | stop | wait | hold =>
    simp only [Out.state] at ho
    simp [finishCtl, ho]

@[simp] theorem guardRegs_wf {srcs : List Src} {k : State → Out} (hs : Memory.wf s.mem)
    (hk : Memory.wf (k s).state.mem) :
    Memory.wf (guardRegs srcs s k).state.mem := by
  unfold guardRegs
  split
  · exact hk
  · simp [State.regErrTrap, hs]

@[simp] theorem guardVA_wf {k : State → Out} (hs : Memory.wf s.mem) (hk : Memory.wf (k s).state.mem) :
    Memory.wf (guardVA s k).state.mem := by simp [guardVA, hs, hk]

@[simp] theorem guardSup_wf {i : Instr} {k : State → Out} (hs : Memory.wf s.mem) (hk : Memory.wf (k s).state.mem) :
    Memory.wf (guardSup i s k).state.mem := by simp [guardSup, hs, hk]

@[simp] theorem illegal_wf (hs : Memory.wf s.mem) (v : Word) : Memory.wf (illegal v s).state.mem := by
  simp [illegal, hs]

/-! ## Operands and charges -/

@[simp] theorem State.scanPos_mem (tid pos : Nat) : (s.scanPos tid pos).mem = s.mem := by
  simp only [State.scanPos]
  (repeat' split) <;> simp

@[simp] theorem State.scan_mem (ops : List (VReg × Nat × Nat)) : (s.scan ops).mem = s.mem := by simp [State.scan]

/-- The parity scan before the body of a vector instruction leaves memory. -/
@[simp] theorem guardVec_wf {ops : List (VReg × Nat × Nat)} {reads : Thread → List (Nat × List (VReg × Nat × Nat))}
    {k : State → Out} (hs : Memory.wf s.mem) (hk : ∀ t : State, Memory.wf t.mem → Memory.wf (k t).state.mem) :
    Memory.wf (guardVec ops reads s k).state.mem := by
  simp only [guardVec]
  split
  · simp [hs]
  · exact hk _ (by simp [hs])

@[simp] theorem State.regrant_mem (tid : Nat) (h : BitVec 7) : (s.regrant tid h).mem = s.mem := by simp [State.regrant]

@[simp] theorem State.charge_mem (n : Nat) : (s.charge n).mem = s.mem := by
  simp only [State.charge]
  (repeat' split) <;> simp

@[simp] theorem State.chargeVec_mem (u : Nat) : (s.chargeVec u).mem = s.mem := by simp [State.chargeVec]

/-! ## What engines write for an event -/

@[simp] theorem State.engineNum_wf (hs : Memory.wf s.mem) (who : Party) (pa n x : Nat) :
    Memory.wf (s.engineNum who pa n x).mem := by simp [State.engineNum, hs]

@[simp] theorem State.freeWord_mem : s.freeWord.1.mem = s.mem := by simp [State.freeWord]

@[simp] theorem State.bumpWord_wf (hs : Memory.wf s.mem) (who : Party) (pa : Nat) :
    Memory.wf (s.bumpWord who pa).mem := by simp [State.bumpWord, hs]

@[simp] theorem State.faultEvent_wf (hs : Memory.wf s.mem) (r : Region) (k : EventKind) (subject : Nat) (tval : Word)
    :
    Memory.wf (s.faultEvent r k subject tval).mem := by
  unfold State.faultEvent
  split <;> simp [hs]

@[simp] theorem State.setPacket_mem (d : DieId) (p : Packet) : (s.setPacket d p).mem = s.mem := by
  simp [State.setPacket]

@[simp] theorem State.miss_wf (hs : Memory.wf s.mem) (p : Packet) : Memory.wf (s.miss p).mem := by simp [State.miss, hs]

@[simp] theorem State.countLate_wf (hs : Memory.wf s.mem) (d : DieId) : Memory.wf (s.countLate d).mem := by
  unfold State.countLate
  exact foldl_wf hs fun a p ha => by split <;> simp [ha]

/-! ## Partitions and swaps -/

@[simp] theorem State.writePart0_wf (hs : Memory.wf s.mem) (d : DieId) (p : Nat) (v : Word) :
    Memory.wf (s.writePart0 d p v).mem := by simp [State.writePart0, hs]

@[simp] theorem State.writePart_wf (hs : Memory.wf s.mem) (d : DieId) (p word : Nat) (v : Word) :
    Memory.wf (s.writePart d p word v).mem := by
  unfold State.writePart
  split <;> simp [hs]

@[simp] theorem State.setPartSt_mem (d : DieId) (p : Nat) (st : PartSt) : (s.setPartSt d p st).mem = s.mem := by
  simp [State.setPartSt]

@[simp] theorem State.haltClusters_mem (cs : List Nat) : (s.haltClusters cs).mem = s.mem := by simp [State.haltClusters]

@[simp] theorem State.writeSwap_wf (hs : Memory.wf s.mem) (d : DieId) (v : Word) : Memory.wf (s.writeSwap d v).mem := by
  simp [State.writeSwap, hs]

@[simp] theorem State.endSwap_mem (d : DieId) : (s.endSwap d).mem = s.mem := by simp [State.endSwap]

/-! ## Register blocks -/

@[simp] theorem State.logAccess_mem (who : Writer) : (s.logAccess who).mem = s.mem := by
  unfold State.logAccess
  split <;> simp

@[simp] theorem State.expire_mem : s.expire.mem = s.mem := by simp [State.expire]

@[simp] theorem State.dropWrite_mem (m : BitVec 16) (posted : Bool) : (s.dropWrite m posted).mem = s.mem := by
  simp [State.dropWrite]

theorem State.ownerMay_wf {k : State → State} (hs : Memory.wf s.mem) (m : BitVec 16) (posted : Bool)
    (hk : ∀ t : State, Memory.wf t.mem → Memory.wf (k t).mem) : Memory.wf (s.ownerMay m posted k).mem := by
  simp [State.ownerMay, hs, hk]

theorem State.ownerOnly_wf {k : State → State} (hs : Memory.wf s.mem) (m : BitVec 16)
    (hk : ∀ t : State, Memory.wf t.mem → Memory.wf (k t).mem) : Memory.wf (s.ownerOnly m k).mem :=
  State.ownerMay_wf hs m true hk

@[simp] theorem State.ownClaim_mem (m : BitVec 16) (v : Word) : (s.ownClaim m v).mem = s.mem := by simp [State.ownClaim]

@[simp] theorem State.heartBeat_mem (m : BitVec 16) (v : Word) : (s.heartBeat m v).mem = s.mem := by
  simp [State.heartBeat]

@[simp] theorem State.succeed_mem (m : BitVec 16) (v : Word) : (s.succeed m v).mem = s.mem := by simp [State.succeed]

@[simp] theorem State.putRange_mem (d : DieId) (e w : Nat) (v : Word) : (s.putRange d e w v).mem = s.mem := by
  simp [State.putRange]

@[simp] theorem State.writeRange_mem (d : DieId) (e w : Nat) (v : Word) : (s.writeRange d e w v).mem = s.mem := by
  simp [State.writeRange]

@[simp] theorem State.writeRegion_wf (hs : Memory.wf s.mem) (d : DieId) (i : Nat) (v : Word) :
    Memory.wf (s.writeRegion d i v).mem := by
  simp only [State.writeRegion]
  (repeat' split) <;> simp [hs]

@[simp] theorem State.setBank_mem (d : DieId) (ch b : Nat) (x : Bank) (rm alerts : Nat) :
    (s.setBank d ch b x rm alerts).mem = s.mem := by simp [State.setBank]

@[simp] theorem State.activate_mem (die : DieId) (ch bank row : Nat) : (s.activate die ch bank row).mem = s.mem := by
  simp [State.activate]

@[simp] theorem State.writeChannel_mem (d : DieId) (ch : Nat) (v : Word) : (s.writeChannel d ch v).mem = s.mem := by
  simp [State.writeChannel]

@[simp] theorem State.writeAccess_mem (d : DieId) (stack entry w : Nat) (v : Word) :
    (s.writeAccess d stack entry w v).mem = s.mem := by simp [State.writeAccess]

@[simp] theorem State.writeRed_mem (g : Nat) (v : Word) : (s.writeRed g v).mem = s.mem := by
  simp only [State.writeRed]
  (repeat' split) <;> simp

@[simp] theorem State.refuse_mem (v : Word) : (s.refuse v).mem = s.mem := by simp [State.refuse]

@[simp] theorem State.retireAdd_mem (v : Word) : (s.retireAdd v).mem = s.mem := by
  simp only [State.retireAdd]
  (repeat' split) <;> simp

@[simp] theorem State.retireClear_mem (v : Word) : (s.retireClear v).mem = s.mem := by
  unfold State.retireClear
  split <;> simp

@[simp] theorem State.setClock_mem (i clk : Nat) : (s.setClock i clk).mem = s.mem := by simp [State.setClock]

@[simp] theorem State.writeIsland_mem (i : Nat) (v : Word) : (s.writeIsland i v).mem = s.mem := by
  simp [State.writeIsland]

@[simp] theorem State.raiseMin_mem (v : Word) (slotA : Option Image) : (s.raiseMin v slotA).mem = s.mem := by
  simp [State.raiseMin]

@[simp] theorem State.writeHub_mem (off : Nat) (v : Word) : (s.writeHub off v).mem = s.mem := by simp [State.writeHub]

@[simp] theorem State.writeDieReg_wf (hs : Memory.wf s.mem) (d : DieId) (off : Nat) (v : Word) :
    Memory.wf (s.writeDieReg d off v).mem := by simp [State.writeDieReg, hs]

@[simp] theorem State.writeRegRaw_wf (hs : Memory.wf s.mem) (off : Nat) (v : Word) :
    Memory.wf (s.writeRegRaw off v).mem := by simp [State.writeRegRaw, hs]

theorem State.writeOwnReg_mem (m : BitVec 16) (off : Nat) (v : Word) : ∀ t ∈ s.writeOwnReg m off v, t.mem = s.mem := by
  unfold State.writeOwnReg
  (repeat' split) <;> simp

@[simp] theorem State.writeReg_wf (hs : Memory.wf s.mem) (who : Writer) (pa size : Nat) (v : Word) :
    Memory.wf (s.writeReg who pa size v).mem := by
  have hraw := fun m off => State.ownerOnly_wf hs m (k := fun s => s.writeRegRaw off v) fun t ht =>
    State.writeRegRaw_wf ht off v
  unfold State.writeReg
  extract_lets off
  split
  · simp [hs]
  · split
    · split
      · exact hs
      · split
        · rw [State.writeOwnReg_mem _ _ _ _ ‹_›]; exact hs
        · exact hraw ..
    · simp [hs]

/-! ## Accesses of ranges -/

@[simp] theorem State.noteHot_mem (clu : Nat) (p : Phys) : (s.noteHot clu p).mem = s.mem := by simp [State.noteHot]

@[simp] theorem State.noteHeld_mem (line : Nat) : (s.noteHeld line).mem = s.mem := by simp [State.noteHeld]

@[simp] theorem State.noteLine_mem (clu : Nat) (path : Path) (write : Bool) (p : Phys) :
    (s.noteLine clu path write p).mem = s.mem := by
  simp only [State.noteLine]
  (repeat' split) <;> simp

@[simp] theorem State.bringLine_mem (clu : Nat) (pin : Bool) (p : Phys) : (s.bringLine clu pin p).mem = s.mem := by
  simp only [State.bringLine]
  (repeat' split) <;> simp

@[simp] theorem State.bankLines_mem (write : Bool) (lo hi : Nat) : (s.bankLines write lo hi).mem = s.mem := by
  simp [State.bankLines]

@[simp] theorem State.notePiece_mem (clu : Nat) (path : Path) (write : Bool) (p : Piece) :
    (s.notePiece clu path write p).mem = s.mem := by simp [State.notePiece]

@[simp] theorem State.logRegRead_mem (p : Piece) : (s.logRegRead p).mem = s.mem := by simp [State.logRegRead]

@[simp] theorem State.beforeRead_wf (hs : Memory.wf s.mem) (tid : Nat) (path : Path) (ps : List Piece) :
    Memory.wf (s.beforeRead tid path ps).mem := foldl_wf hs fun a c ha => by simp [ha]

@[simp] theorem State.takeBytes_mem (ctx : Ctx) (path : Path) (ps : List Piece) :
    (s.takeBytes ctx path ps).1.mem = s.mem := by
  unfold State.takeBytes
  split <;> simp

@[simp] theorem State.readRange_wf (hs : Memory.wf s.mem) (ctx : Ctx) (path : Path) (va : Word) (n : Nat) :
    Memory.wf (s.readRange ctx path va n).1.mem := by
  simp only [State.readRange]
  (repeat' split) <;> simp [hs]

@[simp] theorem State.load_wf (hs : Memory.wf s.mem) (path : Path) (va : Word) (n : Nat) :
    Memory.wf (s.load path va n).1.mem := by
  have hr := State.readRange_wf hs (s.ctxOf s.cur) path va n
  unfold State.load
  split <;> exact wf_of_eq ‹_› hr

@[simp] theorem State.putReg_wf (hs : Memory.wf s.mem) (tid : Nat) (w : PendW) (pa : Nat) (bs : List (Byte × Byte)) :
    Memory.wf (s.putReg tid w pa bs).mem := by simp [State.putReg, hs]

@[simp] theorem State.putPieces_wf (hs : Memory.wf s.mem) (tid : Nat) (w : PendW)
    (l : List (Piece × List (Byte × Byte))) :
    Memory.wf (s.putPieces tid w l).mem :=
  foldl_wf (foldl_wf hs fun a p ha => by simp [ha]) fun a p ha => by simp [ha]

@[simp] theorem State.writeRangeAt_wf (hs : Memory.wf s.mem) (ctx : Ctx) (acc : Acc) (path : Path)
    (ordered : Option Nat) (rel : Bool) (va : Word) (bs : List (Byte × Byte)) (op : Nat) :
    Memory.wf (s.writeRangeAt ctx acc path ordered rel va bs op).1.mem := by
  simp only [State.writeRangeAt]
  (repeat' split) <;> simp [hs]

@[simp] theorem State.store_wf (hs : Memory.wf s.mem) (path : Path) (rel : Bool) (va : Word) (n x : Nat) :
    Memory.wf (s.store path rel va n x).1.mem := by simp [State.store, hs]

@[simp] theorem State.engineWrite_wf (hs : Memory.wf s.mem) (who : Party) (ctx : Ctx) (path : Path) (va : Word)
    (bs : List Byte) : Memory.wf (s.engineWrite who ctx path va bs).1.mem := by
  simp only [State.engineWrite]
  split
  · simp [hs]
  · exact foldl_wf (by simp [hs]) fun a p ha => by simp [ha]

@[simp] theorem State.freeRange_wf (hs : Memory.wf s.mem) (who : Party) (ctx : Ctx) (va : Word) (n : Nat) :
    Memory.wf (s.freeRange who ctx va n).mem :=
  foldl_wf hs fun a c ha => by split <;> simp [ha]

/-! ## Fetch -/

@[simp] theorem State.fetchBytes_mem (va : Word) (n skip : Nat) : (s.fetchBytes va n skip).1.mem = s.mem := by
  simp only [State.fetchBytes]
  (repeat' split) <;> simp

@[simp] theorem State.fetchCtl_mem : s.fetchCtl.1.mem = s.mem := by
  have hb := State.fetchBytes_mem (s := s)
  simp only [State.fetchCtl]
  split
  · rfl
  · split
    · exact mem_of_eq ‹_› (hb ..)
    · have ht := mem_of_eq ‹_› (hb _ _ _)
      split
      · split
        · exact ht
        · split
          · exact mem_of_eq ‹_› ((State.fetchBytes_mem ..).trans ht)
          · split <;> exact mem_of_eq ‹_› ((State.fetchBytes_mem ..).trans ht)
      · split <;> exact ht

@[simp] theorem State.fetchBlk_mem (b : Block) : (s.fetchBlk b).1.mem = s.mem := by
  have hb := State.fetchBytes_mem (s := s) b.epc 8 0
  unfold State.fetchBlk
  split
  · exact mem_of_eq ‹_› hb
  · split
    · exact mem_of_eq ‹_› hb
    · split <;> exact mem_of_eq ‹_› hb

/-! ## Scalar loads, stores and atomics -/

@[simp] theorem State.drainFor_wf (hs : Memory.wf s.mem) (path : Path) (rel : Bool) (ps : List Piece) :
    Memory.wf (s.drainFor path rel ps).mem := foldl_wf hs fun a c ha => by simp [ha]

@[simp] theorem ldBody_wf (hs : Memory.wf s.mem) (ty : Ty) (ord : Order) (sc : Scope) (d a : XReg) (imm : Word) :
    Memory.wf (ldBody ty ord sc d a imm s).state.mem := by
  simp only [ldBody]
  have hd : Memory.wf (if ord = .sc ∧ sc ≠ .thr then s.drain s.cur fencedPath else s).mem := by simp [hs]
  have hl := State.load_wf hd .ct (s.ea a imm) (ty.width / 8)
  split
  · exact hs
  · split <;> simp [wf_of_eq ‹_› hl]

@[simp] theorem stBody_wf (hs : Memory.wf s.mem) (ty : Ty) (ord : Order) (sc : Scope) (d a : XReg) (imm : Word) :
    Memory.wf (stBody ty ord sc d a imm s).state.mem := by
  simp only [stBody]
  split
  · exact hs
  · split <;> simp [wf_of_eq ‹_› (State.store_wf hs _ _ _ _ _)]

@[simp] theorem State.rmw_wf (hs : Memory.wf s.mem) (path : Path) (rel : Bool) (va : Word) (n : Nat) (f : Nat → Nat) :
    Memory.wf (s.rmw path rel va n f).1.mem := by
  simp only [State.rmw]
  (repeat' split) <;> simp [hs]

@[simp] theorem atomicBody_wf (hs : Memory.wf s.mem) (ty : Ty) (rel : Bool) (d a : XReg) (imm : Word)
    (f : State → Nat → Nat) : Memory.wf (atomicBody ty rel d a imm f s).state.mem := by
  simp only [atomicBody]
  split
  · exact hs
  · split <;> simp [wf_of_eq ‹_› (State.rmw_wf hs _ _ _ _ _)]

@[simp] theorem prefBody_wf (hs : Memory.wf s.mem) (a : XReg) (imm : Word) (lvl : BitVec 2) :
    Memory.wf (prefBody a imm lvl s).state.mem := by
  simp only [prefBody]
  (repeat' split) <;> simp [hs]

/-! ## Vector loads and stores -/

@[simp] theorem illegalWord_wf (hs : Memory.wf s.mem) (i : Instr) : Memory.wf (illegalWord i s).state.mem := by
  simp [illegalWord, hs]

/-- Elements run in turn. -/
theorem runElems_wf {f : State → Nat → State × Option (Cause × Word)}
    (hf : ∀ (t : State) e, Memory.wf t.mem → Memory.wf (f t e).1.mem) (l : List Nat) (hs : Memory.wf s.mem) :
    Memory.wf (runElems f l s).1.mem := by
  induction l generalizing s with
  | nil => exact hs
  | cons e es ih =>
    simp only [runElems]
    split
    · exact ih (wf_of_eq ‹_› (hf s e hs))
    · exact wf_of_eq ‹_› (hf s e hs)

theorem earlyElems_wf {f : State → Nat → State × Option (Cause × Word)}
    (hf : ∀ (t : State) e, Memory.wf t.mem → Memory.wf (f t e).1.mem) (hs : Memory.wf s.mem) (ord : VOrder) (k : Nat)
    (l : List Nat) : Memory.wf (earlyElems ord f k l s).mem := by
  unfold earlyElems
  split
  · refine foldl_wf hs fun a e ha => ?_
    split
    · exact wf_of_eq ‹_› (hf a e ha)
    · exact ha
  · exact hs

/-- A restartable instruction keeps the form when each of its elements and its end do (R30). -/
theorem restartable_wf {f : State → Nat → State × Option (Cause × Word)} {finish : State → State}
    (hf : ∀ (t : State) e, Memory.wf t.mem → Memory.wf (f t e).1.mem)
    (hfin : ∀ t : State, Memory.wf t.mem → Memory.wf (finish t).mem) (hs : Memory.wf s.mem) (ord : VOrder) (n : Nat)
    (elems : Thread → Nat → List Nat) : Memory.wf (restartable ord n elems f finish s).state.mem := by
  have hr := runElems_wf hf (elems s.me (s.me.limit n)) hs
  simp only [restartable]
  split
  · simp [earlyElems_wf hf (wf_of_eq ‹_› hr)]
  · have ht := wf_of_eq ‹_› hr
    split <;> simp [ht, hfin]

@[simp] theorem loadElem_wf (hs : Memory.wf s.mem) (ty : Ty) (vd : VReg) (addr : ElemAddr) (e : Nat) :
    Memory.wf (loadElem ty vd addr s e).1.mem := by
  simp only [loadElem]
  split
  · exact hs
  · split <;> simp [wf_of_eq ‹_› (State.load_wf hs _ _ _)]

@[simp] theorem storeElem_wf (hs : Memory.wf s.mem) (ty : Ty) (vd : VReg) (ordered : Option Nat) (op : Nat)
    (addr : ElemAddr) (e : Nat) :
    Memory.wf (storeElem ty vd ordered op addr s e).1.mem := by
  simp [storeElem, hs]

@[simp] theorem State.bump_mem : s.bump.mem = s.mem := by simp [State.bump]

@[simp] theorem vecHead_wf {i : Instr} {ty : Option Ty} {vd : VReg} {xs : List XReg} {mk : Option MReg}
    {srcs : Ty → List (VReg × Nat)} {takes : Ty → Bool} {ok : Thread → Ty → Bool} {k : Ty → State → Out}
    (hs : Memory.wf s.mem) (hk : ∀ ty (t : State), Memory.wf t.mem → Memory.wf (k ty t).state.mem) :
    Memory.wf (vecHead i ty vd xs mk srcs takes ok s k).state.mem := by
  simp only [vecHead]
  split
  · simp [hs]
  · refine guardVA_wf hs ?_
    split
    · simp [hs]
    · split
      · simp [hs]
      · exact guardRegs_wf hs (guardVec_wf hs fun t ht => hk _ t ht)

@[simp] theorem loadLoop_wf (hs : Memory.wf s.mem) (t : Ty) (ord : VOrder) (vd : VReg) (mk : Option MReg)
    (addr : State → ElemAddr) : Memory.wf (loadLoop t ord vd mk addr s).state.mem := by
  unfold loadLoop
  exact restartable_wf (fun _ _ ht => loadElem_wf ht ..) (fun _ ht => ht) (by simp [hs]) ..

@[simp] theorem storeLoop_wf (hs : Memory.wf s.mem) (t : Ty) (ord : VOrder) (unit : Bool) (vd : VReg) (mk : Option MReg)
    (addr : State → ElemAddr) : Memory.wf (storeLoop t ord unit vd mk addr s).state.mem := by
  unfold storeLoop
  exact restartable_wf (fun _ _ ht => storeElem_wf ht ..) (fun _ ht => ht) (by simp [hs]) ..

@[simp] theorem ffLoop_wf (hs : Memory.wf s.mem) (t : Ty) (ord : VOrder) (vd : VReg) (mk : Option MReg)
    (addr : State → ElemAddr) : Memory.wf (ffLoop t ord vd mk addr s).state.mem := by
  simp only [ffLoop]
  split
  · exact restartable_wf (fun _ _ ht => loadElem_wf ht ..) (fun _ ht => ht) (by simp [hs]) ..
  · split
    · simp [hs]
    · exact restartable_wf (fun _ _ ht => loadElem_wf ht ..) (fun _ ht => by simp [ht]) (by simp [hs]) ..

@[simp] theorem vamoApply_wf (hs : Memory.wf s.mem) (op : AmoOp) (t : Ty) (ord : VOrder) (vd : VReg)
    (ps : List (Nat × Piece)) :
    Memory.wf (vamoApply op t ord vd ps s).state.mem := by
  have hd := State.drainFor_wf hs .vls false (ps.map (·.2))
  simp only [vamoApply]
  split
  · exact hd
  · simp only [Out.state_done, State.orFlags_mem, State.setVstart_mem]
    exact foldl_wf (by simp [hd]) fun a n ha => by simp [ha]

theorem maskLoop_wf {f : Nat → State → Nat → State × Option (Cause × Word)}
    (hf : ∀ n (t : State) e, Memory.wf t.mem → Memory.wf (f n t e).1.mem) (hs : Memory.wf s.mem) (ord : VOrder) :
    Memory.wf (maskLoop ord f s).state.mem := by
  have hc : Memory.wf (s.chargeVec 1).mem := by simp [hs]
  have hr := fun n l => runElems_wf (hf n) l hc
  simp only [maskLoop]
  split
  · simp [earlyElems_wf (hf _) (wf_of_eq ‹_› (hr _ _))]
  · have ht := wf_of_eq ‹_› (hr _ _)
    split <;> simp [ht]

@[simp] theorem spillBody_wf (hs : Memory.wf s.mem) (ord : VOrder) (vd : VReg) (base : Word) :
    Memory.wf (spillBody ord vd base s).state.mem := by
  simp only [spillBody]
  have hw : ∀ (t : State) ctx o op a bs, Memory.wf t.mem →
      Memory.wf (t.writeRangeAt ctx .write .vls o false a bs op).1.mem :=
    fun t ctx o op a bs ht => State.writeRangeAt_wf ht ..
  have hb : Memory.wf (s.bump.chargeVec s.me.ew).mem := by simp [hs]
  split
  · exact wf_of_eq ‹_› (hw _ _ _ _ _ _ (by simp [hs]))
  · exact restartable_wf (fun _ _ ht => storeElem_wf ht ..) (fun _ ht => hw _ _ _ _ _ _ ht)
      (wf_of_eq ‹_› (hw _ _ _ _ _ _ (by simp [hs]))) ..

@[simp] theorem State.freeTail_mem (vd : VReg) (n : Nat) : (s.freeTail vd n).mem = s.mem := by simp [State.freeTail]

@[simp] theorem fillElem_wf (hs : Memory.wf s.mem) (t : Ty) (vd : VReg) (base : Word) (e : Nat) :
    Memory.wf (fillElem t vd base s e).1.mem := by
  simp only [fillElem]
  split
  · exact hs
  · split <;> simp [wf_of_eq ‹_› (State.load_wf hs _ _ _)]

@[simp] theorem fillBody_wf (hs : Memory.wf s.mem) (t : Ty) (ord : VOrder) (vd : VReg) (base h : Word) :
    Memory.wf (fillBody t ord vd base h s).state.mem := by
  unfold fillBody
  exact restartable_wf (fun _ _ ht => fillElem_wf ht ..) (fun _ ht => by simp [ht]) (by simp [hs]) ..

/-! ## Vector control -/

@[simp] theorem settBody_wf (hs : Memory.wf s.mem) (d a : XReg) (v : Word) :
    Memory.wf (settBody d a v s).state.mem := by simp [settBody, hs]

@[simp] theorem vfBody_wf (hs : Memory.wf s.mem) (off : Word) : Memory.wf (vfBody off s).state.mem := by
  simp [vfBody, hs]

/-! ## Shape of an E-word -/

/-- However an E-word ends, what follows performs pending writes or takes a trap (R146, R335, R341). -/
@[simp] theorem finishE_wf {body : Block → State → EOut} (hs : Memory.wf s.mem)
    (hb : ∀ b, (body b s).state.mem = s.mem) :
    NextWf (finishE body s) := by
  unfold finishE
  split
  · exact hs
  · rename_i b _
    have h := hb b
    cases hc : body b s <;> rw [hc] at h
    case done t => simp [show t.mem = s.mem from h, hs]
    case trap c t => simp [show t.mem = s.mem from h, hs]
    case stop t => simp [show t.mem = s.mem from h, hs]

@[simp] theorem eIllegal_mem (i : Instr) (b : Block) : (eIllegal i b s).state.mem = s.mem := by simp [eIllegal]

@[simp] theorem eTrap_mem (b : Block) (c : Cause) (telem : Nat) : (eTrap b c telem s).state.mem = s.mem := by
  simp [eTrap]

@[simp] theorem eHead_mem {i : Instr} {b : Block} {ok : Bool} {p : EShape}
    {reads : Thread → List (Nat × List (VReg × Nat × Nat))} {k : State → EOut}
    (hk : ∀ t : State, (k t).state.mem = t.mem) : (eHead i b ok p reads s k).state.mem = s.mem := by
  simp only [eHead]
  split
  · simp
  · split
    · simp
    · split <;> simp [hk]

@[simp] theorem eWrite_mem (vd : VReg) (u : Nat) (rs : List (Nat × Nat × Flags)) :
    (eWrite vd u rs s).state.mem = s.mem := by simp [eWrite]

@[simp] theorem eMap_mem (i : Instr) (e : EOp) (ok : Bool) (p : EShape) (du : Nat) (f : Thread → Nat → Nat × Flags)
    (b : Block) :
    (eMap i e ok p du f b s).state.mem = s.mem := by
  simp [eMap]

@[simp] theorem pfetch_mem (b : Block) (ts : List (Nat × Word)) : (pfetch b ts s).state.mem = s.mem := by
  unfold pfetch
  split <;> simp

/-! ## Integer E-words -/

@[simp] theorem eBin2_wf (hs : Memory.wf s.mem) (i : Instr) (e : EOp) (accepts : Ty → Bool)
    (f : Ty → Nat → Nat → Nat × Flags) :
    NextWf (eBin2 i e accepts f s) := by
  simp [eBin2, hs]

@[simp] theorem eBinR_wf (hs : Memory.wf s.mem) (i : Instr) (e : EOp) (accepts : Ty → Bool)
    (f : Ty → Nat → Nat → Nat × Flags) :
    NextWf (eBinR i e accepts f s) := by
  simp [eBinR, hs]

@[simp] theorem eTern3_wf (hs : Memory.wf s.mem) (i : Instr) (e : EOp) (accepts : Ty → Bool)
    (f : Ty → Nat → Nat → Nat → Nat × Flags) :
    NextWf (eTern3 i e accepts f s) := by
  simp [eTern3, hs]

@[simp] theorem eUn1_wf (hs : Memory.wf s.mem) (i : Instr) (e : EOp) (accepts : Ty → Bool)
    (f : Ty → Nat → Nat × Flags) :
    NextWf (eUn1 i e accepts f s) := by
  simp [eUn1, hs]

@[simp] theorem eWide_wf (hs : Memory.wf s.mem) (i : Instr) (e : EOp) (isMul : Bool) : NextWf (eWide i e isMul s) := by
  simp [eWide, hs]

@[simp] theorem eMaskWrite_mem (m : MReg) (rs : List (Nat × Bool × Flags)) : (eMaskWrite m rs s).state.mem = s.mem := by
  simp [eMaskWrite]

@[simp] theorem eMaskLogic_wf (hs : Memory.wf s.mem) (e : EOp) (srcs : List VReg) (f : Bool → Bool → Bool) :
    NextWf (eMaskLogic e srcs f s) := by
  refine finishE_wf hs fun b => ?_
  dsimp only
  split <;> simp

/-! ## Float, move and reduction E-words -/

@[simp] theorem eF2_wf (hs : Memory.wf s.mem) (i : Instr) (e : EOp) (f : Ty → Rm → Nat → Nat → Nat × Flags) :
    NextWf (eF2 i e f s) := by simp [eF2, hs]

@[simp] theorem eMove_mem (i : Instr) (e : EOp) (ok : Bool) (p : EShape) (extra : Nat → List (VReg × Nat × Nat))
    (mv : Thread → Nat → Move) (b : Block) :
    (eMove i e ok p extra mv b s).state.mem = s.mem := by
  simp [eMove]

@[simp] theorem eSlide_wf (hs : Memory.wf s.mem) (i : Instr) (e : EOp) (mv : Nat → Nat → Nat → Move) :
    NextWf (eSlide i e mv s) := by simp [eSlide, hs]

@[simp] theorem redWrite_mem (e : EOp) (w : Nat) (act : List Nat) (r : Nat × Flags) :
    (redWrite e w act r s).state.mem = s.mem := by simp [redWrite]

@[simp] theorem eReduce_wf (hs : Memory.wf s.mem) (i : Instr) (e : EOp) (accepts : Ty → Bool)
    (step : Ty → Rm → RedStep) :
    NextWf (eReduce i e accepts step s) := by
  simp [eReduce, hs]

/-! ## The matrix array -/

@[simp] theorem State.readPrefix_wf (hs : Memory.wf s.mem) (ctx : Ctx) (path : Path) (va : Word) (n : Nat) :
    Memory.wf (s.readPrefix ctx path va n).1.mem := by
  simp only [State.readPrefix]
  (repeat' split) <;> simp [hs]

@[simp] theorem guardTile_wf {acc : AccReg} {k : State → Out} (hs : Memory.wf s.mem) (hk : Memory.wf (k s).state.mem) :
    Memory.wf (guardTile acc s k).state.mem := by simp [guardTile, hs, hk]

@[simp] theorem tlwBody_wf (hs : Memory.wf s.mem) (b : Nat) (va : Word) : Memory.wf (tlwBody b va s).state.mem := by
  simp only [tlwBody]
  (repeat' split) <;> simp [hs]

@[simp] theorem State.setTile_mem (acc : AccReg) (t : Tile) : (s.setTile acc t).mem = s.mem := by simp [State.setTile]

@[simp] theorem State.clearAcc_mem (acc : AccReg) : (s.clearAcc acc).mem = s.mem := by simp [State.clearAcc]

@[simp] theorem guardAcc_wf {acc : AccReg} {words : Nat → Bool} {k : State → Out} (hs : Memory.wf s.mem)
    (hk : Memory.wf (k s).state.mem) : Memory.wf (guardAcc acc words s k).state.mem := by
  simp [guardAcc, State.regErrTrap, hs, hk]

@[simp] theorem tscaleBody_wf (hs : Memory.wf s.mem) (acc : AccReg) (va : Word) (g : Nat) :
    Memory.wf (tscaleBody acc va g s).state.mem := by
  have hr := State.readRange_wf hs (s.ctxOf s.cur) .arr va (4 * (256 / g))
  simp only [tscaleBody]
  split
  · exact hs
  · split
    · exact wf_of_eq ‹_› hr
    · have ht := wf_of_eq ‹_› hr
      split <;> simp [ht]

@[simp] theorem State.readRows_wf (hs : Memory.wf s.mem) (ty : Ty) (addr : Nat → Word) (l : List Nat) :
    Memory.wf (s.readRows ty addr l).1.mem := by
  induction l generalizing s with
  | nil => exact hs
  | cons i is ih =>
    have hr := State.readRange_wf hs (s.ctxOf s.cur) .arr (addr i) (32 * ty.memWidth)
    simp only [State.readRows]
    split
    · exact wf_of_eq ‹_› hr
    · split <;> exact wf_of_eq ‹_› (ih (wf_of_eq ‹_› hr))

@[simp] theorem tmmaBlocks_wf (hs : Memory.wf s.mem) (acc : AccReg) (ty : Ty) (assoc : Bool) (bs : Array Nat)
    (wz row0 : Nat) (addr : Nat → Word) (g : Nat) (l : List Nat) (n : Nat × Nat) :
    Memory.wf (tmmaBlocks acc ty assoc bs wz row0 addr g l n s).1.mem := by
  induction l generalizing s n with
  | nil => exact hs
  | cons b r ih =>
    simp only [tmmaBlocks]
    split
    · exact wf_of_eq ‹_› (State.readRows_wf hs ..)
    · exact ih (by simp [wf_of_eq ‹_› (State.readRows_wf hs _ _ _)]) _

@[simp] theorem State.stopTmma_mem (b : Nat) (n : Nat × Nat) : (s.stopTmma b n).mem = s.mem := by simp [State.stopTmma]

@[simp] theorem State.endTmma_mem (n : Nat × Nat) (g : Nat) : (s.endTmma n g).mem = s.mem := by simp [State.endTmma]

@[simp] theorem tmmaRun_wf (hs : Memory.wf s.mem) (acc : AccReg) (ty : Ty) (assoc : Bool) (bs : Array Nat) (row0 : Nat)
    (addr : Nat → Word) (i0 g : Nat) : Memory.wf (tmmaRun acc ty assoc bs row0 addr i0 g s).state.mem := by
  simp only [tmmaRun]
  split
  · simp [wf_of_eq ‹_› (tmmaBlocks_wf hs ..)]
  · have ht := wf_of_eq ‹_› (tmmaBlocks_wf hs ..)
    split <;> simp [ht]

theorem tmmaTorus_wf {acc : AccReg} {bs : Array Nat} {xn : Word} {g : Nat} {k : State → Out} (hs : Memory.wf s.mem)
    (hk : ∀ t : State, Memory.wf t.mem → Memory.wf (k t).state.mem) :
    Memory.wf (tmmaTorus acc bs xn g s k).state.mem := by
  simp only [tmmaTorus]
  split
  · exact hk s hs
  · split
    · exact hs
    · exact hk _ (by simp [hs])

@[simp] theorem guardWb_wf {wb : Nat} {k : State → Out} (hs : Memory.wf s.mem) (hk : Memory.wf (k s).state.mem) :
    Memory.wf (guardWb wb s k).state.mem := by
  simp only [guardWb]
  split <;> simp [hs, hk]

@[simp] theorem tmmaBody_wf (hs : Memory.wf s.mem) (assoc ff : Bool) (acc : AccReg) (a b c : XReg) (wb : Bool)
    (rb : BitVec 2) (n : XReg) (imm : Word) :
    Memory.wf (tmmaBody assoc ff acc a b c wb rb n imm s).state.mem := by
  unfold tmmaBody
  extract_lets ty row0 m base addr buf i0
  split
  · simp [hs]
  · refine guardRegs_wf hs (guardAcc_wf hs ?_)
    cases s.rowFault ty addr i0 m with
    | none => exact guardWb_wf hs (tmmaTorus_wf hs fun t ht => tmmaRun_wf (by simp [ht]) ..)
    | some x =>
      have hx : Memory.wf (s.noteXlate (s.ctxOf s.cur) x.2.2).mem := by simp [hs]
      dsimp only
      split
      · exact hx
      · exact guardWb_wf hx (tmmaTorus_wf hx fun t ht => tmmaRun_wf (by simp [ht]) ..)

@[simp] theorem guardSlot_wf {acc : AccReg} {k : State → Out} (hs : Memory.wf s.mem) (hk : Memory.wf (k s).state.mem) :
    Memory.wf (guardSlot acc s k).state.mem := by simp [guardSlot, hs, hk]

theorem drainNoise_wf {acc : AccReg} {mk : Option MReg} {h : XReg} {o : Option Nat} {op : Nat} {k : State → Out}
    (hs : Memory.wf s.mem) (hk : ∀ t : State, Memory.wf t.mem → Memory.wf (k t).state.mem) :
    Memory.wf (drainNoise acc mk h o op s k).state.mem := by
  unfold drainNoise
  extract_lets t cols slot top past xh put
  have hput : ∀ (t : State) e, Memory.wf t.mem → Memory.wf (put t e).1.mem := fun t e ht => by
    simp only [put]
    split
    · exact ht
    · split <;> exact wf_of_eq ‹_› (State.writeRangeAt_wf ht ..)
  split
  · exact hk s hs
  · split
    · exact hs
    · split
      · exact wf_of_eq ‹_› (runElems_wf hput _ hs)
      · exact hk _ (wf_of_eq ‹_› (runElems_wf hput _ hs))

@[simp] theorem drainBody_wf (hs : Memory.wf s.mem) (acc : AccReg) (mk : Option MReg) (row0 rows fn : Nat)
    (tb : TbReg) (h : XReg) (rowA : Nat → Word) :
    Memory.wf (drainBody acc mk row0 rows fn tb h rowA s).state.mem := by
  unfold drainBody
  extract_lets dst n rm t tab o op put
  have hput : ∀ (v : State) e, Memory.wf v.mem → Memory.wf (put v e).1.mem := fun v e hv => by
    simp only [put]
    split
    · exact hv
    · split
      · simp [wf_of_eq ‹_› (State.writeRangeAt_wf hv _ _ _ _ _ _ _ _)]
      · exact State.writeRangeAt_wf hv ..
  exact drainNoise_wf (by exact hs) fun u hu => restartable_wf hput (fun _ hv => hv) hu ..

/-! ## The bank units -/

@[simp] theorem guardWindow_wf {rs : List (Word × Nat)} {k : State → Out} (hs : Memory.wf s.mem)
    (hk : Memory.wf (k s).state.mem) : Memory.wf (guardWindow rs s k).state.mem := by
  unfold guardWindow
  split
  · exact hs
  · exact hk

/-- An access to results of `BGEMV`s waits, traps, or goes on. -/
theorem bgPointAt_wf {wait k : State → Out} (hs : Memory.wf s.mem)
    (hw : Memory.wf (wait s).state.mem) (hk : ∀ t : State, Memory.wf t.mem → Memory.wf (k t).state.mem) (last : Nat) :
    Memory.wf (bgPointAt wait last s k).state.mem := by
  simp only [bgPointAt]
  split
  · exact hw
  · split
    · exact hk s hs
    · split
      · simp [hs]
      · exact hk _ (by simp [hs])

theorem bgPoint_wf {k : State → Out} (hs : Memory.wf s.mem)
    (hk : ∀ t : State, Memory.wf t.mem → Memory.wf (k t).state.mem) (last : Nat) :
    Memory.wf (bgPoint last s k).state.mem := by
  unfold bgPoint
  refine bgPointAt_wf hs ?_ hk last
  exact hs

theorem bgHold_wf {k : State → Out} (hs : Memory.wf s.mem)
    (hk : ∀ t : State, Memory.wf t.mem → Memory.wf (k t).state.mem) (last : Nat) :
    Memory.wf (bgHold last s k).state.mem := by
  unfold bgHold
  refine bgPointAt_wf hs ?_ hk last
  exact hs

@[simp] theorem State.readActs_wf (hs : Memory.wf s.mem) (o : BgOp) (l : List Nat) :
    Memory.wf (s.readActs o l).1.mem := by
  induction l generalizing s with
  | nil => exact hs
  | cons j js ih =>
    have hr := State.readRange_wf hs o.ctx .bnk (o.xAt j) o.k
    simp only [State.readActs]
    split
    · exact wf_of_eq ‹_› hr
    · split <;> exact wf_of_eq ‹_› (ih (wf_of_eq ‹_› hr))

@[simp] theorem State.writeOuts_wf (hs : Memory.wf s.mem) (o : BgOp) (l : List (Nat × List Byte)) :
    Memory.wf (s.writeOuts o l).1.mem := by
  induction l generalizing s with
  | nil => exact hs
  | cons p ps ih =>
    have hw := State.engineWrite_wf hs (.die (s.bankDie o)) o.ctx .bnk (o.yAt p.1) p.2
    simp only [State.writeOuts]
    split
    · exact wf_of_eq ‹_› hw
    · exact ih (wf_of_eq ‹_› hw)

@[simp] theorem State.runBg_wf (hs : Memory.wf s.mem) (o : BgOp) : Memory.wf (s.runBg o).1.mem := by
  have hp := State.readPrefix_wf hs o.ctx .bnk o.w o.wBytes
  simp only [State.runBg]
  split
  · exact hp
  · split
    · exact wf_of_eq ‹_› (State.readActs_wf hp ..)
    · exact State.writeOuts_wf (wf_of_eq ‹_› (State.readActs_wf hp ..)) ..

@[simp] theorem State.freeOuts_wf (hs : Memory.wf s.mem) (o : BgOp) (x : Cause × Word) :
    Memory.wf (s.freeOuts o x).mem := by
  unfold State.freeOuts
  split
  · exact hs
  · exact foldl_wf hs fun a j ha => by simp [ha]

@[simp] theorem execBgemvCompletion_wf (hs : Memory.wf s.mem) (tid ticket : Nat) :
    NextWf (execBgemvCompletion tid ticket s) := by
  unfold execBgemvCompletion
  split
  · exact hs
  · split <;> simp [wf_of_eq ‹_› (State.runBg_wf hs _)]

/-! ## Cipher registers -/

@[simp] theorem guardC_wf {rs : List CReg} {k : State → Out} (hs : Memory.wf s.mem) (hk : Memory.wf (k s).state.mem) :
    Memory.wf (guardC rs s k).state.mem := by
  simp only [guardC]
  split
  · exact hs
  · split <;> simp [hs, hk]

@[simp] theorem State.setC_mem (r : CReg) (c : Cipher) : (s.setC r c).mem = s.mem := by simp [State.setC]

@[simp] theorem keytag_wf (hs : Memory.wf s.mem) (v : Nat) : Memory.wf (keytag v s).state.mem := by simp [keytag, hs]

@[simp] theorem checkedC_wf (hs : Memory.wf s.mem) (cd : CReg) (srcs : List Src) (c : Cipher) (noise : Nat) :
    Memory.wf (checkedC cd srcs c noise s).state.mem := by
  unfold checkedC
  split
  · simp [hs]
  · simp [hs]

@[simp] theorem cldBody_wf (hs : Memory.wf s.mem) (cd : CReg) (va : Word) : Memory.wf (cldBody cd va s).state.mem := by
  have hr := State.readRange_wf hs (s.ctxOf s.cur) .cop va 16
  simp only [cldBody]
  refine guardWindow_wf hs ?_
  split
  · exact wf_of_eq ‹_› hr
  · have ht := wf_of_eq ‹_› hr
    split
    · exact ht
    · refine guardWindow_wf ht ?_
      split <;> simp [wf_of_eq ‹_› (State.readRange_wf ht _ _ _ _)]

@[simp] theorem addBody_wf (hs : Memory.wf s.mem) (cd ca cb : CReg) (f : BitVec 32 → BitVec 32 → BitVec 32) :
    Memory.wf (addBody cd ca cb f s).state.mem := guardC_wf hs (by simp [hs])

@[simp] theorem State.dropDroves_mem (clu : Nat) : (s.dropDroves clu).mem = s.mem := by simp [State.dropDroves]

@[simp] theorem State.noteKeyReads_mem (k : KeySlot) (joined : Bool × Bool) :
    (s.noteKeyReads k joined).mem = s.mem := by simp [State.noteKeyReads]

@[simp] theorem State.failMember_mem (m : Member) (x : Cause × Word) : (s.failMember m x).mem = s.mem := by
  simp [State.failMember]

@[simp] theorem State.endMember_mem (m : Member) (words : List (BitVec 32)) (k : KeySlot) :
    (s.endMember m words k).mem = s.mem := by simp [State.endMember]

@[simp] theorem State.beforeKeys_wf (hs : Memory.wf s.mem) (k : KeySlot) (ms : List Member) :
    Memory.wf (s.beforeKeys k ms).mem := foldl_wf hs fun _ _ ha => foldl_wf ha fun _ _ hb => by simp [hb]

theorem execCoppicePassEnd_wf (hs : Memory.wf s.mem) (clu : Nat) : NextWf (execCoppicePassEnd clu s) := by
  unfold execCoppicePassEnd
  extract_lets c changed s1 s2
  have h2 : Memory.wf s2.mem := by simp [s2, s1, hs]
  split
  · exact hs
  · rename_i d k start _
    extract_lets s3 keys s4
    have h3 : Memory.wf s3.mem := by simp [s3, h2]
    split
    · exact hs
    · split
      · exact foldl_wf (by exact h3) fun a m ha => by simp [ha]
      · have h4 : Memory.wf s4.mem := foldl_wf h3 fun a m ha => by split <;> simp [ha]
        simp [h4]

/-! ## Flow control -/

@[simp] theorem State.endTurn_mem : s.endTurn.mem = s.mem := by simp [State.endTurn]

@[simp] theorem State.takeGrant_mem : s.takeGrant.mem = s.mem := by
  unfold State.takeGrant
  split <;> simp

@[simp] theorem branch_wf (hs : Memory.wf s.mem) (srcs : List XReg) (taken : State → Bool) (off : Word) :
    Memory.wf (branch srcs taken off s).state.mem := guardRegs_wf hs (by simp [hs])

@[simp] theorem callTo_wf (hs : Memory.wf s.mem) (t : Word) : Memory.wf (callTo t s).state.mem := by
  have h1 := State.store_wf hs .ct false (s.me.rx 2 - 16) 8 (s.me.pc + 16).toNat
  simp only [callTo]
  split
  · exact hs
  · split
    · exact hs
    · split
      · exact wf_of_eq ‹_› h1
      · split <;> simp [wf_of_eq ‹_› (State.store_wf (wf_of_eq ‹_› h1) _ _ _ _ _)]

@[simp] theorem retBody_wf (hs : Memory.wf s.mem) : Memory.wf (retBody s).state.mem := by
  have h1 := State.load_wf hs .ct (s.me.rx 2) 8
  simp only [retBody]
  split
  · exact hs
  · split
    · exact wf_of_eq ‹_› h1
    · have h2 := fun va => State.load_wf (wf_of_eq ‹_› h1) .ct va 8
      split
      · exact wf_of_eq ‹_› (h2 _)
      · have ht := wf_of_eq ‹_› (h2 _)
        simp [ht]

@[simp] theorem jtabBody_wf (hs : Memory.wf s.mem) (a b c : XReg) (off : Word) :
    Memory.wf (jtabBody a b c off s).state.mem := by
  simp only [jtabBody]
  split
  · exact hs
  · split
    · exact hs
    · split <;> simp [wf_of_eq ‹_› (State.load_wf hs _ _ _)]

@[simp] theorem State.hint_mem (p : XReg) (sc : BitVec 8) : (s.hint p sc).mem = s.mem := by simp [State.hint]

/-! ## Reserving loops -/

@[simp] theorem claimseq_wf (hs : Memory.wf s.mem) : Memory.wf (claimseq s).state.mem := by simp [claimseq, hs]

@[simp] theorem State.modFold_mem (clu : Nat) (g : Fold → Fold) : (s.modFold clu g).mem = s.mem := by
  simp [State.modFold]

@[simp] theorem State.leaveLoop_mem (tid : Nat) : (s.leaveLoop tid).mem = s.mem := by simp [State.leaveLoop]

@[simp] theorem rlopenBody_wf (hs : Memory.wf s.mem) (a : XReg) (c : Word) (g : Nat) :
    Memory.wf (rlopenBody a c g s).state.mem := by simp [rlopenBody, hs]

@[simp] theorem deliver_mem (md : MReg) (mk : Option MReg) (a : Answer) : (deliver md mk a s).mem = s.mem := by
  simp [deliver]

@[simp] theorem postClaim_wf (hs : Memory.wf s.mem) (va : VReg) (b : XReg) (mk : Option MReg) :
    Memory.wf (postClaim va b mk s).state.mem := by
  refine guardRegs_wf hs (guardVec_wf hs fun t ht => ?_)
  split <;> simp [ht]

@[simp] theorem claimBody_wf (hs : Memory.wf s.mem) (md : MReg) (va : VReg) (b : XReg) (mk : Option MReg) :
    Memory.wf (claimBody md va b mk s).state.mem := by
  simp only [claimBody]
  (repeat' split) <;> simp [hs, postClaim_wf]

@[simp] theorem State.claimDone_wf (hs : Memory.wf s.mem) (tid : Nat) : Memory.wf (s.claimDone tid).mem := by
  simp [State.claimDone, hs]

@[simp] theorem State.answerWave_mem (clu : Nat) : (s.answerWave clu).mem = s.mem := by
  simp only [State.answerWave, State.count_mem, State.modFold_mem]
  exact foldl_mem fun _ _ => rfl

/-! ## Launch lists -/

@[simp] theorem State.listPut_wf (hs : Memory.wf s.mem) (who : Party) (clu : Nat) (path : Path) (pa : Nat)
    (bs : List Byte) :
    Memory.wf (s.listPut who clu path pa bs).mem := by
  simp [State.listPut, hs]

@[simp] theorem State.append_wf (hs : Memory.wf s.mem) (who : Party) (clu : Nat) (path : Path) (r : Region)
    (pkt : List Byte) : Memory.wf (s.append who clu path r pkt).mem :=
  State.listPut_wf (State.listPut_wf (State.listPut_wf hs ..) ..) ..

/-! ## Copy nodes and rings -/

@[simp] theorem State.pushSlot_wf (hs : Memory.wf s.mem) (who : Party) (clu q : Nat) (r : Ring) (bs : List Byte) :
    Memory.wf (s.pushSlot who clu q r bs).mem := by simp [State.pushSlot, hs]

@[simp] theorem State.modNode_mem (core ord : Nat) (f : Node → Node) : (s.modNode core ord f).mem = s.mem := by
  simp [State.modNode]

@[simp] theorem State.markFailed_wf (hs : Memory.wf s.mem) (x : Cause × Word) (core ord : Nat) :
    Memory.wf (s.markFailed x core ord).mem := by
  unfold State.markFailed
  (repeat' split) <;> simp [hs]

@[simp] theorem State.failNode_wf (hs : Memory.wf s.mem) (x : Cause × Word) (core ord : Nat) :
    Memory.wf (s.failNode x core ord).mem := foldl_wf hs fun _ _ ha => by simp [ha]

@[simp] theorem State.finishNode_mem (core ord : Nat) : (s.finishNode core ord).mem = s.mem := by
  unfold State.finishNode
  split <;> simp

@[simp] theorem State.publish_wf (hs : Memory.wf s.mem) (core ord f : Nat) : Memory.wf (s.publish core ord f).mem := by
  induction f generalizing s with
  | zero => exact hs
  | succ f ih =>
    simp only [State.publish]
    (repeat' split) <;> simp [hs, ih]

@[simp] theorem State.publishNode_wf (hs : Memory.wf s.mem) (core ord : Nat) (n : Node) :
    Memory.wf (s.publishNode core ord n).mem := by
  unfold State.publishNode
  split <;> simp [hs]

@[simp] theorem State.publishAll_wf (hs : Memory.wf s.mem) (clu : Nat) : Memory.wf (s.publishAll clu).mem :=
  foldl_wf hs fun _ _ ha => by simp [ha]

@[simp] theorem State.takePart_wf (hs : Memory.wf s.mem) (core ord : Nat) (p : CopyPart) :
    Memory.wf (s.takePart core ord p).mem := by
  simp only [State.takePart]
  (repeat' split) <;> simp [hs]

@[simp] theorem State.enqueue_mem (d : DieId) (sl : Nat) (q : SliceReq) : (s.enqueue d sl q).mem = s.mem := by
  simp [State.enqueue]

theorem State.askSlice_mem (core ord : Nat) (p : CopyPart) : ∀ t ∈ s.askSlice core ord p, t.mem = s.mem := by
  simp [State.askSlice]

@[simp] theorem State.askBank_mem (clu : Nat) (p : CopyPart) : (s.askBank clu p).1.mem = s.mem := by
  simp [State.askBank]

@[simp] theorem State.issuePart_wf (hs : Memory.wf s.mem) (core ord : Nat) (n : Node) :
    Memory.wf (s.issuePart core ord n).mem := by
  simp only [State.issuePart]
  split
  · exact hs
  · split
    · simp [hs]
    · split
      · simp [hs]
      · split
        · simp [State.askSlice_mem _ _ _ _ ‹_›, hs]
        · exact hs

@[simp] theorem State.fabCycle_wf (hs : Memory.wf s.mem) : Memory.wf s.fabCycle.mem :=
  foldl_wf (foldl_wf (foldl_wf hs fun _ _ ha => foldl_wf ha fun _ _ hb => by simp [hb]) fun _ _ ha => by simp [ha])
    fun _ _ ha => by simp [ha]

@[simp] theorem State.fabCycles_wf (hs : Memory.wf s.mem) (n : Nat) : Memory.wf (s.fabCycles n).mem := by
  induction n generalizing s with
  | zero => exact hs
  | succ n ih => simp [State.fabCycles, hs, ih]

@[simp] theorem State.copyRows_wf (hs : Memory.wf s.mem) (n : Node) : Memory.wf (s.copyRows n).1.mem := by
  simp only [State.copyRows]
  split
  · exact hs
  · exact hs
  · split <;> exact wf_of_eq ‹_› (State.readRange_wf hs ..)
  · exact hs

@[simp] theorem State.launchCopy_wf (hs : Memory.wf s.mem) (core ord : Nat) (n : Node) :
    Memory.wf (s.launchCopy core ord n).mem := by
  simp only [State.launchCopy]
  split <;> simp [wf_of_eq ‹_› (State.copyRows_wf hs n)]

@[simp] theorem State.launchGnode_wf (hs : Memory.wf s.mem) (core ord : Nat) (n : Node) (pkt : Word) :
    Memory.wf (s.launchGnode core ord n pkt).mem := by
  have hr := State.readRange_wf hs n.ctx .cpy pkt 128
  simp only [State.launchGnode]
  split
  · simp [wf_of_eq ‹_› hr]
  · exact wf_of_eq ‹_› hr
  · simp [wf_of_eq ‹_› hr]

@[simp] theorem State.freeSlot_wf (hs : Memory.wf s.mem) (core : Nat) (r : Ring) (j : Nat) :
    Memory.wf (s.freeSlot core r j).mem := by simp [State.freeSlot, hs]

@[simp] theorem State.freeWritten_wf (hs : Memory.wf s.mem) (core : Nat) (n : Node) :
    Memory.wf (s.freeWritten core n).mem := by
  unfold State.freeWritten
  split
  · exact foldl_wf hs fun _ _ ha => by simp [ha]
  · split
    · exact foldl_wf hs fun _ _ ha => by simp [ha]
    · exact hs

@[simp] theorem State.failCopy_wf (hs : Memory.wf s.mem) (x : Cause × Word) (core ord : Nat) (n : Node) :
    Memory.wf (s.failCopy x core ord n).mem := by simp [State.failCopy, hs]

@[simp] theorem State.putLine_wf (hs : Memory.wf s.mem) (core ord : Nat) (n : Node) (k : Nat) (c : Word × List Byte) :
    Memory.wf (s.putLine core ord n k c).mem := by
  unfold State.putLine
  split <;> simp [wf_of_eq ‹_› (State.engineWrite_wf hs _ _ _ _ _)]

@[simp] theorem State.copyWrite_wf (hs : Memory.wf s.mem) (core ord k : Nat) :
    Memory.wf (s.copyWrite core ord k).mem := by
  unfold State.copyWrite
  (repeat' split) <;> simp [hs]

@[simp] theorem State.putLines_wf (hs : Memory.wf s.mem) (core : Nat) (ctx : Ctx) (l : List (Word × List Byte)) :
    Memory.wf (s.putLines core ctx l).1.mem := by
  induction l generalizing s with
  | nil => exact hs
  | cons c cs ih =>
    have hw := State.engineWrite_wf hs (.core core) ctx .cpy c.1 c.2
    simp only [State.putLines]
    split
    · exact wf_of_eq ‹_› hw
    · exact ih (wf_of_eq ‹_› hw)

@[simp] theorem execCopyNodeFinish_wf (hs : Memory.wf s.mem) (core ord : Nat) :
    NextWf (execCopyNodeFinish core ord s) := by
  simp only [execCopyNodeFinish]
  split
  · exact hs
  · rename_i n _
    split
    · exact hs
    · split
      · exact hs
      · split
        · simp [hs]
        · split
          · simp [hs]
          · split <;> simp [wf_of_eq ‹_› (State.putLines_wf hs _ _ _)]

@[simp] theorem newNode_wf (hs : Memory.wf s.mem) (d : XReg) (op : NodeOp) (ring : Option Nat) (h : Bool) :
    Memory.wf (newNode d op ring h s).state.mem := by simp [newNode, hs]

theorem guardCopy_wf {ring : Bool} {q len : Nat} {zeroBad : Bool} {k : Option Nat → State → Out} (hs : Memory.wf s.mem)
    (hk : ∀ o, Memory.wf (k o s).state.mem) : Memory.wf (guardCopy ring q len zeroBad s k).state.mem := by
  simp only [guardCopy]
  (repeat' split) <;> simp [hs, hk]

@[simp] theorem State.linkNodes_wf (hs : Memory.wf s.mem) (core p o : Nat) : Memory.wf (s.linkNodes core p o).mem := by
  unfold State.linkNodes
  split <;> simp [hs]

@[simp] theorem glinkBody_wf (hs : Memory.wf s.mem) (a b : XReg) : Memory.wf (glinkBody a b s).state.mem := by
  unfold glinkBody
  (repeat' split) <;> simp [hs]

@[simp] theorem State.setHold_mem (h : Hold) : (s.setHold h).mem = s.mem := by simp [State.setHold]

@[simp] theorem ringseq_wf (hs : Memory.wf s.mem) (q ci : Nat) : Memory.wf (ringseq q ci s).state.mem := by
  simp [ringseq, hs]

theorem guardRing_wf {q ci : Nat} {k : Ring → State → Out} (hs : Memory.wf s.mem)
    (hk : ∀ r, Memory.wf (k r s).state.mem) : Memory.wf (guardRing q ci s k).state.mem := by
  simp only [guardRing]
  (repeat' split) <;> simp [hs, hk]

@[simp] theorem State.tearRing_wf (hs : Memory.wf s.mem) (clu q : Nat) (r : Ring) :
    Memory.wf (s.tearRing clu q r).mem := by
  simp only [State.tearRing, State.modCluster_mem]
  refine foldl_wf (foldl_wf hs fun _ _ ha => by simp [ha]) fun _ _ ha => by simp [ha]

@[simp] theorem State.setBanks_wf (hs : Memory.wf s.mem) (clu : Nat) (v : Word) : Memory.wf (s.setBanks clu v).mem := by
  simp only [State.setBanks, State.mem_ite, State.modCluster_mem, ite_self]
  exact foldl_wf (foldl_wf (foldl_wf hs fun _ _ ha => by simp [ha]) fun _ _ ha => by simp [ha]) fun _ _ ha => by simp [ha]

/-! ## Placing and ending a task -/

@[simp] theorem State.takeTiles_mem (core : Nat) (r : Region) (slot : Nat) : (s.takeTiles core r slot).mem = s.mem := by
  simp [State.takeTiles]

@[simp] theorem State.startTask_mem (tid : Nat) (r : Region) (task : Nat) (pc : Word) (args loop : List Word) :
    (s.startTask tid r task pc args loop).mem = s.mem := by simp [State.startTask]

@[simp] theorem State.shrink_mem (excl : Nat) (tid : Nat) : (s.shrink excl tid).mem = s.mem := by
  simp only [State.shrink]
  (repeat' split) <;> simp

@[simp] theorem State.takeLanes_mem (tid : Nat) : (s.takeLanes tid).mem = s.mem := by simp [State.takeLanes]

@[simp] theorem State.giveLanes_mem (tid : Nat) : (s.giveLanes tid).mem = s.mem := by simp [State.giveLanes]

@[simp] theorem State.endTurnOf_mem (tid : Nat) : (s.endTurnOf tid).mem = s.mem := by simp [State.endTurnOf]

@[simp] theorem State.joinChild_mem (child : Nat) : (s.joinChild child).mem = s.mem := by
  unfold State.joinChild
  simp

@[simp] theorem State.leaveBars_mem (tid : Nat) : (s.leaveBars tid).mem = s.mem := by simp [State.leaveBars]

@[simp] theorem State.countEnd_mem (th : Thread) : (s.countEnd th).mem = s.mem := by
  unfold State.countEnd
  split <;> simp

@[simp] theorem State.startAhead_mem (tid : Nat) (th : Thread) (loop : List Word) :
    (s.startAhead tid th loop).mem = s.mem := by
  unfold State.startAhead
  split <;> simp

@[simp] theorem State.freeContext_wf (hs : Memory.wf s.mem) (tid : Nat) : Memory.wf (s.freeContext tid).mem := by
  simp only [State.freeContext]
  (repeat' split) <;> simp [hs]

/-! ## Synchronisation and tasks -/

@[simp] theorem State.noteFence_mem (sc : Scope) : (s.noteFence sc).mem = s.mem := by simp [State.noteFence]

@[simp] theorem State.completeFenced_wf (hs : Memory.wf s.mem) : Memory.wf s.completeFenced.mem := by
  simp [State.completeFenced, hs]

@[simp] theorem State.fenceSc_wf (hs : Memory.wf s.mem) (sc : Scope) : Memory.wf (s.fenceSc sc).mem := by
  simp [State.fenceSc, hs]

@[simp] theorem State.setBar_mem (key : Nat) (b : Barrier) : (s.setBar key b).mem = s.mem := by simp [State.setBar]

@[simp] theorem barBody_wf (hs : Memory.wf s.mem) (sc : Scope) (a : XReg) (n : Word) (key : Nat) :
    Memory.wf (barBody sc a n key s).state.mem := by
  unfold barBody
  extract_lets b
  split
  · simp [hs]
  · split
    · exact hs
    · split
      · simp [hs]
      · exact guardRegs_wf hs (by simp [hs])

@[simp] theorem State.hedge_wf (hs : Memory.wf s.mem) (src dst : BitVec 7) : Memory.wf (s.hedge src dst).mem := by
  simp [State.hedge, hs]

@[simp] theorem hedgeBody_wf (hs : Memory.wf s.mem) (src dst : BitVec 7) :
    Memory.wf (hedgeBody src dst s).state.mem := by
  unfold hedgeBody
  split
  · exact bgHold_wf hs (fun t ht => by simp [ht]) _
  · simp [hs]

@[simp] theorem waitmBody_wf (hs : Memory.wf s.mem) (cc : ICond) (d a b : XReg) (imm : Word) :
    Memory.wf (waitmBody cc d a b imm s).state.mem := by
  simp only [waitmBody]
  split
  · exact hs
  · split
    · exact hs
    · split <;> simp [wf_of_eq ‹_› (State.load_wf hs _ _ _)]

@[simp] theorem State.reread_wf (hs : Memory.wf s.mem) (tid : Nat) (w : WaitM) : Memory.wf (s.reread tid w).mem := by
  unfold State.reread
  split <;> simp [wf_of_eq ‹_› (State.readRange_wf hs _ _ _ _)]

@[simp] theorem State.keepLower_mem (child : Nat) : (s.keepLower child).mem = s.mem := by simp [State.keepLower]

@[simp] theorem tforkBody_wf (hs : Memory.wf s.mem) (d a : XReg) (off : Word) :
    Memory.wf (tforkBody d a off s).state.mem := by
  unfold tforkBody
  (repeat' split) <;> simp [hs]

@[simp] theorem tjoinBody_wf (hs : Memory.wf s.mem) (a : XReg) (v : Word) : Memory.wf (tjoinBody a v s).state.mem := by
  simp [tjoinBody, hs]

@[simp] theorem State.endLoop_wf (hs : Memory.wf s.mem) : Memory.wf s.endLoop.mem := by simp [State.endLoop, hs]

@[simp] theorem endBody_wf (hs : Memory.wf s.mem) : Memory.wf (endBody s).state.mem := by
  simp only [endBody]
  (repeat' split) <;> simp [hs]

@[simp] theorem State.tryEnd_wf (hs : Memory.wf s.mem) (tid : Nat) : Memory.wf (s.tryEnd tid).mem := by
  simp only [State.tryEnd]
  (repeat' split) <;> simp [hs]

/-! ## System instructions -/

@[simp] theorem guardSpecVA_wf {num : Nat} {k : State → Out} (hs : Memory.wf s.mem) (hk : Memory.wf (k s).state.mem) :
    Memory.wf (guardSpecVA num s k).state.mem := by simp [guardSpecVA, hs, hk]

@[simp] theorem mfsBody_wf (hs : Memory.wf s.mem) (d : XReg) (num : BitVec 12) :
    Memory.wf (mfsBody d num s).state.mem := by
  unfold mfsBody
  extract_lets n go
  have hgo : Memory.wf go.state.mem := guardSpecVA_wf hs (guardRegs_wf hs (by simp [hs]))
  split
  · simp [hs]
  · exact guardSup_wf hs hgo
  · exact hgo

@[simp] theorem mtsGo_wf (hs : Memory.wf s.mem) (n : Nat) (a : XReg) : Memory.wf (mtsGo n a s).state.mem :=
  guardSpecVA_wf hs (by simp [hs])

@[simp] theorem mtsBody_wf (hs : Memory.wf s.mem) (num : BitVec 12) (a : XReg) :
    Memory.wf (mtsBody num a s).state.mem := by
  unfold mtsBody
  split <;> simp [hs]

@[simp] theorem State.dropTlb_mem (sc : Scope) (which : TlbEntry → Bool) : (s.dropTlb sc which).mem = s.mem := by
  simp [State.dropTlb]

@[simp] theorem State.finishUses_wf (hs : Memory.wf s.mem) (sc : Scope) (named : Nat × Nat × Nat → Bool) :
    Memory.wf (s.finishUses sc named).mem := foldl_wf hs fun _ _ ha => by simp [ha]

@[simp] theorem State.flushLines_mem (sc : Scope) (l : List (Nat × Nat)) : (s.flushLines sc l).mem = s.mem := by
  simp [State.flushLines]

@[simp] theorem spawnBody_wf (hs : Memory.wf s.mem) (d a : XReg) (xb : Word) :
    Memory.wf (spawnBody d a xb s).state.mem := by
  have hc : Memory.wf s.completeFenced.mem := by simp [hs]
  unfold spawnBody
  split
  · exact hs
  · split <;> simp [wf_of_eq ‹_› (State.readRange_wf hc _ _ _ _)]

/-! ## The scheduler and the vector sequencer -/

@[simp] theorem State.noteSched_mem (r : Region) (va : Word) : (s.noteSched r va).mem = s.mem := by
  simp only [State.noteSched]
  (repeat' split) <;> simp

@[simp] theorem State.schedRead_mem (r : Region) (va : Word) (n : Nat) : (s.schedRead r va n).1.mem = s.mem := by
  unfold State.schedRead
  split <;> simp

@[simp] theorem State.readNest_mem (r : Region) (va : Word) : (s.readNest r va).1.mem = s.mem := by
  have hr := State.schedRead_mem (s := s) r va 16
  simp only [State.readNest]
  split
  · exact mem_of_eq ‹_› hr
  · split <;> simp [mem_of_eq ‹_› hr]

@[simp] theorem State.readPacket_mem (r : Region) (pa : Nat) (bs : List Byte) :
    (s.readPacket r pa bs).1.mem = s.mem := by simp [State.readPacket]

@[simp] theorem State.takeNode_mem (rcb j : Nat) : (s.takeNode rcb j).1.mem = s.mem := by simp [State.takeNode]

@[simp] theorem State.discard_wf (hs : Memory.wf s.mem) (r : Region) (pa : Nat) (node : Option (Nat × Nat)) :
    Memory.wf (s.discard r pa node).mem := by
  simp only [State.discard]
  (repeat' split) <;> simp [hs]

@[simp] theorem State.consume_wf (hs : Memory.wf s.mem) (r : Region) : Memory.wf (s.consume r).mem := by
  simp only [State.consume]
  (repeat' split) <;> simp [hs]

@[simp] theorem State.placeTask_wf (hs : Memory.wf s.mem) (p : Packet) (tid : Nat) :
    Memory.wf (s.placeTask p tid).mem := by simp [State.placeTask, hs]

@[simp] theorem State.writeCompletion_wf (hs : Memory.wf s.mem) (p : Packet) :
    Memory.wf (s.writeCompletion p).1.mem := by
  unfold State.writeCompletion
  (repeat' split) <;> simp [hs]

@[simp] theorem State.complete_wf (hs : Memory.wf s.mem) (p : Packet) : Memory.wf (s.complete p).mem := by
  unfold State.complete
  extract_lets u
  have hw := State.writeCompletion_wf (s := u) (by simp [u, hs]) p
  split
  · split <;> simp [wf_of_eq ‹_› hw]
  · split <;> simp [wf_of_eq ‹_› hw]

@[simp] theorem State.startTurn_mem (tid : Nat) : (s.startTurn tid).mem = s.mem := by simp [State.startTurn]

/-! ## Host, peers, masters and swaps -/

@[simp] theorem State.peerRefuse_mem (node addr : Nat) : (s.peerRefuse node addr).mem = s.mem := by
  simp [State.peerRefuse]

@[simp] theorem State.landPeerWrites_wf (hs : Memory.wf s.mem) : Memory.wf s.landPeerWrites.mem :=
  foldl_wf hs fun _ _ ha => by simp [ha]

@[simp] theorem State.combine_wf (hs : Memory.wf s.mem) (r : RedGroup) : Memory.wf (s.combine r).mem := by
  unfold State.combine
  extract_lets bs t u
  have hu : Memory.wf u.mem := by simp [u, t, hs]
  simp [hu]

@[simp] theorem State.fillOverflow_wf (hs : Memory.wf s.mem) (p : Part) (size : Nat) :
    Memory.wf (s.fillOverflow p size).mem := by simp [State.fillOverflow, hs]

@[simp] theorem State.savePart_wf (hs : Memory.wf s.mem) (d : DieId) (o : Nat) : Memory.wf (s.savePart d o).mem := by
  simp only [State.savePart]
  (repeat' split) <;> simp [hs]

@[simp] theorem State.restorePart_wf (hs : Memory.wf s.mem) (d : DieId) (i : Nat) :
    Memory.wf (s.restorePart d i).mem := by simp [State.restorePart, hs]

@[simp] theorem State.hostRead_mem (m : BitVec 16) (addr size : Nat) : (s.hostRead m addr size).mem = s.mem := by
  simp [State.hostRead]

@[simp] theorem State.ownershipCycle_mem (l : List (BitVec 16 × Nat × Word)) : (s.ownershipCycle l).mem = s.mem := by
  unfold State.ownershipCycle
  rw [foldl_mem, State.expire_mem]
  intro t w
  cases h : t.writeOwnReg w.1 w.2.1 w.2.2 with
  | none => rfl
  | some u => exact State.writeOwnReg_mem _ _ _ _ h

/-! ## Reset and boot -/

@[simp] theorem State.resetWith_wf (hs : Memory.wf s.mem) (b : BootInput) : Memory.wf (s.resetWith b).mem := by
  simp [State.resetWith, hs]

@[simp] theorem State.startWipe_wf (hs : Memory.wf s.mem) (cause : Nat) : Memory.wf (s.startWipe cause).mem := by
  simp [State.startWipe, hs]

@[simp] theorem State.logWipe_mem (failed : BitVec 8) : (s.logWipe failed).mem = s.mem := foldl_mem fun _ _ => rfl

@[simp] theorem State.spdmError_mem : s.spdmError.mem = s.mem := by simp [State.spdmError]

@[simp] theorem State.spdmAnswer_mem (code : Nat) (payload : List Byte) : (s.spdmAnswer code payload).mem = s.mem := by
  simp [State.spdmAnswer]

/-! ## The power cap -/

@[simp] theorem State.stepClocks_mem (power : Nat) : (s.stepClocks power).mem = s.mem := by simp [State.stepClocks]

/-! ## Scalar integer instructions -/

@[simp] theorem intOp_wf (hs : Memory.wf s.mem) (d : XReg) (srcs : List XReg) (f : Thread → Word) :
    NextWf (intOp d srcs f s) := by simp [intOp, hs]

@[simp] theorem slhashBody_wf (hs : Memory.wf s.mem) (d a : XReg) (imm : Word) :
    Memory.wf (slhashBody d a imm s).state.mem := by
  simp only [slhashBody]
  (repeat' split) <;> simp [hs]

/-! ## Scalar float instructions -/

@[simp] theorem floatOp_wf (hs : Memory.wf s.mem) (rounds : Bool) (d : XReg) (srcs : List XReg)
    (f : Thread → Nat × Flags) :
    NextWf (floatOp rounds d srcs f s) := by
  simp [floatOp, hs]

/-! ## Table registers -/

@[simp] theorem State.setTb_mem (t : TbReg) (ws : List (BitVec 32)) : (s.setTb t ws).mem = s.mem := by
  simp [State.setTb]

/-! ## Around the meaning of an instruction -/

@[simp] theorem State.pruneHedges_mem (tid : Nat) : (s.pruneHedges tid).mem = s.mem := by simp [State.pruneHedges]

@[simp] theorem State.seekTurn_mem (tid : Nat) : (s.seekTurn tid).mem = s.mem := by simp [State.seekTurn]

@[simp] theorem State.bindArray_mem (tid : Nat) (i : Instr) : (s.bindArray tid i).mem = s.mem := by
  unfold State.bindArray
  split <;> simp

@[simp] theorem State.bindKeys_mem (tid : Nat) (i : Instr) : (s.bindKeys tid i).mem = s.mem := by simp [State.bindKeys]

@[simp] theorem State.bindFor_mem (tid : Nat) (i : Instr) : (s.bindFor tid i).mem = s.mem := by
  unfold State.bindFor
  split <;> simp

@[simp] theorem State.traced_mem (i : Instr) : (s.traced i).mem = s.mem := by simp [State.traced]

@[simp] theorem State.afterIssue_mem (t : State) (tid : Nat) (i : Instr) : (s.afterIssue t tid i).mem = t.mem := by
  unfold State.afterIssue
  split <;> rfl

@[simp] theorem State.takeLate_mem (t : State) (tid : Nat) (l : Late) : (s.takeLate t tid l).mem = s.mem := by
  simp only [State.takeLate]
  split <;> simp

theorem State.replay_mem (tid : Nat) (l : Late) (bs : List Bool) : ∀ p ∈ s.replay tid l bs, p.1.mem = s.mem := by
  simp only [State.replay]
  split
  · simp
  · split
    · simp
    · split
      · split <;> simp
      · simp

theorem State.replayAll_mem (tid : Nat) (l : List (Late × List Bool)) : ∀ p ∈ s.replayAll tid l, p.1.mem = s.mem := by
  induction l generalizing s with
  | nil => simp [State.replayAll]
  | cons p ps ih =>
    simp only [State.replayAll]
    split
    · simp
    · have h := State.replay_mem _ _ _ _ ‹_›
      intro q hq
      obtain ⟨r, hr, rfl⟩ := Option.map_eq_some_iff.mp hq
      exact (ih r hr).trans h

@[simp] theorem State.rebind_mem (tid n els : Nat) : (s.rebind tid n els).mem = s.mem := by
  simp only [State.rebind]
  split
  · rfl
  · split
    · rfl
    · split
      · rfl
      · exact State.replayAll_mem _ _ _ ‹_›

/-! ## Parts of a step -/

@[simp] theorem State.fetchTrap_wf (hs : Memory.wf s.mem) (t : Trap) : Memory.wf (s.fetchTrap t).mem := by
  simp [State.fetchTrap, hs]

@[simp] theorem State.blockTrap_wf (hs : Memory.wf s.mem) (b : Block) (t : Trap) : Memory.wf (s.blockTrap b t).mem := by
  simp [State.blockTrap, hs]

@[simp] theorem State.tick_wf (hs : Memory.wf s.mem) (c : Clock) (n : Nat) : Memory.wf (s.tick c n).mem := by
  cases c <;> simp [State.tick, hs]

@[simp] theorem State.evictTlb_mem (clu asid page : Nat) : (s.evictTlb clu asid page).mem = s.mem := by
  simp [State.evictTlb]

/-! ## Instructions with a body of their own -/

theorem execVamo_wf (hs : Memory.wf s.mem) (op : AmoOp) (ty : Option Ty) (ord : VOrder) (sc : Scope) (vd : VReg)
    (a : XReg) (vb : VReg) (iw : BitVec 2) (imm : Word) (mk : Option MReg) :
    NextWf (execVamo op ty ord sc vd a vb iw imm mk s) := by
  refine finishCtl_wf (vecHead_wf hs fun t u hu => ?_)
  dsimp only
  split
  · simp [hu]
  · exact vamoApply_wf (by simp [hu]) ..

theorem execVldm_wf (hs : Memory.wf s.mem) (ord : VOrder) (md : MReg) (a : XReg) (imm : Word) :
    NextWf (execVldm ord md a imm s) := by
  refine finishCtl_wf (guardVA_wf hs (guardRegs_wf hs (maskLoop_wf (fun n t e ht => ?_) hs _)))
  split <;> simp [wf_of_eq ‹_› (State.load_wf ht _ _ _)]

theorem execVstm_wf (hs : Memory.wf s.mem) (ord : VOrder) (md : MReg) (a : XReg) (imm : Word) :
    NextWf (execVstm ord md a imm s) :=
  finishCtl_wf (guardVA_wf hs (guardRegs_wf hs
    (maskLoop_wf (fun _ _ _ ht => State.writeRangeAt_wf ht ..) (by simp [hs]) _)))

theorem execVspill_wf (hs : Memory.wf s.mem) (ord : VOrder) (vd : VReg) (a : XReg) (imm : Word) :
    NextWf (execVspill ord vd a imm s) := by
  refine finishCtl_wf (guardVA_wf hs ?_)
  split
  · simp [hs]
  · refine guardRegs_wf hs (guardVec_wf hs fun t ht => ?_)
    simp [ht]

theorem execVfill_wf (hs : Memory.wf s.mem) (ty : Option Ty) (ord : VOrder) (vd : VReg) (a : XReg) (imm : Word) :
    NextWf (execVfill ty ord vd a imm s) := by
  refine finishCtl_wf (guardVA_wf hs ?_)
  split
  · simp [hs]
  · split
    · simp [hs]
    · refine guardRegs_wf hs ?_
      dsimp only
      split
      · exact hs
      · split <;> simp [wf_of_eq ‹_› (State.load_wf hs _ _ _)]

theorem execVgetx_wf (hs : Memory.wf s.mem) (d : XReg) (va : VReg) (b : XReg) (imm : Word) :
    NextWf (execVgetx d va b imm s) := by
  refine finishCtl_wf (guardVA_wf hs ?_)
  split
  · simp [hs]
  · refine guardRegs_wf hs ?_
    dsimp only
    split
    · simp [hs]
    · exact guardVec_wf hs fun t ht => by simp [ht]

theorem execVputx_wf (hs : Memory.wf s.mem) (vd : VReg) (a b : XReg) (imm : Word) :
    NextWf (execVputx vd a b imm s) := by
  refine finishCtl_wf (guardVA_wf hs ?_)
  split
  · simp [hs]
  · exact guardRegs_wf hs (by simp [hs])

theorem execVssave_wf (hs : Memory.wf s.mem) (a : XReg) (imm : Word) : NextWf (execVssave a imm s) := by
  refine finishCtl_wf (guardVA_wf hs (guardRegs_wf hs ?_))
  dsimp only
  split
  · exact hs
  · split <;> exact wf_of_eq ‹_› (State.writeRangeAt_wf hs ..)

theorem execVsload_wf (hs : Memory.wf s.mem) (a : XReg) (imm : Word) : NextWf (execVsload a imm s) := by
  refine finishCtl_wf (guardVA_wf hs (guardRegs_wf hs ?_))
  dsimp only
  split
  · exact hs
  · split <;> simp [wf_of_eq ‹_› (State.readRange_wf hs _ _ _ _)]

theorem execTlw_wf (hs : Memory.wf s.mem) (wb : Bool) (a : XReg) (imm : Word) : NextWf (execTlw wb a imm s) := by
  refine finishCtl_wf ?_
  split
  · exact hs
  · exact guardRegs_wf hs (by simp [hs])

theorem execTmma_wf (hs : Memory.wf s.mem) (assoc ff : Bool) (acc : AccReg) (a b c : XReg) (wb : Bool) (rb : BitVec 2)
    (n : XReg) (imm : Word) : NextWf (execTmma assoc ff acc a b c wb rb n imm s) := by
  refine finishCtl_wf (guardVA_wf hs (guardTile_wf hs ?_))
  split
  · simp [hs]
  · simp [hs]

theorem execTdrain_wf (hs : Memory.wf s.mem) (acc : AccReg) (a b : XReg) (imm : Word) (mk : Option MReg)
    (row0 : BitVec 6) (rows : BitVec 7) (fn : BitVec 2) (tb : TbReg) (h : XReg) :
    NextWf (execTdrain acc a b imm mk row0 rows fn tb h s) := by
  refine finishCtl_wf (guardVA_wf hs (guardTile_wf hs ?_))
  split
  · simp [hs]
  · exact guardSlot_wf hs (guardRegs_wf hs (guardAcc_wf hs (drainBody_wf hs ..)))

theorem execTdrainx_wf (hs : Memory.wf s.mem) (acc : AccReg) (a : XReg) (vb : VReg) (imm : Word) (mk : Option MReg)
    (row0 : BitVec 6) (rows : BitVec 7) (fn : BitVec 2) (tb : TbReg) (h : XReg) :
    NextWf (execTdrainx acc a vb imm mk row0 rows fn tb h s) := by
  refine finishCtl_wf (guardVA_wf hs ?_)
  split
  · simp [hs]
  · refine guardTile_wf hs ?_
    split
    · simp [hs]
    · split
      · simp [hs]
      · exact guardSlot_wf hs (guardRegs_wf hs (guardAcc_wf hs (guardVec_wf hs fun t ht => drainBody_wf ht ..)))

theorem execBgemv_wf (hs : Memory.wf s.mem) (d a b c : XReg) (k n : BitVec 16) (bv : BitVec 4) (astr ostr : BitVec 32) :
    NextWf (execBgemv d a b c k n bv astr ostr s) := by
  refine finishCtl_wf (guardRegs_wf hs (guardWindow_wf hs ?_))
  dsimp only
  split
  · exact hs
  · split <;> simp [hs]

theorem execKset_wf (hs : Memory.wf s.mem) (ks : KsReg) (a : XReg) (imm : Word) : NextWf (execKset ks a imm s) := by
  refine finishCtl_wf (guardRegs_wf hs ?_)
  dsimp only
  split
  · exact hs
  · split
    · exact hs
    · refine guardWindow_wf hs ?_
      split
      · exact wf_of_eq ‹_› (State.readRange_wf hs ..)
      · have ht := wf_of_eq ‹_› (State.readRange_wf hs _ _ _ _)
        split
        · exact ht
        · exact guardWindow_wf ht (by simp [ht])

theorem execCst_wf (hs : Memory.wf s.mem) (cs : CReg) (a : XReg) (imm : Word) : NextWf (execCst cs a imm s) := by
  refine finishCtl_wf (guardC_wf hs (guardRegs_wf hs ?_))
  dsimp only
  split
  · exact hs
  · refine guardWindow_wf hs ?_
    split <;> exact wf_of_eq ‹_› (State.writeRangeAt_wf hs ..)

theorem execCzero_wf (hs : Memory.wf s.mem) (cd : CReg) (ks : KsReg) : NextWf (execCzero cd ks s) := by
  refine finishCtl_wf (guardC_wf hs ?_)
  split <;> simp [hs]

theorem execCref_wf (hs : Memory.wf s.mem) (cd cs : CReg) (tb : TbReg) (ks : KsReg) :
    NextWf (execCref cd cs tb ks s) := by
  refine finishCtl_wf (guardC_wf hs ?_)
  dsimp only
  split
  · simp [hs]
  · split
    · simp [hs]
    · split
      · simp [hs]
      · split
        · simp [hs]
        · exact guardRegs_wf hs (by simp [hs])

theorem execRpush_wf (hs : Memory.wf s.mem) (q : QReg) (a : XReg) (imm : Word) : NextWf (execRpush q a imm s) := by
  refine finishCtl_wf (guardRing_wf hs fun r => guardRegs_wf hs ?_)
  split
  · simp [hs]
  · split <;> simp [wf_of_eq ‹_› (State.readRange_wf hs _ _ _ _)]

theorem execBankcfg_wf (hs : Memory.wf s.mem) (a : XReg) : NextWf (execBankcfg a s) := by
  refine finishCtl_wf ?_
  dsimp only
  split
  · simp [hs]
  · exact guardRegs_wf hs (by simp [hs])

theorem execGwait_wf (hs : Memory.wf s.mem) (a : XReg) : NextWf (execGwait a s) := by
  refine finishCtl_wf ?_
  split
  · simp [hs]
  · refine guardRegs_wf hs ?_
    split <;> simp [hs]

theorem execEret_wf (hs : Memory.wf s.mem) : NextWf (execEret s) := by
  refine finishCtl_wf ?_
  split
  · exact guardRegs_wf hs (by simp [hs])
  · exact hs

theorem execCflush_wf (hs : Memory.wf s.mem) (sc : Scope) (a : XReg) (imm : Word) (b : XReg) :
    NextWf (execCflush sc a imm b s) := by
  refine finishCtl_wf (guardRegs_wf hs ?_)
  dsimp only
  split <;> simp [hs]

theorem execCpin_wf (hs : Memory.wf s.mem) (a : XReg) (imm : Word) : NextWf (execCpin a imm s) := by
  refine finishCtl_wf (guardRegs_wf hs ?_)
  split <;> simp [hs]

theorem execCunpin_wf (hs : Memory.wf s.mem) (a : XReg) (imm : Word) : NextWf (execCunpin a imm s) := by
  refine finishCtl_wf (guardRegs_wf hs ?_)
  split <;> simp [hs]

theorem execTbld_wf (hs : Memory.wf s.mem) (tb : TbReg) (a : XReg) (imm : Word) : NextWf (execTbld tb a imm s) := by
  refine finishCtl_wf (guardRegs_wf hs ?_)
  dsimp only
  split
  · exact hs
  · split <;> simp [wf_of_eq ‹_› (State.readRange_wf hs _ _ _ _)]

theorem execTbst_wf (hs : Memory.wf s.mem) (tb : TbReg) (a : XReg) (imm : Word) : NextWf (execTbst tb a imm s) := by
  refine finishCtl_wf (guardRegs_wf hs ?_)
  dsimp only
  split
  · exact hs
  · split <;> exact wf_of_eq ‹_› (State.writeRangeAt_wf hs ..)

/-! ## E-words with a body of their own -/

theorem execVtunpk_wf (hs : Memory.wf s.mem) (e : EOp) : NextWf (execVtunpk e s) :=
  finishE_wf hs fun b => eHead_mem fun t => by split <;> simp

theorem execVmeanvar_wf (hs : Memory.wf s.mem) (e : EOp) : NextWf (execVmeanvar e s) :=
  finishE_wf hs fun b => eHead_mem fun t => by simp

/-! ## Events with branches of their own -/

theorem execHoltLinkDown_wf (hs : Memory.wf s.mem) (link : Nat) : NextWf (execHoltLinkDown link s) := by
  unfold execHoltLinkDown
  split
  · simp only [nextWf_next, State.modHub_mem]
    exact foldl_wf (by simp [hs]) fun a c ha => by split <;> simp [ha]
  · exact hs

theorem execHotPageEpochEnd_wf (hs : Memory.wf s.mem) (die : DieId) : NextWf (execHotPageEpochEnd die s) := by
  unfold execHotPageEpochEnd
  extract_lets x meets skip go t skips u
  have ht : Memory.wf t.mem := foldl_wf hs fun a e ha => by simp [ha]
  split
  · exact hs
  · simp [u, ht]

theorem execPowerCapComparison_wf (hs : Memory.wf s.mem) (power : Nat) (temps pwrs : List Nat) :
    NextWf (execPowerCapComparison power temps pwrs s) := by
  unfold execPowerCapComparison
  extract_lets t trips u
  have ht : Memory.wf t.mem := by simp [t, hs]
  have hu : Memory.wf u.mem := foldl_wf ht fun a p ha => by simp [ha]
  simp [ht, hu]

/-! ## Events -/

theorem execDrove_wf (hs : Memory.wf s.mem) (ks : KsReg) (count : BitVec 6) : NextWf (execDrove ks count s) := by
  simp only [execDrove]
  (repeat' split) <;> simp [hs]

theorem execDroveWindowExpiry_wf (hs : Memory.wf s.mem) (clu : Nat) (ks : KsReg) :
    NextWf (execDroveWindowExpiry clu ks s) := by
  simp only [execDroveWindowExpiry]
  (repeat' split) <;> simp [hs]

theorem execCoppicePassRun_wf (hs : Memory.wf s.mem) (clu : Nat) : NextWf (execCoppicePassRun clu s) := by
  simp only [execCoppicePassRun]
  (repeat' split) <;> simp [hs]

theorem execWaveAnswer_wf (hs : Memory.wf s.mem) (clu : Nat) : NextWf (execWaveAnswer clu s) := by
  simp only [execWaveAnswer]
  (repeat' split) <;> simp [hs]

theorem execMemorySideCacheReturn_wf (hs : Memory.wf s.mem) (die : DieId) (slice : Nat) :
    NextWf (execMemorySideCacheReturn die slice s) := by
  unfold execMemorySideCacheReturn
  split <;> simp [hs]

theorem execCopyNodeLaunch_wf (hs : Memory.wf s.mem) (core ord : Nat) : NextWf (execCopyNodeLaunch core ord s) := by
  unfold execCopyNodeLaunch
  (repeat' split) <;> simp [hs]

theorem execWaitmReread_wf (hs : Memory.wf s.mem) (tid : Nat) : NextWf (execWaitmReread tid s) := by
  simp only [execWaitmReread]
  (repeat' split) <;> simp [hs]

theorem execEndTakesEffect_wf (hs : Memory.wf s.mem) (tid : Nat) : NextWf (execEndTakesEffect tid s) := by
  simp [execEndTakesEffect, hs]

theorem execPacketConsume_wf (hs : Memory.wf s.mem) (die : DieId) (idx : Nat) :
    NextWf (execPacketConsume die idx s) := by
  unfold execPacketConsume
  split <;> simp [hs]

theorem execTaskPlacement_wf (hs : Memory.wf s.mem) (die : DieId) : NextWf (execTaskPlacement die s) := by
  unfold execTaskPlacement
  split <;> simp [hs]

theorem execLoopNestIteration_wf (hs : Memory.wf s.mem) (clu : Nat) : NextWf (execLoopNestIteration clu s) := by
  unfold execLoopNestIteration
  split <;> simp [hs]

theorem execDeadlineMiss_wf (hs : Memory.wf s.mem) (die : DieId) (uid : Nat) : NextWf (execDeadlineMiss die uid s) := by
  unfold execDeadlineMiss
  split <;> simp [hs]

theorem execPacketCompletion_wf (hs : Memory.wf s.mem) (die : DieId) (uid : Nat) :
    NextWf (execPacketCompletion die uid s) := by
  unfold execPacketCompletion
  split <;> simp [hs]

theorem execWatchdog_wf (hs : Memory.wf s.mem) (tid el : Nat) : NextWf (execWatchdog tid el s) := by
  simp [execWatchdog, hs]

theorem execVectorSequencerTurn_wf (hs : Memory.wf s.mem) (core : Nat) (ready : List Nat) :
    NextWf (execVectorSequencerTurn core ready s) := by simp [execVectorSequencerTurn, hs]

theorem execTurnIdleEnd_wf (hs : Memory.wf s.mem) (tid : Nat) : NextWf (execTurnIdleEnd tid s) := by
  simp [execTurnIdleEnd, hs]

theorem execFloorWindowEnd_wf (hs : Memory.wf s.mem) (core : Nat) : NextWf (execFloorWindowEnd core s) := by
  simp [execFloorWindowEnd, hs]

theorem execPendingGrantReform_wf (hs : Memory.wf s.mem) (tid : Nat) : NextWf (execPendingGrantReform tid s) := by
  simp [execPendingGrantReform, hs]

theorem execPerBankRefresh_wf (hs : Memory.wf s.mem) (die : DieId) (ch bank : Nat) (busy : Bool) :
    NextWf (execPerBankRefresh die ch bank busy s) := by simp [execPerBankRefresh, hs]

theorem execActivation_wf (hs : Memory.wf s.mem) (die : DieId) (ch bank row : Nat) :
    NextWf (execActivation die ch bank row s) := by simp [execActivation, hs]

theorem execTrackerClear_wf (hs : Memory.wf s.mem) (die : DieId) (ch bank : Nat) :
    NextWf (execTrackerClear die ch bank s) := by simp [execTrackerClear, hs]

theorem execActivationCountAlert_wf (hs : Memory.wf s.mem) (die : DieId) (ch bank : Nat) :
    NextWf (execActivationCountAlert die ch bank s) := by simp [execActivationCountAlert, hs]

theorem execAlertRelease_wf (hs : Memory.wf s.mem) (die : DieId) (ch bank : Nat) :
    NextWf (execAlertRelease die ch bank s) := by simp [execAlertRelease, hs]

theorem execRemoteRead_wf (hs : Memory.wf s.mem) (stack reader addr len : Nat) (old : List Nat) :
    NextWf (execRemoteRead stack reader addr len old s) := by simp [execRemoteRead, hs]

theorem execMemoryError_wf (hs : Memory.wf s.mem) (addr : Nat) (uncorr : Bool) :
    NextWf (execMemoryError addr uncorr s) := by
  unfold execMemoryError
  split <;> simp [hs]

theorem execCxlMemRead_wf (hs : Memory.wf s.mem) (addr len : Nat) : NextWf (execCxlMemRead addr len s) := by
  simp [execCxlMemRead, hs]

theorem execPeerRead_wf (hs : Memory.wf s.mem) (node addr len : Nat) : NextWf (execPeerRead node addr len s) := by
  simp [execPeerRead, hs]

theorem execPeerWrite_wf (hs : Memory.wf s.mem) (node addr : Nat) (bytes : List Byte) :
    NextWf (execPeerWrite node addr bytes s) := by simp [execPeerWrite, hs]

theorem execPeerAtomic_wf (hs : Memory.wf s.mem) (node addr : Nat) (cas : Bool) (op : AmoOp) (ty : Ty) (x y : Word) :
    NextWf (execPeerAtomic node addr cas op ty x y s) := by simp [execPeerAtomic, hs]

theorem execHoltLinkUp_wf (hs : Memory.wf s.mem) (link : Nat) : NextWf (execHoltLinkUp link s) := by
  simp [execHoltLinkUp, hs]

theorem execReductionCombine_wf (hs : Memory.wf s.mem) (g : Nat) : NextWf (execReductionCombine g s) := by
  unfold execReductionCombine
  split <;> simp [hs]

theorem execPartitionSave_wf (hs : Memory.wf s.mem) (die : DieId) : NextWf (execPartitionSave die s) := by
  simp only [execPartitionSave]
  (repeat' split) <;> simp [hs]

theorem execSwapIn_wf (hs : Memory.wf s.mem) (die : DieId) : NextWf (execSwapIn die s) := by
  simp only [execSwapIn]
  (repeat' split) <;> simp [hs]

theorem execOwnclaim_wf (hs : Memory.wf s.mem) (m : BitVec 16) (v : Word) : NextWf (execOwnclaim m v s) := by
  simp [execOwnclaim, hs]

theorem execHeartbeat_wf (hs : Memory.wf s.mem) (m : BitVec 16) (v : Word) : NextWf (execHeartbeat m v s) := by
  simp [execHeartbeat, hs]

theorem execSuccessor_wf (hs : Memory.wf s.mem) (m : BitVec 16) (v : Word) : NextWf (execSuccessor m v s) := by
  simp [execSuccessor, hs]

theorem execOwnershipExpiry_wf (hs : Memory.wf s.mem) : NextWf (execOwnershipExpiry s) := by
  simp [execOwnershipExpiry, hs]

theorem execRegisterWrite_wf (hs : Memory.wf s.mem) (m : BitVec 16) (addr size : Nat) (v : Word) :
    NextWf (execRegisterWrite m addr size v s) := by simp [execRegisterWrite, hs]

theorem execReset_wf (hs : Memory.wf s.mem) (boot : BootInput) : NextWf (execReset boot s) := by simp [execReset, hs]

theorem execWipeComplete_wf (hs : Memory.wf s.mem) (failed : BitVec 8) (dur : Word) (unread : List Byte) :
    NextWf (execWipeComplete failed dur unread s) := by simp [execWipeComplete, hs]

theorem execGetVersion_wf (hs : Memory.wf s.mem) : NextWf (execGetVersion s) := by simp [execGetVersion, hs]

theorem execGetCapabilities_wf (hs : Memory.wf s.mem) : NextWf (execGetCapabilities s) := by
  simp [execGetCapabilities, hs]

theorem execNegotiateAlgorithms_wf (hs : Memory.wf s.mem) : NextWf (execNegotiateAlgorithms s) := by
  simp [execNegotiateAlgorithms, hs]

theorem execGetDigests_wf (hs : Memory.wf s.mem) : NextWf (execGetDigests s) := by simp [execGetDigests, hs]

theorem execGetCertificate_wf (hs : Memory.wf s.mem) (off len : Nat) : NextWf (execGetCertificate off len s) := by
  simp [execGetCertificate, hs]

theorem execChallenge_wf (hs : Memory.wf s.mem) (nonce : List Byte) : NextWf (execChallenge nonce s) := by
  simp [execChallenge, hs]

theorem execGetMeasurements_wf (hs : Memory.wf s.mem) (index : Nat) : NextWf (execGetMeasurements index s) := by
  simp [execGetMeasurements, hs]

theorem execUnsupportedRequest_wf (hs : Memory.wf s.mem) (_code : Byte) : NextWf (execUnsupportedRequest _code s) := by
  simp [execUnsupportedRequest, hs]

theorem execFirmwareStageStart_wf (hs : Memory.wf s.mem) (img : Image) : NextWf (execFirmwareStageStart img s) := by
  simp [execFirmwareStageStart, hs]

theorem execFirmwareMeasurementRequest_wf (hs : Memory.wf s.mem) (img : Image) :
    NextWf (execFirmwareMeasurementRequest img s) := by simp [execFirmwareMeasurementRequest, hs]

theorem execReadyPoint_wf (hs : Memory.wf s.mem) : NextWf (execReadyPoint s) := by simp [execReadyPoint, hs]

theorem execSlotVerifyDone_wf (hs : Memory.wf s.mem) (img : Option Image) : NextWf (execSlotVerifyDone img s) := by
  simp [execSlotVerifyDone, hs]

theorem execCirosStartContext_wf (hs : Memory.wf s.mem) (tid : Nat) (addr : Word) (args : List Word) (rcb : Nat) :
    NextWf (execCirosStartContext tid addr args rcb s) := by simp [execCirosStartContext, hs]

theorem execCirosReleaseContext_wf (hs : Memory.wf s.mem) (tid : Nat) : NextWf (execCirosReleaseContext tid s) := by
  simp [execCirosReleaseContext, hs]

theorem execThreadRestart_wf (hs : Memory.wf s.mem) (tid : Nat) : NextWf (execThreadRestart tid s) := by
  simp [execThreadRestart, hs]

theorem execRegisterError_wf (hs : Memory.wf s.mem) (tid : Nat) (loc : ErrAt) :
    NextWf (execRegisterError tid loc s) := by
  unfold execRegisterError
  (repeat' split) <;> simp [hs]

/-! ## Every instruction and every event -/

/-- The meaning of every instruction and event keeps the canonical form of memory. Instructions that differ in a function
or in their operands alone share the lemma of what they are made of. -/
theorem exec_wf (hs : Memory.wf s.mem) (i : Instr) : NextWf (exec i s) := by
  cases i with simp only [exec]
  | nop | br | bcc | bz | bnz | yieldTurn | brk | trap | rlopen | claimdone | rlclose | cadd | csub | glink |
    fence | bar | hedge | tjoin | endTask | mfs | mts | tbset =>
    exact finishCtl_wf (by simp [hs])
  | add | sub | addi | mul | mulh | mulhn | div | divn | rem | remn | and | or | xor | andn | shl | shr | sra |
    rot | min | max | minn | maxn | clz | ctz | popc | sel | setcc | lea | bfx | bfi | li =>
    exact intOp_wf hs ..
  | fadd | fsub | fmul | fma | fdiv | fsqrt | fmin | fmax | fcvt | fcmp => exact floatOp_wf hs ..
  | ld | st | amo | cas | pref | jmpr | jtab | waitm | tfork | spawn | slhash | gnode =>
    exact finishCtl_wf (guardRegs_wf hs (by simp [hs]))
  | vld | vlds | vldx => exact finishCtl_wf (vecHead_wf hs fun _ _ ht => loadLoop_wf ht ..)
  | vldff => exact finishCtl_wf (vecHead_wf hs fun _ _ ht => ffLoop_wf ht ..)
  | vst | vsts | vstx => exact finishCtl_wf (vecHead_wf hs fun _ _ ht => storeLoop_wf ht ..)
  | vamo => exact execVamo_wf hs ..
  | vldm => exact execVldm_wf hs ..
  | vstm => exact execVstm_wf hs ..
  | vspill => exact execVspill_wf hs ..
  | vfill => exact execVfill_wf hs ..
  | vsett | claim => exact finishCtl_wf (guardVA_wf hs (by simp [hs]))
  | vmvl | vmpop | vmfirst | vf | call | callr | ret | setvl | strip =>
    exact finishCtl_wf (guardVA_wf hs (guardRegs_wf hs (by simp [hs])))
  | vgetx => exact execVgetx_wf hs ..
  | vputx => exact execVputx_wf hs ..
  | vssave => exact execVssave_wf hs ..
  | vsload => exact execVsload_wf hs ..
  | tlw => exact execTlw_wf hs ..
  | tzero => exact finishCtl_wf (guardTile_wf hs (by simp [hs]))
  | tscale => exact finishCtl_wf (guardTile_wf hs (guardRegs_wf hs (by simp [hs])))
  | tmma => exact execTmma_wf hs ..
  | tstat => exact finishCtl_wf (by split <;> simp [hs])
  | tdrain => exact execTdrain_wf hs ..
  | tdrainx => exact execTdrainx_wf hs ..
  | bgemv => exact execBgemv_wf hs ..
  | bwait => exact finishCtl_wf (guardRegs_wf hs (bgPoint_wf hs (fun _ ht => by exact ht) _))
  | kset => exact execKset_wf hs ..
  | cst => exact execCst_wf hs ..
  | czero => exact execCzero_wf hs ..
  | cmov | cneg | caddk | cnoise | cld => exact finishCtl_wf (guardC_wf hs (guardRegs_wf hs (by simp [hs])))
  | cmulk | cnraise => exact finishCtl_wf (guardC_wf hs (by simp [hs]))
  | cref => exact execCref_wf hs ..
  | drove => exact execDrove_wf hs ..
  | tbld => exact execTbld_wf hs ..
  | tbst => exact execTbst_wf hs ..
  | rpush => exact execRpush_wf hs ..
  | rpeek | rpop => exact finishCtl_wf (guardRing_wf hs fun _ => by simp [hs])
  | cpy | cpy2d | cpyg => exact finishCtl_wf (guardCopy_wf hs fun _ => guardRegs_wf hs (by simp [hs]))
  | gwait => exact execGwait_wf hs ..
  | eret => exact execEret_wf hs ..
  | tlbinv => exact finishCtl_wf (guardSup_wf hs (guardRegs_wf hs (by simp [hs])))
  | cflush => exact execCflush_wf hs ..
  | cpin => exact execCpin_wf hs ..
  | cunpin => exact execCunpin_wf hs ..
  | bankcfg => exact execBankcfg_wf hs ..
  | halt => exact finishCtl_wf (guardSup_wf hs (by simp [hs]))
  | vnop | vstop | vpfetchDirect | vpfetchIndirect | vnarrow | vcvt | vcmp | vfcmp | vsel | vid | viota | vbcast |
    vcompress | vexpand | vperm | vfn | vbscale | vbquant | vtpack =>
    exact finishE_wf hs fun b => by simp
  | vadd | vsub | vrsub | vmul | vsadd | vssub | vmin | vmax | vand | vor | vxor | vshl | vshr | vsra =>
    exact eBin2_wf hs ..
  | vmulh | vavg | vfmin | vfmax => exact eBinR_wf hs ..
  | vmadd | vmsub | vfma | vfms => exact eTern3_wf hs ..
  | vabs | vneg | vnot | vclz | vpopc | vfsqrt | vfabs | vfneg => exact eUn1_wf hs ..
  | vwadd | vwmul => exact eWide_wf hs ..
  | vfadd | vfsub | vfmul | vfdiv => exact eF2_wf hs ..
  | mand | mor | mxor | mnot => exact eMaskLogic_wf hs ..
  | vslideup | vslidedn => exact eSlide_wf hs ..
  | vredsum | vredmax | vredmin | vredand | vredor => exact eReduce_wf hs ..
  | vmeanvar => exact execVmeanvar_wf hs ..
  | vtunpk => exact execVtunpk_wf hs ..
  | watchdog => exact execWatchdog_wf hs ..
  | endTakesEffect => exact execEndTakesEffect_wf hs ..
  | packetConsume => exact execPacketConsume_wf hs ..
  | taskPlacement => exact execTaskPlacement_wf hs ..
  | loopNestIteration => exact execLoopNestIteration_wf hs ..
  | deadlineMiss => exact execDeadlineMiss_wf hs ..
  | packetCompletion => exact execPacketCompletion_wf hs ..
  | vectorSequencerTurn => exact execVectorSequencerTurn_wf hs ..
  | turnIdleEnd => exact execTurnIdleEnd_wf hs ..
  | floorWindowEnd => exact execFloorWindowEnd_wf hs ..
  | pendingGrantReform => exact execPendingGrantReform_wf hs ..
  | droveWindowExpiry => exact execDroveWindowExpiry_wf hs ..
  | coppicePassRun => exact execCoppicePassRun_wf hs ..
  | coppicePassEnd => exact execCoppicePassEnd_wf hs ..
  | waveAnswer => exact execWaveAnswer_wf hs ..
  | copyNodeLaunch => exact execCopyNodeLaunch_wf hs ..
  | copyNodeFinish => exact execCopyNodeFinish_wf hs ..
  | bgemvCompletion => exact execBgemvCompletion_wf hs ..
  | memorySideCacheReturn => exact execMemorySideCacheReturn_wf hs ..
  | waitmReread => exact execWaitmReread_wf hs ..
  | hotPageEpochEnd => exact execHotPageEpochEnd_wf hs ..
  | perBankRefresh => exact execPerBankRefresh_wf hs ..
  | activation => exact execActivation_wf hs ..
  | trackerClear => exact execTrackerClear_wf hs ..
  | activationCountAlert => exact execActivationCountAlert_wf hs ..
  | alertRelease => exact execAlertRelease_wf hs ..
  | channelConfigWrite | accessControlEntryWrite | cxlMemWrite | reductionGroupEnable | regionTableWrite |
    rangeTableWrite | partitionTableWrite | swapOut | slotVerify | minimumVersionRaise | retireAdd | retireClear =>
    exact State.ownerOnly_wf hs _ fun _ ht => by simp [ht]
  | remoteRead => exact execRemoteRead_wf hs ..
  | cxlMemRead => exact execCxlMemRead_wf hs ..
  | peerRead => exact execPeerRead_wf hs ..
  | peerWrite => exact execPeerWrite_wf hs ..
  | peerAtomic => exact execPeerAtomic_wf hs ..
  | holtLinkDown => exact execHoltLinkDown_wf hs ..
  | reductionCombine => exact execReductionCombine_wf hs ..
  | partitionSave => exact execPartitionSave_wf hs ..
  | swapIn => exact execSwapIn_wf hs ..
  | ownclaim => exact execOwnclaim_wf hs ..
  | heartbeat => exact execHeartbeat_wf hs ..
  | successor => exact execSuccessor_wf hs ..
  | ownershipExpiry => exact execOwnershipExpiry_wf hs ..
  | reset => exact execReset_wf hs ..
  | wipeComplete => exact execWipeComplete_wf hs ..
  | recoveryImage | provision | deploy | decommission =>
    exact State.ownerMay_wf hs _ _ fun _ ht => by simp [ht]
  | getVersion => exact execGetVersion_wf hs ..
  | getCapabilities => exact execGetCapabilities_wf hs ..
  | negotiateAlgorithms => exact execNegotiateAlgorithms_wf hs ..
  | getDigests => exact execGetDigests_wf hs ..
  | getCertificate => exact execGetCertificate_wf hs ..
  | challenge => exact execChallenge_wf hs ..
  | getMeasurements => exact execGetMeasurements_wf hs ..
  | unsupportedRequest => exact execUnsupportedRequest_wf hs ..
  | slotVerifyDone => exact execSlotVerifyDone_wf hs ..
  | powerCapComparison => exact execPowerCapComparison_wf hs ..
  | cirosStartContext => exact execCirosStartContext_wf hs ..
  | cirosReleaseContext => exact execCirosReleaseContext_wf hs ..
  | threadRestart => exact execThreadRestart_wf hs ..
  | registerWrite => exact execRegisterWrite_wf hs ..
  | holtLinkUp => exact execHoltLinkUp_wf hs ..
  | firmwareStageStart => exact execFirmwareStageStart_wf hs ..
  | firmwareMeasurementRequest => exact execFirmwareMeasurementRequest_wf hs ..
  | readyPoint => exact execReadyPoint_wf hs ..
  | registerError => exact execRegisterError_wf hs ..
  | memoryError => exact execMemoryError_wf hs ..

/-! ## A step -/

theorem State.issueInstr_wf (hs : Memory.wf s.mem) (i : Instr) : NextWf (s.issueInstr i) := by
  unfold State.issueInstr
  extract_lets tid a b c d e
  have ha : Memory.wf a.mem := by simp [a, hs]
  have hb : Memory.wf b.mem := by simp [b, ha]
  have hd : Memory.wf d.mem := by simp [d, c, hb]
  have he : Memory.wf e.mem := by simp [e, hd]
  split
  · simp [ha]
  · split
    · simp [hb]
    · have hx := exec_wf (s := e.traced i) (by simp [he]) i
      split
      · rename_i t ht
        rw [ht] at hx
        simpa using hx
      · trivial
      · trivial

theorem State.issueWord_wf (hs : Memory.wf s.mem) : NextWf s.issueWord := by
  unfold State.issueWord
  split
  · rename_i b _
    have hf : Memory.wf (s.fetchBlk b).1.mem := by simp [hs]
    split
    · exact State.issueInstr_wf (wf_of_eq ‹_› hf) _
    · simp [wf_of_eq ‹_› hf]
  · have hf : Memory.wf s.fetchCtl.1.mem := by simp [hs]
    split
    · exact State.issueInstr_wf (wf_of_eq ‹_› hf) _
    · simp [wf_of_eq ‹_› hf]

theorem State.runThread_wf (hs : Memory.wf s.mem) : NextWf s.runThread := by
  unfold State.runThread
  split
  · exact hs
  · split
    · exact State.issueWord_wf hs
    · exact exec_wf hs _
    · exact hs

theorem State.runTurn_wf (hs : Memory.wf s.mem) (t : Turn) : NextWf (s.runTurn t) := by
  cases t with
  | thread tid old early => exact State.runThread_wf (by exact hs)
  | event i =>
    unfold State.runTurn
    dsimp only
    split
    · exact exec_wf hs i
    · trivial
  | late | perform | copyWrite | tick | evict | outside | peerGrant | ownership | hostRead | hotThreshold | target =>
    simp [State.runTurn, hs]

/-- A step that goes on keeps the canonical form. -/
theorem step_wf (hs : Memory.wf s.mem) : NextWf (step s) := by
  unfold step
  split
  · exact State.runThread_wf hs
  · exact State.runTurn_wf (by exact hs) _

end

/-- Settles O6: no turn, whatever moves in it, leaves a memory without the canonical form. -/
theorem stepKeepsMemoryForm : Obligations.StepKeepsMemoryForm := by
  intro s t hs ht
  have h := step_wf hs
  rw [ht] at h
  exact h

end Sys2Proof.Machine
end

section
/-!
The refutation of O15. A store translates its first byte alone and lays the others behind it, which stays within the page
only when the page base is a multiple of the page size. A walk sees to that (`malformed`, R352); a cached translation
(R354) is taken as it stands, and the statement speaks of every state. Its clause `Stmt.RangeStore` therefore fails
where a cached page begins off its alignment and runs out of its stack: the bytes behind the end of HBM4 are issued on the
external path, and the storing thread does not read them on its own.
-/
namespace Sys2Proof.Machine

/-- The first physical address behind stack 0. -/
def stackEnd : Nat := State.stackCap {} 0

/-- The issuing thread's core holds a translation of page 0, all accesses allowed, to the addresses
from 256 bytes below `stackEnd` on. No walk fills such a leaf, `malformed (stackEnd - 0x100 + 0x3F) 0`. -/
def skewedPage : State :=
  { cores := [(0, { tlb := [{ asid := 0, page := 0, log := 16, entry := wordN (stackEnd - 0x100 + 0x3F) }] })] }

/-- Nine whole bytes of value 1, one more than an access that memory takes undivided (R226). -/
def nineOnes : List (Byte × Byte) := List.replicate 9 (1, 0xFF)

theorem skewedPage_xlate :
    skewedPage.xlate (skewedPage.ctxOf skewedPage.cur) .write 0xFF =
      .ok { pa := stackEnd - 1, cached := true, log := 16 } := by rfl

theorem skewedPage_physRow : skewedPage.physRow (stackEnd - 1) = .hbm := by decide +kernel

/-- The second stored byte, the first one behind the stack, is pending on the external path only. -/
theorem skewedPage_seeByte_after_store :
    (skewedPage.writeRangeAt (skewedPage.ctxOf skewedPage.cur) .write .ct none false 0xFF nineOnes).1.seeByte
      skewedPage.cur .ct stackEnd = 0 := by decide +kernel

/-- Refutes O15: a nine-byte store over the end of stack 0 through the misaligned cached page of `skewedPage`; the thread
ought to read back 1 at `stackEnd` and reads 0. -/
theorem not_memoryWrites : ¬ Obligations.MemoryWrites := by
  rintro ⟨-, hstore, -⟩
  obtain ⟨-, -, -, hsee⟩ := hstore skewedPage .ct none false 0xFF nineOnes _ (by decide) (by decide) skewedPage_xlate
    (.inl skewedPage_physRow)
  have hread := skewedPage_seeByte_after_store.symm.trans (hsee stackEnd)
  exact absurd hread (by decide +kernel)

end Sys2Proof.Machine
end
